-- ==== Sys2Proof/Word.lean ====
section
/-! DEFINITION. The value types of the hardware: bytes, bits, the carrier of `Real` (spec/00_scope.md R9) and the
record of operations `NUM` supplies (R6, R9, decision D5).

`NUM` supplies the type `Real` too, so every type and rule of the model takes it as an argument. `MReal` is the type at which
the host's machine is run, a set of values that can be written down and told apart. What the values mean and what every
operation of `NUM`, comparison, floor and ceil among them, does on them is the uninterpreted part of
`Sys2Proof/Config.lean` (log entries 1 and 2). -/

namespace Sys2Proof

/-- One byte of a DECODE payload (R44), or of a string. -/
abbrev Byte := BitVec 8

/-- A bit frame `(N, F)` (R90): the bits `F[0] .. F[N-1]` in order, `N` being the length. -/
abbrev Frame := List Bool

/-- A value of the type `Real` at which the host's machine is run (R9). An integer is held exactly (R145 "the integer is converted
exactly"); of any other value, rational, irrational or no number, only its identity is known (log entry 1). -/
inductive MReal where
  /-- the integer `i`, exactly (log entry 3) -/
  | int (i : Int)
  /-- any other value of the type; the code tells values apart and says nothing about them -/
  | code (c : Nat)
deriving DecidableEq, Repr, Inhabited

/-- The numerics record `NUM` over a type of reals (R9): total operations, of which nothing is assumed but that each
depends on its operands alone. Every rule over `Real` is written once over this record, so that it can be read at the
machine's own numbers (`Sys2Proof.Machine.numerics`) and at the mathematical reals
(`Sys2Proof.Machine.realNumerics`), over which the spec states the rules.

`sin` is used by R205 and R209 though R9's list does not name it (log entry 4); `isNumber` is what R304 asks of a gain
when it names "any non-number value of `NUM`" (log entry 43). -/
class Num (R : Type) extends Add R, Sub R, Mul R, Div R where
  /-- exact conversion of an integer (R145) -/
  ofInt : Int → R
  /-- a printed literal of the spec that is no integer, as `NUM` represents it -/
  lit : Rat → R
  sqrt : R → R
  exp : R → R
  cos : R → R
  sin : R → R
  /-- `pow x y` is x to the power y (R8) -/
  pow : R → R → R
  pi : R
  ln2 : R
  lt : R → R → Bool
  le : R → R → Bool
  eq : R → R → Bool
  floor : R → Int
  ceil : R → Int
  isNumber : R → Bool

end Sys2Proof
end

