-- ==== Sys2Proof/Machine/Records.lean ====
section
/-! DEFINITION. The record types of the hardware (spec/10_state.md sections 3 to 8, spec/49_rom_tables.md): frequency
entries, ModelParameters banks, the status records, the field record and the ROM parameters. Types only.

Every type that holds a `Real` takes the type as its argument (R6, R9: `NUM` supplies it); written without one it is the type
over the machine's own carrier `MReal`. -/

namespace Sys2Proof

/-- The codec family of an instance, the strap `CODEC` (R13: 0 = AMBE, 1 = IMBE). -/
inductive Codec where
  | ambe
  | imbe
deriving DecidableEq, Repr, Inhabited

/-- The frameType enumeration (R70); the values 5..7 are unused and never produced. -/
inductive FrameType where
  | voice
  | silence
  | erasure
  | tone
  | invalid
deriving DecidableEq, Repr, Inhabited

/-- The class of a tone (R24, numbered 0 to 3 in this order). -/
inductive ToneClass where
  | discrete
  | dtmf
  | knox
  | callProgress
deriving DecidableEq, Repr, Inhabited

/-- The 3-bit value of a frame type, numbered as in R70. -/
def FrameType.code : FrameType → BitVec 3
  | .voice => 0
  | .silence => 1
  | .erasure => 2
  | .tone => 3
  | .invalid => 4

/-- The 2-bit value of a tone's class, as the host reads it (R24). -/
def ToneClass.code : ToneClass → BitVec 2
  | .discrete => 0
  | .dtmf => 1
  | .knox => 2
  | .callProgress => 3

/-- FundamentalFrequencyEntry (R34). -/
structure FFEntry (R : Type) where
  index : Nat
  frequency : R
  harmonicCount : Nat
  frameType : FrameType
deriving DecidableEq, Repr, Inhabited

/-- A ModelParameters record (R22): the fields of R22's table. The arrays are stored with the fixed length 57
(indices 0..56); what an element above the record's own harmonic count reads as is R23's, in
`Sys2Proof/Machine/Operands.lean`. -/
structure ModelParams (R : Type) where
  fundamentalFrequency : FFEntry R
  frameType : FrameType
  voicingDecisions : List Bool
  log2SpectralAmplitudes : List R
  spectralAmplitudes : List R
  enhancedSpectralAmplitudes : List R
  localEnergy : R
  errorRate : R
  errorCountTotal : BitVec 8
  errorCount : List (BitVec 8)
  repeatCount : Nat
  amplitudeThreshold : R
  gain : R
deriving DecidableEq, Repr, Inhabited

/-- The `TONE` register (R24). -/
structure Tone where
  valid : Bool
  id : BitVec 8
  amplitude : BitVec 7
  cls : ToneClass
deriving DecidableEq, Repr, Inhabited

/-- The `STATUS` register (R16). `frameType` holds the 3-bit value of R70, `harmonics` is its field `L`, `e` its
`e[0..6]`. -/
structure Status where
  frameType : BitVec 3
  repeated : Bool
  muted : Bool
  forcedErasure : Bool
  w0Index : BitVec 8
  harmonics : BitVec 6
  e : List (BitVec 8)
  eT : BitVec 8
  repeatCount : BitVec 3
deriving DecidableEq, Repr, Inhabited

/-- SynthesizerState `SS` (R25). -/
structure Synth (R : Type := MReal) where
  phaseV : List R
  phaseO : List R
  prevUw : List R
  noiseBuf : List Nat
  noiseReg : Nat
deriving DecidableEq, Repr, Inhabited

/-- The field record `fld` (R17, R134; R275 for IMBE). AMBE uses `vuvIdx gainIdx prba1Idx prba2Idx hocIdx`, IMBE
`gainIdx gainQ vuv hocQ`; `gainQ` holds the entries 2..6, `vuv` the entries 1..K, `hocIdx` the entries 1..4. `hocIdx` always has four entries and
`gainQ` five; those of the other codec stay 0. -/
structure Fields where
  vuvIdx : Nat
  gainIdx : Nat
  prba1Idx : Nat
  prba2Idx : Nat
  hocIdx : List Nat
  gainQ : List Nat
  vuv : List Nat
  hocQ : List Nat
deriving DecidableEq, Repr, Inhabited

/-- Which of the three block codes protects a coset (R122, R268). -/
inductive CodeName where
  | code24
  | code23
  | code15
deriving DecidableEq, Repr, Inhabited

/-- A block code `(n, k, CW, t, sentinel)` (R268). `cw` lists the codewords as numbers, the first bit of a codeword the
most significant; entry `d` is the codeword of the data value `d`. -/
structure BlockCode where
  n : Nat
  k : Nat
  cw : List Nat
  t : Nat
  sentinel : Nat
deriving DecidableEq, Repr, Inhabited

/-- One entry of `COSETS[CODEC]` (R122). -/
structure Coset where
  off : Nat
  n : Nat
  k : Nat
  code : CodeName
deriving DecidableEq, Repr, Inhabited

/-- The frequency and harmonic count of one table row; its index and frame type are fixed by the source and computed
(`Sys2Proof/Machine/FrameDecoder.lean`, R129). -/
structure FreqRow (R : Type := MReal) where
  frequency : R
  harmonicCount : Nat
deriving DecidableEq, Repr, Inhabited

/-- The bit-index lists of the IMBE field extractor for one harmonic count: R275 lets each component be assembled
from bits of `WF` by R95. -/
structure ImbeLayout where
  gainIdx : List Nat
  gainQ : List (List Nat)
  vuv : List (List Nat)
  hocQ : List (List Nat)
deriving DecidableEq, Repr, Inhabited

/-- The ROM parameters of an AMBE instance that are tables, lists or numbers (spec/49_rom_tables.md). -/
structure AmbeRom (R : Type := MReal) where
  /-- `FF_AMBE` (R266) -/
  ff : List (FreqRow R)
  /-- `COSET_MAP[AMBE]` (R270) -/
  cosetMap : List Nat
  /-- `COSETS[AMBE]` (R271) -/
  cosets : List Coset
  /-- the index lists of R272 -/
  w0Idx : List Nat
  vuvIdx : List Nat
  gainIdx : List Nat
  prba1Idx : List Nat
  prba2Idx : List Nat
  /-- `HOC1_IDX` .. `HOC4_IDX` -/
  hocIdx : List (List Nat)
  /-- `TONE_CHECK_IDX`, `TONE_CHECK_VALUE`, `TONE_CONFLICT_ERR` (R273) -/
  toneCheckIdx : List Nat
  toneCheckValue : Nat
  toneConflictErr : Nat
  toneIdIdx : List Nat
  toneAmpIdx : List Nat
  /-- `TONE_CLASS` (R274), by id -/
  toneClass : List ToneClass
  /-- `DGAIN_AMBE` (R276) -/
  dgain : List R
  /-- `VUV_AMBE` (R280) -/
  vuv : List (List Bool)
  /-- `SILENCE_FORCE_UNVOICED` (R280) -/
  silenceForceUnvoiced : Bool
  /-- `JBLOCK[AMBE]` (R282), the row of harmonic count 9 first -/
  jblock : List (List Nat)
  /-- `HOC1` .. `HOC4` (R284) -/
  hoc : List (List (List R))
  /-- `SMOOTH_COSET[AMBE]` (R288) -/
  smoothCoset : Nat
  /-- `MP_DEFAULT[AMBE]` (R290) -/
  mpDefault : ModelParams R
  /-- `NAME_STR[AMBE]` (R253) -/
  nameStr : List Byte
deriving DecidableEq, Repr, Inhabited

/-- The ROM parameters of an IMBE instance that are tables, lists or numbers (spec/49_rom_tables.md). -/
structure ImbeRom (R : Type := MReal) where
  /-- `FF_IMBE` (R267) -/
  ff : List (FreqRow R)
  /-- `FF_IMBE_SENTINEL` (R267); its frame type is `INVALID` -/
  sentinel : FreqRow R
  sentinelIndex : Nat
  /-- `COSET_MAP[IMBE]` (R270) -/
  cosetMap : List Nat
  /-- `COSETS[IMBE]` (R271) -/
  cosets : List Coset
  /-- `W0_IDX[IMBE]` (R272) -/
  w0Idx : List Nat
  /-- `IMBE_FIELDS` (R275), the layout of harmonic count 9 first -/
  fields : List ImbeLayout
  /-- `GAIN_IMBE` (R277) -/
  gainTable : List R
  /-- `K_IMBE` (R281), the entry of harmonic count 9 first -/
  bandCount : List Nat
  /-- `VUV_BAND_IMBE` (R281), the row of `K = 1` first, in a row the entry of `l = 1` first -/
  vuvBand : List (List Nat)
  /-- `JBLOCK[IMBE]` (R282), the row of harmonic count 9 first -/
  jblock : List (List Nat)
  /-- `SMOOTH_COSET[IMBE]` (R288) -/
  smoothCoset : Nat
  /-- `MP_DEFAULT[IMBE]` (R290) -/
  mpDefault : ModelParams R
  /-- `NAME_STR[IMBE]` (R253) -/
  nameStr : List Byte
deriving DecidableEq, Repr, Inhabited

/-- The ROM parameters of an instance (R11, R265; R331's last row): fixed at its creation, written by nothing. The
parameters that are functions of reals are constants of `Sys2Proof/Config.lean` (log entry 10). -/
structure Rom (R : Type := MReal) where
  ambe : AmbeRom R
  imbe : ImbeRom R
  code24 : BlockCode
  code23 : BlockCode
  code15 : BlockCode
  /-- `SEED_SCALE` (R124) -/
  seedScale : Nat
  /-- `OUT_SCALE` (R240) -/
  outScale : R
  /-- `WS(|n|)` (R202, R291): entry `n` is the window at `n` and at `-n`; beyond the table it is 0 -/
  window : List R
  /-- `GAMMA_W` (R292) -/
  gammaW : R
  /-- `PITCH_JUMP_RATIO` (R293) -/
  pitchJumpRatio : R
deriving DecidableEq, Repr, Inhabited

/-- What a primitive run on its own returns (its "Result" in files 40 to 46). -/
inductive PrimResult (R : Type := MReal) where
  | none
  | bit (b : Bool)
  | value (v : Nat)
  | frame (f : Frame)
  | lcg (seed : Nat) (bit : Bool)
  | entry (ff : FFEntry R)
  | reals (xs : List R)
  | real (x : R)
deriving DecidableEq, Repr, Inhabited

/-- The working registers (R14, R15, R17, R21): written during a DECODE before they are read, holding no defined value
between commands (R10). `x` and `uwShaped` are the scratch arrays `x[i]` of R204 and `UW'` of R208; `mask` is the frame
`G` of R124; `pv`, `po` are R220's working arrays; `res` is the model's own result latch of a primitive run on its own
(log entry 22). -/
structure Work (R : Type := MReal) where
  /-- the payload as presented: byte count and bytes (space `IN`, R40) -/
  inCount : BitVec 16
  inBytes : List Byte
  fb : Frame
  wf : Frame
  mask : Frame
  e : List (BitVec 8)
  eT : BitVec 8
  u0 : BitVec 12
  w0Index : BitVec 8
  ff : FFEntry R
  frameType : FrameType
  forcedErasure : Bool
  /-- `TONE` as R133 computed it, visible at COMMIT only -/
  tone : Tone
  fld : Fields
  /-- the working values `repeat` (R145) and `muted` (R146) -/
  repeatFlag : Bool
  muted : Bool
  cmp : ModelParams R
  gvec : List R
  rg : List R
  /-- `J[i]`, entry `i - 1`, unsigned 6-bit (R17) -/
  jlen : List (BitVec 6)
  coef : List (List R)
  tres : List R
  rm0 : R
  rm1 : R
  weights : List R
  /-- `VM` (R188); `none` is `+infinity`, "a value no amplitude exceeds" -/
  vm : Option R
  tm : R
  am : R
  x : List R
  spec : List (R × R)
  uwShaped : List (R × R)
  uw : List R
  suv : List R
  sv : List R
  pv : List R
  po : List R
  out : List R
  res : PrimResult R
deriving DecidableEq, Repr, Inhabited

end Sys2Proof
end

