-- ==== Sys2Proof/Syntax.lean ====
section
/-! DEFINITION. The instructions: one constructor per row of spec/opcode_table.json, the four host commands (R60), the
rest state and the 25 stages a DECODE runs (R75 ids 0 to 25), and the 18 primitives (R75 ids 32 to 49) with the operands
their rules in files 40 to 45 give them. -/

namespace Sys2Proof

/-- The bit frame an operand names: the two frames of the hardware (R90) and the derandomizer's mask frame `G` (R124). -/
inductive FrameSel where
  | fb
  | wf
  | mask
deriving DecidableEq, Repr, Inhabited

/-- The instructions of the hardware, over a type of reals (R6, R9); `Instr` alone is over the machine's own. -/
inductive Instr (R : Type := MReal) where
  /-- `NAME` (R253) -/
  | name
  /-- `RESET` (R250) -/
  | reset
  /-- `SETGAIN` with its operand `g` (R252) -/
  | setgain (g : R)
  /-- `DECODE` with its byte count and its bytes (R254) -/
  | decode (n : BitVec 16) (bytes : List Byte)
  /-- `IDLE`, the rest state of the sequencer (R12) -/
  | idle
  | load
  | partition
  | ecc0
  | derand
  | eccn
  | errsum
  | w0idx
  | tonechk
  | fields
  | repeatchk
  /-- `REPEAT` (R146) -/
  | repeatFrame
  | toneset
  | mpnew
  | gain
  | voicing
  | resid
  | predict
  | enhance
  | smooth
  | noise
  | unvoiced
  | phase
  | voiced
  | combine
  | commit
  /-- `BF.GET` of a frame and an index (R92); the index is an integer, since R90 names the case `i < 0` -/
  | bfGet (f : FrameSel) (i : Int)
  /-- `BF.SET` (R93) -/
  | bfSet (f : FrameSel) (i : Int)
  /-- `BF.CLR` (R94) -/
  | bfClr (f : FrameSel) (i : Int)
  /-- `BF.EXTRACT` of a frame and an ordered index list (R95) -/
  | bfExtract (f : FrameSel) (idx : List Int)
  /-- `BF.XOR` of the second frame into the first (R96) -/
  | bfXor (f g : FrameSel)
  /-- `BF.ROT`: range start `a`, length `m`, count `c` (R97); integers, of which R90 and R97 admit the ones that name a
  range of the frame -/
  | bfRot (f : FrameSel) (a m c : Int)
  /-- `BF.LOAD` of a byte array (R91) -/
  | bfLoad (bytes : List Byte)
  /-- `BF.LOADHEX` of an ASCII string, one byte a character (R98) -/
  | bfLoadHex (chars : List Byte)
  /-- `ECC.C24` at a bit offset of a frame (R108); the offset is an integer, since R43 names the case below 0 -/
  | eccC24 (f : FrameSel) (o : Int)
  /-- `ECC.C23` (R109) -/
  | eccC23 (f : FrameSel) (o : Int)
  /-- `ECC.C15` (R110) -/
  | eccC15 (f : FrameSel) (o : Int)
  /-- `IDCT` of the coefficients `X[1..n]` (R159); `n >= 1`, so the first one is an operand of its own -/
  | idct (x1 : R) (xs : List R)
  /-- `FF.LOOKUP` of a codec and an index (R129) -/
  | ffLookup (codec : Codec) (v : Int)
  /-- `LCG.STEP` of a seed (R126) -/
  | lcgStep (seed : BitVec 16)
  /-- `NOISE.STEP` (R200) -/
  | noiseStep
  /-- `XFORM.FWD` of the working array `x` (R205) -/
  | xformFwd
  /-- `XFORM.INV` of the working array `UW'` (R209) -/
  | xformInv
  /-- `WS` of an integer (R202) -/
  | ws (n : Int)
deriving DecidableEq, Repr, Inhabited

end Sys2Proof
end

