-- ==== Sys2Proof/WellFormed.lean ====
section
/-! DEFINITION. Well-formed instructions: the operands the spec's encodings and operand lists admit. -/

namespace Sys2Proof

/-- DECODE carries exactly as many bytes as its count says (R62, R76). -/
def payloadOk (n : BitVec 16) (bytes : List Byte) : Bool := decide (bytes.length = n.toNat)

/-- A list operand fits its 16-bit count. -/
def countOk (n : Nat) : Bool := decide (n < 65536)

/-- R95: an index list has at least one entry (a list longer than 32 is well formed and raises), and fits its count. -/
def indexListOk (idx : List Int) : Bool := decide (1 ≤ idx.length) && decide (idx.length ≤ 65536)

/-- The check of an instruction's operands; an instruction without operands is always well formed. -/
def Instr.wf {R : Type} : Instr R → Bool
  | .decode n bytes => payloadOk n bytes
  | .bfExtract _ idx => indexListOk idx
  | .bfLoad bytes => countOk bytes.length
  | .bfLoadHex chars => countOk chars.length
  | .idct _ xs => countOk xs.length
  | .name => true
  | .reset => true
  | .setgain _ => true
  | .idle => true
  | .load => true
  | .partition => true
  | .ecc0 => true
  | .derand => true
  | .eccn => true
  | .errsum => true
  | .w0idx => true
  | .tonechk => true
  | .fields => true
  | .repeatchk => true
  | .repeatFrame => true
  | .toneset => true
  | .mpnew => true
  | .gain => true
  | .voicing => true
  | .resid => true
  | .predict => true
  | .enhance => true
  | .smooth => true
  | .noise => true
  | .unvoiced => true
  | .phase => true
  | .voiced => true
  | .combine => true
  | .commit => true
  | .bfGet _ _ => true
  | .bfSet _ _ => true
  | .bfClr _ _ => true
  | .bfXor _ _ => true
  | .bfRot _ _ _ _ => true
  | .eccC24 _ _ => true
  | .eccC23 _ _ => true
  | .eccC15 _ _ => true
  | .ffLookup _ _ => true
  | .lcgStep _ => true
  | .noiseStep => true
  | .xformFwd => true
  | .xformInv => true
  | .ws _ => true

end Sys2Proof
end

