-- ==== Sys2Proof/Decode.lean ====
section
/-! DEFINITION. The decoder and the encoder: the words of the command port (R60 to R62) and the micro-op ids with their
operand words (R75). Decoding is total and rejects by name. The command words and the ids are the spec's; how an operand
of a micro-op is written down is the model's own (log entry 20). -/

namespace Sys2Proof

/-- One word of an instruction: a byte (a command word, a payload byte, a character, a selector), a micro-op id, a 16-bit
count, an integer operand, a `Real` operand (R62: how a `Real` travels is left open, so it is one word). -/
inductive CodeWord (R : Type := MReal) where
  | byte (b : Byte)
  | uop (id : BitVec 6)
  | count (n : BitVec 16)
  | int (v : Int)
  | real (x : R)
deriving DecidableEq, Repr, Inhabited

/-- What decoding a sequence of words gives. -/
inductive Decoded (R : Type := MReal) where
  /-- an instruction and the words after it -/
  | ok (i : Instr R) (rest : List (CodeWord R))
  /-- there is no word -/
  | empty
  /-- the words end inside the instruction's operands -/
  | incomplete
  /-- a command word with `CMD[7:2] != 0` (R61) and the words after it: no operand is consumed (R305) -/
  | illegalCommand (cmd : Byte) (rest : List (CodeWord R))
  /-- a micro-op id of 26..31 or 50..63 (R75) -/
  | unusedMicroOp (id : BitVec 6)
  /-- a word of another kind stands where a command word or an operand is expected -/
  | mismatch
deriving DecidableEq, Repr

section words
variable {R : Type}

/-- What reading one operand gives. -/
inductive Got (R : Type) (α : Type) where
  | ok (a : α) (rest : List (CodeWord R))
  | incomplete
  | mismatch

/-- Goes on with the operand and the words after it. -/
def Got.andThen {α : Type} (g : Got R α) (k : α → List (CodeWord R) → Decoded R) : Decoded R :=
  match g with
  | .ok a rest => k a rest
  | .incomplete => .incomplete
  | .mismatch => .mismatch

/-- Applies a function to the operand read. -/
def Got.map {α β : Type} (f : α → β) : Got R α → Got R β
  | .ok a rest => .ok (f a) rest
  | .incomplete => .incomplete
  | .mismatch => .mismatch

def getCount : List (CodeWord R) → Got R (BitVec 16)
  | .count n :: ws => .ok n ws
  | [] => .incomplete
  | _ => .mismatch

def getInt : List (CodeWord R) → Got R Int
  | .int v :: ws => .ok v ws
  | [] => .incomplete
  | _ => .mismatch

def getReal : List (CodeWord R) → Got R R
  | .real x :: ws => .ok x ws
  | [] => .incomplete
  | _ => .mismatch

def getByte : List (CodeWord R) → Got R Byte
  | .byte b :: ws => .ok b ws
  | [] => .incomplete
  | _ => .mismatch

/-- `n` operands of one kind. -/
def getMany {α : Type} (one : List (CodeWord R) → Got R α) : Nat → List (CodeWord R) → Got R (List α)
  | 0, ws => .ok [] ws
  | n + 1, ws =>
    match one ws with
    | .ok a rest => (getMany one n rest).map (a :: ·)
    | .incomplete => .incomplete
    | .mismatch => .mismatch

/-- A count and as many operands of one kind; `extra` more than the count says. -/
def getList {α : Type} (one : List (CodeWord R) → Got R α) (extra : Nat) (ws : List (CodeWord R)) : Got R (List α) :=
  match getCount ws with
  | .ok n rest => getMany one (n.toNat + extra) rest
  | .incomplete => .incomplete
  | .mismatch => .mismatch

def getBytes : List (CodeWord R) → Got R (List Byte) := getList getByte 0
def getReals : List (CodeWord R) → Got R (List R) := getList getReal 0

/-- An index list has at least one entry (R95), so its count is of the further ones. -/
def getIdx : List (CodeWord R) → Got R (List Int) := getList getInt 1

def getSel : List (CodeWord R) → Got R FrameSel
  | .byte b :: ws =>
    match b.toNat with
    | 0 => .ok .fb ws
    | 1 => .ok .wf ws
    | 2 => .ok .mask ws
    | _ => .mismatch
  | [] => .incomplete
  | _ => .mismatch

/-- A codec by its strap value (R13). -/
def getCodec : List (CodeWord R) → Got R Codec
  | .byte b :: ws =>
    match b.toNat with
    | 0 => .ok .ambe ws
    | 1 => .ok .imbe ws
    | _ => .mismatch
  | [] => .incomplete
  | _ => .mismatch

/-- The command with a command word (R60, R62); every word with `CMD[7:2] != 0` is illegal (R61). -/
def decodeCommand (cmd : Byte) (ws : List (CodeWord R)) : Decoded R :=
  match cmd.toNat with
  | 0 => .ok .name ws
  | 1 => .ok .reset ws
  | 2 => (getReal ws).andThen fun g ws => .ok (.setgain g) ws
  | 3 => (getCount ws).andThen fun n ws => (getMany getByte n.toNat ws).andThen fun bytes ws => .ok (.decode n bytes) ws
  | _ => .illegalCommand cmd ws

/-- The micro-operation with an id of R75 and its operand words. -/
def decodeUop (id : BitVec 6) (ws : List (CodeWord R)) : Decoded R :=
  match id.toNat with
  | 0 => .ok .idle ws
  | 1 => .ok .load ws
  | 2 => .ok .partition ws
  | 3 => .ok .ecc0 ws
  | 4 => .ok .derand ws
  | 5 => .ok .eccn ws
  | 6 => .ok .errsum ws
  | 7 => .ok .w0idx ws
  | 8 => .ok .tonechk ws
  | 9 => .ok .fields ws
  | 10 => .ok .repeatchk ws
  | 11 => .ok .repeatFrame ws
  | 12 => .ok .toneset ws
  | 13 => .ok .mpnew ws
  | 14 => .ok .gain ws
  | 15 => .ok .voicing ws
  | 16 => .ok .resid ws
  | 17 => .ok .predict ws
  | 18 => .ok .enhance ws
  | 19 => .ok .smooth ws
  | 20 => .ok .noise ws
  | 21 => .ok .unvoiced ws
  | 22 => .ok .phase ws
  | 23 => .ok .voiced ws
  | 24 => .ok .combine ws
  | 25 => .ok .commit ws
  | 32 => (getSel ws).andThen fun f ws => (getInt ws).andThen fun i ws => .ok (.bfGet f i) ws
  | 33 => (getSel ws).andThen fun f ws => (getInt ws).andThen fun i ws => .ok (.bfSet f i) ws
  | 34 => (getSel ws).andThen fun f ws => (getInt ws).andThen fun i ws => .ok (.bfClr f i) ws
  | 35 => (getSel ws).andThen fun f ws => (getIdx ws).andThen fun idx ws => .ok (.bfExtract f idx) ws
  | 36 => (getSel ws).andThen fun f ws => (getSel ws).andThen fun g ws => .ok (.bfXor f g) ws
  | 37 => (getSel ws).andThen fun f ws => (getInt ws).andThen fun a ws => (getInt ws).andThen fun m ws => (getInt ws).andThen fun c ws => .ok (.bfRot f a m c) ws
  | 38 => (getBytes ws).andThen fun bytes ws => .ok (.bfLoad bytes) ws
  | 39 => (getBytes ws).andThen fun chars ws => .ok (.bfLoadHex chars) ws
  | 40 => (getSel ws).andThen fun f ws => (getInt ws).andThen fun o ws => .ok (.eccC24 f o) ws
  | 41 => (getSel ws).andThen fun f ws => (getInt ws).andThen fun o ws => .ok (.eccC23 f o) ws
  | 42 => (getSel ws).andThen fun f ws => (getInt ws).andThen fun o ws => .ok (.eccC15 f o) ws
  | 43 => (getReal ws).andThen fun x1 ws => (getReals ws).andThen fun xs ws => .ok (.idct x1 xs) ws
  | 44 => (getCodec ws).andThen fun codec ws => (getInt ws).andThen fun v ws => .ok (.ffLookup codec v) ws
  | 45 => (getCount ws).andThen fun seed ws => .ok (.lcgStep seed) ws
  | 46 => .ok .noiseStep ws
  | 47 => .ok .xformFwd ws
  | 48 => .ok .xformInv ws
  | 49 => (getInt ws).andThen fun n ws => .ok (.ws n) ws
  | _ => .unusedMicroOp id

/-- Decodes an instruction from the words it is written in, over any type of reals. -/
def decodeOver : List (CodeWord R) → Decoded R
  | [] => .empty
  | .byte b :: ws => decodeCommand b ws
  | .uop id :: ws => decodeUop id ws
  | _ => .mismatch

/-- Decodes an instruction of the machine. -/
abbrev decode (ws : List CodeWord) : Decoded := decodeOver ws

/-! ### The encoder -/

def putCount (n : BitVec 16) : List (CodeWord R) := [.count n]
def putInt (v : Int) : List (CodeWord R) := [.int v]
def putReal (x : R) : List (CodeWord R) := [.real x]
def putBytes (bs : List Byte) : List (CodeWord R) := .count (BitVec.ofNat 16 bs.length) :: bs.map .byte
def putReals (xs : List R) : List (CodeWord R) := .count (BitVec.ofNat 16 xs.length) :: xs.map .real
def putIdx (is : List Int) : List (CodeWord R) := .count (BitVec.ofNat 16 (is.length - 1)) :: is.map .int
def putSel : FrameSel → List (CodeWord R)
  | .fb => [.byte 0]
  | .wf => [.byte 1]
  | .mask => [.byte 2]
def putCodec : Codec → List (CodeWord R)
  | .ambe => [.byte 0]
  | .imbe => [.byte 1]

/-- The words of an instruction: its command word (R60) or its micro-op id (R75), then its operands. -/
def encode : Instr R → List (CodeWord R)
  | .name => [.byte 0]
  | .reset => [.byte 1]
  | .setgain g => .byte 2 :: putReal g
  | .decode n bytes => .byte 3 :: .count n :: bytes.map .byte
  | .idle => [.uop 0]
  | .load => [.uop 1]
  | .partition => [.uop 2]
  | .ecc0 => [.uop 3]
  | .derand => [.uop 4]
  | .eccn => [.uop 5]
  | .errsum => [.uop 6]
  | .w0idx => [.uop 7]
  | .tonechk => [.uop 8]
  | .fields => [.uop 9]
  | .repeatchk => [.uop 10]
  | .repeatFrame => [.uop 11]
  | .toneset => [.uop 12]
  | .mpnew => [.uop 13]
  | .gain => [.uop 14]
  | .voicing => [.uop 15]
  | .resid => [.uop 16]
  | .predict => [.uop 17]
  | .enhance => [.uop 18]
  | .smooth => [.uop 19]
  | .noise => [.uop 20]
  | .unvoiced => [.uop 21]
  | .phase => [.uop 22]
  | .voiced => [.uop 23]
  | .combine => [.uop 24]
  | .commit => [.uop 25]
  | .bfGet f i => .uop 32 :: (putSel f ++ putInt i)
  | .bfSet f i => .uop 33 :: (putSel f ++ putInt i)
  | .bfClr f i => .uop 34 :: (putSel f ++ putInt i)
  | .bfExtract f idx => .uop 35 :: (putSel f ++ putIdx idx)
  | .bfXor f g => .uop 36 :: (putSel f ++ putSel g)
  | .bfRot f a m c => .uop 37 :: (putSel f ++ putInt a ++ putInt m ++ putInt c)
  | .bfLoad bytes => .uop 38 :: putBytes bytes
  | .bfLoadHex chars => .uop 39 :: putBytes chars
  | .eccC24 f o => .uop 40 :: (putSel f ++ putInt o)
  | .eccC23 f o => .uop 41 :: (putSel f ++ putInt o)
  | .eccC15 f o => .uop 42 :: (putSel f ++ putInt o)
  | .idct x1 xs => .uop 43 :: (putReal x1 ++ putReals xs)
  | .ffLookup codec v => .uop 44 :: (putCodec codec ++ putInt v)
  | .lcgStep seed => .uop 45 :: putCount seed
  | .noiseStep => [.uop 46]
  | .xformFwd => [.uop 47]
  | .xformInv => [.uop 48]
  | .ws n => .uop 49 :: putInt n

/-- The word an instruction begins with: a command word (R60) or a micro-op id (R75). -/
def Instr.headWord : Instr R → CodeWord R
  | .name => .byte 0
  | .reset => .byte 1
  | .setgain _ => .byte 2
  | .decode _ _ => .byte 3
  | .idle => .uop 0
  | .load => .uop 1
  | .partition => .uop 2
  | .ecc0 => .uop 3
  | .derand => .uop 4
  | .eccn => .uop 5
  | .errsum => .uop 6
  | .w0idx => .uop 7
  | .tonechk => .uop 8
  | .fields => .uop 9
  | .repeatchk => .uop 10
  | .repeatFrame => .uop 11
  | .toneset => .uop 12
  | .mpnew => .uop 13
  | .gain => .uop 14
  | .voicing => .uop 15
  | .resid => .uop 16
  | .predict => .uop 17
  | .enhance => .uop 18
  | .smooth => .uop 19
  | .noise => .uop 20
  | .unvoiced => .uop 21
  | .phase => .uop 22
  | .voiced => .uop 23
  | .combine => .uop 24
  | .commit => .uop 25
  | .bfGet _ _ => .uop 32
  | .bfSet _ _ => .uop 33
  | .bfClr _ _ => .uop 34
  | .bfExtract _ _ => .uop 35
  | .bfXor _ _ => .uop 36
  | .bfRot _ _ _ _ => .uop 37
  | .bfLoad _ => .uop 38
  | .bfLoadHex _ => .uop 39
  | .eccC24 _ _ => .uop 40
  | .eccC23 _ _ => .uop 41
  | .eccC15 _ _ => .uop 42
  | .idct _ _ => .uop 43
  | .ffLookup _ _ => .uop 44
  | .lcgStep _ => .uop 45
  | .noiseStep => .uop 46
  | .xformFwd => .uop 47
  | .xformInv => .uop 48
  | .ws _ => .uop 49

end words

/-! ### Table words -/

/-- The word a table word begins with: with 8 bits or more it is a command word where it is one of the four of R60, and
else the id of a micro-op; with fewer bits it is a micro-op id (log entry 20). -/
def tableHead (nbits w : Nat) : Option CodeWord :=
  if 8 ≤ nbits ∧ w < 4 then some (.byte (BitVec.ofNat 8 w))
  else if w < 64 then some (.uop (BitVec.ofNat 6 w))
  else none

/-- Operand words of zeros for a micro-op id: every operand of a table word the table gives no bits. -/
def zeroUopArgs (id : Nat) : List CodeWord :=
  match id with
  | 32 => [.byte 0, .int 0]
  | 33 => [.byte 0, .int 0]
  | 34 => [.byte 0, .int 0]
  | 35 => [.byte 0, .count 0, .int 0]
  | 36 => [.byte 0, .byte 0]
  | 37 => [.byte 0, .int 0, .int 0, .int 0]
  | 38 => [.count 0]
  | 39 => [.count 0]
  | 40 => [.byte 0, .int 0]
  | 41 => [.byte 0, .int 0]
  | 42 => [.byte 0, .int 0]
  | 43 => [.real (.int 0), .count 0]
  | 44 => [.byte 0, .int 0]
  | 45 => [.count 0]
  | 49 => [.int 0]
  | _ => []

/-- Operand words of zeros for a command word (R62). -/
def zeroCommandArgs (cmd : Nat) : List CodeWord :=
  match cmd with
  | 2 => [.real (.int 0)]
  | 3 => [.count 0]
  | _ => []

/-- The operand words of zeros that follow a table word's first word. -/
def zeroArgs : CodeWord → List CodeWord
  | .byte b => zeroCommandArgs b.toNat
  | .uop id => zeroUopArgs id.toNat
  | _ => []

/-- The instruction of a table word: its `nbits` bits are `w`, every operand word is zero. -/
def decodeTableWord (nbits w : Nat) : Option Instr :=
  match tableHead nbits w with
  | some head =>
    match decode (head :: zeroArgs head) with
    | .ok i _ => some i
    | _ => none
  | none => none

/-! ### Hex strings (R72, R77) -/

/-- The value of an ASCII hex digit, either case (R72). -/
def hexDigit (c : Byte) : Option Nat :=
  let v := c.toNat
  if 48 ≤ v ∧ v ≤ 57 then some (v - 48)
  else if 65 ≤ v ∧ v ≤ 70 then some (v - 55)
  else if 97 ≤ v ∧ v ≤ 102 then some (v - 87)
  else none

/-- The bytes of a hex string: two digits a byte, the high nibble first (R72); none where a character is no digit or the
number of digits is odd. -/
def hexBytes : List Byte → Option (List Byte)
  | [] => some []
  | [_] => none
  | hi :: lo :: rest =>
    match hexDigit hi, hexDigit lo, hexBytes rest with
    | some h, some l, some bs => some (BitVec.ofNat 8 (16 * h + l) :: bs)
    | _, _, _ => none

/-- The bytes of a hex string for frames of `nbytes` bytes: exactly `2 * nbytes` digits (R72, R98). -/
def hexFrame (nbytes : Nat) (chars : List Byte) : Option (List Byte) :=
  if chars.length = 2 * nbytes then hexBytes chars else none

/-- The pseudo-instruction `DECODEHEX` (R77): the `DECODE` of the string's bytes. -/
def decodeHex (nbytes : Nat) (chars : List Byte) : Option Instr :=
  (hexFrame nbytes chars).map fun bs => .decode (BitVec.ofNat 16 bs.length) bs

end Sys2Proof
end

