-- ==== Sys2Proof/Config.lean ====
section
/-! DEFINITION. What one machine fixes and the spec leaves open, as uninterpreted constants: the operations of
`NUM` (R9), the ROM parameters that are functions of reals (spec/49_rom_tables.md), the values of the open `Real`
tables at reset, and the free values (spec/93_implementation_defined.md U2 to U7). No constant here has a body: a
statement that holds, holds whatever they are (log entries 1, 9, 10 and 13 to 17). -/

namespace Sys2Proof

/-! ### `NUM` (R9, D5, U1): every operation, comparison, floor and ceil included, a function of its operands and no more -/

opaque Config.add : MReal → MReal → MReal
opaque Config.sub : MReal → MReal → MReal
opaque Config.mul : MReal → MReal → MReal
opaque Config.div : MReal → MReal → MReal
opaque Config.sqrt : MReal → MReal
opaque Config.pow : MReal → MReal → MReal
opaque Config.exp : MReal → MReal
opaque Config.cos : MReal → MReal
opaque Config.sin : MReal → MReal
/-- a printed literal as `NUM` represents it -/
opaque Config.lit : Rat → MReal
opaque Config.pi : MReal
opaque Config.ln2 : MReal
opaque Config.lt : MReal → MReal → Bool
opaque Config.le : MReal → MReal → Bool
opaque Config.eq : MReal → MReal → Bool
opaque Config.floor : MReal → Int
opaque Config.ceil : MReal → Int
/-- whether a value is a number (R304; log entry 43) -/
opaque Config.isNumber : MReal → Bool

/-! ### ROM parameters that are functions (R265: total on the domain their rule states) -/

/-- `IMBE_GAIN_DEQ(m, L, q)` (R278) -/
opaque Config.imbeGainDeq : Nat → Nat → Nat → MReal
/-- `PRBA_VECTOR(i1, i2)`, entry `m` of its eight (R279) -/
opaque Config.prbaVector : Nat → Nat → Nat → MReal
/-- `BLOCK_LEAD[CODEC](i, Rg)`, its value `k` (R283) -/
opaque Config.blockLead : Codec → Nat → Nat → List MReal → MReal
/-- Whether `BLOCK_LEAD[IMBE](i, Rg)` returns two values and not one (R283: "one or two values") -/
opaque Config.imbeLeadPair : Nat → List MReal → Bool
/-- `HOC_COEF[IMBE](i, k, fld, L)` (R284), of the quantised values `fld.hocQ` -/
opaque Config.hocCoefImbe : Nat → Nat → List Nat → Nat → MReal
/-- `PRED_COEF[CODEC](L)` (R285) -/
opaque Config.predCoef : Codec → Nat → MReal
/-- `GAIN_TERM[CODEC](g, L, T)` (R286) -/
opaque Config.gainTerm : Codec → MReal → Nat → List MReal → MReal
/-- `UV_ATTEN[CODEC](w0)` (R287) before its constraint is applied (log entry 10) -/
opaque Config.uvAtten : Codec → MReal → MReal
/-- `TM_ELSE_AMBE(eT, prevTm)` (R289) -/
opaque Config.tmElseAmbe : Nat → MReal → MReal

/-! ### Values of the open tables in the ROM that State.reset holds (log entry 9) -/

opaque Config.romDgain : Nat → MReal
opaque Config.romGainImbe : Nat → MReal
opaque Config.romHoc : Nat → Nat → Nat → MReal
opaque Config.romVuv : Nat → Nat → Bool
opaque Config.romNameStr : Codec → List Byte

/-! ### Free values, applied to a counter that State holds -/

/-- A value delivered by the random-phase port `RND` before the range is applied (R32, U2). -/
opaque Config.draw : Nat → MReal
/-- What the working registers hold between commands and after a halt (R306, U3), before the sizes of the spaces (R40) are
applied. -/
opaque Config.freeWork : Nat → Work
/-- The identity, amplitude and class of `TONE` while it is not valid (R133, U7). -/
opaque Config.freeTone : Nat → Tone
/-- `W[l]` at a zero denominator (R182, U4). -/
opaque Config.freeWeight : Nat → Nat → MReal
/-- `sc[l]` at a zero mean squared bin energy (R207, U5). -/
opaque Config.freeScale : Nat → Nat → MReal

end Sys2Proof
end

