-- ==== Sys2Proof/Machine/Numerics.lean ====
section
/-! DEFINITION. The machine's numerics (spec/00_scope.md R9): every operation, comparison, floor and ceil is an
uninterpreted constant of `Sys2Proof/Config.lean`, an integer is converted exactly; and the shared sums, tables and array
reads that every rule over `Real` is written with. The same rules read over the mathematical reals through
`realNumerics`. -/

namespace Sys2Proof.Machine

/-! ### The two instances of `NUM` -/

/-- `NUM` of this machine (R9). -/
@[reducible] def numerics : Num MReal where
  add := Config.add
  sub := Config.sub
  mul := Config.mul
  div := Config.div
  ofInt := MReal.int
  lit := Config.lit
  sqrt := Config.sqrt
  exp := Config.exp
  cos := Config.cos
  sin := Config.sin
  pow := Config.pow
  pi := Config.pi
  ln2 := Config.ln2
  lt := Config.lt
  le := Config.le
  eq := Config.eq
  floor := Config.floor
  ceil := Config.ceil
  isNumber := Config.isNumber

/-- The numerics of the mathematical reals, over which the spec states every non-integer rule (R9). No step uses it:
statements about the rules "over the reals" are read at it. -/
@[reducible] noncomputable def realNumerics : Num ℝ where
  add := fun a b => a + b
  sub := fun a b => a - b
  mul := fun a b => a * b
  div := fun a b => a / b
  ofInt := fun i => (i : ℝ)
  lit := fun q => (q : ℝ)
  sqrt := Real.sqrt
  exp := Real.exp
  cos := Real.cos
  sin := Real.sin
  pow := fun a b => a ^ b
  pi := Real.pi
  ln2 := Real.log 2
  lt := fun a b => decide (a < b)
  le := fun a b => decide (a ≤ b)
  eq := fun a b => decide (a = b)
  floor := fun a => ⌊a⌋
  ceil := fun a => ⌈a⌉
  isNumber := fun _ => true

/-! ### Tables, sums and reads -/

/-- The array whose element `i` is `f i`, for `i` in `0 .. n-1`. -/
def tab {α : Type} (n : Nat) (f : Nat → α) : List α := (List.range n).map f

section generic
variable {R : Type} [N : Num R]

/-- An integer as a `Real`. -/
def ri (i : Int) : R := Num.ofInt i

/-- The literal `n / d` of the spec, printed as a decimal. -/
def rlit (n : Int) (d : Nat) : R := Num.lit (mkRat n d)

/-- `sum over i in 0 .. n-1 of f i`, ascending from 0 (log entry 5). -/
def sum0 (n : Nat) (f : Nat → R) : R := (List.range n).foldl (fun acc i => acc + f i) (ri 0)

/-- `sum over l in 1 .. n of f l`. -/
def sum1 (n : Nat) (f : Nat → R) : R := sum0 n (fun i => f (i + 1))

/-- Element `i` of a `Real` array; 0 where the array has none. -/
def rd (xs : List R) (i : Nat) : R := xs.getD i (ri 0)

/-- `|x|` -/
def absR (x : R) : R := if Num.lt x (ri 0) then ri 0 - x else x

/-- The larger of two values. -/
def maxR (a b : R) : R := if Num.lt a b then b else a

end generic

/-! ### The printed literals (spec/93_implementation_defined.md section 3), each named once -/

namespace Literal
variable {R : Type} [N : Num R]

def errorDecay : R := rlit 95 100
def errorGain : Codec → R
  | .ambe => rlit 1064 1000000
  | .imbe => rlit 365 1000000
def repeatBase : R := ri 10
def repeatSlope : R := ri 40
def weightFactor : R := rlit 96 100
def weightPower : R := rlit 25 100
def shapeHigh : R := rlit 12 10
def shapeLow : R := rlit 5 10
def energyFloor : R := ri 10000
def energyKeep : R := rlit 95 100
def energyNew : R := rlit 5 100
def rateLow : R := rlit 5 1000
def rateMid : R := rlit 125 10000
def thresholdMid : R := rlit 45255 1000
def thresholdPower : R := rlit 375 1000
def thresholdDecay : R := rlit 27726 100
def thresholdHigh : R := rlit 1414 1000
def ceilingClean : R := ri 20480
def ceilingBase : R := ri 6000
def ceilingSlope : R := ri 300
def half : R := rlit 5 10

end Literal

def muteRepeats : Nat := 4
def noiseSeed : Nat := 3147
def nsamp : Nat := 160
def xformLen : Nat := 256
def phaseLen : Nat := 57

/-- `FRAME_BYTES[CODEC]` (R6, R63) -/
def frameBytes : Codec → Nat
  | .ambe => 9
  | .imbe => 18

/-- `FRAME_BITS[CODEC]` (R6, R63) -/
def frameBits (c : Codec) : Nat := 8 * frameBytes c

/-- `NJBLOCK[CODEC]` (R6) -/
def njblock : Codec → Nat
  | .ambe => 4
  | .imbe => 6

end Sys2Proof.Machine
end

