-- ==== Sys2Proof/Machine/Rom.lean ====
section
/-! DEFINITION. The ROM parameters (spec/49_rom_tables.md): the codes, the function parameters as one record, what the
rules ask of a ROM (`Rom.legal`), the defaults the spec gives, and the ROM that State.reset holds. -/

namespace Sys2Proof.Machine

/-! ### Codes (R268) -/

/-- Number of 1-bits among the low `n` bits. -/
def popcount : Nat → Nat → Nat
  | 0, _ => 0
  | n + 1, v => v % 2 + popcount n (v / 2)

/-- Remainder of polynomial division over GF(2): `gen` has degree `deg`, the dividend at most `deg + steps` bits. -/
def polyRem (gen deg : Nat) : Nat → Nat → Nat
  | 0, v => v
  | s + 1, v => polyRem gen deg s (if v.testBit (deg + s) then v ^^^ (gen <<< s) else v)

/-- `cw23(d)` (R268), generator `0xC75` -/
def cw23 (d : Nat) : Nat := (d <<< 11) ||| polyRem 0xC75 11 12 (d <<< 11)

/-- `cw24(d)` (R268): `cw23(d)` and its overall parity -/
def cw24 (d : Nat) : Nat := (cw23 d <<< 1) ||| (popcount 23 (cw23 d) % 2)

/-- `cw15(d)` (R268), generator `0x13` -/
def cw15 (d : Nat) : Nat := (d <<< 4) ||| polyRem 0x13 4 11 (d <<< 4)

/-- The default codes and sentinels (R268). -/
def defaultCode24 : BlockCode := { n := 24, k := 12, cw := tab 4096 cw24, t := 3, sentinel := 4 }
def defaultCode23 : BlockCode := { n := 23, k := 12, cw := tab 4096 cw23, t := 3, sentinel := 4 }
def defaultCode15 : BlockCode := { n := 15, k := 11, cw := tab 2048 cw15, t := 1, sentinel := 2 }

end Sys2Proof.Machine

namespace Sys2Proof
open Sys2Proof.Machine

/-- The code a coset entry names. -/
def Rom.code {R : Type} (rom : Rom R) : CodeName → BlockCode
  | .code24 => rom.code24
  | .code23 => rom.code23
  | .code15 => rom.code15

/-! ### By codec -/

def Rom.cosetMap {R : Type} (rom : Rom R) : Codec → List Nat
  | .ambe => rom.ambe.cosetMap
  | .imbe => rom.imbe.cosetMap

def Rom.cosets {R : Type} (rom : Rom R) : Codec → List Coset
  | .ambe => rom.ambe.cosets
  | .imbe => rom.imbe.cosets

def Rom.w0Idx {R : Type} (rom : Rom R) : Codec → List Nat
  | .ambe => rom.ambe.w0Idx
  | .imbe => rom.imbe.w0Idx

def Rom.jblock {R : Type} (rom : Rom R) : Codec → List (List Nat)
  | .ambe => rom.ambe.jblock
  | .imbe => rom.imbe.jblock

def Rom.smoothCoset {R : Type} (rom : Rom R) : Codec → Nat
  | .ambe => rom.ambe.smoothCoset
  | .imbe => rom.imbe.smoothCoset

/-- `MP_DEFAULT[CODEC]` (R290) -/
def Rom.mpDefault {R : Type} (rom : Rom R) : Codec → ModelParams R
  | .ambe => rom.ambe.mpDefault
  | .imbe => rom.imbe.mpDefault

/-- `NAME_STR[CODEC]` (R253) -/
def Rom.nameStr {R : Type} (rom : Rom R) : Codec → List Byte
  | .ambe => rom.ambe.nameStr
  | .imbe => rom.imbe.nameStr

end Sys2Proof

namespace Sys2Proof.Machine

/-- `WS(n)` (R202, R291): symmetric, 0 beyond its table. -/
def windowAt {R : Type} [N : Num R] (table : List R) (n : Int) : R := rd table n.natAbs

/-! ### Function parameters -/

/-- The ROM parameters that are functions of reals (R278, R279, R283 to R287, R289). -/
structure RomFns (R : Type) where
  imbeGainDeq : Nat → Nat → Nat → R
  prbaVector : Nat → Nat → Nat → R
  blockLead : Codec → Nat → Nat → List R → R
  imbeLeadPair : Nat → List R → Bool
  hocCoefImbe : Nat → Nat → List Nat → Nat → R
  predCoef : Codec → Nat → R
  gainTerm : Codec → R → Nat → List R → R
  uvAtten : Codec → R → R
  tmElseAmbe : Nat → R → R

/-- R287's constraint on `UV_ATTEN`, a non-negative `Real`: a value that is not `>= 0` reads as 0 (log entry 10). -/
def nonNegative {R : Type} [N : Num R] (x : R) : R := if Num.le (ri 0) x then x else ri 0

/-- The function parameters of this machine: uninterpreted but for R287's constraint (log entry 10). -/
def romFns : RomFns MReal where
  imbeGainDeq := Config.imbeGainDeq
  prbaVector := Config.prbaVector
  blockLead := Config.blockLead
  imbeLeadPair := Config.imbeLeadPair
  hocCoefImbe := Config.hocCoefImbe
  predCoef := Config.predCoef
  gainTerm := Config.gainTerm
  uvAtten := fun c w0 => nonNegative (N := numerics) (Config.uvAtten c w0)
  tmElseAmbe := Config.tmElseAmbe

/-! ### What a machine takes as an argument (R6, R9, R11) -/

/-- The arguments of a machine over the type of reals `R` that are no tables: `NUM`'s operations, the function parameters of
the ROM, the values the random-phase port delivers (R32) and the free values (U3 to U5). -/
structure OpenParams (R : Type) extends Num R, RomFns R where
  draw : Nat → R
  freeWork : Nat → Work R
  freeWeight : Nat → Nat → R
  freeScale : Nat → Nat → R

/-- The arguments of this machine: every one an uninterpreted constant. A definition over any type of reals takes the
arguments last, and takes these where none are given. -/
@[reducible] def openParams : OpenParams MReal where
  toNum := numerics
  toRomFns := romFns
  draw := Config.draw
  freeWork := Config.freeWork
  freeWeight := Config.freeWeight
  freeScale := Config.freeScale

/-- The arguments of a machine over the mathematical reals, over which the spec states every non-integer rule (R9). -/
@[reducible] noncomputable def realParams (fns : RomFns ℝ) (draw : Nat → ℝ) (freeWork : Nat → Work ℝ)
    (freeWeight freeScale : Nat → Nat → ℝ) : OpenParams ℝ where
  toNum := realNumerics
  toRomFns := fns
  draw := draw
  freeWork := freeWork
  freeWeight := freeWeight
  freeScale := freeScale

section defaults
variable {R : Type} [N : Num R]

/-- The two-table form usually published for `PRBA_VECTOR` (R279): entry `m` of the eight. -/
def prbaFromTables (first second : Nat → Nat → R) (i1 i2 m : Nat) : R :=
  if m = 1 then ri 0 else if m ≤ 4 then first i1 (m - 2) else second i2 (m - 5)

/-- The scaled-and-offset form usually published for the IMBE dequantisers (R278, R284). -/
def scaledOffset (width : Nat) (step : R) (q : Nat) : R :=
  if width = 0 then ri 0 else step * (ri q - ri (2 ^ (width - 1)) + Literal.half)

/-- The leading coefficients usually published (R283). -/
def defaultBlockLead : Codec → Nat → Nat → List R → R
  | .ambe, i, k, rg =>
    if k = 1 then rlit 1 2 * (rd rg (2 * i - 2) + rd rg (2 * i - 1))
    else (ri 1 / (ri 2 * Num.sqrt (ri 2))) * (rd rg (2 * i - 2) - rd rg (2 * i - 1))
  | .imbe, i, _, rg => rd rg (i - 1)

/-- The default of `PRED_COEF` (R285): the sentence of the source read literally. -/
def defaultPredCoef (_ : Codec) (_ : Nat) : R := ri 1

/-- The value usually published for `PRED_COEF` (R285). -/
def publishedPredCoef : Codec → Nat → R
  | .ambe, _ => rlit 65 100
  | .imbe, l => if l ≤ 15 then rlit 4 10 else if l ≤ 24 then rlit 3 100 * ri l - rlit 5 100 else rlit 7 10

/-- The default of `GAIN_TERM` (R286): `g` for AMBE, 0 for IMBE. -/
def defaultGainTerm : Codec → R → Nat → List R → R
  | .ambe, g, _, _ => g
  | .imbe, _, _, _ => ri 0

/-- The factor usually published for `UV_ATTEN` (R287). -/
def defaultUvAtten : Codec → R → R
  | .ambe, w0 => rlit 2046 10000 / Num.sqrt w0
  | .imbe, _ => ri 1

/-- The default of `TM_ELSE_AMBE` (R289): the IMBE expression of R190. -/
def defaultTmElse (eT : Nat) (prev : R) : R := Literal.ceilingBase - Literal.ceilingSlope * ri eT + prev

/-- The function parameters at their defaults; the tables that have none are arguments. -/
def defaultFns (gainDeq : Nat → Nat → Nat → R) (first second : Nat → Nat → R)
    (hocImbe : Nat → Nat → List Nat → Nat → R) : RomFns R where
  imbeGainDeq := gainDeq
  prbaVector := prbaFromTables first second
  blockLead := defaultBlockLead
  imbeLeadPair := fun _ _ => false
  hocCoefImbe := hocImbe
  predCoef := defaultPredCoef
  gainTerm := defaultGainTerm
  uvAtten := defaultUvAtten
  tmElseAmbe := defaultTmElse

/-- The default window table (R202): `WS(|n|)` for `|n|` in `0 .. 105`. -/
def defaultWindow : List R :=
  tab 106 (fun n => if n ≤ 55 then ri 1 else if n < 105 then rlit (105 - n) 50 else ri 0)

/-- The default parameter set of R290, over any numerics; `ft` is its frame type. -/
def defaultParams (ft : FrameType) : ModelParams R where
  fundamentalFrequency :=
    { index := 0, frequency := rlit 2985 100000 * Num.pi, harmonicCount := 30, frameType := ft }
  frameType := ft
  voicingDecisions := tab phaseLen (fun _ => false)
  log2SpectralAmplitudes := tab phaseLen (fun _ => ri 0)
  spectralAmplitudes := tab phaseLen (fun _ => ri 0)
  enhancedSpectralAmplitudes := tab phaseLen (fun _ => ri 0)
  localEnergy := ri 75000
  errorRate := ri 0
  errorCountTotal := 0
  errorCount := tab 7 (fun _ => 0)
  repeatCount := 0
  amplitudeThreshold := ri 20480
  gain := ri 0

end defaults

/-! ### What the rules ask of a ROM -/

/-- A non-empty index list over a frame of `bits` bits (R272). -/
def idxListOk (bits : Nat) (l : List Nat) : Bool :=
  decide (1 ≤ l.length) && decide (l.length ≤ 32) && l.all (fun i => decide (i < bits)) && decide l.Nodup

/-- The cosets stand one after another from `off` (R122), each as long as its code. -/
def cosetChain (rom : Rom) : Nat → List Coset → Bool
  | _, [] => true
  | off, c :: cs =>
    decide (c.off = off) && decide (c.n = (rom.code c.code).n) && decide (c.k = (rom.code c.code).k)
      && cosetChain rom (off + c.n) cs

/-- The constraints of R122 and R271 on a list of cosets in a frame of `bits` bits. -/
def cosetsOk (rom : Rom) (bits : Nat) (first : CodeName) (cs : List Coset) : Bool :=
  decide (1 ≤ cs.length) && decide (cs.length ≤ 7) && cosetChain rom 0 cs
    && decide ((cs.head?.map (·.code)) = some first)
    && decide ((cs.map (·.n)).sum ≤ bits)

/-- A coset after the first is under the code named (R64, R65). -/
def laterCosetUses (code : CodeName) (cs : List Coset) : Bool := cs.tail.any (fun c => decide (c.code = code))

/-- The two codecs' cosets together use all three codes (R122). -/
def allCodesUsed (cs : List Coset) : Bool :=
  [CodeName.code24, .code23, .code15].all (fun code => cs.any (fun c => decide (c.code = code)))

/-- The codewords listed from data value `d` on begin with their data bits, `shift` check bits after them (R107). -/
def codeSystematic (shift : Nat) : Nat → List Nat → Bool
  | _, [] => true
  | d, w :: ws => decide (w >>> shift = d) && codeSystematic shift (d + 1) ws

/-- The shape R268 asks of a code: `2^k` codewords of `n` bits, the first `k` bits of codeword `d` being `d`. -/
def codeShapeOk (n k : Nat) (c : BlockCode) : Bool :=
  decide (c.n = n) && decide (c.k = k) && decide (c.cw.length = 2 ^ k) && codeSystematic (n - k) 0 c.cw
    && decide (c.sentinel < 32)

/-- The minimum distance R268 asks of a code. -/
def codeDistanceOk (c : BlockCode) : Prop :=
  ∀ a ∈ c.cw, ∀ b ∈ c.cw, a ≠ b → 2 * c.t + 1 ≤ popcount c.n (a ^^^ b)

/-- A frequency row that is read: `9 <= harmonicCount <= 56` (R34, R266, R267). -/
def harmonicsOk (row : FreqRow) : Bool := decide (9 ≤ row.harmonicCount) && decide (row.harmonicCount ≤ 56)

/-- The arrays of a ModelParameters record have the 57 elements of R40 and the seven counts of R22. -/
def paramsShapeOk {R : Type} (p : ModelParams R) : Bool :=
  decide (p.voicingDecisions.length = phaseLen) && decide (p.log2SpectralAmplitudes.length = phaseLen)
    && decide (p.spectralAmplitudes.length = phaseLen) && decide (p.enhancedSpectralAmplitudes.length = phaseLen)
    && decide (p.errorCount.length = 7)

/-- The parameter set is silent: every amplitude is 0 (R290, D21). -/
def silentOk (p : ModelParams MReal) : Bool :=
  p.spectralAmplitudes.all (fun m => decide (m = .int 0)) && p.enhancedSpectralAmplitudes.all (fun m => decide (m = .int 0))

/-- The parameter set a reset installs (R290): `repeatCount = 0`, it is silent, `9 <= harmonicCount <= 56`; and a record's
sizes (R22, R40). -/
def mpDefaultOk (p : ModelParams MReal) : Bool :=
  decide (p.repeatCount = 0) && decide (9 ≤ p.fundamentalFrequency.harmonicCount)
    && decide (p.fundamentalFrequency.harmonicCount ≤ 56) && paramsShapeOk p && silentOk p

/-- The block lengths of every harmonic count (R157, R282). -/
def jblockOk (blocks : Nat) (rows : List (List Nat)) : Bool :=
  decide (rows.length = 48)
    && (List.range 48).all (fun r =>
        decide ((rows.getD r []).length = blocks) && (rows.getD r []).all (fun j => decide (1 ≤ j))
          && decide ((rows.getD r []).sum = r + 9))

end Sys2Proof.Machine

namespace Sys2Proof
open Sys2Proof.Machine

/-- What R64, R265, R266, R270 to R274, R276, R280, R282, R284, R288 and R290 ask of an AMBE ROM, less the values of reals
(`Rom.valuesLegal`). -/
def AmbeRom.legal (rom : Rom) (a : AmbeRom) : Bool :=
  decide (a.ff.length = 128)
    && (List.range 120).all (fun v => harmonicsOk (a.ff.getD v default))
    && harmonicsOk (a.ff.getD 124 default) && harmonicsOk (a.ff.getD 125 default)
    && decide (a.cosetMap.length = 72) && a.cosetMap.all (fun i => decide (i < 72)) && decide a.cosetMap.Nodup
    && cosetsOk rom 72 .code24 a.cosets && laterCosetUses .code23 a.cosets
    && idxListOk 72 a.w0Idx && decide (a.w0Idx.length = 7)
    && idxListOk 72 a.vuvIdx && idxListOk 72 a.gainIdx && idxListOk 72 a.prba1Idx && idxListOk 72 a.prba2Idx
    && decide (a.hocIdx.length = 4) && a.hocIdx.all (fun l => idxListOk 72 l && (decide (l.length = 4) || decide (l.length = 5)))
    && idxListOk 72 a.toneCheckIdx && decide (a.toneCheckValue < 2 ^ a.toneCheckIdx.length)
    && idxListOk 72 a.toneIdIdx && decide (a.toneIdIdx.length = 8)
    && idxListOk 72 a.toneAmpIdx && decide (a.toneAmpIdx.length = 7)
    && decide (a.toneClass.length = 256)
    && decide (2 ^ a.gainIdx.length ≤ a.dgain.length)
    && decide (2 ^ a.vuvIdx.length ≤ a.vuv.length) && a.vuv.all (fun row => decide (row.length = 8))
    && jblockOk 4 a.jblock
    && decide (a.hoc.length = 4)
    && (List.range 4).all (fun i =>
        decide (2 ^ (a.hocIdx.getD i []).length ≤ (a.hoc.getD i []).length)
          && (a.hoc.getD i []).all (fun row => decide (2 ≤ row.length) && decide (row.length ≤ 4)))
    && decide (a.smoothCoset < a.cosets.length)
    && mpDefaultOk a.mpDefault

end Sys2Proof

namespace Sys2Proof.Machine

/-- What R275 asks of the IMBE layout of one harmonic count whose band count is `k`: every index inside the frame, no
list longer than 32, `gainIdx` within `GAIN_IMBE`, five gain fields and one bit a band. -/
def imbeLayoutOk (tableLen k : Nat) (f : ImbeLayout) : Bool :=
  (f.gainIdx :: (f.gainQ ++ f.vuv ++ f.hocQ)).all
      (fun l => decide (l.length ≤ 32) && l.all (fun i => decide (i < 144)))
    && decide (2 ^ f.gainIdx.length ≤ tableLen) && decide (f.gainQ.length = 5)
    && decide (f.vuv.length = k) && f.vuv.all (fun l => decide (l.length = 1))

/-- The band of every harmonic of the count `r + 9` exists (R281). -/
def imbeBandsOk (m : ImbeRom) (r : Nat) : Bool :=
  let k := m.bandCount.getD r 0
  decide (1 ≤ k) && decide (k ≤ m.vuvBand.length) && decide (r + 9 ≤ (m.vuvBand.getD (k - 1) []).length)
    && (m.vuvBand.getD (k - 1) []).all (fun b => decide (1 ≤ b) && decide (b ≤ k))

end Sys2Proof.Machine

namespace Sys2Proof
open Sys2Proof.Machine

/-- What R65, R265, R267, R270 to R272, R275, R277, R281, R282, R288 and R290 ask of an IMBE ROM, less the values of
reals (`Rom.valuesLegal`). -/
def ImbeRom.legal (rom : Rom) (m : ImbeRom) : Bool :=
  decide (m.ff.length = 208) && m.ff.all harmonicsOk && harmonicsOk m.sentinel
    && decide (m.cosetMap.length = 144) && m.cosetMap.all (fun i => decide (i < 144)) && decide m.cosetMap.Nodup
    && cosetsOk rom 144 .code23 m.cosets && laterCosetUses .code15 m.cosets
    && idxListOk 144 m.w0Idx && decide (m.w0Idx.length = 8)
    && decide (m.fields.length = 48) && decide (m.bandCount.length = 48)
    && (List.range 48).all (fun r =>
        imbeLayoutOk m.gainTable.length (m.bandCount.getD r 0) (m.fields.getD r default) && imbeBandsOk m r)
    && jblockOk 6 m.jblock
    && decide (m.smoothCoset < m.cosets.length)
    && mpDefaultOk m.mpDefault
    && decide (m.sentinel.harmonicCount = m.mpDefault.fundamentalFrequency.harmonicCount)

/-- The ROM meets what the rules ask of it (R122 among them), less the values of its reals and the distance of its codes: R303's
"ROM parameters that meet 49_rom_tables.md rules R265 and R272". -/
def Rom.legal (rom : Rom) : Bool :=
  codeShapeOk 24 12 rom.code24 && codeShapeOk 23 12 rom.code23 && codeShapeOk 15 11 rom.code15
    && AmbeRom.legal rom rom.ambe && ImbeRom.legal rom rom.imbe && allCodesUsed (rom.ambe.cosets ++ rom.imbe.cosets)

end Sys2Proof

namespace Sys2Proof.Machine

/-! ### What the rules ask of the values of reals

The comparisons are `NUM`'s, so on this machine whether a ROM meets these is open as `NUM` is (log entries 1 and 2); over the
mathematical reals they are the spec's own inequalities. -/

section values
variable {R : Type} [N : Num R]

/-- `frequency > 0` of every entry that is read (R34, R266, R267). -/
def frequenciesPositive (rows : List (R × Nat)) : Bool := rows.all (fun r => Num.lt (ri 0) r.1)

/-- "tables are monotonic in L as frequency decreases" (R34, R266, R267): of two entries the one of lower frequency never
has the smaller harmonic count. -/
def frequenciesMonotonic (rows : List (R × Nat)) : Bool :=
  rows.all (fun a => rows.all (fun b => !Num.lt a.1 b.1 || decide (b.2 ≤ a.2)))

/-- `harmonicCount * frequency < pi`: all harmonics below half the sample rate (R266). -/
def belowHalfRate (w0 : R) (l : Nat) : Bool := Num.lt (ri l * w0) Num.pi

/-- `146.643 <= GAMMA_W < 146.644` (R292). -/
def gammaOk (g : R) : Bool := Num.le (rlit 146643 1000) g && Num.lt g (rlit 146644 1000)

/-- `PITCH_JUMP_RATIO` is positive (R293). -/
def jumpRatioOk (r : R) : Bool := Num.lt (ri 0) r

/-- How many samples of the window lie on its ramp: neither 0 nor 1. -/
def rampLength (ws : List R) : Nat :=
  ((List.range ws.length).filter (fun n : Nat => Num.lt (ri 0) (windowAt ws n) && Num.lt (windowAt ws n) (ri 1))).length

/-- One sample of the window and the one after it: each in `0 .. 1`, the second never the larger, and the smaller where both lie
on the ramp. -/
def rampStepOk (a b : R) : Bool :=
  Num.le (ri 0) a && Num.le a (ri 1) && Num.le b a && (Num.le (ri 1) a || Num.le b (ri 0) || Num.lt b a)

/-- The shape of the window (R202, R291): 1 on a flat centre, then a ramp down to 0 over "~50 samples", read as 40 to 60 (log
entry 40). That it is symmetric and 0 beyond its table holds of every `windowAt`. -/
def windowShapeOk (ws : List R) : Bool :=
  Num.eq (windowAt ws 0) (ri 1) && Num.eq (windowAt ws 1) (ri 1)
    && (List.range ws.length).all (fun n : Nat => rampStepOk (windowAt ws n) (windowAt ws ((n : Int) + 1)))
    && decide (40 ≤ rampLength ws) && decide (rampLength ws ≤ 60)

/-- The constraint on the window (R291, R210): `WS(n)^2 + WS(n-160)^2 > 0` for `n` in `0 .. 159`. -/
def windowOk (ws : List R) : Bool :=
  (List.range 160).all (fun n : Nat =>
    let a := windowAt ws n
    let b := windowAt ws ((n : Int) - 160)
    Num.lt (ri 0) (a * a + b * b))

end values

/-- The frequency and the harmonic count of table rows. -/
def rowValues (rows : List FreqRow) : List (MReal × Nat) := rows.map (fun r => (r.frequency, r.harmonicCount))

end Sys2Proof.Machine

namespace Sys2Proof
open Sys2Proof.Machine

/-- The `VOICE` entries of `FF_AMBE` (R266). -/
def AmbeRom.voiceRows (a : AmbeRom) : List FreqRow := tab 120 (fun v => a.ff.getD v default)

/-- The entries of `FF_AMBE` that are read: `VOICE` and `SILENCE` (R266). -/
def AmbeRom.readRows (a : AmbeRom) : List FreqRow := a.voiceRows ++ [a.ff.getD 124 default, a.ff.getD 125 default]

/-- What R266, R267 and R291 to R293 ask of the values of a ROM's reals. -/
def Rom.valuesLegal (rom : Rom) : Bool :=
  frequenciesPositive (N := numerics) (rowValues rom.ambe.readRows)
    && frequenciesMonotonic (N := numerics) (rowValues rom.ambe.voiceRows)
    && (rowValues rom.ambe.readRows).all (fun r => belowHalfRate (N := numerics) r.1 r.2)
    && frequenciesPositive (N := numerics) (rowValues rom.imbe.ff)
    && frequenciesMonotonic (N := numerics) (rowValues rom.imbe.ff)
    && decide (rom.imbe.sentinel.frequency = rom.imbe.mpDefault.fundamentalFrequency.frequency)
    && windowOk (N := numerics) rom.window && windowShapeOk (N := numerics) rom.window && gammaOk (N := numerics) rom.gammaW
    && jumpRatioOk (N := numerics) rom.pitchJumpRatio

/-- The ROM meets what spec/49_rom_tables.md asks of it, the distance of its codes apart (`codeDistanceOk`). -/
def Rom.meetsRules (rom : Rom) : Bool := rom.legal && rom.valuesLegal

end Sys2Proof

namespace Sys2Proof.Machine

/-! ### The ROM of State.reset (log entry 9) -/

/-- `FF_AMBE` as the spec's test instantiation TI-A has it where R266 gives no value; the silence entries are the usually
published ones. -/
def resetFfAmbe : List FreqRow :=
  tab 128 (fun v =>
    if v = 124 ∨ v = 125 then { frequency := numerics.div (numerics.mul (.int 2) numerics.pi) (.int 32), harmonicCount := 14 }
    else { frequency := Config.lit (mkRat 3 10), harmonicCount := 9 })

/-- `FF_IMBE` in the closed form R267 prints: `pi / frequency + 0.25 = (2v + 81) / 8`. -/
def resetFfImbe : List FreqRow :=
  tab 208 (fun v =>
    { frequency := numerics.div (numerics.mul (.int 4) numerics.pi) (numerics.add (.int v) (Config.lit (mkRat 395 10))),
      harmonicCount := 9254 * ((2 * v + 81) / 8) / 10000 })

/-- The id ranges usually published for `TONE_CLASS` (R274). -/
def defaultToneClass (id : Nat) : ToneClass :=
  if 128 ≤ id ∧ id ≤ 143 then .dtmf
  else if 144 ≤ id ∧ id ≤ 159 then .knox
  else if 160 ≤ id ∧ id ≤ 163 then .callProgress
  else .discrete

/-- The ascending indices `lo .. lo+n-1`. -/
def idxRun (lo n : Nat) : List Nat := tab n (fun i => lo + i)

/-- The AMBE ROM of State.reset: the defaults of spec/49_rom_tables.md, the index lists of TI-A (spec/95_test_vectors.md
section 4.1), open reals from `Config`. The spec leaves the block lengths, the frequency rows and the sizes of the tables open; the
model chose them, four values in every entry of the HOC codebooks (2 to 4 by R284) among them (DESIGN CHOICE, log entry 9). -/
def resetAmbeRom : AmbeRom where
  ff := resetFfAmbe
  cosetMap := idxRun 0 72
  cosets := [⟨0, 24, 12, .code24⟩, ⟨24, 23, 12, .code23⟩]
  w0Idx := [0, 1, 2, 3, 4, 5, 47]
  vuvIdx := idxRun 6 5
  gainIdx := idxRun 48 5
  prba1Idx := idxRun 24 9
  prba2Idx := [33, 34, 35, 53, 54, 55, 56]
  hocIdx := [idxRun 57 5, idxRun 62 4, [66, 67, 11, 36], idxRun 68 4]
  toneCheckIdx := [0, 1, 2, 3, 4, 5, 68, 69, 70, 71]
  toneCheckValue := 0x3F0
  toneConflictErr := 6
  toneIdIdx := idxRun 24 8
  toneAmpIdx := idxRun 54 7
  toneClass := tab 256 defaultToneClass
  dgain := tab 32 Config.romDgain
  vuv := tab 32 (fun i => tab 8 (Config.romVuv i))
  silenceForceUnvoiced := true
  jblock := tab 48 (fun r => tab 4 (fun i => (r + 9 + i) / 4))
  hoc := tab 4 (fun b => tab 32 (fun i => tab 4 (Config.romHoc b i)))
  smoothCoset := 1
  mpDefault := defaultParams (N := numerics) .silence
  nameStr := Config.romNameStr .ambe

/-- `K_IMBE[L]` as usually published (R281). -/
def defaultBandCount (l : Nat) : Nat := if l ≤ 36 then (l + 2) / 3 else 12

/-- The IMBE layout of State.reset for harmonic count `l`: R275 gives none, any legal one serves (TI-I). -/
def resetImbeLayout (l : Nat) : ImbeLayout where
  gainIdx := idxRun 8 6
  gainQ := tab 5 (fun m => idxRun (14 + 2 * m) 2)
  vuv := tab (defaultBandCount l) (fun b => [24 + b])
  hocQ := tab (l - 6) (fun j => [36 + j])

/-- The IMBE ROM of State.reset: the defaults of spec/49_rom_tables.md, TI-I where there is none, open reals from
`Config`. -/
def resetImbeRom : ImbeRom where
  ff := resetFfImbe
  sentinel := { frequency := (defaultParams (N := numerics) .voice).fundamentalFrequency.frequency, harmonicCount := 30 }
  sentinelIndex := 0
  cosetMap := idxRun 0 144
  cosets := [⟨0, 23, 12, .code23⟩, ⟨23, 23, 12, .code23⟩, ⟨46, 23, 12, .code23⟩, ⟨69, 23, 12, .code23⟩,
    ⟨92, 15, 11, .code15⟩, ⟨107, 15, 11, .code15⟩, ⟨122, 15, 11, .code15⟩]
  w0Idx := idxRun 0 8
  fields := tab 48 (fun r => resetImbeLayout (r + 9))
  gainTable := tab 64 Config.romGainImbe
  bandCount := tab 48 (fun r => defaultBandCount (r + 9))
  vuvBand := tab 12 (fun k => tab 56 (fun l => min (k + 1) ((l + 3) / 3)))
  jblock := tab 48 (fun r => tab 6 (fun i => (r + 9 + i) / 6))
  smoothCoset := 4
  mpDefault := defaultParams (N := numerics) .voice
  nameStr := Config.romNameStr .imbe

/-- The ROM of State.reset. -/
def resetRom : Rom where
  ambe := resetAmbeRom
  imbe := resetImbeRom
  code24 := defaultCode24
  code23 := defaultCode23
  code15 := defaultCode15
  seedScale := 1
  outScale := Config.lit (mkRat 1 32768)
  window := defaultWindow (N := numerics)
  gammaW := Config.lit (mkRat 146643269 1000000)
  pitchJumpRatio := Config.lit (mkRat 1 10)

end Sys2Proof.Machine
end

