-- ==== Sys2Proof/Machine/ResetValues.lean ====
section
/-! DEFINITION. The values the two resets give (R331, R332, R250), piece by piece. -/

namespace Sys2Proof.Machine

variable {R : Type}

/-- `STATUS` with every field 0 (R331). -/
def zeroStatus : Status where
  frameType := 0
  repeated := false
  muted := false
  forcedErasure := false
  w0Index := 0
  harmonics := 0
  e := tab 7 (fun _ => 0)
  eT := 0
  repeatCount := 0

/-- `TONE` after PORESET: `valid = 0`, the rest unspecified by R331 (log entry 12). -/
def resetTone : Tone := { valid := false, id := 0, amplitude := 0, cls := .discrete }

/-- SynthesizerState after either reset (R25, R250): all zero, the noise register at its seed. -/
def resetSynth (P : OpenParams R := by exact Sys2Proof.Machine.openParams) : Synth R where
  phaseV := tab phaseLen (fun _ => P.ofInt 0)
  phaseO := tab phaseLen (fun _ => P.ofInt 0)
  prevUw := tab xformLen (fun _ => P.ofInt 0)
  noiseBuf := tab xformLen (fun _ => 0)
  noiseReg := noiseSeed

/-- `P.fundamentalFrequency.harmonicCount` (R22) -/
def lOf (p : ModelParams R) : Nat := p.fundamentalFrequency.harmonicCount

/-- How many entries `G` and `Rg` have: "IMBE uses 1..6; AMBE 1..8" (R17). -/
def gainLen : Codec → Nat
  | .ambe => 8
  | .imbe => 6

/-- The harmonics that blocks of the lengths `J[i]` cover: how many entries `T` has (R157, R160). -/
def blockTotal (js : List (BitVec 6)) : Nat := (js.map (·.toNat)).sum

/-- How many entries `fld.vuv[1..K]` has for the harmonic count `l`, `K` being `K_IMBE[l]`: none on an AMBE instance, nor where
the table has no row (R275, R281). -/
def vuvLen (rom : Rom R) : Codec → Nat → Nat
  | .ambe, _ => 0
  | .imbe, l => if 9 ≤ l then rom.imbe.bandCount.getD (l - 9) 0 else 0

/-- How many entries `fld.hocQ[..]` has for the harmonic count `l`: as many as the layout of that count lists (R275). -/
def hocQLen (rom : Rom R) : Codec → Nat → Nat
  | .ambe, _ => 0
  | .imbe, l => if 9 ≤ l then (rom.imbe.fields.getD (l - 9) default).hocQ.length else 0

/-- A field record of zeros: `hocIdx[1..4]` and `gainQ[2..6]`, and no entry of the lists whose length depends on a harmonic count
(R134, R275). -/
def zeroFields : Fields where
  vuvIdx := 0
  gainIdx := 0
  prba1Idx := 0
  prba2Idx := 0
  hocIdx := tab 4 (fun _ => 0)
  gainQ := tab 5 (fun _ => 0)
  vuv := []
  hocQ := []

/-- The working registers after PORESET, which R331 leaves unspecified: all zero (log entry 11). `C[i]` has `J[i]`
entries and `T` as many as all blocks, none of either while `J[i] = 0`; `W` has as many as `CMP` has harmonics (R17). -/
def zeroWork (c : Codec) (p : ModelParams R)
    (P : OpenParams R := by exact Sys2Proof.Machine.openParams) : Work R where
  inCount := 0
  inBytes := []
  fb := tab (frameBits c) (fun _ => false)
  wf := tab (frameBits c) (fun _ => false)
  mask := tab (frameBits c) (fun _ => false)
  e := tab 7 (fun _ => 0)
  eT := 0
  u0 := 0
  w0Index := 0
  ff := { index := 0, frequency := P.ofInt 0, harmonicCount := 0, frameType := .voice }
  frameType := .voice
  forcedErasure := false
  tone := resetTone
  fld := zeroFields
  repeatFlag := false
  muted := false
  cmp := p
  gvec := tab (gainLen c) (fun _ => P.ofInt 0)
  rg := tab (gainLen c) (fun _ => P.ofInt 0)
  jlen := tab (njblock c) (fun _ => 0)
  coef := tab (njblock c) (fun _ => [])
  tres := []
  rm0 := P.ofInt 0
  rm1 := P.ofInt 0
  weights := tab (lOf p) (fun _ => P.ofInt 0)
  vm := some (P.ofInt 0)
  tm := P.ofInt 0
  am := P.ofInt 0
  x := tab xformLen (fun _ => P.ofInt 0)
  spec := tab xformLen (fun _ => (P.ofInt 0, P.ofInt 0))
  uwShaped := tab xformLen (fun _ => (P.ofInt 0, P.ofInt 0))
  uw := tab xformLen (fun _ => P.ofInt 0)
  suv := tab nsamp (fun _ => P.ofInt 0)
  sv := tab nsamp (fun _ => P.ofInt 0)
  pv := tab phaseLen (fun _ => P.ofInt 0)
  po := tab phaseLen (fun _ => P.ofInt 0)
  out := tab nsamp (fun _ => P.ofInt 0)
  res := .none

/-! ### The free contents of the working registers, in spaces of fixed size -/

/-- The array of size `n` with the elements of `xs`: R40's spaces keep their size whatever they hold. -/
def fit {α : Type} (n : Nat) (d : α) (xs : List α) : List α := tab n (fun i => xs.getD i d)

/-- A ModelParameters record with its arrays at their sizes (R22, R40). -/
def sizedParams (p : ModelParams R) (P : OpenParams R := by exact Sys2Proof.Machine.openParams) :
    ModelParams R :=
  { p with
    voicingDecisions := fit phaseLen false p.voicingDecisions
    log2SpectralAmplitudes := fit phaseLen (P.ofInt 0) p.log2SpectralAmplitudes
    spectralAmplitudes := fit phaseLen (P.ofInt 0) p.spectralAmplitudes
    enhancedSpectralAmplitudes := fit phaseLen (P.ofInt 0) p.enhancedSpectralAmplitudes
    errorCount := fit 7 0 p.errorCount }

/-- A field record with every list at its size for the harmonic count `l` (R17, R134, R275). -/
def sizedFields (c : Codec) (rom : Rom R) (l : Nat) (f : Fields) : Fields :=
  { f with
    hocIdx := fit 4 0 f.hocIdx
    gainQ := fit 5 0 f.gainQ
    vuv := fit (vuvLen rom c l) 0 f.vuv
    hocQ := fit (hocQLen rom c l) 0 f.hocQ }

/-- The working registers with every space at its size (R17, R40, R90, R127, R220). -/
def sizedWork (c : Codec) (rom : Rom R) (w : Work R) (P : OpenParams R := by exact Sys2Proof.Machine.openParams) :
    Work R :=
  { w with
    inBytes := fit w.inCount.toNat 0 w.inBytes
    fb := fit (frameBits c) false w.fb
    wf := fit (frameBits c) false w.wf
    mask := fit (frameBits c) false w.mask
    e := fit 7 0 w.e
    fld := sizedFields c rom w.ff.harmonicCount w.fld
    cmp := sizedParams w.cmp P
    gvec := fit (gainLen c) (P.ofInt 0) w.gvec
    rg := fit (gainLen c) (P.ofInt 0) w.rg
    jlen := fit (njblock c) 0 w.jlen
    coef := tab (njblock c) (fun i => fit (w.jlen.getD i 0).toNat (P.ofInt 0) (w.coef.getD i []))
    tres := fit (blockTotal (fit (njblock c) 0 w.jlen)) (P.ofInt 0) w.tres
    weights := fit (lOf w.cmp) (P.ofInt 0) w.weights
    x := fit xformLen (P.ofInt 0) w.x
    spec := fit xformLen (P.ofInt 0, P.ofInt 0) w.spec
    uwShaped := fit xformLen (P.ofInt 0, P.ofInt 0) w.uwShaped
    uw := fit xformLen (P.ofInt 0) w.uw
    suv := fit nsamp (P.ofInt 0) w.suv
    sv := fit nsamp (P.ofInt 0) w.sv
    pv := fit phaseLen (P.ofInt 0) w.pv
    po := fit phaseLen (P.ofInt 0) w.po
    out := fit nsamp (P.ofInt 0) w.out }

/-- The working registers of an instance after a COMMIT or a halt: any contents (R10, R306, U3), in spaces of their own size
(log entry 13). -/
def freeWork (c : Codec) (rom : Rom R) (k : Nat) (P : OpenParams R := by exact Sys2Proof.Machine.openParams) : Work R :=
  sizedWork c rom (P.freeWork k) P

end Sys2Proof.Machine
end

