-- ==== Sys2Proof/Machine/State.lean ====
section
/-! DEFINITION. The state of one instance (spec/10_state.md), as plain data; the causes a command can raise
(spec/60_exceptions.md R302); the reasons a step can stop; and the state after reset (R331). -/

namespace Sys2Proof.Machine

/-- What `raise` is given (R302). Raising is no stop of the machine: it writes the fault latch and returns to `IDLE`. -/
inductive Cause where
  | frameLength
  | indexRange
  | codebookIndex
  | frameTypeRange
  | badGain
  | illegalCommand
deriving DecidableEq, Repr, Inhabited

/-- A raised exception: its cause and its `info`, before the reduction modulo 65536 (R306). -/
structure Raised where
  cause : Cause
  info : Int
deriving DecidableEq, Repr, Inhabited

/-- The faults of the model: values that the spec says `STAGE` never holds, and words on the command port that are no
command. No run from reset whose port holds command words and their operands meets one. -/
inductive Fault where
  /-- Raised by `step` when `STAGE` holds an id of 26..31 or 50..63, which R75 says it never holds. Safe. -/
  | unusedStage
  /-- Raised by `step` when a word that is neither a command word nor an operand of the command stands on the port
  (log entry 19). Safe. -/
  | portMismatch
deriving DecidableEq, Repr

/-- The refusals of the model. -/
inductive Refusal where
  /-- Raised by `exec` for an instruction that has no meaning yet. Safe. No arm of this model answers it. -/
  | notModelled (mnemonic : String)
deriving DecidableEq, Repr

/-- What the last command returned to the host (R60, R62): nothing, the name string, or the samples of a DECODE. -/
inductive CommandResult (R : Type := MReal) where
  | none
  | name (s : List Byte)
  | samples (xs : List R)
deriving DecidableEq, Repr, Inhabited

/-- The state of one instance over a type of reals (R6, R9); `State` alone is the machine's, over its own carrier. -/
structure State (R : Type := MReal) where
  /-- the strap `CODEC` (R13) -/
  codec : Codec
  /-- `STAGE` (R12): the id of the micro-operation in progress, 0 when no command is running -/
  stage : BitVec 6
  /-- `GAIN` (R13) -/
  gain : R
  /-- `FAULT` (R13, R302) -/
  fault : BitVec 3
  /-- `FAULT_INFO` (R13, R302) -/
  faultInfo : BitVec 16
  /-- `STATUS` (R16) -/
  status : Status
  /-- `TONE` (R24) -/
  tone : Tone
  /-- `PMP` (R20) -/
  pmp : ModelParams R
  /-- `SS` (R25) -/
  ss : Synth R
  /-- the working registers (R14, R15, R17, R21) -/
  work : Work R
  /-- the ROM parameters (R265; the last row of R331), written by nothing -/
  rom : Rom R
  /-- the model's own: the words the host has issued and the instance has not taken (log entry 18) -/
  port : List (CodeWord R)
  /-- the model's own: the operand words of a primitive that `STAGE` names (log entry 20) -/
  operands : List (CodeWord R)
  /-- the model's own: the result of the last command, as the host sees it (log entry 36) -/
  result : CommandResult R
  /-- the model's own: the host asks for `PORESET` (log entry 24) -/
  poresetRequest : Bool
  /-- the model's own: how many values the port `RND` has delivered (R32) -/
  drawCtr : Nat
  /-- the model's own: how many times a free value has been taken, those of `TONE` apart -/
  freeCtr : Nat
  /-- the model's own: how many times the payload of `TONE` has become unspecified (log entry 14) -/
  toneCtr : Nat
deriving DecidableEq, Repr, Inhabited

/-- The state right after `PORESET` of an instance with a strap and a ROM (R331). -/
def State.powerOn {R : Type} (codec : Codec) (rom : Rom R)
    (P : OpenParams R := by exact Sys2Proof.Machine.openParams) : State R where
  codec := codec
  stage := 0
  gain := P.ofInt 1
  fault := 0
  faultInfo := 0
  status := zeroStatus
  tone := resetTone
  pmp := rom.mpDefault codec
  ss := resetSynth P
  work := zeroWork codec (rom.mpDefault codec) P
  rom := rom
  port := []
  operands := []
  result := .none
  poresetRequest := false
  drawCtr := 0
  freeCtr := 0
  toneCtr := 0

/-- The machine right after reset: an AMBE instance (log entry 7) with the ROM of log entry 9. -/
def State.reset : State := State.powerOn .ambe resetRom

end Sys2Proof.Machine
end

