-- ==== Sys2Proof/Machine/Ops.lean ====
section
/-! DEFINITION. The shared operations: taking an exception (R306) and the power-on reset that leaves a halt (R309),
accepting a command (R246), the bit frame operations (R90 to R98), reads of spaces and tables (R43, R168), the two
congruential generators (R126, R200) and the block-code corrector (R106). -/

namespace Sys2Proof.Machine

variable {R : Type}

/-! ### The stages by their ids (R75) -/

namespace Stage
abbrev idle : BitVec 6 := 0
abbrev load : BitVec 6 := 1
abbrev partition : BitVec 6 := 2
abbrev ecc0 : BitVec 6 := 3
abbrev derand : BitVec 6 := 4
abbrev eccn : BitVec 6 := 5
abbrev errsum : BitVec 6 := 6
abbrev w0idx : BitVec 6 := 7
abbrev tonechk : BitVec 6 := 8
abbrev fields : BitVec 6 := 9
abbrev repeatchk : BitVec 6 := 10
abbrev repeatFrame : BitVec 6 := 11
abbrev toneset : BitVec 6 := 12
abbrev mpnew : BitVec 6 := 13
abbrev gain : BitVec 6 := 14
abbrev voicing : BitVec 6 := 15
abbrev resid : BitVec 6 := 16
abbrev predict : BitVec 6 := 17
abbrev enhance : BitVec 6 := 18
abbrev smooth : BitVec 6 := 19
abbrev noise : BitVec 6 := 20
abbrev unvoiced : BitVec 6 := 21
abbrev phase : BitVec 6 := 22
abbrev voiced : BitVec 6 := 23
abbrev combine : BitVec 6 := 24
abbrev commit : BitVec 6 := 25
end Stage

/-! ### Taking an exception, and leaving the halt -/

/-- The 3-bit code of a cause (R302). -/
def Cause.code : Cause → BitVec 3
  | .frameLength => 1
  | .indexRange => 2
  | .codebookIndex => 3
  | .frameTypeRange => 4
  | .badGain => 5
  | .illegalCommand => 6

/-- Codes 2, 3 and 4 halt the instance, the others reject one command (R302, R309). -/
def Cause.halts : Cause → Bool
  | .indexRange => true
  | .codebookIndex => true
  | .frameTypeRange => true
  | _ => false

/-- `raise X(info)` (R306): the latch is written, the sequencer returns to `IDLE`, no result is returned. A halt leaves
the working registers with unspecified contents (U3); a rejection has no effect but the latch (R302, R305). -/
def State.raise (s : State R) (r : Raised) (P : OpenParams R := by exact Sys2Proof.Machine.openParams) :
    State R :=
  { s with
    fault := r.cause.code
    faultInfo := BitVec.ofInt 16 r.info
    stage := Stage.idle
    result := .none
    work := if r.cause.halts then freeWork s.codec s.rom s.freeCtr P else s.work
    freeCtr := if r.cause.halts then s.freeCtr + 1 else s.freeCtr }

/-- The instance is halted while `FAULT` holds an `InvariantViolation` code (R246). -/
def State.halted (s : State R) : Bool := decide (s.fault = 2) || decide (s.fault = 3) || decide (s.fault = 4)

/-- `PORESET` (R330, R331): alone it clears the latch and leaves the halt (R309). The strap, the ROM, the words waiting on
the port and the model's own counters are not the instance's to reset. -/
def State.poreset (s : State R) (P : OpenParams R := by exact Sys2Proof.Machine.openParams) : State R :=
  { State.powerOn s.codec s.rom P with
    port := s.port, drawCtr := s.drawCtr, freeCtr := s.freeCtr, toneCtr := s.toneCtr }

/-- The state a meaning that may raise leaves: its next state, or the state with the exception taken (R306). -/
def State.settled (s : State R) (r : Except Raised (State R))
    (P : OpenParams R := by exact Sys2Proof.Machine.openParams) : State R :=
  match r with
  | .ok s' => s'
  | .error x => s.raise x P

/-- What a meaning that may raise answers; it always answers a next state. -/
def settle (s : State R) (r : Except Raised (State R))
    (P : OpenParams R := by exact Sys2Proof.Machine.openParams) : Host.Outcome (State R) Fault Refusal :=
  .next (s.settled r P)

/-- Accepting a command: a halted instance executes none, changes no state and returns no result (R246). -/
def command (s : State R) (body : State R → Except Raised (State R))
    (P : OpenParams R := by exact Sys2Proof.Machine.openParams) : Host.Outcome (State R) Fault Refusal :=
  if s.halted then .next { s with result := .none } else settle s (body { s with result := .none }) P

/-- A command word with `CMD[7:2] != 0` (R61, R305), on an instance that is not halted (R246). -/
def illegalCommand (s : State R) (cmd : Byte)
    (P : OpenParams R := by exact Sys2Proof.Machine.openParams) : Host.Outcome (State R) Fault Refusal :=
  command s (fun _ => .error ⟨.illegalCommand, cmd.toNat⟩) P

/-! ### Arrays and reads -/

/-- The array of fixed length `n` with element `i` written; a write outside it does nothing (log entry 30). -/
def setArr {α : Type} (n : Nat) (d : α) (xs : List α) (i : Nat) (v : α) : List α :=
  tab n (fun j => if j = i then v else xs.getD j d)

/-- A read `TABLE[idx]` (R168): beyond the table it raises `InvariantViolation(CodebookIndex)`. -/
def readTable {α : Type} (t : List α) (i : Nat) : Except Raised α :=
  match t[i]? with
  | some a => .ok a
  | none => .error ⟨.codebookIndex, i⟩

/-- A read of a table whose first row is the one of index `base`. -/
def readFrom {α : Type} (base : Nat) (t : List α) (i : Nat) : Except Raised α :=
  if base ≤ i then
    match t[i - base]? with
    | some a => .ok a
    | none => .error ⟨.codebookIndex, i⟩
  else .error ⟨.codebookIndex, i⟩

/-- R43's requirement on a request of `n` elements from `addr` in a space of `size`: `0 <= addr` and `addr + n <= size`. -/
def rangeOk (size : Nat) (addr : Int) (n : Nat) : Bool := decide (0 ≤ addr) && decide (addr + n ≤ size)

/-- `InvariantViolation(IndexRange)` of a range from `addr` in a space of `size` elements. The offending index is the first
one outside the space: the model's choice, R302 and R303 naming none for a range (log entry 26). -/
def rangeError (size : Nat) (addr : Int) : Raised := ⟨.indexRange, if addr < 0 then addr else max addr size⟩

/-- `MemRead(space, addr, n)` (R43): `n` consecutive elements, or `InvariantViolation(IndexRange)`. -/
def memRead {α : Type} (space : List α) (addr : Int) (n : Nat) : Except Raised (List α) :=
  if rangeOk space.length addr n then .ok ((space.drop addr.toNat).take n)
  else .error (rangeError space.length addr)

/-- `MemWrite(space, addr, n, v)` (R43) of the `n` elements of `v`. -/
def memWrite {α : Type} (space : List α) (addr : Int) (v : List α) : Except Raised (List α) :=
  if rangeOk space.length addr v.length then
    .ok (space.take addr.toNat ++ v ++ space.drop (addr.toNat + v.length))
  else .error (rangeError space.length addr)

/-! ### Bit frames -/

/-- `BF.LOAD` (R91, R44): bit `8k + j` is bit `j` of byte `k`, the least significant first. -/
def loadBits (bs : List Byte) : Frame := bs.flatMap (fun b => tab 8 (fun j => b.getLsbD j))

/-- R90's index check. -/
def bitIndexOk (f : Frame) (i : Int) : Bool := decide (0 ≤ i) && decide (i < f.length)

/-- `BF.GET` (R92). -/
def getBit (f : Frame) (i : Int) : Except Raised Bool :=
  if bitIndexOk f i then .ok (f.getD i.toNat false) else .error ⟨.indexRange, i⟩

/-- `BF.SET` (R93) and `BF.CLR` (R94): bit `i` takes the value `b`. -/
def putBit (f : Frame) (i : Int) (b : Bool) : Except Raised Frame :=
  if bitIndexOk f i then .ok (f.set i.toNat b) else .error ⟨.indexRange, i⟩

/-- The loop of R95 from the value `v` on. -/
def extractFrom (f : Frame) : Nat → List Int → Except Raised Nat
  | v, [] => .ok v
  | v, i :: is =>
    match getBit f i with
    | .ok b => extractFrom f (2 * v + b.toNat) is
    | .error x => .error x

/-- `BF.EXTRACT` (R95): the first index listed is the most significant bit; a list longer than 32 raises. Where such a list
also holds an index outside the frame R95 does not say which violation is reported: the model checks the length first
and reports it (DESIGN CHOICE, log entry 26). -/
def extract (f : Frame) (idx : List Int) : Except Raised Nat :=
  if idx.length ≤ 32 then extractFrom f 0 idx else .error ⟨.indexRange, idx.length⟩

/-- `BF.EXTRACT` through an index list of the ROM. -/
def extractRom (f : Frame) (idx : List Nat) : Except Raised Nat := extract f (idx.map Int.ofNat)

/-- `BF.XOR` (R96). -/
def xorFrame (f g : Frame) : Except Raised Frame :=
  if f.length = g.length then .ok (List.zipWith xor f g)
  else .error ⟨.indexRange, max f.length g.length⟩

/-- The left rotation of the `m` bits from `a` by `c` (R97). -/
def rotateRange (f : Frame) (a m c : Nat) : Frame :=
  tab f.length (fun p => if a ≤ p ∧ p < a + m then f.getD (a + (p - a + c) % m) false else f.getD p false)

/-- `BF.ROT` (R97): `m = 0` is a no-op. R97 requires `a + m <= N` and `c >= 0` and does not say what other operands do: a
negative length or count raises `IndexRange` with it, a range outside the frame as R43's do (log entry 26). -/
def rotFrame (f : Frame) (a m c : Int) : Except Raised Frame :=
  if m = 0 then .ok f
  else if m < 0 then .error ⟨.indexRange, m⟩
  else if c < 0 then .error ⟨.indexRange, c⟩
  else if rangeOk f.length a m.toNat then .ok (rotateRange f a.toNat m.toNat c.toNat)
  else .error (rangeError f.length a)

/-- `BF.LOADHEX` (R98, R72): a malformed string raises `FrameLength` with the string's length. -/
def loadHex (c : Codec) (chars : List Byte) : Except Raised Frame :=
  match hexFrame (frameBytes c) chars with
  | some bs => .ok (loadBits bs)
  | none => .error ⟨.frameLength, chars.length⟩

/-! ### Generators -/

/-- `LCG.STEP` (R126): the next seed, and its bit 15. -/
def lcgNext (seed : Nat) : Nat × Bool :=
  let next := (173 * seed + 13849) % 65536
  (next, decide (32768 ≤ next))

/-- The recurrence of `NOISE.STEP` (R200). -/
def noiseNext (r : Nat) : Nat := (171 * r + 11213) % 53125

/-- The `k` samples that follow the register value `r`, in generation order. -/
def noiseRun : Nat → Nat → List Nat
  | 0, _ => []
  | k + 1, r => noiseNext r :: noiseRun k (noiseNext r)

/-- The register after `k` steps. -/
def noiseIter : Nat → Nat → Nat
  | 0, r => r
  | k + 1, r => noiseIter k (noiseNext r)

/-! ### Block codes -/

/-- A list of bits as a number, the first bit the most significant (R268). -/
def bitsValue (bits : List Bool) : Nat := bits.foldl (fun v b => 2 * v + b.toNat) 0

/-- The `n` bits of a number, the most significant first. -/
def valueBits (n v : Nat) : List Bool := tab n (fun j => v.testBit (n - 1 - j))

/-- The number of positions where two words of `n` bits differ (R106). -/
def wordDist (n a b : Nat) : Nat := popcount n (a ^^^ b)

/-- The codeword within distance `t` of a word (R106); for a code of legal distance there is at most one
(log entry 29). -/
def nearCodeword (c : BlockCode) (r : Nat) : Option Nat := c.cw.find? (fun w => decide (wordDist c.n r w ≤ c.t))

/-- `ECC(code, F, o)` (R106): the frame with the codeword at `o` corrected in place, and the number of bits corrected, or
the frame as it was and the sentinel. -/
def eccCorrect (c : BlockCode) (f : Frame) (o : Int) : Except Raised (Frame × Nat) :=
  match memRead f o c.n with
  | .error x => .error x
  | .ok bits =>
    match nearCodeword c (bitsValue bits) with
    | some w =>
      match memWrite f o (valueBits c.n w) with
      | .ok f' => .ok (f', wordDist c.n (bitsValue bits) w)
      | .error x => .error x
    | none => .ok (f, c.sentinel)

end Sys2Proof.Machine
end

