-- ==== Sys2Proof/Machine/Operands.lean ====
section
/-! DEFINITION. Operand forms: the frame an operand names, reads of a ModelParameters record outside its own harmonic
range (R23), the error counts (R127), and the input port of random phases (R32). -/

namespace Sys2Proof.Machine

variable {R : Type}

/-- The frame an operand names. -/
def frameOf (w : Work R) : FrameSel → Frame
  | .fb => w.fb
  | .wf => w.wf
  | .mask => w.mask

/-- The working registers with the frame an operand names written. -/
def putFrame (w : Work R) (sel : FrameSel) (f : Frame) : Work R :=
  match sel with
  | .fb => { w with fb := f }
  | .wf => { w with wf := f }
  | .mask => { w with mask := f }

/-! ### Reads of a ModelParameters record (R22, R23) -/

section
variable [N : Num R]

/-- `P.fundamentalFrequency.frequency` -/
def w0Of (p : ModelParams R) : R := p.fundamentalFrequency.frequency

/-- `P.enhancedSpectralAmplitudes[l]`: 0 above the record's harmonic count (R23). -/
def enhancedAt (p : ModelParams R) (l : Nat) : R :=
  if l ≤ lOf p then rd p.enhancedSpectralAmplitudes l else ri 0

/-- `P.spectralAmplitudes[l]`: 0 above the record's harmonic count (R23). -/
def spectralAt (p : ModelParams R) (l : Nat) : R :=
  if l ≤ lOf p then rd p.spectralAmplitudes l else ri 0

/-- `P.voicingDecisions[l]`: false above the record's harmonic count (R23). -/
def voicedAt (p : ModelParams R) (l : Nat) : Bool :=
  decide (l ≤ lOf p) && p.voicingDecisions.getD l false

/-- `P.log2SpectralAmplitudes[l]`: 0 at index 0, clamped to the highest index (R23). -/
def log2At (p : ModelParams R) (l : Nat) : R :=
  if l = 0 then ri 0 else rd p.log2SpectralAmplitudes (min l (lOf p))

end

/-! ### Error counts -/

/-- `NCOSET[CODEC]` (R122) -/
def State.ncoset (s : State R) : Nat := (s.rom.cosets s.codec).length

/-- `e[i]`: the counts with `i >= NCOSET` read as 0 (R127). -/
def State.errorAt (s : State R) (i : Nat) : BitVec 8 := if i < s.ncoset then s.work.e.getD i 0 else 0

/-- `e[0..6]` as a record holds it. -/
def State.errorCounts (s : State R) : List (BitVec 8) := tab 7 s.errorAt

/-! ### The random-phase port -/

/-- The `k`-th value `draw(RND)` delivers: any value, brought into the closed interval `[-pi, pi]` (R32, U2). -/
def drawValue (k : Nat) (P : OpenParams R := by exact Sys2Proof.Machine.openParams) : R :=
  let x := P.draw k
  let low := P.sub (P.ofInt 0) P.pi
  if P.le low x && P.le x P.pi then x else low

end Sys2Proof.Machine
end

