-- ==== Sys2Proof/Machine/Flags.lean ====
section
/-! DEFINITION. The hardware has no condition codes; its only flags are the fields of `STATUS` (R16) and of `TONE` (R24),
which COMMIT computes from the working registers (R258). -/

namespace Sys2Proof.Machine

variable {R : Type}

/-- The field `L` of `STATUS`, 6 bits, and `repeatCount`, 3 bits (R16). -/
def statusL (p : ModelParams R) : BitVec 6 := BitVec.ofNat 6 (lOf p)
def statusRepeatCount (p : ModelParams R) : BitVec 3 := BitVec.ofNat 3 p.repeatCount

/-- `STATUS` at COMMIT (R258). `muted` is set on the repeat path only (R146) and `forcedErasure` by TONECHK only, which an
IMBE instance skips (R130): on every other path each is 0 (log entry 31). -/
def statusOf (s : State R) : Status where
  frameType := s.work.frameType.code
  repeated := s.work.repeatFlag
  muted := s.work.repeatFlag && s.work.muted
  forcedErasure := decide (s.codec = .ambe) && s.work.forcedErasure
  w0Index := s.work.w0Index
  harmonics := statusL s.work.cmp
  e := s.errorCounts
  eT := s.work.eT
  repeatCount := statusRepeatCount s.work.cmp

/-- An invalid `TONE`: `valid` is 0, the other fields are unspecified (R133, U7). -/
def invalidTone (k : Nat) : Tone := { Config.freeTone k with valid := false }

/-- The path of this DECODE was TONESET: an AMBE frame classified `TONE` that does not repeat (R145, R258). -/
def toneCommitted (s : State R) : Bool :=
  decide (s.codec = .ambe) && !s.work.repeatFlag && decide (s.work.frameType = .tone) && s.work.tone.valid

/-- `TONE` at COMMIT (R133, R258). -/
def toneOf (s : State R) : Tone := if toneCommitted s then s.work.tone else invalidTone s.toneCtr

end Sys2Proof.Machine
end

