-- ==== Sys2Proof/Machine/FrameDecoder.lean ====
section
/-! DEFINITION. The Frame Decoder (spec/42_frame_decoder.md): stages 1 to 9. -/

namespace Sys2Proof.Machine

variable {R : Type}

/-! ### Classification and lookup -/

/-- The frame type of an AMBE fundamental-frequency index `0 .. 127` (R68, R129). -/
def ambeFrameType (v : Nat) : FrameType :=
  if v ≤ 119 then .voice
  else if v ≤ 123 then .erasure
  else if v ≤ 125 then .silence
  else .tone

/-- An entry of a table: its index and frame type are the source's, the rest the row's (R266, R267). -/
def ffEntry (index : Nat) (ft : FrameType) (row : FreqRow R) : FFEntry R :=
  { index := index, frequency := row.frequency, harmonicCount := row.harmonicCount, frameType := ft }

/-- `FF.LOOKUP` (R129). -/
def ffFind (rom : Rom R) (c : Codec) (v : Int) : Except Raised (FFEntry R) :=
  match c with
  | .ambe =>
    if 0 ≤ v ∧ v ≤ 127 then (readTable rom.ambe.ff v.toNat).map (ffEntry v.toNat (ambeFrameType v.toNat))
    else .error ⟨.frameTypeRange, v⟩
  | .imbe =>
    if 0 ≤ v ∧ v ≤ 207 then (readTable rom.imbe.ff v.toNat).map (ffEntry v.toNat .voice)
    else .ok (ffEntry rom.imbe.sentinelIndex .invalid rom.imbe.sentinel)

/-! ### Stage bodies -/

/-- The payload bytes as LOAD takes them: `n` bytes (R254). -/
def payload (n : Nat) (bytes : List Byte) : List Byte := tab n (fun k => bytes.getD k 0)

/-- `LOAD` (R254, R301). -/
def loadStage (s : State R) : Except Raised (State R) :=
  if s.work.inCount.toNat = frameBytes s.codec then
    .ok { s with stage := Stage.partition,
                 work := { s.work with fb := loadBits (payload (frameBytes s.codec) s.work.inBytes) } }
  else .error ⟨.frameLength, s.work.inCount.toNat⟩

/-- The loop of R121 for `n` positions from `j` on: for each, the read of the map at `j` (which raises beyond its end, R168),
then the bit of `FB` at the index read there (R90). -/
def gather (map : List Nat) (f : Frame) : Nat → Nat → Except Raised Frame
  | 0, _ => .ok []
  | n + 1, j =>
    match readTable map j with
    | .error x => .error x
    | .ok i =>
      match getBit f i with
      | .error x => .error x
      | .ok b =>
        match gather map f n (j + 1) with
        | .error x => .error x
        | .ok bs => .ok (b :: bs)

/-- `PARTITION` (R121). -/
def partitionStage (s : State R) : Except Raised (State R) := do
  let wf ← gather (s.rom.cosetMap s.codec) s.work.fb (frameBits s.codec) 0
  .ok { s with stage := Stage.ecc0, work := { s.work with wf := wf } }

/-- `ECC0` (R123). -/
def ecc0Stage (s : State R) : Except Raised (State R) := do
  let c ← readTable (s.rom.cosets s.codec) 0
  let (wf, count) ← eccCorrect (s.rom.code c.code) s.work.wf c.off
  let u0 ← extractRom wf (idxRun c.off 12)
  .ok { s with stage := Stage.derand,
               work := { s.work with wf := wf, e := setArr 7 0 s.work.e 0 (BitVec.ofNat 8 count), u0 := BitVec.ofNat 12 u0 } }

/-- The mask bits of one coset (R124): `n` generator steps from `seed`, written from position `p` on. -/
def maskCoset : Nat → Nat → Frame → Nat → Except Raised (Nat × Frame)
  | 0, seed, g, _ => .ok (seed, g)
  | n + 1, seed, g, p =>
    match putBit g p (lcgNext seed).2 with
    | .error x => .error x
    | .ok g' => maskCoset n (lcgNext seed).1 g' (p + 1)

/-- The mask of a list of cosets, the stream running through them in order (R124). -/
def maskCosets : List Coset → Nat → Frame → Except Raised Frame
  | [], _, g => .ok g
  | c :: cs, seed, g =>
    match maskCoset c.n seed g c.off with
    | .error x => .error x
    | .ok (seed', g') => maskCosets cs seed' g'

/-- The mask frame `G` of R124 for the corrected coset-0 value `u0`. -/
def derandMask (rom : Rom R) (c : Codec) (u0 : Nat) : Except Raised Frame :=
  maskCosets (rom.cosets c).tail ((rom.seedScale * u0) % 65536) (tab (frameBits c) (fun _ => false))

/-- `DERAND` (R124). -/
def derandStage (s : State R) : Except Raised (State R) := do
  let g ← derandMask s.rom s.codec s.work.u0.toNat
  let wf ← xorFrame s.work.wf g
  .ok { s with stage := Stage.eccn, work := { s.work with wf := wf, mask := g } }

/-- The loop of R125 from coset `i` on. -/
def correctCosets (rom : Rom R) : List Coset → Nat → Frame → List (BitVec 8) → Except Raised (Frame × List (BitVec 8))
  | [], _, f, e => .ok (f, e)
  | c :: cs, i, f, e =>
    match eccCorrect (rom.code c.code) f c.off with
    | .error x => .error x
    | .ok (f', count) => correctCosets rom cs (i + 1) f' (setArr 7 0 e i (BitVec.ofNat 8 count))

/-- `ECCN` (R125). -/
def eccnStage (s : State R) : Except Raised (State R) := do
  let (wf, e) ← correctCosets s.rom (s.rom.cosets s.codec).tail 1 s.work.wf s.work.e
  .ok { s with stage := Stage.errsum, work := { s.work with wf := wf, e := e } }

/-- `ERRSUM` (R127). -/
def errsumStage (s : State R) : State R :=
  { s with stage := Stage.w0idx,
           work := { s.work with eT := BitVec.ofNat 8 ((List.range s.ncoset).map (fun i => (s.errorAt i).toNat)).sum } }

/-- The stage after W0IDX (R255): the tone check is AMBE only. -/
def afterW0idx : Codec → BitVec 6
  | .ambe => Stage.tonechk
  | .imbe => Stage.fields

/-- `W0IDX` (R128). -/
def w0idxStage (s : State R) : Except Raised (State R) := do
  let v ← extractRom s.work.wf (s.rom.w0Idx s.codec)
  let ff ← ffFind s.rom s.codec v
  .ok { s with stage := afterW0idx s.codec,
               work := { s.work with w0Index := BitVec.ofNat 8 v, ff := ff, frameType := ff.frameType } }

/-- The classification of R130 to R132: the frame type and `forcedErasure`, from the pattern test, the table's type and
whether `eT` reaches the conflict threshold. -/
def toneClassify (tc : Bool) (table : FrameType) (high : Bool) : FrameType × Bool :=
  if tc then
    if table = .voice ∧ high = true then (.erasure, true) else (.tone, false)
  else if table = .tone then (.erasure, true)
  else (table, false)

/-- The tone metadata of R133. `TONE_ID_IDX` has 8 entries and `TONE_AMP_IDX` 7 (R272); what a ROM with a longer list does is left
open, and the model keeps the value modulo 2^8 and 2^7, the widths of R24 (DESIGN CHOICE, log entry 28); where the `TONE_CLASS` of a
defective ROM lists no class for the id, the class is discrete (DESIGN CHOICE, log entry 42). -/
def toneRead (a : AmbeRom R) (wf : Frame) : Except Raised Tone := do
  let id ← extractRom wf a.toneIdIdx
  let amp ← extractRom wf a.toneAmpIdx
  .ok { valid := true, id := BitVec.ofNat 8 id, amplitude := BitVec.ofNat 7 amp,
        cls := a.toneClass.getD (BitVec.ofNat 8 id).toNat .discrete }

/-- `TONE` as R133 computes it for a frame of the type given. -/
def toneFor (s : State R) (ft : FrameType) : Except Raised Tone :=
  if ft = .tone then toneRead s.rom.ambe s.work.wf else .ok (invalidTone s.toneCtr)

/-- `TONECHK` (R130 to R133); an IMBE instance skips it. -/
def tonechkStage (s : State R) : Except Raised (State R) :=
  match s.codec with
  | .imbe => .ok { s with stage := Stage.fields }
  | .ambe => do
    let v ← extractRom s.work.wf s.rom.ambe.toneCheckIdx
    let r := toneClassify (decide (v = s.rom.ambe.toneCheckValue)) s.work.ff.frameType
      (decide (s.rom.ambe.toneConflictErr ≤ s.work.eT.toNat))
    let tone ← toneFor s r.1
    .ok { s with stage := Stage.fields, toneCtr := s.toneCtr + 1,
                 work := { s.work with frameType := r.1, forcedErasure := r.2, tone := tone } }

/-- The values of several index lists, in order. -/
def extractAll (f : Frame) : List (List Nat) → Except Raised (List Nat)
  | [] => .ok []
  | l :: ls =>
    match extractRom f l with
    | .error x => .error x
    | .ok v =>
      match extractAll f ls with
      | .error x => .error x
      | .ok vs => .ok (v :: vs)

/-- The AMBE fields of R134. -/
def ambeFields (a : AmbeRom R) (wf : Frame) : Except Raised Fields := do
  let vuvIdx ← extractRom wf a.vuvIdx
  let gainIdx ← extractRom wf a.gainIdx
  let prba1Idx ← extractRom wf a.prba1Idx
  let prba2Idx ← extractRom wf a.prba2Idx
  let hocIdx ← extractAll wf a.hocIdx
  .ok { zeroFields with vuvIdx := vuvIdx, gainIdx := gainIdx, prba1Idx := prba1Idx, prba2Idx := prba2Idx, hocIdx := hocIdx }

/-- `IMBE_FIELDS(L, WF)` (R275): the layout of the harmonic count, each component assembled by R95. -/
def imbeFields (m : ImbeRom R) (l : Nat) (wf : Frame) : Except Raised Fields := do
  let lay ← readFrom 9 m.fields l
  let gainIdx ← extractRom wf lay.gainIdx
  let gainQ ← extractAll wf lay.gainQ
  let vuv ← extractAll wf lay.vuv
  let hocQ ← extractAll wf lay.hocQ
  .ok { zeroFields with gainIdx := gainIdx, gainQ := gainQ, vuv := vuv, hocQ := hocQ }

/-- The field record of the frame (R134). -/
def frameFields (s : State R) : Except Raised Fields :=
  match s.codec with
  | .ambe => ambeFields s.rom.ambe s.work.wf
  | .imbe => imbeFields s.rom.imbe s.work.ff.harmonicCount s.work.wf

/-- `FIELDS` (R134): not for a tone frame, nor for an IMBE frame of type `INVALID`. -/
def fieldsStage (s : State R) : Except Raised (State R) :=
  if s.work.frameType = .tone ∨ (s.codec = .imbe ∧ s.work.frameType = .invalid) then
    .ok { s with stage := Stage.repeatchk }
  else do
    let fld ← frameFields s
    .ok { s with stage := Stage.repeatchk, work := { s.work with fld := fld } }

/-! ### Meanings -/

def execLoad (s : State R) (P : OpenParams R := by exact Sys2Proof.Machine.openParams) :
    Host.Outcome (State R) Fault Refusal :=
  settle s (loadStage s) P
def execPartition (s : State R) (P : OpenParams R := by exact Sys2Proof.Machine.openParams) :
    Host.Outcome (State R) Fault Refusal :=
  settle s (partitionStage s) P
def execEcc0 (s : State R) (P : OpenParams R := by exact Sys2Proof.Machine.openParams) :
    Host.Outcome (State R) Fault Refusal :=
  settle s (ecc0Stage s) P
def execDerand (s : State R) (P : OpenParams R := by exact Sys2Proof.Machine.openParams) :
    Host.Outcome (State R) Fault Refusal :=
  settle s (derandStage s) P
def execEccn (s : State R) (P : OpenParams R := by exact Sys2Proof.Machine.openParams) :
    Host.Outcome (State R) Fault Refusal :=
  settle s (eccnStage s) P
def execErrsum (s : State R) : Host.Outcome (State R) Fault Refusal :=
  .next (errsumStage s)
def execW0idx (s : State R) (P : OpenParams R := by exact Sys2Proof.Machine.openParams) :
    Host.Outcome (State R) Fault Refusal :=
  settle s (w0idxStage s) P
def execTonechk (s : State R) (P : OpenParams R := by exact Sys2Proof.Machine.openParams) :
    Host.Outcome (State R) Fault Refusal :=
  settle s (tonechkStage s) P
def execFields (s : State R) (P : OpenParams R := by exact Sys2Proof.Machine.openParams) :
    Host.Outcome (State R) Fault Refusal :=
  settle s (fieldsStage s) P

end Sys2Proof.Machine
end

