-- ==== Sys2Proof/Machine/ModelParameters.lean ====
section
/-! DEFINITION. The Model Parameter Decoder (spec/43_model_params.md): stages 10 to 17. The rules over `Real` are written
once, over any numerics; the stage bodies read them at the arguments of the machine. -/

namespace Sys2Proof.Machine

variable {R : Type}

section generic
variable [N : Num R]

/-- The repeat check of R145. -/
def repeatCheck (c : Codec) (ft : FrameType) (e0 eT : Nat) (prevRate : R) : Bool :=
  decide (ft = .erasure)
    || decide (4 ≤ e0)
    || (decide (c = .ambe) && decide (2 ≤ e0) && decide (6 ≤ eT))
    || (decide (c = .imbe) && Num.le (Literal.repeatBase + Literal.repeatSlope * prevRate) (ri eT))
    || (decide (c = .imbe) && decide (ft = .invalid))

/-- The error-rate update of R150. -/
def errorRateNext (c : Codec) (prevRate : R) (eT : Nat) : R :=
  Literal.errorDecay * prevRate + Literal.errorGain c * ri eT

/-- The AMBE gain of R153: the table's differential value and half the previous frame's gain. -/
def ambeGain (diff prevGain : R) : R := diff + Literal.half * prevGain

/-- `IDCT` (R159) of `X[1..n]`: entry `j - 1` of the result is `y[j]`. -/
def idct (xs : List R) : List R :=
  tab xs.length (fun j =>
    sum0 xs.length (fun k =>
      (if k = 0 then ri 1 else ri 2) * rd xs k
        * Num.cos (Num.pi * ri k * (ri (j + 1) - Literal.half) / ri xs.length)))

/-- The AMBE voicing band of harmonic `l` (R155). -/
def bandIndex (w0 : R) (l : Nat) : Int := Num.floor (ri l * w0 * ri 16 / (ri 2 * Num.pi))

/-- `P[l]` (R161): the previous frame's log2 curve at the scaled position, in the integer form of `kl` and `dl`. -/
def interpolated (prev : ModelParams R) (lc l : Nat) : R :=
  let kl := lOf prev * l / lc
  let dl : R := ri ((lOf prev * l % lc : Nat) : Int) / ri lc
  (ri 1 - dl) * log2At prev kl + dl * log2At prev (kl + 1)

/-- The block-mean correction term of R165. -/
def interpolatedMean (prev : ModelParams R) (lc : Nat) : R :=
  ri 1 / ri lc * sum1 lc (interpolated prev lc)

/-- `CMP.log2SpectralAmplitudes[l]` (R165); entry `l - 1` of `t` is `T[l]`. R157 has the block lengths add up to `Lc`; where those of a
defective ROM do not, a missing `T[l]` reads 0 and a surplus one is read by no harmonic (DESIGN CHOICE, log entry 42). -/
def log2Amplitude (F : RomFns R) (c : Codec) (prev : ModelParams R) (gain : R) (lc : Nat) (t : List R) (l : Nat) : R :=
  let rho := F.predCoef c lc
  rd t (l - 1) + rho * interpolated prev lc l - rho * interpolatedMean prev lc + F.gainTerm c gain lc t

/-- `CMP.spectralAmplitudes[l]` (R166). -/
def linearAmplitude (F : RomFns R) (c : Codec) (w0 : R) (voiced : Bool) (log2 : R) : R :=
  let m := Num.exp (Num.ln2 * log2)
  if voiced then m else m * F.uvAtten c w0

/-- `CMP` after PREDICT (R161 to R167). -/
def predictParams (F : RomFns R) (c : Codec) (prev cmp : ModelParams R) (t : List R) : ModelParams R :=
  let lc := lOf cmp
  let logs := tab phaseLen (fun l => if 1 ≤ l ∧ l ≤ lc then log2Amplitude F c prev cmp.gain lc t l else ri 0)
  { cmp with
    log2SpectralAmplitudes := logs
    spectralAmplitudes := tab phaseLen (fun l =>
      if 1 ≤ l ∧ l ≤ lc then linearAmplitude F c (w0Of cmp) (cmp.voicingDecisions.getD l false) (rd logs l) else ri 0) }

end generic

/-! ### Stage bodies -/

/-- The stage after REPEATCHK (R145, R255). -/
def afterRepeatchk (rep : Bool) (ft : FrameType) : BitVec 6 :=
  if rep then Stage.repeatFrame else if ft = .tone then Stage.toneset else Stage.mpnew

/-- The working value `repeat` of this frame (R145). -/
def State.repeatNow (s : State R) (P : OpenParams R := by exact Sys2Proof.Machine.openParams) : Bool :=
  repeatCheck (N := P.toNum) s.codec s.work.frameType (s.errorAt 0).toNat s.work.eT.toNat s.pmp.errorRate

/-- `REPEATCHK` (R145). -/
def repeatchkStage (s : State R) (P : OpenParams R := by exact Sys2Proof.Machine.openParams) : State R :=
  { s with stage := afterRepeatchk (s.repeatNow P) s.work.frameType,
           work := { s.work with repeatFlag := s.repeatNow P } }

/-- `REPEAT` (R146). -/
def repeatStage (s : State R) : State R :=
  if muteRepeats ≤ s.pmp.repeatCount then
    { s with stage := Stage.noise, work := { s.work with cmp := s.rom.mpDefault s.codec, muted := true } }
  else
    { s with stage := Stage.noise,
             work := { s.work with cmp := { s.pmp with repeatCount := s.pmp.repeatCount + 1 }, muted := false } }

/-- `TONESET` (R148). -/
def tonesetStage (s : State R) (P : OpenParams R := by exact Sys2Proof.Machine.openParams) : State R :=
  { s with stage := Stage.noise,
           work := { s.work with
             cmp := { s.rom.ambe.mpDefault with
               frameType := .tone
               repeatCount := 0
               errorRate := errorRateNext (N := P.toNum) .ambe s.pmp.errorRate s.work.eT.toNat
               errorCountTotal := s.work.eT
               errorCount := s.errorCounts } } }

/-- `MPNEW` (R149, R150). -/
def mpnewStage (s : State R) (P : OpenParams R := by exact Sys2Proof.Machine.openParams) : State R :=
  { s with stage := Stage.gain,
           work := { s.work with
             cmp := { s.pmp with
               fundamentalFrequency := s.work.ff
               frameType := s.work.frameType
               repeatCount := 0
               errorCountTotal := s.work.eT
               errorCount := s.errorCounts
               voicingDecisions := tab phaseLen (fun _ => false)
               log2SpectralAmplitudes := tab phaseLen (fun _ => P.ofInt 0)
               spectralAmplitudes := tab phaseLen (fun _ => P.ofInt 0)
               enhancedSpectralAmplitudes := tab phaseLen (fun _ => P.ofInt 0)
               errorRate := errorRateNext (N := P.toNum) s.codec s.pmp.errorRate s.work.eT.toNat } } }

/-- The gain vector of an IMBE frame (R152); entry `m - 1` is `G[m]`. Where the ROM's layout has fewer than five `gainQ` lists
the spec is silent: the missing entry reads 0 (DESIGN CHOICE, log entry 42). -/
def imbeGainVector (first : R) (lc : Nat) (q : List Nat)
    (P : OpenParams R := by exact Sys2Proof.Machine.openParams) : List R :=
  first :: tab 5 (fun m => P.imbeGainDeq (m + 2) lc (q.getD m 0))

/-- `GAIN` (R152, R153). -/
def gainStage (s : State R) (P : OpenParams R := by exact Sys2Proof.Machine.openParams) :
    Except Raised (State R) :=
  match s.codec with
  | .imbe => do
    let first ← readTable s.rom.imbe.gainTable s.work.fld.gainIdx
    let g := imbeGainVector first s.work.ff.harmonicCount s.work.fld.gainQ P
    .ok { s with stage := Stage.voicing,
                 work := { s.work with gvec := g, rg := idct (N := P.toNum) g, cmp := { s.work.cmp with gain := first } } }
  | .ambe => do
    let diff ← readTable s.rom.ambe.dgain s.work.fld.gainIdx
    let g := tab 8 (fun m => P.prbaVector s.work.fld.prba1Idx s.work.fld.prba2Idx (m + 1))
    .ok { s with stage := Stage.voicing,
                 work := { s.work with gvec := g, rg := idct (N := P.toNum) g,
                                       cmp := { s.work.cmp with gain := ambeGain (N := P.toNum) diff s.pmp.gain } } }

/-- A read of the voicing vector at a computed band (R155, R168). R280 gives a row eight bools; what a row of another length does is
left open, and the model takes the row as it is, raising beyond its own end (DESIGN CHOICE, log entry 42). -/
def readBand (row : List Bool) (band : Int) : Except Raised Bool :=
  if 0 ≤ band ∧ band < row.length then .ok (row.getD band.toNat false) else .error ⟨.codebookIndex, band⟩

/-- The AMBE voicing flags of the harmonics listed (R155). -/
def ambeVoicing (row : List Bool) (w0 : R) (ls : List Nat)
    (P : OpenParams R := by exact Sys2Proof.Machine.openParams) : Except Raised (List Bool) :=
  match ls with
  | [] => .ok []
  | l :: ls =>
    match readBand row (bandIndex (N := P.toNum) w0 l) with
    | .error x => .error x
    | .ok v =>
      match ambeVoicing row w0 ls P with
      | .error x => .error x
      | .ok vs => .ok (v :: vs)

/-- The IMBE voicing flags of the harmonics listed (R156). -/
def imbeVoicing (row : List Nat) (vuv : List Nat) : List Nat → Except Raised (List Bool)
  | [] => .ok []
  | l :: ls =>
    match readFrom 1 row l with
    | .error x => .error x
    | .ok band =>
      match readFrom 1 vuv band with
      | .error x => .error x
      | .ok b =>
        match imbeVoicing row vuv ls with
        | .error x => .error x
        | .ok vs => .ok (decide (b = 1) :: vs)

/-- The harmonics `1 .. lc`, ascending. -/
def harmonics (lc : Nat) : List Nat := tab lc (fun i => i + 1)

/-- A voicing array with the flags of the harmonics `1 .. lc`; false elsewhere. -/
def voicingArray (lc : Nat) (vs : List Bool) : List Bool :=
  tab phaseLen (fun l => decide (1 ≤ l) && decide (l ≤ lc) && vs.getD (l - 1) false)

/-- The voicing flags of the frame (R155, R156), by harmonic from 1 on. -/
def voicingFlags (s : State R) (P : OpenParams R := by exact Sys2Proof.Machine.openParams) :
    Except Raised (List Bool) :=
  match s.codec with
  | .ambe => do
    let row ← readTable s.rom.ambe.vuv s.work.fld.vuvIdx
    let vs ← ambeVoicing row s.work.ff.frequency (harmonics s.work.ff.harmonicCount) P
    .ok (if s.work.frameType = .silence ∧ s.rom.ambe.silenceForceUnvoiced = true then vs.map (fun _ => false) else vs)
  | .imbe => do
    let k ← readFrom 9 s.rom.imbe.bandCount s.work.ff.harmonicCount
    let row ← readFrom 1 s.rom.imbe.vuvBand k
    imbeVoicing row s.work.fld.vuv (harmonics s.work.ff.harmonicCount)

/-- `VOICING` (R155, R156). -/
def voicingStage (s : State R) (P : OpenParams R := by exact Sys2Proof.Machine.openParams) :
    Except Raised (State R) := do
  let vs ← voicingFlags s P
  .ok { s with stage := Stage.resid,
               work := { s.work with cmp := { s.work.cmp with voicingDecisions := voicingArray s.work.ff.harmonicCount vs } } }

/-- How many leading coefficients `BLOCK_LEAD` returns for block `i` (R283: "one or two values"): two for AMBE, whose
codebook values begin at coefficient 3 (R284; log entry 33), open for IMBE. -/
def leadLength (c : Codec) (i : Nat) (rg : List R)
    (P : OpenParams R := by exact Sys2Proof.Machine.openParams) : Nat :=
  match c with
  | .ambe => 2
  | .imbe => if P.imbeLeadPair i rg then 2 else 1

/-- An AMBE coefficient beyond the lead (R284): 0 past the entry's last value. -/
def ambeHocCoef (entry : List R) (k : Nat) (P : OpenParams R := by exact Sys2Proof.Machine.openParams) :
    R :=
  if 3 ≤ k then entry.getD (k - 3) (P.ofInt 0) else P.ofInt 0

/-- The coefficients of block `i` of length `j` (R158); the codebook is read where the block is longer than its lead.
R272 and R284 give the ROM four `HOC` index lists and codebooks, of entries of 2 to 4 values. What a defective ROM does is left
open: a missing index reads 0, a missing codebook raises `CodebookIndex` with the number of the block, an entry has the values it
lists (DESIGN CHOICE, log entry 42). -/
def blockCoefs (s : State R) (i j : Nat) (P : OpenParams R := by exact Sys2Proof.Machine.openParams) :
    Except Raised (List R) :=
  let lead := fun k => P.blockLead s.codec i k s.work.rg
  match s.codec with
  | .imbe =>
    .ok (tab j (fun k0 => if k0 + 1 ≤ leadLength .imbe i s.work.rg P then lead (k0 + 1)
      else P.hocCoefImbe i (k0 + 1) s.work.fld.hocQ s.work.ff.harmonicCount))
  | .ambe =>
    if j ≤ leadLength .ambe i s.work.rg P then .ok (tab j (fun k0 => lead (k0 + 1)))
    else do
      let table ← readFrom 1 s.rom.ambe.hoc i
      let entry ← readTable table (s.work.fld.hocIdx.getD (i - 1) 0)
      .ok (tab j (fun k0 => if k0 + 1 ≤ leadLength .ambe i s.work.rg P then lead (k0 + 1) else ambeHocCoef entry (k0 + 1) P))

/-- The coefficients of the blocks from `i` on (R158). -/
def allCoefs (s : State R) (i : Nat) (js : List Nat)
    (P : OpenParams R := by exact Sys2Proof.Machine.openParams) : Except Raised (List (List R)) :=
  match js with
  | [] => .ok []
  | j :: js =>
    match blockCoefs s i j P with
    | .error x => .error x
    | .ok c =>
      match allCoefs s (i + 1) js P with
      | .error x => .error x
      | .ok cs => .ok (c :: cs)

/-- `RESID` (R157, R158, R160); entry `l - 1` of `tres` is `T[l]`. Where a `JBLOCK` row has fewer than `NJBLOCK` lengths the
spec is silent: the stage runs the blocks the row lists and raises nothing, nor does it where a length is 0 or the lengths do not
add up to `Lc`, which R157 rules out (DESIGN CHOICE, log entry 42); a length of 64 or more is one modulo 64, the six bits of R17
(DESIGN CHOICE, log entry 28). A legal ROM has none of these (R282). -/
def residStage (s : State R) (P : OpenParams R := by exact Sys2Proof.Machine.openParams) :
    Except Raised (State R) := do
  let row ← readFrom 9 (s.rom.jblock s.codec) s.work.ff.harmonicCount
  let js := (row.take (njblock s.codec)).map (BitVec.ofNat 6)
  let cs ← allCoefs s 1 (js.map (·.toNat)) P
  .ok { s with stage := Stage.predict,
               work := { s.work with jlen := js, coef := cs, tres := (cs.map (idct (N := P.toNum))).flatten } }

/-- `PREDICT` (R161, R165 to R167). -/
def predictStage (s : State R) (P : OpenParams R := by exact Sys2Proof.Machine.openParams) : State R :=
  { s with stage := Stage.enhance,
           work := { s.work with cmp := predictParams (N := P.toNum) P.toRomFns s.codec s.pmp s.work.cmp s.work.tres } }

/-! ### Meanings -/

def execRepeatchk (s : State R) (P : OpenParams R := by exact Sys2Proof.Machine.openParams) : Host.Outcome (State R) Fault Refusal :=
  .next (repeatchkStage s P)
def execRepeatFrame (s : State R) : Host.Outcome (State R) Fault Refusal :=
  .next (repeatStage s)
def execToneset (s : State R) (P : OpenParams R := by exact Sys2Proof.Machine.openParams) : Host.Outcome (State R) Fault Refusal :=
  .next (tonesetStage s P)
def execMpnew (s : State R) (P : OpenParams R := by exact Sys2Proof.Machine.openParams) : Host.Outcome (State R) Fault Refusal :=
  .next (mpnewStage s P)
def execGain (s : State R) (P : OpenParams R := by exact Sys2Proof.Machine.openParams) :
    Host.Outcome (State R) Fault Refusal :=
  settle s (gainStage s P) P
def execVoicing (s : State R) (P : OpenParams R := by exact Sys2Proof.Machine.openParams) :
    Host.Outcome (State R) Fault Refusal :=
  settle s (voicingStage s P) P
def execResid (s : State R) (P : OpenParams R := by exact Sys2Proof.Machine.openParams) :
    Host.Outcome (State R) Fault Refusal :=
  settle s (residStage s P) P
def execPredict (s : State R) (P : OpenParams R := by exact Sys2Proof.Machine.openParams) : Host.Outcome (State R) Fault Refusal :=
  .next (predictStage s P)

end Sys2Proof.Machine
end

