-- ==== Sys2Proof/Machine/EnhanceSmooth.lean ====
section
/-! DEFINITION. The Spectral Enhancer and the Adaptive Smoother (spec/44_enhance_smooth.md): stages 18 and 19. -/

namespace Sys2Proof.Machine

variable {R : Type}

section generic
variable [N : Num R]

/-- `RM0` (R181) of the amplitudes `m 1 .. m L`. -/
def moment0 (lc : Nat) (m : Nat → R) : R := sum1 lc (fun l => m l * m l)

/-- `RM1` (R181). -/
def moment1 (w0 : R) (lc : Nat) (m : Nat → R) : R := sum1 lc (fun l => m l * m l * Num.cos (w0 * ri l))

/-- The denominator of the weight (R182). -/
def weightDenominator (w0 rm0 rm1 : R) : R := w0 * rm0 * (rm0 * rm0 - rm1 * rm1)

/-- The numerator of the weight at harmonic `l` (R182). -/
def weightNumerator (w0 rm0 rm1 : R) (l : Nat) : R :=
  Num.pi * Literal.weightFactor * (rm0 * rm0 + rm1 * rm1 - ri 2 * rm0 * rm1 * Num.cos (w0 * ri l))

/-- `W[l]` (R182); at a zero denominator it is the free value `free l` (U4). -/
def weightAt (free : Nat → R) (w0 rm0 rm1 : R) (m : Nat → R) (l : Nat) : R :=
  if Num.eq (weightDenominator w0 rm0 rm1) (ri 0) then free l
  else Num.sqrt (m l) * Num.pow (weightNumerator w0 rm0 rm1 l / weightDenominator w0 rm0 rm1) Literal.weightPower

/-- The shaping of R183. -/
def shapeAt (lc l : Nat) (amp w : R) : R :=
  if 8 * l ≤ lc then amp
  else if Num.lt Literal.shapeHigh w then amp * Literal.shapeHigh
  else if Num.lt w Literal.shapeLow then amp * Literal.shapeLow
  else amp * w

/-- The renormalisation factor of R184 for the shaped amplitudes `e`. -/
def renormFactor (rm0 : R) (lc : Nat) (e : Nat → R) : R := Num.sqrt (rm0 / sum1 lc (fun l => e l * e l))

/-- `CMP.localEnergy` (R185). -/
def localEnergyNext (prevEnergy rm0 : R) : R :=
  maxR Literal.energyFloor (Literal.energyKeep * prevEnergy + Literal.energyNew * rm0)

/-- An amplitude array whose elements `1 .. lc` are given; the others are 0. -/
def amplitudeArray (lc : Nat) (e : Nat → R) : List R := tab phaseLen (fun l => if 1 ≤ l ∧ l ≤ lc then e l else ri 0)

/-- What ENHANCE leaves in the working registers and in `CMP`. -/
structure Enhanced (R : Type) where
  rm0 : R
  rm1 : R
  weights : List R
  cmp : ModelParams R

/-- `ENHANCE` (R180 to R185) on `CMP`: `prevEnergy` is `PMP.localEnergy`, `oldWeights` what `W` holds where step 2 does not
run. -/
def enhanceParams (free : Nat → R) (prevEnergy : R) (oldWeights : List R) (p : ModelParams R) : Enhanced R :=
  let lc := lOf p
  let w0 := w0Of p
  let m := fun l => rd p.spectralAmplitudes l
  let rm0 := moment0 lc m
  let rm1 := moment1 w0 lc m
  if Num.eq rm0 (ri 0) then
    { rm0 := rm0, rm1 := rm1, weights := oldWeights,
      cmp := { p with enhancedSpectralAmplitudes := amplitudeArray lc (fun _ => ri 0) } }
  else
    let w := weightAt free w0 rm0 rm1 m
    let e := fun l => shapeAt lc l (m l) (w l)
    let g := renormFactor rm0 lc e
    { rm0 := rm0, rm1 := rm1, weights := tab lc (fun i => w (i + 1)),
      cmp := { p with
        enhancedSpectralAmplitudes := amplitudeArray lc (fun l => e l * g)
        localEnergy := localEnergyNext prevEnergy rm0 } }

/-- `VM` (R188); `none` is `+infinity`. -/
def voicingThreshold (rate : R) (eT cosetCount : Nat) (energy : R) : Option R :=
  if Num.le rate Literal.rateLow && decide (eT ≤ 4) then none
  else if Num.le rate Literal.rateMid && decide (cosetCount = 0) then
    some (Literal.thresholdMid * Num.pow energy Literal.thresholdPower / Num.exp (Literal.thresholdDecay * rate))
  else some (Literal.thresholdHigh * Num.pow energy Literal.thresholdPower)

/-- Whether an amplitude exceeds `VM` (R189); none exceeds infinity. -/
def exceeds (amp : R) : Option R → Bool
  | none => false
  | some v => Num.lt v amp

/-- `Tm` (R190): no clamp (U6). -/
def amplitudeCeiling (F : RomFns R) (c : Codec) (rate : R) (eT : Nat) (prevTm : R) : R :=
  if Num.le rate Literal.rateLow && decide (eT ≤ 6) then Literal.ceilingClean
  else
    match c with
    | .imbe => Literal.ceilingBase - Literal.ceilingSlope * ri eT + prevTm
    | .ambe => F.tmElseAmbe eT prevTm

/-- `AM` (R191). -/
def amplitudeSum (lc : Nat) (e : Nat → R) : R := sum1 lc e

/-- The amplitude bound of R191. -/
def boundAmplitude (am tm amp : R) : R := if Num.lt tm am then amp * (tm / am) else amp

/-- What SMOOTH leaves in the working registers and in `CMP`. -/
structure Smoothed (R : Type) where
  vm : Option R
  tm : R
  am : R
  cmp : ModelParams R

/-- `SMOOTH` (R187 to R192) on `CMP`: `cosetCount` is `e[SMOOTH_COSET]`, `prevTm` is `PMP.amplitudeThreshold`. -/
def smoothParams (F : RomFns R) (c : Codec) (eT cosetCount : Nat) (prevTm : R) (p : ModelParams R) : Smoothed R :=
  let lc := lOf p
  let e := fun l => rd p.enhancedSpectralAmplitudes l
  let vm := voicingThreshold p.errorRate eT cosetCount p.localEnergy
  let tm := amplitudeCeiling F c p.errorRate eT prevTm
  let am := amplitudeSum lc e
  { vm := vm, tm := tm, am := am,
    cmp := { p with
      voicingDecisions := tab phaseLen (fun l =>
        p.voicingDecisions.getD l false || (decide (1 ≤ l) && decide (l ≤ lc) && exceeds (e l) vm))
      enhancedSpectralAmplitudes := amplitudeArray lc (fun l => boundAmplitude am tm (e l))
      amplitudeThreshold := tm } }

end generic

/-! ### Stage bodies -/

/-- `ENHANCE` (R180). A free value is taken once for the whole stage. -/
def enhanceStage (s : State R) (P : OpenParams R := by exact Sys2Proof.Machine.openParams) : State R :=
  let r := enhanceParams (N := P.toNum) (P.freeWeight s.freeCtr) s.pmp.localEnergy s.work.weights s.work.cmp
  { s with stage := Stage.smooth, freeCtr := s.freeCtr + 1,
           work := { s.work with rm0 := r.rm0, rm1 := r.rm1, weights := r.weights, cmp := r.cmp } }

/-- `SMOOTH` (R187). -/
def smoothStage (s : State R) (P : OpenParams R := by exact Sys2Proof.Machine.openParams) : State R :=
  let r := smoothParams (N := P.toNum) P.toRomFns s.codec s.work.eT.toNat (s.errorAt (s.rom.smoothCoset s.codec)).toNat
    s.pmp.amplitudeThreshold s.work.cmp
  { s with stage := Stage.noise, work := { s.work with vm := r.vm, tm := r.tm, am := r.am, cmp := r.cmp } }

/-! ### Meanings -/

def execEnhance (s : State R) (P : OpenParams R := by exact Sys2Proof.Machine.openParams) : Host.Outcome (State R) Fault Refusal :=
  .next (enhanceStage s P)
def execSmooth (s : State R) (P : OpenParams R := by exact Sys2Proof.Machine.openParams) : Host.Outcome (State R) Fault Refusal :=
  .next (smoothStage s P)

end Sys2Proof.Machine
end

