-- ==== Sys2Proof/Machine/Unvoiced.lean ====
section
/-! DEFINITION. The Synthesizer's unvoiced component (spec/45_synth_unvoiced.md): stages 20 and 21. -/

namespace Sys2Proof.Machine

variable {R : Type}

section generic
variable [N : Num R]

/-- The angle `2*pi*m*(i-128)/256` of R205 and R209. -/
def xformAngle (m i : Nat) : R := ri 2 * Num.pi * ri m * ri ((i : Int) - 128) / ri 256

/-- `XFORM.FWD` (R205): the bins `UW[0..255]`, real and imaginary part. `NUM` has no complex arithmetic: the two parts are summed
apart, of the terms `x*cos` and `0 - x*sin` (DESIGN CHOICE, log entry 6). -/
def xformForward (x : List R) : List (R × R) :=
  tab xformLen (fun m =>
    (sum0 xformLen (fun i => rd x i * Num.cos (xformAngle m i)),
     sum0 xformLen (fun i => ri 0 - rd x i * Num.sin (xformAngle m i))))

/-- Bin `m` of a spectrum; 0 where it has none. -/
def binAt (u : List (R × R)) (m : Nat) : R × R := u.getD m (ri 0, ri 0)

/-- `XFORM.INV` (R209): the real part of the inverse transform, summed of the terms `re*cos - im*sin`; the imaginary part is not
formed (DESIGN CHOICE, log entry 6). -/
def xformInverse (u : List (R × R)) : List R :=
  tab xformLen (fun i =>
    ri 1 / ri 256 * sum0 xformLen (fun m =>
      (binAt u m).1 * Num.cos (xformAngle m i) - (binAt u m).2 * Num.sin (xformAngle m i)))

/-- The windowed noise `x[i]` (R204). -/
def windowNoise (ws : List R) (buf : List Nat) : List R :=
  tab xformLen (fun i => ri (buf.getD i 0 : Nat) * windowAt ws ((i : Int) - 128))

/-- `lo(l)` and `hi(l)` (R206). -/
def bandLo (w0 : R) (l : Nat) : Int := Num.ceil (ri 256 / (ri 2 * Num.pi) * (ri l - Literal.half) * w0)
def bandHi (w0 : R) (l : Nat) : Int := Num.ceil (ri 256 / (ri 2 * Num.pi) * (ri l + Literal.half) * w0)

/-- Whether harmonic band `l` owns bin `m` (R206). -/
def ownsBin (w0 : R) (l m : Nat) : Bool := decide (bandLo w0 l ≤ m) && decide ((m : Int) < bandHi w0 l)

/-- `|z|^2` (R207). -/
def normSq (z : R × R) : R := z.1 * z.1 + z.2 * z.2

/-- The mean squared bin energy of band `l` (R207). -/
def bandEnergy (u : List (R × R)) (w0 : R) (l : Nat) : R :=
  let lo := bandLo w0 l
  let cnt := (bandHi w0 l - lo).toNat
  sum0 cnt (fun i => normSq (binAt u (lo + i).toNat)) / ri cnt

/-- `sc[l]` (R207); at a zero mean squared bin energy it is the free value `free l` (U5). -/
def bandScale (free : Nat → R) (gammaW : R) (u : List (R × R)) (w0 : R) (amp : R) (l : Nat) : R :=
  if Num.eq (bandEnergy u w0 l) (ri 0) then free l else gammaW * amp / Num.sqrt (bandEnergy u w0 l)

/-- The complex conjugate. -/
def conj (z : R × R) : R × R := (z.1, ri 0 - z.2)

/-- A bin of 0 .. 128 after shaping (R208). R208 asks only that some band owns the bin; where two do, which the ceilings of an
uninterpreted `NUM` do not rule out, the lowest band decides (DESIGN CHOICE, log entry 44). The scale multiplies the two parts apart
(DESIGN CHOICE, log entry 6). -/
def shapedBin (free : Nat → R) (gammaW : R) (p : ModelParams R) (u : List (R × R)) (m : Nat) : R × R :=
  match (tab (lOf p) (fun i => i + 1)).find? (fun l => ownsBin (w0Of p) l m) with
  | some l =>
    if voicedAt p l then (ri 0, ri 0)
    else
      let sc := bandScale free gammaW u (w0Of p) (enhancedAt p l) l
      (sc * (binAt u m).1, sc * (binAt u m).2)
  | none => (ri 0, ri 0)

/-- `UW'` (R208). -/
def shapeSpectrum (free : Nat → R) (gammaW : R) (p : ModelParams R) (u : List (R × R)) : List (R × R) :=
  tab xformLen (fun m => if m ≤ 128 then shapedBin free gammaW p u m else conj (shapedBin free gammaW p u (256 - m)))

/-- `suv[n]` (R210). -/
def overlapAdd (ws prevUw uw : List R) (n : Nat) : R :=
  let a := windowAt ws n
  let b := windowAt ws ((n : Int) - 160)
  let p := if n + 128 ≤ 255 then rd prevUw (n + 128) else ri 0
  let c := if 32 ≤ n then rd uw (n - 32) else ri 0
  (a * p + b * c) / (a * a + b * b)

end generic

/-! ### Stage bodies -/

/-- The rolling noise buffer after R201: the newest 96 samples move down, 160 new ones follow. -/
def rollNoise (buf : List Nat) (reg : Nat) : List Nat :=
  tab 96 (fun i => buf.getD (i + 160) 0) ++ noiseRun nsamp reg

/-- `NOISE` (R201). -/
def noiseStage (s : State R) : State R :=
  { s with stage := Stage.unvoiced,
           ss := { s.ss with noiseBuf := rollNoise s.ss.noiseBuf s.ss.noiseReg, noiseReg := noiseIter nsamp s.ss.noiseReg } }

/-- `UNVOICED` (R203 to R210). A free value is taken once for the whole stage. -/
def unvoicedStage (s : State R) (P : OpenParams R := by exact Sys2Proof.Machine.openParams) : State R :=
  let x := windowNoise (N := P.toNum) s.rom.window s.ss.noiseBuf
  let u := xformForward (N := P.toNum) x
  let v := shapeSpectrum (N := P.toNum) (P.freeScale s.freeCtr) s.rom.gammaW s.work.cmp u
  let uw := xformInverse (N := P.toNum) v
  { s with stage := Stage.phase, freeCtr := s.freeCtr + 1,
           work := { s.work with x := x, spec := u, uwShaped := v, uw := uw,
                                 suv := tab nsamp (overlapAdd (N := P.toNum) s.rom.window s.ss.prevUw uw) } }

/-! ### Meanings -/

def execNoise (s : State R) : Host.Outcome (State R) Fault Refusal :=
  .next (noiseStage s)
def execUnvoiced (s : State R) (P : OpenParams R := by exact Sys2Proof.Machine.openParams) : Host.Outcome (State R) Fault Refusal :=
  .next (unvoicedStage s P)

end Sys2Proof.Machine
end

