-- ==== Sys2Proof/Machine/Voiced.lean ====
section
/-! DEFINITION. The Synthesizer's voiced component and the output (spec/46_synth_voiced.md): stages 22 to 24. -/

namespace Sys2Proof.Machine

variable {R : Type}

/-- The reconstruction branches of R225. -/
inductive Branch where
  | none
  | fadeOut
  | fadeIn
  | twoCos
  | smooth
deriving DecidableEq, Repr

/-- `branch(l)` (R225). -/
def branchOf (vp vc jump : Bool) (l : Nat) : Branch :=
  match vp, vc with
  | false, false => .none
  | true, false => .fadeOut
  | false, true => .fadeIn
  | true, true => if 8 ≤ l ∨ jump = true then .twoCos else .smooth

section generic
variable [N : Num R]

/-- `Lmax` -/
def lMax (prev cmp : ModelParams R) : Nat := max (lOf cmp) (lOf prev)

/-- `pv[l]` (R221) for `l` in `1 .. Lmax`. -/
def trackedPhase (prev cmp : ModelParams R) (phaseV : List R) (l : Nat) : R :=
  rd phaseV l + (w0Of prev + w0Of cmp) * ri 80 * ri l

/-- `pv[0..56]` (R221): harmonics above `Lmax` keep their phase. -/
def trackedPhases (prev cmp : ModelParams R) (phaseV : List R) : List R :=
  tab phaseLen (fun l => if 1 ≤ l ∧ l ≤ lMax prev cmp then trackedPhase prev cmp phaseV l else rd phaseV l)

/-- `thr` (R222) -/
def quarterThreshold (cmp : ModelParams R) : Nat := lOf cmp / 4

/-- `Luv` (R222): the unvoiced harmonics of the current frame. -/
def unvoicedCount (cmp : ModelParams R) : Nat :=
  ((tab (lOf cmp) (fun i => i + 1)).filter (fun l => !voicedAt cmp l)).length

/-- How many draws a DECODE makes (R222). -/
def drawCount (prev cmp : ModelParams R) : Nat := lMax prev cmp - quarterThreshold cmp

/-- `po[l]` (R222) for `l` in `1 .. Lmax`; `draw j` is the `j`-th draw of this DECODE, counting from 0. -/
def oscillatorPhase (draw : Nat → R) (cmp : ModelParams R) (pv : List R) (l : Nat) : R :=
  if l ≤ quarterThreshold cmp then rd pv l
  else rd pv l + ri (unvoicedCount cmp : Nat) / ri (lOf cmp) * draw (l - quarterThreshold cmp - 1)

/-- `po[0..56]` (R220, R222). -/
def oscillatorPhases (draw : Nat → R) (prev cmp : ModelParams R) (pv phaseO : List R) : List R :=
  tab phaseLen (fun l => if 1 ≤ l ∧ l ≤ lMax prev cmp then oscillatorPhase draw cmp pv l else rd phaseO l)

/-- `JUMP` (R225). -/
def pitchJump (ratio w0p w0c : R) : Bool := Num.le (ratio * w0c) (absR (w0c - w0p))

/-- The fade-out cosine of R228. -/
def fadeOut (ws : List R) (mp w0p phaseO : R) (l n : Nat) : R :=
  windowAt ws n * mp * Num.cos (w0p * ri n * ri l + phaseO)

/-- The fade-in cosine of R229. -/
def fadeIn (ws : List R) (mc w0c po : R) (l n : Nat) : R :=
  windowAt ws ((n : Int) - 160) * mc * Num.cos (w0c * ri ((n : Int) - 160) * ri l + po)

/-- `dphi` (R231). -/
def phaseDifference (w0p w0c phaseO po : R) (l : Nat) : R := po - phaseO - (w0p + w0c) * ri l * ri 80

/-- `dw` (R231): the difference wrapped to `[-pi, pi)`, per sample. -/
def phaseCorrection (dphi : R) : R :=
  ri 1 / ri 160 * (dphi - ri 2 * Num.pi * ri (Num.floor ((dphi + Num.pi) / (ri 2 * Num.pi))))

/-- `theta(n)` (R231). -/
def smoothTheta (w0p w0c phaseO po : R) (l n : Nat) : R :=
  phaseO + (w0p * ri l + phaseCorrection (phaseDifference w0p w0c phaseO po l)) * ri n
    + (w0c - w0p) * ri l * ri ((n * n : Nat) : Int) / ri 320

/-- The interpolated amplitude of R231. -/
def smoothAmplitude (mp mc : R) (n : Nat) : R := mp + ri n / ri 160 * (mc - mp)

/-- `s[l][n]` (R225, R227 to R231). -/
def contribution (ws : List R) (ratio : R) (prev cmp : ModelParams R) (phaseO po : List R) (l n : Nat) : R :=
  let w0p := w0Of prev
  let w0c := w0Of cmp
  let mp := enhancedAt prev l
  let mc := enhancedAt cmp l
  match branchOf (voicedAt prev l) (voicedAt cmp l) (pitchJump ratio w0p w0c) l with
  | .none => ri 0
  | .fadeOut => fadeOut ws mp w0p (rd phaseO l) l n
  | .fadeIn => fadeIn ws mc w0c (rd po l) l n
  | .twoCos => fadeOut ws mp w0p (rd phaseO l) l n + fadeIn ws mc w0c (rd po l) l n
  | .smooth => smoothAmplitude mp mc n * Num.cos (smoothTheta w0p w0c (rd phaseO l) (rd po l) l n)

/-- `sv[n]` (R238). -/
def voicedSample (ws : List R) (ratio : R) (prev cmp : ModelParams R) (phaseO po : List R) (n : Nat) : R :=
  ri 2 * sum1 (lMax prev cmp) (fun l => contribution ws ratio prev cmp phaseO po l n)

/-- `OUT[n]` (R240): no clipping. -/
def outputSample (gain outScale suv sv : R) : R := gain * outScale * (suv + sv)

end generic

/-! ### Stage bodies -/

/-- `PHASE` (R220 to R222): exactly `Lmax - thr` draws. -/
def phaseStage (s : State R) (P : OpenParams R := by exact Sys2Proof.Machine.openParams) : State R :=
  let pv := trackedPhases (N := P.toNum) s.pmp s.work.cmp s.ss.phaseV
  let draw := fun j => drawValue (s.drawCtr + j) P
  { s with stage := Stage.voiced, drawCtr := s.drawCtr + drawCount s.pmp s.work.cmp,
           work := { s.work with pv := pv,
                                 po := oscillatorPhases (N := P.toNum) draw s.pmp s.work.cmp pv s.ss.phaseO } }

/-- `VOICED` (R225 to R238). -/
def voicedStage (s : State R) (P : OpenParams R := by exact Sys2Proof.Machine.openParams) : State R :=
  { s with stage := Stage.combine,
           work := { s.work with
             sv := tab nsamp (voicedSample (N := P.toNum) s.rom.window s.rom.pitchJumpRatio s.pmp s.work.cmp
               s.ss.phaseO s.work.po) } }

/-- `COMBINE` (R240). -/
def combineStage (s : State R) (P : OpenParams R := by exact Sys2Proof.Machine.openParams) : State R :=
  { s with stage := Stage.commit,
           work := { s.work with
             out := tab nsamp (fun n =>
               outputSample (N := P.toNum) s.gain s.rom.outScale (rd (N := P.toNum) s.work.suv n)
                 (rd (N := P.toNum) s.work.sv n)) } }

/-! ### Meanings -/

def execPhase (s : State R) (P : OpenParams R := by exact Sys2Proof.Machine.openParams) : Host.Outcome (State R) Fault Refusal :=
  .next (phaseStage s P)
def execVoiced (s : State R) (P : OpenParams R := by exact Sys2Proof.Machine.openParams) : Host.Outcome (State R) Fault Refusal :=
  .next (voicedStage s P)
def execCombine (s : State R) (P : OpenParams R := by exact Sys2Proof.Machine.openParams) : Host.Outcome (State R) Fault Refusal :=
  .next (combineStage s P)

end Sys2Proof.Machine
end

