-- ==== Sys2Proof/Machine/HostCommands.lean ====
section
/-! DEFINITION. The four host commands, the rest state and COMMIT (spec/47_host_commands.md). -/

namespace Sys2Proof.Machine

variable {R : Type}

/-- Whether `g` is a legal gain: a number with `0 < g < 16` (R252, R304; log entry 43). -/
def gainOk [N : Num R] (g : R) : Bool := Num.isNumber g && Num.lt (ri 0) g && Num.lt g (ri 16)

/-- `RESET` (R250). Where `TONE.valid` falls from 1 to 0 its other fields become any value (U7, log entry 14); a `TONE`
that is not valid stays as it is, so that `RESET` on a freshly powered instance changes nothing. -/
def resetCommand (s : State R) (P : OpenParams R := by exact Sys2Proof.Machine.openParams) : State R :=
  { s with
    pmp := s.rom.mpDefault s.codec
    ss := resetSynth P
    status := zeroStatus
    tone := if s.tone.valid then invalidTone s.toneCtr else s.tone
    toneCtr := if s.tone.valid then s.toneCtr + 1 else s.toneCtr }

/-- `SETGAIN` (R252, R304). -/
def setgainCommand (g : R) (s : State R) (P : OpenParams R := by exact Sys2Proof.Machine.openParams) :
    Except Raised (State R) :=
  if gainOk (N := P.toNum) g then .ok { s with gain := g } else .error ⟨.badGain, 0⟩

/-- `DECODE` takes its operands and hands over to `LOAD` (R254, R255); the stages run one a step. -/
def decodeCommandBody (n : BitVec 16) (bytes : List Byte) (s : State R) : State R :=
  { s with stage := Stage.load, work := { s.work with inCount := n, inBytes := bytes } }

/-- `COMMIT` (R258). The working registers hold no defined value between commands (R10, U3). -/
def commitStage (s : State R) (P : OpenParams R := by exact Sys2Proof.Machine.openParams) : State R :=
  { s with
    stage := Stage.idle
    pmp := s.work.cmp
    ss := { s.ss with
      phaseV := tab phaseLen (fun l => if l = 0 then rd (N := P.toNum) s.ss.phaseV 0 else rd (N := P.toNum) s.work.pv l)
      phaseO := tab phaseLen (fun l => if l = 0 then rd (N := P.toNum) s.ss.phaseO 0 else rd (N := P.toNum) s.work.po l)
      prevUw := tab xformLen (rd (N := P.toNum) s.work.uw) }
    status := statusOf s
    tone := toneOf s
    result := .samples s.work.out
    work := freeWork s.codec s.rom s.freeCtr P
    freeCtr := s.freeCtr + 1
    toneCtr := s.toneCtr + 1 }

/-! ### Meanings -/

def execName (s : State R) (P : OpenParams R := by exact Sys2Proof.Machine.openParams) :
    Host.Outcome (State R) Fault Refusal :=
  command s (fun s => .ok { s with result := .name (s.rom.nameStr s.codec) }) P
def execReset (s : State R) (P : OpenParams R := by exact Sys2Proof.Machine.openParams) :
    Host.Outcome (State R) Fault Refusal :=
  command s (fun s => .ok (resetCommand s P)) P
def execSetgain (g : R) (s : State R) (P : OpenParams R := by exact Sys2Proof.Machine.openParams) :
    Host.Outcome (State R) Fault Refusal :=
  command s (fun s => setgainCommand g s P) P
def execDecode (n : BitVec 16) (bytes : List Byte) (s : State R)
    (P : OpenParams R := by exact Sys2Proof.Machine.openParams) : Host.Outcome (State R) Fault Refusal :=
  command s (fun s => .ok (decodeCommandBody n bytes s)) P

/-- `IDLE`: all state is retained (R322). -/
def execIdle (s : State R) : Host.Outcome (State R) Fault Refusal := .next s

def execCommit (s : State R) (P : OpenParams R := by exact Sys2Proof.Machine.openParams) :
    Host.Outcome (State R) Fault Refusal :=
  .next (commitStage s P)

end Sys2Proof.Machine
end

