-- ==== Sys2Proof/Machine/Primitives.lean ====
section
/-! DEFINITION. The primitives run on their own (R75 ids 32 to 49): each is its shared operation on the operands it is
given, its result in the latch `res` (log entry 22). The stages call the same operations. -/

namespace Sys2Proof.Machine

variable {R : Type}

/-- The state with a primitive's result. -/
def State.withRes (s : State R) (r : PrimResult R) : State R := { s with work := { s.work with res := r } }

/-- The state with a frame written in place. -/
def State.withFrame (s : State R) (sel : FrameSel) (f : Frame) : State R := { s with work := putFrame s.work sel f }

/-- One corrector on a frame in place (R106). -/
def eccPrimitive (c : BlockCode) (sel : FrameSel) (o : Int) (s : State R) : Except Raised (State R) :=
  match eccCorrect c (frameOf s.work sel) o with
  | .error x => .error x
  | .ok (f, count) => .ok ((s.withFrame sel f).withRes (.value count))

/-- `BF.GET` (R92) -/
def execBfGet (sel : FrameSel) (i : Int) (s : State R)
    (P : OpenParams R := by exact Sys2Proof.Machine.openParams) : Host.Outcome (State R) Fault Refusal :=
  settle s ((getBit (frameOf s.work sel) i).map (fun b => s.withRes (.bit b))) P

/-- `BF.SET` (R93) -/
def execBfSet (sel : FrameSel) (i : Int) (s : State R)
    (P : OpenParams R := by exact Sys2Proof.Machine.openParams) : Host.Outcome (State R) Fault Refusal :=
  settle s ((putBit (frameOf s.work sel) i true).map (s.withFrame sel)) P

/-- `BF.CLR` (R94) -/
def execBfClr (sel : FrameSel) (i : Int) (s : State R)
    (P : OpenParams R := by exact Sys2Proof.Machine.openParams) : Host.Outcome (State R) Fault Refusal :=
  settle s ((putBit (frameOf s.work sel) i false).map (s.withFrame sel)) P

/-- `BF.EXTRACT` (R95) -/
def execBfExtract (sel : FrameSel) (idx : List Int) (s : State R)
    (P : OpenParams R := by exact Sys2Proof.Machine.openParams) : Host.Outcome (State R) Fault Refusal :=
  settle s ((extract (frameOf s.work sel) idx).map (fun v => s.withRes (.value v))) P

/-- `BF.XOR` (R96) -/
def execBfXor (f g : FrameSel) (s : State R)
    (P : OpenParams R := by exact Sys2Proof.Machine.openParams) : Host.Outcome (State R) Fault Refusal :=
  settle s ((xorFrame (frameOf s.work f) (frameOf s.work g)).map (s.withFrame f)) P

/-- `BF.ROT` (R97) -/
def execBfRot (sel : FrameSel) (a m c : Int) (s : State R)
    (P : OpenParams R := by exact Sys2Proof.Machine.openParams) : Host.Outcome (State R) Fault Refusal :=
  settle s ((rotFrame (frameOf s.work sel) a m c).map (s.withFrame sel)) P

/-- `BF.LOAD` (R91) -/
def execBfLoad (bytes : List Byte) (s : State R) : Host.Outcome (State R) Fault Refusal :=
  .next (s.withRes (.frame (loadBits bytes)))

/-- `BF.LOADHEX` (R98) -/
def execBfLoadHex (chars : List Byte) (s : State R)
    (P : OpenParams R := by exact Sys2Proof.Machine.openParams) : Host.Outcome (State R) Fault Refusal :=
  settle s ((loadHex s.codec chars).map (fun f => s.withRes (.frame f))) P

/-- `ECC.C24` (R108) -/
def execEccC24 (sel : FrameSel) (o : Int) (s : State R)
    (P : OpenParams R := by exact Sys2Proof.Machine.openParams) : Host.Outcome (State R) Fault Refusal :=
  settle s (eccPrimitive s.rom.code24 sel o s) P

/-- `ECC.C23` (R109) -/
def execEccC23 (sel : FrameSel) (o : Int) (s : State R)
    (P : OpenParams R := by exact Sys2Proof.Machine.openParams) : Host.Outcome (State R) Fault Refusal :=
  settle s (eccPrimitive s.rom.code23 sel o s) P

/-- `ECC.C15` (R110) -/
def execEccC15 (sel : FrameSel) (o : Int) (s : State R)
    (P : OpenParams R := by exact Sys2Proof.Machine.openParams) : Host.Outcome (State R) Fault Refusal :=
  settle s (eccPrimitive s.rom.code15 sel o s) P

/-- `IDCT` (R159) -/
def execIdct (x1 : R) (xs : List R) (s : State R)
    (P : OpenParams R := by exact Sys2Proof.Machine.openParams) : Host.Outcome (State R) Fault Refusal :=
  .next (s.withRes (.reals (idct (N := P.toNum) (x1 :: xs))))

/-- `FF.LOOKUP` (R129) -/
def execFfLookup (c : Codec) (v : Int) (s : State R)
    (P : OpenParams R := by exact Sys2Proof.Machine.openParams) : Host.Outcome (State R) Fault Refusal :=
  settle s ((ffFind s.rom c v).map (fun e => s.withRes (.entry e))) P

/-- `LCG.STEP` (R126) -/
def execLcgStep (seed : BitVec 16) (s : State R) : Host.Outcome (State R) Fault Refusal :=
  .next (s.withRes (.lcg (lcgNext seed.toNat).1 (lcgNext seed.toNat).2))

/-- `NOISE.STEP` (R200): the register steps and its new value is returned. -/
def execNoiseStep (s : State R) : Host.Outcome (State R) Fault Refusal :=
  .next (State.withRes { s with ss := { s.ss with noiseReg := noiseNext s.ss.noiseReg } } (.value (noiseNext s.ss.noiseReg)))

/-- `XFORM.FWD` (R205) of the working array `x` -/
def execXformFwd (s : State R)
    (P : OpenParams R := by exact Sys2Proof.Machine.openParams) : Host.Outcome (State R) Fault Refusal :=
  .next { s with work := { s.work with spec := xformForward (N := P.toNum) s.work.x } }

/-- `XFORM.INV` (R209) of the working array `UW'` -/
def execXformInv (s : State R)
    (P : OpenParams R := by exact Sys2Proof.Machine.openParams) : Host.Outcome (State R) Fault Refusal :=
  .next { s with work := { s.work with uw := xformInverse (N := P.toNum) s.work.uwShaped } }

/-- `WS` (R202) -/
def execWs (n : Int) (s : State R)
    (P : OpenParams R := by exact Sys2Proof.Machine.openParams) : Host.Outcome (State R) Fault Refusal :=
  .next (s.withRes (.real (windowAt (N := P.toNum) s.rom.window n)))

end Sys2Proof.Machine
end

