-- ==== Sys2Proof/Machine/Dispatch.lean ====
section
/-! DEFINITION. One arm per instruction: the meaning of each. -/

namespace Sys2Proof.Machine

def exec (i : Instr) (s : State) : Host.Outcome State Fault Refusal :=
  match i with
  | .name => Sys2Proof.Machine.execName s
  | .reset => Sys2Proof.Machine.execReset s
  | .setgain g => Sys2Proof.Machine.execSetgain g s
  | .decode n bytes => Sys2Proof.Machine.execDecode n bytes s
  | .idle => Sys2Proof.Machine.execIdle s
  | .load => Sys2Proof.Machine.execLoad s
  | .partition => Sys2Proof.Machine.execPartition s
  | .ecc0 => Sys2Proof.Machine.execEcc0 s
  | .derand => Sys2Proof.Machine.execDerand s
  | .eccn => Sys2Proof.Machine.execEccn s
  | .errsum => Sys2Proof.Machine.execErrsum s
  | .w0idx => Sys2Proof.Machine.execW0idx s
  | .tonechk => Sys2Proof.Machine.execTonechk s
  | .fields => Sys2Proof.Machine.execFields s
  | .repeatchk => Sys2Proof.Machine.execRepeatchk s
  | .repeatFrame => Sys2Proof.Machine.execRepeatFrame s
  | .toneset => Sys2Proof.Machine.execToneset s
  | .mpnew => Sys2Proof.Machine.execMpnew s
  | .gain => Sys2Proof.Machine.execGain s
  | .voicing => Sys2Proof.Machine.execVoicing s
  | .resid => Sys2Proof.Machine.execResid s
  | .predict => Sys2Proof.Machine.execPredict s
  | .enhance => Sys2Proof.Machine.execEnhance s
  | .smooth => Sys2Proof.Machine.execSmooth s
  | .noise => Sys2Proof.Machine.execNoise s
  | .unvoiced => Sys2Proof.Machine.execUnvoiced s
  | .phase => Sys2Proof.Machine.execPhase s
  | .voiced => Sys2Proof.Machine.execVoiced s
  | .combine => Sys2Proof.Machine.execCombine s
  | .commit => Sys2Proof.Machine.execCommit s
  | .bfGet f k => Sys2Proof.Machine.execBfGet f k s
  | .bfSet f k => Sys2Proof.Machine.execBfSet f k s
  | .bfClr f k => Sys2Proof.Machine.execBfClr f k s
  | .bfExtract f idx => Sys2Proof.Machine.execBfExtract f idx s
  | .bfXor f g => Sys2Proof.Machine.execBfXor f g s
  | .bfRot f a m c => Sys2Proof.Machine.execBfRot f a m c s
  | .bfLoad bytes => Sys2Proof.Machine.execBfLoad bytes s
  | .bfLoadHex chars => Sys2Proof.Machine.execBfLoadHex chars s
  | .eccC24 f o => Sys2Proof.Machine.execEccC24 f o s
  | .eccC23 f o => Sys2Proof.Machine.execEccC23 f o s
  | .eccC15 f o => Sys2Proof.Machine.execEccC15 f o s
  | .idct x1 xs => Sys2Proof.Machine.execIdct x1 xs s
  | .ffLookup codec v => Sys2Proof.Machine.execFfLookup codec v s
  | .lcgStep seed => Sys2Proof.Machine.execLcgStep seed s
  | .noiseStep => Sys2Proof.Machine.execNoiseStep s
  | .xformFwd => Sys2Proof.Machine.execXformFwd s
  | .xformInv => Sys2Proof.Machine.execXformInv s
  | .ws n => Sys2Proof.Machine.execWs n s

end Sys2Proof.Machine
end

