-- ==== Sys2Proof/Machine/Fetch.lean ====
section
/-! DEFINITION. Fetching: the words of the next instruction, what happens where they are no instruction, and the end of a
primitive run on its own. All of it over any type of reals; `run` is the dispatch of the instruction fetched. -/

namespace Sys2Proof.Machine

variable {R : Type}

/-- The words of the next instruction: at rest the command port's (R245), or `IDLE` itself where no word waits; else the
micro-op `STAGE` names. -/
def State.fetch (s : State R) : List (CodeWord R) :=
  if s.stage = Stage.idle then
    match s.port with
    | [] => [.uop Stage.idle]
    | w :: ws => w :: ws
  else .uop s.stage :: s.operands

/-- The state with the fetched words taken. -/
def State.consume (s : State R) (rest : List (CodeWord R)) : State R :=
  if s.stage = Stage.idle then { s with port := rest } else { s with operands := rest }

/-- An instruction that is a primitive (R75 ids 32 to 49). -/
def isPrimitiveStage (stage : BitVec 6) : Bool := decide (32 ≤ stage.toNat)

/-- The sequencer returns to rest after a primitive that `STAGE` named (log entry 22). -/
def endPrimitive (r : Host.Outcome (State R) Fault Refusal) : Host.Outcome (State R) Fault Refusal :=
  match r with
  | .next s => .next { s with stage := Stage.idle }
  | other => other

/-- Runs the instruction fetched at `s`, `s'` being the state with its words taken. -/
def runFetched (run : Instr R → State R → Host.Outcome (State R) Fault Refusal) (s : State R) (i : Instr R) (s' : State R) :
    Host.Outcome (State R) Fault Refusal :=
  if isPrimitiveStage s.stage then endPrimitive (run i s') else run i s'

/-- Whether what waits on the port begins with a command word: only a byte is one (R60). -/
def portBegins : List (CodeWord R) → Bool
  | [] => true
  | .byte _ :: _ => true
  | _ => false

/-- One step at rest: a command runs; where its operands are not all there, it waits (R245); an illegal command word is
rejected (R61); where no word waits, the instance stays at rest (R322). -/
def stepIdle (run : Instr R → State R → Host.Outcome (State R) Fault Refusal) (s : State R)
    (P : OpenParams R := by exact Sys2Proof.Machine.openParams) : Host.Outcome (State R) Fault Refusal :=
  if portBegins s.port then
    match decodeOver s.fetch with
    | .ok i rest => runFetched run s i (s.consume rest)
    | .illegalCommand cmd rest => illegalCommand (s.consume rest) cmd P
    | .incomplete => run .idle s
    | .empty => run .idle s
    | .unusedMicroOp _ => .fault .portMismatch
    | .mismatch => .fault .portMismatch
  else .fault .portMismatch

/-- One step of the micro-op that `STAGE` names. Where a primitive's operand words are not there it waits for them, as a
command does (log entry 20); a stage has no operand words. -/
def stepStage (run : Instr R → State R → Host.Outcome (State R) Fault Refusal) (s : State R) :
    Host.Outcome (State R) Fault Refusal :=
  match decodeOver s.fetch with
  | .ok i rest => runFetched run s i (s.consume rest)
  | .unusedMicroOp _ => .fault .unusedStage
  | .empty => .next s
  | .incomplete => .next s
  | .mismatch => .next s
  | .illegalCommand _ _ => .next s

/-- One step: a requested `PORESET` first (R330), then the sequencer. -/
def stepBody (run : Instr R → State R → Host.Outcome (State R) Fault Refusal) (s : State R)
    (P : OpenParams R := by exact Sys2Proof.Machine.openParams) : Host.Outcome (State R) Fault Refusal :=
  if s.poresetRequest then .next (s.poreset P)
  else if s.stage = Stage.idle then stepIdle run s P
  else stepStage run s

/-- The state with a table word standing where the next step fetches: a command word and zero operands on the port of a
resting instance, or a micro-op id in `STAGE` and zero operand words beside it; a word that begins no table word stands
on the port as a command word (log entries 20 and 21). -/
def placeTableWord (s : State) (nbits w : Nat) : State :=
  match tableHead nbits w with
  | some (.uop id) =>
    { s with stage := id, operands := zeroUopArgs id.toNat, port := if id = Stage.idle then [] else s.port,
             poresetRequest := false }
  | some head => { s with stage := Stage.idle, port := head :: zeroArgs head, poresetRequest := false }
  | none => { s with stage := Stage.idle, port := [.byte (BitVec.ofNat 8 w)], poresetRequest := false }

end Sys2Proof.Machine
end

