-- ==== Sys2Proof/Safety.lean ====
section
/-! DEFINITION. What counts as a safe run, in the terms the statements use: the invariant every step keeps, the state a
command may not touch, and runs of several steps. -/

namespace Sys2Proof.Machine

/-! ### Runs -/

/-- `k` steps, stopping at the first fault or refusal. -/
def steps : Nat → State → Host.Outcome State Fault Refusal
  | 0, s => .next s
  | k + 1, s =>
    match step s with
    | .next t => steps k t
    | .fault r => .fault r
    | .refused r => .refused r

/-- The instance takes the next command word: at rest, not halted, no `PORESET` asked for (R245, R246). -/
structure Accepting (s : State) : Prop where
  atRest : s.stage = Stage.idle
  running : s.halted = false
  noPoreset : s.poresetRequest = false

/-! ### What stays -/

/-- The carried state and the registers only a completed command writes agree (R10, R306: `PMP`, `SS`, `GAIN`, `CODEC`,
`STATUS`, `TONE`, and the ROM). -/
structure SameCarried (s t : State) : Prop where
  pmp : t.pmp = s.pmp
  ss : t.ss = s.ss
  gain : t.gain = s.gain
  codec : t.codec = s.codec
  status : t.status = s.status
  tone : t.tone = s.tone
  rom : t.rom = s.rom

/-- The fault latch agrees. -/
structure SameLatch (s t : State) : Prop where
  fault : t.fault = s.fault
  info : t.faultInfo = s.faultInfo

/-! ### What an instruction raises -/

/-- The exception of an answer, where it is one. -/
def errorOf {α : Type} : Except Raised α → Option Raised
  | .ok _ => none
  | .error x => some x

/-- What an instruction raises at a state (R302), from the operation its rule gives it; none where it raises nothing. A halted
instance takes no command (R246). -/
def raisedBy (i : Instr) (s : State) : Option Raised :=
  match i with
  | .setgain g => if s.halted then none else errorOf (setgainCommand g s)
  | .load => errorOf (loadStage s)
  | .partition => errorOf (partitionStage s)
  | .ecc0 => errorOf (ecc0Stage s)
  | .derand => errorOf (derandStage s)
  | .eccn => errorOf (eccnStage s)
  | .w0idx => errorOf (w0idxStage s)
  | .tonechk => errorOf (tonechkStage s)
  | .fields => errorOf (fieldsStage s)
  | .gain => errorOf (gainStage s)
  | .voicing => errorOf (voicingStage s)
  | .resid => errorOf (residStage s)
  | .bfGet f i => errorOf (getBit (frameOf s.work f) i)
  | .bfSet f i => errorOf (putBit (frameOf s.work f) i true)
  | .bfClr f i => errorOf (putBit (frameOf s.work f) i false)
  | .bfExtract f idx => errorOf (extract (frameOf s.work f) idx)
  | .bfXor f g => errorOf (xorFrame (frameOf s.work f) (frameOf s.work g))
  | .bfRot f a m c => errorOf (rotFrame (frameOf s.work f) a m c)
  | .bfLoadHex chars => errorOf (loadHex s.codec chars)
  | .eccC24 f o => errorOf (eccCorrect s.rom.code24 (frameOf s.work f) o)
  | .eccC23 f o => errorOf (eccCorrect s.rom.code23 (frameOf s.work f) o)
  | .eccC15 f o => errorOf (eccCorrect s.rom.code15 (frameOf s.work f) o)
  | .ffLookup c v => errorOf (ffFind s.rom c v)
  | .name | .reset | .decode _ _ | .idle | .errsum | .repeatchk | .repeatFrame | .toneset | .mpnew | .predict | .enhance
  | .smooth | .noise | .unvoiced | .phase | .voiced | .combine | .commit | .bfLoad _ | .idct _ _ | .lcgStep _ | .noiseStep
  | .xformFwd | .xformInv | .ws _ => none

/-! ### The invariant -/

/-- The values `STAGE` may hold (R75). -/
def legalStage (stage : BitVec 6) : Prop := stage.toNat ≤ 25 ∨ (32 ≤ stage.toNat ∧ stage.toNat ≤ 49)

/-- `9 <= harmonicCount <= 56` (R22, R34). -/
def harmonicRange (l : Nat) : Prop := 9 ≤ l ∧ l ≤ 56

/-- The frame types that are decoded and synthesised (R70, R149). -/
def decodedType (ft : FrameType) : Prop := ft = .voice ∨ ft = .silence

/-- The sequencer and the latch: `STAGE` holds a legal id (R75), `FAULT` a code of R302, and a halted instance is at rest
(R246, R306). -/
structure ControlInv (s : State) : Prop where
  stage : legalStage s.stage
  fault : s.fault.toNat ≤ 6
  halted : s.halted = true → s.stage = Stage.idle

/-- SynthesizerState keeps its lengths and the noise values their range (R25). -/
structure SynthInv (ss : Synth) : Prop where
  phaseV : ss.phaseV.length = 57
  phaseO : ss.phaseO.length = 57
  prevUw : ss.prevUw.length = 256
  noiseBuf : ss.noiseBuf.length = 256
  noiseRange : ∀ x ∈ ss.noiseBuf, x ≤ 53124
  noiseReg : ss.noiseReg ≤ 53124

/-- The registers the host sees: `GAIN` is the reset value or a legal gain (R13, R252), the frame type is a code of R70,
`e[0..6]` has seven entries (R16), an IMBE instance never shows a tone (R24, R259). -/
structure HostInv (s : State) : Prop where
  gain : s.gain = .int 1 ∨ gainOk (N := numerics) s.gain = true
  frameType : s.status.frameType.toNat ≤ 4
  errors : s.status.e.length = 7
  imbeTone : s.codec = .imbe → s.tone.valid = false

/-- A ModelParameters record stays in its ranges (R22). -/
structure ParamsInv (p : ModelParams MReal) : Prop where
  harmonics : harmonicRange p.fundamentalFrequency.harmonicCount
  repeats : p.repeatCount ≤ 4

/-- A ModelParameters record keeps the sizes of its arrays (R22, R40). -/
structure ParamsShape (p : ModelParams MReal) : Prop where
  voicing : p.voicingDecisions.length = 57
  logs : p.log2SpectralAmplitudes.length = 57
  amplitudes : p.spectralAmplitudes.length = 57
  enhanced : p.enhancedSpectralAmplitudes.length = 57
  counts : p.errorCount.length = 7

/-- The field record keeps the sizes of its lists (R17, R134, R275): `hocIdx[1..4]`, `gainQ[2..6]`, and `vuv[1..K]` and `hocQ[..]` of
the harmonic count they were read for, none where none was. -/
structure FieldsShape (c : Codec) (rom : Rom) (f : Fields) : Prop where
  hocIdx : f.hocIdx.length = 4
  gainQ : f.gainQ.length = 5
  layout : ∃ l, f.vuv.length = vuvLen rom c l ∧ f.hocQ.length = hocQLen rom c l

/-- The working registers keep the sizes of their spaces (R17, R40, R90), in every step and after a COMMIT or a halt: `C[i]` has
`J[i]` coefficients, and the residual as many entries as all blocks together. -/
structure WorkShape (s : State) : Prop where
  fb : s.work.fb.length = frameBits s.codec
  wf : s.work.wf.length = frameBits s.codec
  mask : s.work.mask.length = frameBits s.codec
  counts : s.work.e.length = 7
  fields : FieldsShape s.codec s.rom s.work.fld
  cmp : ParamsShape s.work.cmp
  gains : s.work.gvec.length = gainLen s.codec
  gainDct : s.work.rg.length = gainLen s.codec
  blocks : s.work.jlen.length = njblock s.codec
  coefs : s.work.coef.map List.length = s.work.jlen.map (·.toNat)
  residual : s.work.tres.length = blockTotal s.work.jlen
  noise : s.work.x.length = 256
  spectrum : s.work.spec.length = 256
  shaped : s.work.uwShaped.length = 256
  inverse : s.work.uw.length = 256
  unvoiced : s.work.suv.length = 160
  voiced : s.work.sv.length = 160
  out : s.work.out.length = 160
  pv : s.work.pv.length = 57
  po : s.work.po.length = 57

/-- What the working registers hold on the way to `CMP`: the stages 8 to 13 know the frame's type and, where it is decoded,
a table entry with a legal harmonic count; the stages 14 to 25 have a legal `CMP`. -/
structure PathInv (s : State) : Prop where
  entry : 8 ≤ s.stage.toNat → s.stage.toNat ≤ 13 → decodedType s.work.ff.frameType →
    harmonicRange s.work.ff.harmonicCount
  tableType : s.stage.toNat = 8 → s.work.frameType = s.work.ff.frameType
  fromTable : 8 ≤ s.stage.toNat → s.stage.toNat ≤ 13 → decodedType s.work.frameType → s.work.frameType = s.work.ff.frameType
  ambeType : s.codec = .ambe → 8 ≤ s.stage.toNat → s.stage.toNat ≤ 13 → s.work.frameType ≠ .invalid
  decoded : s.stage.toNat = 13 → decodedType s.work.frameType
  cmp : 14 ≤ s.stage.toNat → s.stage.toNat ≤ 25 → ParamsInv s.work.cmp

/-- The invariant of the machine. -/
structure Inv (s : State) : Prop where
  rom : s.rom.legal = true
  control : ControlInv s
  synth : SynthInv s.ss
  host : HostInv s
  pmp : ParamsInv s.pmp
  shape : ParamsShape s.pmp
  work : WorkShape s
  path : PathInv s

/-- An ASCII hex digit (R72). -/
def isHexDigit (c : Byte) : Prop :=
  (0x30 ≤ c.toNat ∧ c.toNat ≤ 0x39) ∨ (0x41 ≤ c.toNat ∧ c.toNat ≤ 0x46) ∨ (0x61 ≤ c.toNat ∧ c.toNat ≤ 0x66)

/-! ### Frames that repeat -/

/-- What one frame that takes the repeat path leaves: `REPEAT`, then `COMMIT` of its `CMP` (R146, R258). -/
def afterRepeat (s : State) : State := commitStage (repeatStage s)

/-- `k` such frames one after another. -/
def afterRepeats : Nat → State → State
  | 0, s => s
  | k + 1, s => afterRepeats k (afterRepeat s)

end Sys2Proof.Machine
end

