-- ==== Sys2Proof/Certificates/Slice0/Obligations.lean ====
section
/-! DEFINITION. The statements for the provers. Each docstring names the rule of spec/ a statement formalises, and the log
entry of every choice of the model it rests on. -/

open Sys2Proof Sys2Proof.Machine

/-! ### Encoding and fetch -/

/-- R60, R62, R75; how an operand of a micro-op is written is the model's (log entry 20). -/
def Obligations.DecodeOfEncode : Prop :=
  ∀ (i : Instr) (rest : List CodeWord), i.wf = true → decode (encode i ++ rest) = .ok i rest

/-- R60, R62, R75 (log entry 20): each sequence of words has one meaning. -/
def Obligations.DecodedWordsAreTheEncoding : Prop :=
  ∀ (ws : List CodeWord) (i : Instr) (rest : List CodeWord),
    decode ws = .ok i rest → i.wf = true ∧ ws = encode i ++ rest

/-- R60, R75, R76, R77: words written out from the spec's encodings. -/
def Obligations.SpecWordsDecode : Prop :=
  decode [.byte 0b00000000] = .ok .name []
  ∧ decode [.byte 0b00000001] = .ok .reset []
  ∧ decode [.byte 0b00000010, .real (.int 2)] = .ok (.setgain (.int 2)) []
  ∧ decode [.byte 0b00000011, .count 9, .byte 0x95, .byte 0x4B, .byte 0xE6, .byte 0x50, .byte 0x03, .byte 0x10,
      .byte 0xB0, .byte 0x07, .byte 0x77]
      = .ok (.decode 9 [0x95, 0x4B, 0xE6, 0x50, 0x03, 0x10, 0xB0, 0x07, 0x77]) []
  ∧ decode [.uop 0b000001] = .ok .load []
  ∧ decode [.uop 0b001010] = .ok .repeatchk []
  ∧ decode [.uop 0b010101] = .ok .unvoiced []
  ∧ decode [.uop 0b011001] = .ok .commit []
  ∧ decode [.uop 0b101110] = .ok .noiseStep []
  ∧ decode [.byte 0b00000100] = .illegalCommand 0b00000100 []
  ∧ decode [.uop 0b011010] = .unusedMicroOp 0b011010

/-- R61, R305. -/
def Obligations.IllegalCommandChangesOnlyTheLatch : Prop :=
  (∀ (s : State) (cmd : Byte) (rest : List CodeWord),
    Accepting s → s.port = .byte cmd :: rest → cmd.extractLsb' 2 6 ≠ 0 →
      step s = .next { s with port := rest, fault := 6, faultInfo := cmd.zeroExtend 16, result := .none })
  ∧ ∀ (cmd : Byte) (ws : List CodeWord), cmd.extractLsb' 2 6 = 0 →
      ∀ (c : Byte) (rest : List CodeWord), decode (.byte cmd :: ws) ≠ .illegalCommand c rest

/-- R12, R75, R245: the micro-op `STAGE` names, or the command on the port of a resting instance; a primitive returns
`STAGE` to `IDLE` (log entry 22). -/
def Obligations.StepRunsTheDecodedInstruction : Prop :=
  ∀ (s : State) (i : Instr) (rest : List CodeWord),
    s.poresetRequest = false → (s.stage = Stage.idle → portBegins s.port = true) → decode s.fetch = .ok i rest →
      (s.stage.toNat < 32 → step s = exec i (s.consume rest))
      ∧ (32 ≤ s.stage.toNat → ∀ t, exec i (s.consume rest) = .next t → step s = .next { t with stage := Stage.idle })

/-- R322, R245: no word waits, or a SETGAIN or a DECODE whose operand words (its count, its bytes) are not all there
(log entry 18). -/
def Obligations.RestingInstanceWaits : Prop :=
  ∀ s : State, s.poresetRequest = false → s.stage = Stage.idle →
    exec .idle s = .next s
    ∧ (s.port = [] → step s = .next s)
    ∧ (s.port = [.byte 2] → step s = .next s)
    ∧ (s.port = [.byte 3] → step s = .next s)
    ∧ ∀ (n : BitVec 16) (bytes : List Byte), bytes.length < n.toNat →
        s.port = .byte 3 :: .count n :: bytes.map .byte → step s = .next s

/-! ### Resets and the halt -/

/-- R331, R330: every row that states a value. That `PORESET` is asked for by a field of the state, and that the words waiting
on the port stay, is the model's choice (log entry 24). -/
def Obligations.PoresetValues : Prop :=
  ∀ s : State, s.poresetRequest = true →
    ∃ t, step s = .next t
      ∧ t.stage = 0 ∧ t.codec = s.codec ∧ t.gain = .int 1 ∧ t.fault = 0 ∧ t.faultInfo = 0
      ∧ t.status.frameType = 0 ∧ t.status.repeated = false ∧ t.status.muted = false
      ∧ t.status.forcedErasure = false ∧ t.status.w0Index = 0 ∧ t.status.harmonics = 0
      ∧ t.status.e = List.replicate 7 0 ∧ t.status.eT = 0 ∧ t.status.repeatCount = 0
      ∧ t.tone.valid = false
      ∧ t.pmp = s.rom.mpDefault s.codec
      ∧ t.ss.phaseV = List.replicate 57 (.int 0) ∧ t.ss.phaseO = List.replicate 57 (.int 0)
      ∧ t.ss.prevUw = List.replicate 256 (.int 0) ∧ t.ss.noiseBuf = List.replicate 256 0 ∧ t.ss.noiseReg = 3147
      ∧ t.rom = s.rom ∧ t.port = s.port ∧ t.poresetRequest = false

/-- R250, R332: the `RESET` command on an instance that is not halted. That it keeps the working registers, which R10 and U3 give no
value between commands, is the model's choice (log entry 13); what it shows as a result is log entry 36, the counter of the free
`TONE` payloads log entry 14. -/
def Obligations.ResetCommandValues : Prop :=
  ∀ s : State, s.halted = false → s.stage = Stage.idle →
    ∃ t, exec .reset s = .next t
      ∧ t.status.frameType = 0 ∧ t.status.repeated = false ∧ t.status.muted = false
      ∧ t.status.forcedErasure = false ∧ t.status.w0Index = 0 ∧ t.status.harmonics = 0
      ∧ t.status.e = List.replicate 7 0 ∧ t.status.eT = 0 ∧ t.status.repeatCount = 0
      ∧ t.tone.valid = false
      ∧ t.pmp = s.rom.mpDefault s.codec
      ∧ t.ss.phaseV = List.replicate 57 (.int 0) ∧ t.ss.phaseO = List.replicate 57 (.int 0)
      ∧ t.ss.prevUw = List.replicate 256 (.int 0) ∧ t.ss.noiseBuf = List.replicate 256 0 ∧ t.ss.noiseReg = 3147
      ∧ t = { s with status := t.status, tone := t.tone, pmp := t.pmp, ss := t.ss, result := .none, toneCtr := t.toneCtr }

/-- R250, its corner cases. That the working registers stay too is the model's choice (log entry 13), as is the payload an invalid
`TONE` keeps (log entry 14). -/
def Obligations.ResetChangesNothingTwice : Prop :=
  (∀ (c : Codec) (rom : Rom), exec .reset (State.powerOn c rom) = .next (State.powerOn c rom))
  ∧ ∀ s t : State, exec .reset s = .next t → exec .reset t = .next t

/-- R246, R309: a halted instance executes no command; no step but a `PORESET` changes anything but the port (log entry
18) and the result shown (log entry 36); the codes 0, 1, 5, 6 do not halt. That the working registers stay is the model's choice (log
entry 13). -/
def Obligations.HaltedExecutesNothing : Prop :=
  (∀ s : State, s.fault = 2 ∨ s.fault = 3 ∨ s.fault = 4 →
    exec .name s = .next { s with result := .none }
    ∧ exec .reset s = .next { s with result := .none }
    ∧ (∀ g, exec (.setgain g) s = .next { s with result := .none })
    ∧ (∀ n bytes, exec (.decode n bytes) s = .next { s with result := .none })
    ∧ (s.stage = Stage.idle → s.poresetRequest = false →
        ∀ t, step s = .next t → t = { s with port := t.port, result := t.result }))
  ∧ ∀ s : State, s.fault = 0 ∨ s.fault = 1 ∨ s.fault = 5 ∨ s.fault = 6 → s.halted = false

/-! ### Whole-machine rules -/

/-- R265, R266, R331 (log entry 9 for the ROM of State.reset): the invariant holds after `PORESET` of any legal ROM. -/
def Obligations.PoresetMeetsTheInvariant : Prop :=
  (∀ (c : Codec) (rom : Rom), rom.legal = true → Inv (State.powerOn c rom)) ∧ Inv State.reset

/-- R13, R16, R22, R24, R25, R75, R246, R302: the ranges the state tables give, from every state that meets them. -/
def Obligations.StepKeepsTheInvariant : Prop :=
  ∀ s t : State, Inv s → step s = .next t → Inv t

/-- R13 (`CODEC` is written by nothing), R55, R265. -/
def Obligations.StepKeepsStrapAndRom : Prop :=
  ∀ s t : State, step s = .next t → t.codec = s.codec ∧ t.rom = s.rom

/-- R306, R302, R308: every meaning that raises, and every step that runs one, writes the latch with the cause and its info,
leaves the carried state, `STATUS` and `TONE`, returns to `IDLE` and returns no result, also where the latch held the same
cause before. A meaning that raises nothing keeps the latch. That a rejection keeps the working registers is the model's choice
(log entry 13): R302 gives a rejection no effect but the latch, R306 and U3 leave those registers unspecified. -/
def Obligations.FaultsLeaveTheCarriedState : Prop :=
  (∀ (i : Instr) (s : State) (x : Raised), raisedBy i s = some x →
    ∃ t, exec i s = .next t ∧ t.fault = x.cause.code ∧ t.faultInfo = BitVec.ofInt 16 x.info
      ∧ t.stage = Stage.idle ∧ t.result = .none ∧ SameCarried s t ∧ (x.cause.halts = false → t.work = s.work))
  ∧ (∀ (i : Instr) (s t : State), raisedBy i s = none → exec i s = .next t → SameLatch s t)
  ∧ (∀ (s : State) (i : Instr) (rest : List CodeWord) (x : Raised),
      s.poresetRequest = false → (s.stage = Stage.idle → portBegins s.port = true) → decode s.fetch = .ok i rest →
      raisedBy i (s.consume rest) = some x →
        ∃ t, step s = .next t ∧ t.fault = x.cause.code ∧ t.faultInfo = BitVec.ofInt 16 x.info
          ∧ t.stage = Stage.idle ∧ t.result = .none ∧ SameCarried s t)
  ∧ ∀ s t : State, s.poresetRequest = false → step s = .next t →
      SameLatch s t
      ∨ (SameCarried s t ∧ t.stage = Stage.idle ∧ t.result = .none ∧ 1 ≤ t.fault.toNat ∧ t.fault.toNat ≤ 6)

/-- R308, R257: which stages write carried state, and that none from ENHANCE to COMMIT raises. -/
def Obligations.OnlyNoiseAndCommitWriteCarriedState : Prop :=
  ∀ s t : State, s.poresetRequest = false → s.stage ≠ Stage.idle → step s = .next t →
    (s.stage ≠ Stage.noise → s.stage ≠ Stage.commit → s.stage ≠ 46 → SameCarried s t)
    ∧ (s.stage = Stage.noise → SameCarried { s with ss := t.ss } t
        ∧ t.ss = { s.ss with noiseBuf := t.ss.noiseBuf, noiseReg := t.ss.noiseReg })
    ∧ (18 ≤ s.stage.toNat → s.stage.toNat ≤ 25 → SameLatch s t)

/-! ### Commands -/

/-- R252, R304: `0 < g < 16`, compared as `NUM` compares (log entries 1 and 2), for a value that is a number (log entry 43);
over the reals the test is the spec's own pair of inequalities. That a `SETGAIN`, taken or rejected, keeps the working
registers is the model's choice (log entry 13): R252 and R302 let it write nothing else, U3 and R306 leave those registers
unspecified. -/
def Obligations.SetgainTakesOnlyLegalGains : Prop :=
  (∀ (s : State) (g : MReal), s.halted = false →
    exec (.setgain g) s = .next
      (if Config.isNumber g && Config.lt (.int 0) g && Config.lt g (.int 16) then { s with gain := g, result := .none }
       else { s with fault := 5, faultInfo := 0, stage := Stage.idle, result := .none }))
  ∧ (∀ g : MReal, gainOk (N := numerics) g
      = (Config.isNumber g && Config.lt (.int 0) g && Config.lt g (.int 16)))
  ∧ ∀ g : ℝ, gainOk (N := realNumerics) g = true ↔ 0 < g ∧ g < 16

/-- R253, R254: `NAME` returns the string; `DECODE` hands its operands to `LOAD` (log entry 23). That either keeps the other working
registers is the model's choice (log entry 13). -/
def Obligations.NameAndDecodeComplete : Prop :=
  ∀ s : State, s.halted = false →
    exec .name s = .next { s with result := .name (s.rom.nameStr s.codec) }
    ∧ ∀ (n : BitVec 16) (bytes : List Byte), ∃ t, exec (.decode n bytes) s = .next t
        ∧ t = { s with stage := 1, result := .none, work := { s.work with inCount := n, inBytes := bytes } }

/-- R301: a DECODE of a wrong byte count, and a malformed hex string. That the rejection ends two steps after the step that
takes the command begins is the model's granularity (log entry 23). That the rejected hex string keeps the working registers is the model's
choice (log entry 13): R306 leaves them unspecified, the DECODE clause leaves them open. -/
def Obligations.WrongLengthIsRejected : Prop :=
  (∀ (s : State) (n : BitVec 16) (bytes : List Byte) (rest : List CodeWord),
    Accepting s → bytes.length = n.toNat → s.port = .byte 3 :: .count n :: (bytes.map .byte ++ rest) →
      n.toNat ≠ frameBytes s.codec →
        ∃ t, steps 2 s = .next t
          ∧ t = { s with port := rest, fault := 1, faultInfo := n, result := .none, work := t.work })
  ∧ ∀ (s : State) (chars : List Byte),
      ¬(chars.length = 2 * frameBytes s.codec ∧ ∀ c ∈ chars, isHexDigit c) →
        exec (.bfLoadHex chars) s
          = .next { s with fault := 1, faultInfo := BitVec.ofNat 16 chars.length, stage := Stage.idle, result := .none }

/-- R254, R256, R303, R350 for an IMBE instance: under a legal ROM (what a ROM must meet: log entry 40) a DECODE of the right
length never faults and ends with 160 samples. The 17 or 23 steps are R350's 16 or 22 stages and the step that takes the
command (log entry 23). -/
def Obligations.ImbeDecodeYieldsSamples : Prop :=
  ∀ (s : State) (bytes : List Byte) (rest : List CodeWord),
    Accepting s → s.codec = .imbe → s.rom.legal = true → bytes.length = 18 →
      s.port = .byte 3 :: .count 18 :: (bytes.map .byte ++ rest) →
        ∃ k t xs, (k = 17 ∨ k = 23) ∧ steps k s = .next t
          ∧ t.stage = Stage.idle ∧ t.port = rest ∧ SameLatch s t ∧ t.gain = s.gain
          ∧ t.result = .samples xs ∧ xs.length = 160

/-- R254, R256, R303, R306, R350 for an AMBE instance: under a legal ROM a DECODE of the right length ends with 160 samples
after 18 steps or 24 (one of them takes the command, log entry 23), or in VOICING at the first harmonic whose band lies
outside the voicing vector, the band reported and the carried state kept (R155, R266: that no such harmonic exists is an
assumption on the frequencies the spec suggests and does not state, log entry 40). -/
def Obligations.AmbeDecodeEnds : Prop :=
  ∀ (s : State) (bytes : List Byte) (rest : List CodeWord),
    Accepting s → s.codec = .ambe → s.rom.legal = true → bytes.length = 9 →
      s.port = .byte 3 :: .count 9 :: (bytes.map .byte ++ rest) →
        (∃ k t xs, (k = 18 ∨ k = 24) ∧ steps k s = .next t
          ∧ t.stage = Stage.idle ∧ t.port = rest ∧ SameLatch s t ∧ t.gain = s.gain
          ∧ t.result = .samples xs ∧ xs.length = 160)
        ∨ (∃ u t, steps 13 s = .next u ∧ steps 14 s = .next t
          ∧ u.stage = Stage.voicing
          ∧ (∃ l, 1 ≤ l ∧ l ≤ u.work.ff.harmonicCount
              ∧ ¬(0 ≤ bandIndex (N := numerics) u.work.ff.frequency l ∧ bandIndex (N := numerics) u.work.ff.frequency l < 8)
              ∧ (∀ k, 1 ≤ k → k < l → 0 ≤ bandIndex (N := numerics) u.work.ff.frequency k
                  ∧ bandIndex (N := numerics) u.work.ff.frequency k < 8)
              ∧ t.faultInfo = BitVec.ofInt 16 (bandIndex (N := numerics) u.work.ff.frequency l))
          ∧ t.stage = Stage.idle ∧ t.port = rest ∧ t.fault = 3 ∧ t.result = .none ∧ SameCarried s t)

/-- R257, R52, R333: what two instances with the same carried state, strap, ROM and draws answer to the same words does not
depend on their working registers, fault latches, `STATUS` or `TONE`. The counters of the free values agree, as the draws
do. -/
def Obligations.ResultsDependOnCarriedStateOnly : Prop :=
  ∀ (k : Nat) (s₁ s₂ t₁ : State), Accepting s₁ → Accepting s₂ →
    s₂.codec = s₁.codec → s₂.rom = s₁.rom → s₂.gain = s₁.gain → s₂.pmp = s₁.pmp → s₂.ss = s₁.ss →
    s₂.port = s₁.port → s₂.result = s₁.result → s₂.drawCtr = s₁.drawCtr → s₂.freeCtr = s₁.freeCtr →
      steps k s₁ = .next t₁ →
        ∃ t₂, steps k s₂ = .next t₂ ∧ t₂.stage = t₁.stage ∧ t₂.result = t₁.result ∧ t₂.pmp = t₁.pmp ∧ t₂.ss = t₁.ss
          ∧ t₂.gain = t₁.gain ∧ t₂.port = t₁.port

/-! ### Bit frames -/

/-- R92: `BF.GET`; its result stands in the model's latch (log entry 22). -/
def Obligations.GetReadsOneBit : Prop :=
  ∀ (s : State) (sel : FrameSel) (i : Int),
    (0 ≤ i ∧ i < (frameOf s.work sel).length →
      exec (.bfGet sel i) s = .next (s.withRes (.bit ((frameOf s.work sel).getD i.toNat false))))
    ∧ (¬(0 ≤ i ∧ i < (frameOf s.work sel).length) →
        ∃ t, exec (.bfGet sel i) s = .next t ∧ t.fault = 2 ∧ t.faultInfo = BitVec.ofInt 16 i ∧ SameCarried s t)

/-- R93, R94: `BF.SET` and `BF.CLR` write one bit of the frame named and nothing else. -/
def Obligations.SetAndClearWriteOneBit : Prop :=
  ∀ (s : State) (sel : FrameSel) (i : Int) (b : Bool) (op : Instr),
    op = (if b then .bfSet sel i else .bfClr sel i) →
      (0 ≤ i ∧ i < (frameOf s.work sel).length →
        ∃ t, exec op s = .next t
          ∧ t = { s with work := putFrame s.work sel (frameOf t.work sel) }
          ∧ (frameOf t.work sel).length = (frameOf s.work sel).length
          ∧ (frameOf t.work sel).getD i.toNat false = b
          ∧ (∀ p, p ≠ i.toNat → (frameOf t.work sel).getD p false = (frameOf s.work sel).getD p false)
          ∧ ((frameOf s.work sel).getD i.toNat false = b → t = s))
      ∧ (¬(0 ≤ i ∧ i < (frameOf s.work sel).length) →
          ∃ t, exec op s = .next t ∧ t.fault = 2 ∧ t.faultInfo = BitVec.ofInt 16 i ∧ SameCarried s t)

/-- R95, R66: `BF.EXTRACT`; which index is reported where several are wrong is the order of R95's loop. The result stands in
the model's latch (log entry 22); that a list longer than 32 reports its length, whatever it holds, is the model's choice
(log entry 26). -/
def Obligations.ExtractAssemblesFirstBitHighest : Prop :=
  ∀ (s : State) (sel : FrameSel) (idx : List Int),
    (1 ≤ idx.length → idx.length ≤ 32 → (∀ i ∈ idx, 0 ≤ i ∧ i < (frameOf s.work sel).length) →
      ∃ v, exec (.bfExtract sel idx) s = .next (s.withRes (.value v))
        ∧ v < 2 ^ idx.length
        ∧ ∀ k, k < idx.length →
            v.testBit (idx.length - 1 - k) = (frameOf s.work sel).getD (idx.getD k 0).toNat false)
    ∧ (32 < idx.length →
        ∃ t, exec (.bfExtract sel idx) s = .next t ∧ t.fault = 2 ∧ t.faultInfo = BitVec.ofNat 16 idx.length)
    ∧ (∀ (pre : List Int) (i : Int) (post : List Int), idx = pre ++ i :: post → idx.length ≤ 32 →
        (∀ j ∈ pre, 0 ≤ j ∧ j < (frameOf s.work sel).length) → ¬(0 ≤ i ∧ i < (frameOf s.work sel).length) →
          ∃ t, exec (.bfExtract sel idx) s = .next t ∧ t.fault = 2 ∧ t.faultInfo = BitVec.ofInt 16 i)

/-- R96: `BF.XOR`. -/
def Obligations.XorOfEqualFrames : Prop :=
  ∀ (s : State) (f g : FrameSel),
    ((frameOf s.work f).length = (frameOf s.work g).length →
      ∃ t, exec (.bfXor f g) s = .next t
        ∧ t = { s with work := putFrame s.work f (frameOf t.work f) }
        ∧ (frameOf t.work f).length = (frameOf s.work f).length
        ∧ (∀ p, (frameOf t.work f).getD p false
              = xor ((frameOf s.work f).getD p false) ((frameOf s.work g).getD p false))
        ∧ (f ≠ g → frameOf t.work g = frameOf s.work g)
        ∧ ((∀ b ∈ frameOf s.work g, b = false) → t = s)
        ∧ (f = g → ∀ b ∈ frameOf t.work f, b = false))
    ∧ ((frameOf s.work f).length ≠ (frameOf s.work g).length →
        ∃ t, exec (.bfXor f g) s = .next t ∧ t.fault = 2
          ∧ t.faultInfo = BitVec.ofNat 16 (max (frameOf s.work f).length (frameOf s.work g).length) ∧ SameCarried s t)

/-- R97: `BF.ROT`, a left rotation of a sub-range; what a range beyond the frame, a negative length and a negative count raise
is the model's choice (log entry 26). -/
def Obligations.RotateTurnsASubRange : Prop :=
  ∀ (s : State) (sel : FrameSel),
    (∀ a m c : Nat, a + m ≤ (frameOf s.work sel).length →
      ∃ t, exec (.bfRot sel a m c) s = .next t
        ∧ t = { s with work := putFrame s.work sel (frameOf t.work sel) }
        ∧ (frameOf t.work sel).length = (frameOf s.work sel).length
        ∧ (∀ k, k < m →
            (frameOf t.work sel).getD (a + k) false = (frameOf s.work sel).getD (a + (k + c) % m) false)
        ∧ (∀ p, p < a ∨ a + m ≤ p → (frameOf t.work sel).getD p false = (frameOf s.work sel).getD p false))
    ∧ (∀ a c : Int, exec (.bfRot sel a 0 c) s = .next s)
    ∧ ∀ a m c : Int, m ≠ 0 → ¬(0 < m ∧ 0 ≤ c ∧ 0 ≤ a ∧ a + m ≤ (frameOf s.work sel).length) →
        ∃ t, exec (.bfRot sel a m c) s = .next t ∧ t.fault = 2 ∧ SameCarried s t
          ∧ t.faultInfo = BitVec.ofInt 16 (if m < 0 then m else if c < 0 then c else if a < 0 then a
              else max a (frameOf s.work sel).length)

/-- R91, R44, R72, R98: a byte gives its bits least significant first; the hex digits of the bytes give the same frame. Both
results stand in the model's latch (log entry 22). -/
def Obligations.LoadAndLoadHexAgree : Prop :=
  ∀ (s : State) (bytes : List Byte),
    ∃ f, exec (.bfLoad bytes) s = .next (s.withRes (.frame f))
      ∧ f.length = 8 * bytes.length
      ∧ (∀ k j, k < bytes.length → j < 8 → f.getD (8 * k + j) false = (bytes.getD k 0).getLsbD j)
      ∧ ∀ chars : List Byte, bytes.length = frameBytes s.codec → chars.length = 2 * frameBytes s.codec →
          (∀ k, k < bytes.length →
            hexDigit (chars.getD (2 * k) 0) = some ((bytes.getD k 0).toNat / 16)
            ∧ hexDigit (chars.getD (2 * k + 1) 0) = some ((bytes.getD k 0).toNat % 16)) →
          exec (.bfLoadHex chars) s = .next (s.withRes (.frame f))

/-! ### Error-correcting codes -/

/-- R106: with the distance R268 asks of a code at most one codeword is near enough. -/
def Obligations.NearCodewordIsUnique : Prop :=
  ∀ (c : BlockCode) (r a b : Nat), codeDistanceOk c → a ∈ c.cw → b ∈ c.cw →
    wordDist c.n r a ≤ c.t → wordDist c.n r b ≤ c.t → a = b

/-- R106, R108, R109, R110: the three correctors on a codeword inside the frame; what a codeword outside the frame reports is
the model's (R43 names no index, log entry 26). That every corrector runs on an instance of either codec is log entry 41, and
the count stands in the model's latch (log entry 22). -/
def Obligations.CorrectorsRestoreTheNearCodeword : Prop :=
  ∀ (s : State) (sel : FrameSel) (name : CodeName) (op : Int → Instr),
    (∀ o, op o = (match name with
      | .code24 => .eccC24 sel o
      | .code23 => .eccC23 sel o
      | .code15 => .eccC15 sel o)) →
    (∀ o r : Nat, codeDistanceOk (s.rom.code name) → o + (s.rom.code name).n ≤ (frameOf s.work sel).length →
      (∀ j, j < (s.rom.code name).n → r.testBit ((s.rom.code name).n - 1 - j) = (frameOf s.work sel).getD (o + j) false) →
      (∀ w ∈ (s.rom.code name).cw, wordDist (s.rom.code name).n r w ≤ (s.rom.code name).t →
        ∃ t, exec (op o) s = .next t
          ∧ t = State.withRes { s with work := putFrame s.work sel (frameOf t.work sel) }
                  (.value (wordDist (s.rom.code name).n r w))
          ∧ (frameOf t.work sel).length = (frameOf s.work sel).length
          ∧ (∀ j, j < (s.rom.code name).n →
              (frameOf t.work sel).getD (o + j) false = w.testBit ((s.rom.code name).n - 1 - j))
          ∧ (∀ p, p < o ∨ o + (s.rom.code name).n ≤ p →
              (frameOf t.work sel).getD p false = (frameOf s.work sel).getD p false))
      ∧ ((∀ w ∈ (s.rom.code name).cw, (s.rom.code name).t < wordDist (s.rom.code name).n r w) →
          exec (op o) s = .next (s.withRes (.value (s.rom.code name).sentinel))))
    ∧ ∀ o : Int, ¬(0 ≤ o ∧ o + (s.rom.code name).n ≤ (frameOf s.work sel).length) →
        ∃ t, exec (op o) s = .next t ∧ t.fault = 2 ∧ SameCarried s t
          ∧ t.faultInfo = BitVec.ofInt 16 (if o < 0 then o else max o (frameOf s.work sel).length)

/-! ### Frame Decoder -/

/-- R254, R91, R44: `LOAD` of a payload of the right length. -/
def Obligations.LoadFillsTheRawFrame : Prop :=
  ∀ s : State, s.work.inCount.toNat = frameBytes s.codec →
    ∃ t, exec .load s = .next t
      ∧ t = { s with stage := 2, work := { s.work with fb := t.work.fb } }
      ∧ t.work.fb.length = frameBits s.codec
      ∧ ∀ k j, k < frameBytes s.codec → j < 8 →
          t.work.fb.getD (8 * k + j) false = (s.work.inBytes.getD k 0).getLsbD j

/-- R121: a permutation loses and doubles no bit. -/
def Obligations.PartitionPermutesTheFrame : Prop :=
  ∀ s : State, (s.rom.cosetMap s.codec).Perm (List.range (frameBits s.codec)) → s.work.fb.length = frameBits s.codec →
    ∃ t, exec .partition s = .next t
      ∧ t = { s with stage := 3, work := { s.work with wf := t.work.wf } }
      ∧ t.work.wf.length = frameBits s.codec
      ∧ (∀ j, j < frameBits s.codec →
          t.work.wf.getD j false = s.work.fb.getD ((s.rom.cosetMap s.codec).getD j 0) false)
      ∧ t.work.wf.Perm s.work.fb

/-- R123: `ECC0`; what the corrector does to the frame is `CorrectorsRestoreTheNearCodeword`'s. The ROM need not be legal: that
a sentinel of 256 or more stands in `e[0]` modulo 256, the width R17 gives it, is the model's choice (log entry 28). -/
def Obligations.Ecc0CorrectsAndReadsCosetZero : Prop :=
  ∀ (s : State) (c : Coset) (cs : List Coset), s.rom.cosets s.codec = c :: cs →
    c.off + (s.rom.code c.code).n ≤ s.work.wf.length → c.off + 12 ≤ s.work.wf.length →
      ∃ t count, exec .ecc0 s = .next t
        ∧ eccCorrect (s.rom.code c.code) s.work.wf c.off = .ok (t.work.wf, count)
        ∧ t = { s with stage := 4, work := { s.work with wf := t.work.wf, e := t.work.e, u0 := t.work.u0 } }
        ∧ t.work.e.getD 0 0 = BitVec.ofNat 8 count
        ∧ (∀ i, 1 ≤ i → i < 7 → t.work.e.getD i 0 = s.work.e.getD i 0)
        ∧ ∀ k, k < 12 → t.work.u0.toNat.testBit (11 - k) = t.work.wf.getD (c.off + k) false

/-- R124 with R126: position `p` of a later coset is masked with the bit of generator step `p - n₀ + 1`, `n₀` being the
length of coset 0; coset 0 and the unprotected bits are not touched. -/
def Obligations.DerandMasksTheLaterCosets : Prop :=
  ∀ (s : State) (c : Coset) (cs : List Coset), s.rom.legal = true → s.rom.cosets s.codec = c :: cs →
    s.work.wf.length = frameBits s.codec →
      ∃ t, exec .derand s = .next t
        ∧ t = { s with stage := 5, work := { s.work with wf := t.work.wf, mask := t.work.mask } }
        ∧ t.work.wf.length = frameBits s.codec
        ∧ ∀ p, p < frameBits s.codec →
            t.work.wf.getD p false = xor (s.work.wf.getD p false)
              (decide (c.n ≤ p ∧ p < c.n + (cs.map (·.n)).sum
                ∧ 32768 ≤ (fun x => (173 * x + 13849) % 65536)^[p - c.n + 1]
                    ((s.rom.seedScale * s.work.u0.toNat) % 65536)))

/-- R125: each later coset is corrected where it stands, its count goes to its `e[i]`, nothing else changes, the counts beyond
the last coset among it. -/
def Obligations.EccnCorrectsTheLaterCosets : Prop :=
  ∀ (s : State) (c : Coset) (cs : List Coset), s.rom.legal = true → s.rom.cosets s.codec = c :: cs →
    s.work.wf.length = frameBits s.codec →
      ∃ t, exec .eccn s = .next t
        ∧ t = { s with stage := 6, work := { s.work with wf := t.work.wf, e := t.work.e } }
        ∧ t.work.wf.length = frameBits s.codec
        ∧ t.work.e.getD 0 0 = s.work.e.getD 0 0
        ∧ (∀ i, cs.length + 1 ≤ i → i < 7 → t.work.e.getD i 0 = s.work.e.getD i 0)
        ∧ (∀ (i : Nat) (d : Coset), cs[i]? = some d →
            ∃ f count, eccCorrect (s.rom.code d.code) s.work.wf d.off = .ok (f, count)
              ∧ t.work.e.getD (i + 1) 0 = BitVec.ofNat 8 count
              ∧ ∀ p, d.off ≤ p → p < d.off + d.n → t.work.wf.getD p false = f.getD p false)
        ∧ ∀ p, p < c.n ∨ c.n + (cs.map (·.n)).sum ≤ p → t.work.wf.getD p false = s.work.wf.getD p false

/-- R127; that a total of 256 or more stands in `eT` modulo 256, the width R17 gives it, is the model's choice (log entry 28). -/
def Obligations.ErrsumAddsTheCounts : Prop :=
  ∀ s : State, ∃ t, exec .errsum s = .next t
    ∧ t = { s with stage := 7, work := { s.work with eT := t.work.eT } }
    ∧ t.work.eT.toNat = (∑ i ∈ Finset.range (s.rom.cosets s.codec).length, (s.work.e.getD i 0).toNat) % 256
    ∧ ∀ i, (s.rom.cosets s.codec).length ≤ i → s.errorAt i = 0

/-- R129, R68, R69: `FF.LOOKUP` in full tables. That either codec's table is read on an instance of either codec is log entry
41, and the entry stands in the model's latch (log entry 22). -/
def Obligations.LookupClassifiesTheIndex : Prop :=
  ∀ (s : State) (v : Int),
    (s.rom.ambe.ff.length = 128 →
      (0 ≤ v ∧ v ≤ 127 →
        ∃ e, exec (.ffLookup .ambe v) s = .next (s.withRes (.entry e))
          ∧ e.index = v.toNat
          ∧ e.frequency = (s.rom.ambe.ff.getD v.toNat default).frequency
          ∧ e.harmonicCount = (s.rom.ambe.ff.getD v.toNat default).harmonicCount
          ∧ (e.frameType = .voice ↔ v ≤ 119) ∧ (e.frameType = .erasure ↔ 120 ≤ v ∧ v ≤ 123)
          ∧ (e.frameType = .silence ↔ 124 ≤ v ∧ v ≤ 125) ∧ (e.frameType = .tone ↔ 126 ≤ v))
      ∧ (¬(0 ≤ v ∧ v ≤ 127) →
          ∃ t, exec (.ffLookup .ambe v) s = .next t ∧ t.fault = 4 ∧ t.faultInfo = BitVec.ofInt 16 v ∧ SameCarried s t))
    ∧ (s.rom.imbe.ff.length = 208 →
        ∃ e, exec (.ffLookup .imbe v) s = .next (s.withRes (.entry e))
          ∧ (0 ≤ v ∧ v ≤ 207 → e.index = v.toNat ∧ e.frameType = .voice
              ∧ e.frequency = (s.rom.imbe.ff.getD v.toNat default).frequency
              ∧ e.harmonicCount = (s.rom.imbe.ff.getD v.toNat default).harmonicCount)
          ∧ (¬(0 ≤ v ∧ v ≤ 207) → e.frameType = .invalid
              ∧ e.frequency = s.rom.imbe.sentinel.frequency ∧ e.harmonicCount = s.rom.imbe.sentinel.harmonicCount))

/-- R128, R67, R255: `W0IDX` under a legal ROM; the entry is `FF.LOOKUP`'s of the extracted index. -/
def Obligations.W0idxLooksTheIndexUp : Prop :=
  ∀ s : State, s.rom.legal = true → s.work.wf.length = frameBits s.codec →
    ∃ t v, exec .w0idx s = .next t
      ∧ t = { s with stage := t.stage, work := { s.work with
                w0Index := t.work.w0Index, ff := t.work.ff, frameType := t.work.frameType } }
      ∧ (s.codec = .ambe → t.stage = 8 ∧ v ≤ 127) ∧ (s.codec = .imbe → t.stage = 9 ∧ v ≤ 255)
      ∧ t.work.w0Index.toNat = v
      ∧ (∀ k, k < (s.rom.w0Idx s.codec).length →
          v.testBit ((s.rom.w0Idx s.codec).length - 1 - k) = s.work.wf.getD ((s.rom.w0Idx s.codec).getD k 0) false)
      ∧ exec (.ffLookup s.codec v) s = .next (s.withRes (.entry t.work.ff))
      ∧ t.work.frameType = t.work.ff.frameType

/-- R130, R131, R132, R133: the classification of an AMBE frame and its tone metadata, `v` being the value under
`TONE_CHECK_IDX`. An IMBE instance never reaches the stage (log entry 34). -/
def Obligations.TonechkClassifies : Prop :=
  (∀ (s : State) (v : Nat), s.codec = .ambe → s.rom.legal = true → s.work.wf.length = 72 →
    extractRom s.work.wf s.rom.ambe.toneCheckIdx = .ok v →
      ∃ t, exec .tonechk s = .next t
        ∧ t = { s with stage := 9, toneCtr := t.toneCtr, work := { s.work with
                  frameType := t.work.frameType, forcedErasure := t.work.forcedErasure, tone := t.work.tone } }
        ∧ (v = s.rom.ambe.toneCheckValue →
            (s.work.ff.frameType = .voice ∧ s.rom.ambe.toneConflictErr ≤ s.work.eT.toNat →
              t.work.frameType = .erasure ∧ t.work.forcedErasure = true)
            ∧ (¬(s.work.ff.frameType = .voice ∧ s.rom.ambe.toneConflictErr ≤ s.work.eT.toNat) →
              t.work.frameType = .tone ∧ t.work.forcedErasure = false))
        ∧ (v ≠ s.rom.ambe.toneCheckValue →
            (s.work.ff.frameType = .tone → t.work.frameType = .erasure ∧ t.work.forcedErasure = true)
            ∧ (s.work.ff.frameType ≠ .tone →
                t.work.frameType = s.work.ff.frameType ∧ t.work.forcedErasure = false))
        ∧ (t.work.frameType ≠ .tone → t.work.tone.valid = false)
        ∧ (t.work.frameType = .tone → t.work.tone.valid = true
            ∧ (∀ k, k < 8 → t.work.tone.id.toNat.testBit (7 - k)
                = s.work.wf.getD (s.rom.ambe.toneIdIdx.getD k 0) false)
            ∧ (∀ k, k < 7 → t.work.tone.amplitude.toNat.testBit (6 - k)
                = s.work.wf.getD (s.rom.ambe.toneAmpIdx.getD k 0) false)
            ∧ t.work.tone.cls = s.rom.ambe.toneClass.getD t.work.tone.id.toNat .discrete))
  ∧ ∀ s : State, s.codec = .imbe → exec .tonechk s = .next { s with stage := 9 }

/-- R134, R275: `FIELDS` reads every field of the codec through its index list, for every frame type but a tone frame's (and
an IMBE frame's of type `INVALID`). -/
def Obligations.FieldsReadsTheIndexLists : Prop :=
  ∀ s : State, s.rom.legal = true → s.work.wf.length = frameBits s.codec →
    (s.work.frameType = .tone ∨ (s.codec = .imbe ∧ s.work.frameType = .invalid) →
      exec .fields s = .next { s with stage := 10 })
    ∧ (s.work.frameType ≠ .tone → s.codec = .ambe →
        ∃ t, exec .fields s = .next t
          ∧ t = { s with stage := 10, work := { s.work with fld := t.work.fld } }
          ∧ extractRom s.work.wf s.rom.ambe.vuvIdx = .ok t.work.fld.vuvIdx
          ∧ extractRom s.work.wf s.rom.ambe.gainIdx = .ok t.work.fld.gainIdx
          ∧ extractRom s.work.wf s.rom.ambe.prba1Idx = .ok t.work.fld.prba1Idx
          ∧ extractRom s.work.wf s.rom.ambe.prba2Idx = .ok t.work.fld.prba2Idx
          ∧ ∀ i, i < 4 → extractRom s.work.wf (s.rom.ambe.hocIdx.getD i []) = .ok (t.work.fld.hocIdx.getD i 0))
    ∧ (s.work.frameType ≠ .tone → s.work.frameType ≠ .invalid → s.codec = .imbe →
        harmonicRange s.work.ff.harmonicCount →
        ∃ t lay, exec .fields s = .next t
          ∧ t = { s with stage := 10, work := { s.work with fld := t.work.fld } }
          ∧ s.rom.imbe.fields[s.work.ff.harmonicCount - 9]? = some lay
          ∧ extractRom s.work.wf lay.gainIdx = .ok t.work.fld.gainIdx
          ∧ (∀ i, i < lay.gainQ.length → extractRom s.work.wf (lay.gainQ.getD i []) = .ok (t.work.fld.gainQ.getD i 0))
          ∧ (∀ i, i < lay.vuv.length → extractRom s.work.wf (lay.vuv.getD i []) = .ok (t.work.fld.vuv.getD i 0))
          ∧ ∀ i, i < lay.hocQ.length → extractRom s.work.wf (lay.hocQ.getD i []) = .ok (t.work.fld.hocQ.getD i 0))

/-! ### Model Parameter Decoder -/

/-- R145: the repeat check as written, the comparison of `eT` with the threshold in the machine's numbers (log entries 1
and 2); over the reals it is the spec's own inequality. -/
def Obligations.RepeatCheckAsWritten : Prop :=
  (∀ s : State, ∃ t, exec .repeatchk s = .next t
    ∧ t = { s with stage := t.stage, work := { s.work with repeatFlag := t.work.repeatFlag } }
    ∧ (t.work.repeatFlag = true ↔
        s.work.frameType = .erasure ∨ 4 ≤ (s.errorAt 0).toNat
        ∨ (s.codec = .ambe ∧ 2 ≤ (s.errorAt 0).toNat ∧ 6 ≤ s.work.eT.toNat)
        ∨ (s.codec = .imbe ∧
            Config.le (Config.add (.int 10) (Config.mul (.int 40) s.pmp.errorRate)) (.int s.work.eT.toNat) = true)
        ∨ (s.codec = .imbe ∧ s.work.frameType = .invalid))
    ∧ (t.work.repeatFlag = true → t.stage = 11)
    ∧ (t.work.repeatFlag = false → s.work.frameType = .tone → t.stage = 12)
    ∧ (t.work.repeatFlag = false → s.work.frameType ≠ .tone → t.stage = 13))
  ∧ ∀ (c : Codec) (ft : FrameType) (e0 eT : Nat) (rate : ℝ),
      repeatCheck (N := realNumerics) c ft e0 eT rate = true ↔
        ft = .erasure ∨ 4 ≤ e0 ∨ (c = .ambe ∧ 2 ≤ e0 ∧ 6 ≤ eT) ∨ (c = .imbe ∧ 10 + 40 * rate ≤ (eT : ℝ))
        ∨ (c = .imbe ∧ ft = .invalid)

/-- R146: a repeat copies the previous set, the fifth in a row installs the default. -/
def Obligations.RepeatCopiesOrMutes : Prop :=
  ∀ s : State, ∃ t, exec .repeatFrame s = .next t
    ∧ t = { s with stage := 20, work := { s.work with cmp := t.work.cmp, muted := t.work.muted } }
    ∧ (4 ≤ s.pmp.repeatCount → t.work.cmp = s.rom.mpDefault s.codec ∧ t.work.muted = true)
    ∧ (s.pmp.repeatCount < 4 →
        t.work.cmp = { s.pmp with repeatCount := s.pmp.repeatCount + 1 } ∧ t.work.muted = false)

/-- R147: the repeat/mute scenario; `afterRepeats k` is `k` frames of `REPEAT` and `COMMIT`. -/
def Obligations.FiveRepeatsMute : Prop :=
  (∀ s t u : State, exec .repeatFrame s = .next t → exec .commit t = .next u → afterRepeat s = u)
  ∧ ∀ s : State, s.pmp.repeatCount = 0 → (s.rom.mpDefault s.codec).repeatCount = 0 →
      (afterRepeats 1 s).pmp.repeatCount = 1 ∧ (afterRepeats 2 s).pmp.repeatCount = 2
      ∧ (afterRepeats 3 s).pmp.repeatCount = 3 ∧ (afterRepeats 4 s).pmp.repeatCount = 4
      ∧ (afterRepeats 5 s).pmp = s.rom.mpDefault s.codec ∧ (afterRepeats 5 s).pmp.repeatCount = 0
      ∧ (afterRepeats 6 s).pmp.repeatCount = 1

/-- R148, R149, R150: the two stages that make a new `CMP`, in the machine's numbers (log entry 1). R148 is AMBE only; that TONESET
does the same on an IMBE instance, which never reaches it, is log entry 34. -/
def Obligations.NewParametersComplete : Prop :=
  ∀ s : State,
    (∃ t, exec .toneset s = .next t
      ∧ t = { s with stage := 20, work := { s.work with cmp := t.work.cmp } }
      ∧ t.work.cmp = { s.rom.ambe.mpDefault with
          frameType := .tone, repeatCount := 0, errorCountTotal := s.work.eT, errorCount := t.work.cmp.errorCount,
          errorRate := Config.add (Config.mul (Config.lit (mkRat 95 100)) s.pmp.errorRate)
            (Config.mul (Config.lit (mkRat 1064 1000000)) (.int s.work.eT.toNat)) }
      ∧ ∀ i, i < 7 → t.work.cmp.errorCount.getD i 0 = s.errorAt i)
    ∧ ∃ t, exec .mpnew s = .next t
      ∧ t = { s with stage := 14, work := { s.work with cmp := t.work.cmp } }
      ∧ t.work.cmp = { s.pmp with
          fundamentalFrequency := s.work.ff, frameType := s.work.frameType, repeatCount := 0,
          errorCountTotal := s.work.eT, errorCount := t.work.cmp.errorCount,
          voicingDecisions := List.replicate 57 false,
          log2SpectralAmplitudes := List.replicate 57 (.int 0),
          spectralAmplitudes := List.replicate 57 (.int 0),
          enhancedSpectralAmplitudes := List.replicate 57 (.int 0),
          errorRate := Config.add (Config.mul (Config.lit (mkRat 95 100)) s.pmp.errorRate)
            (Config.mul (Config.lit (match s.codec with
              | .ambe => mkRat 1064 1000000
              | .imbe => mkRat 365 1000000)) (.int s.work.eT.toNat)) }
      ∧ ∀ i, i < 7 → t.work.cmp.errorCount.getD i 0 = s.errorAt i

/-- R152, R153, R168: the gain of either codec in the machine's numbers and function parameters (log entries 1 and 10), and the
read of the gain table beyond its end. That a missing `gainQ` entry reads 0 is the model's choice (log entry 42). -/
def Obligations.GainReadsTheTable : Prop :=
  ∀ s : State,
    (s.codec = .ambe → s.work.fld.gainIdx < s.rom.ambe.dgain.length →
      ∃ t, exec .gain s = .next t
        ∧ t = { s with stage := 15, work := { s.work with
                  gvec := t.work.gvec, rg := t.work.rg, cmp := { s.work.cmp with gain := t.work.cmp.gain } } }
        ∧ t.work.cmp.gain = Config.add (s.rom.ambe.dgain.getD s.work.fld.gainIdx (.int 0))
            (Config.mul (Config.lit (mkRat 5 10)) s.pmp.gain)
        ∧ t.work.gvec.length = 8
        ∧ (∀ m, m < 8 → t.work.gvec.getD m (.int 0)
            = Config.prbaVector s.work.fld.prba1Idx s.work.fld.prba2Idx (m + 1))
        ∧ t.work.rg = idct (N := numerics) t.work.gvec)
    ∧ (s.codec = .imbe → s.work.fld.gainIdx < s.rom.imbe.gainTable.length →
      ∃ t, exec .gain s = .next t
        ∧ t = { s with stage := 15, work := { s.work with
                  gvec := t.work.gvec, rg := t.work.rg, cmp := { s.work.cmp with gain := t.work.cmp.gain } } }
        ∧ t.work.cmp.gain = s.rom.imbe.gainTable.getD s.work.fld.gainIdx (.int 0)
        ∧ t.work.gvec.length = 6 ∧ t.work.gvec.getD 0 (.int 0) = t.work.cmp.gain
        ∧ (∀ m, 2 ≤ m → m ≤ 6 → t.work.gvec.getD (m - 1) (.int 0)
            = Config.imbeGainDeq m s.work.ff.harmonicCount (s.work.fld.gainQ.getD (m - 2) 0))
        ∧ t.work.rg = idct (N := numerics) t.work.gvec)
    ∧ ((s.codec = .ambe ∧ s.rom.ambe.dgain.length ≤ s.work.fld.gainIdx)
        ∨ (s.codec = .imbe ∧ s.rom.imbe.gainTable.length ≤ s.work.fld.gainIdx) →
      ∃ t, exec .gain s = .next t ∧ t.fault = 3 ∧ t.faultInfo = BitVec.ofNat 16 s.work.fld.gainIdx
        ∧ t.stage = Stage.idle ∧ SameCarried s t)

/-- R159 over the reals, over which the spec states it: the sum of cosines, and its corner case `n = 1`. -/
def Obligations.InverseDctOverTheReals : Prop :=
  (∀ (xs : List ℝ) (j : Nat), 1 ≤ j → j ≤ xs.length →
    (idct (N := realNumerics) xs).getD (j - 1) 0
      = ∑ k ∈ Finset.Icc 1 xs.length,
          (if k = 1 then (1 : ℝ) else 2) * xs.getD (k - 1) 0
            * Real.cos (Real.pi * ((k : ℝ) - 1) * ((j : ℝ) - 1 / 2) / (xs.length : ℝ)))
  ∧ (∀ xs : List ℝ, (idct (N := realNumerics) xs).length = xs.length)
  ∧ ∀ x : ℝ, idct (N := realNumerics) [x] = [x]

/-- R155, R156: one flag a harmonic, read through its band; false elsewhere. An index beyond `VUV_AMBE`, and the first band
beyond the vector read, raise `CodebookIndex` with it (R155, R168). The row may have any length; that one of other than the eight
bools of R280 is read as it is listed, and ends where it ends, is the model's choice (log entry 42). Over the reals the band of a harmonic below half the
sample rate (R266) is one of the eight (R280). -/
def Obligations.VoicingFollowsTheBands : Prop :=
  (∀ s : State, s.work.ff.harmonicCount ≤ 56 →
    (∀ row : List Bool, s.codec = .ambe → s.rom.ambe.vuv[s.work.fld.vuvIdx]? = some row →
      (∀ l, 1 ≤ l → l ≤ s.work.ff.harmonicCount →
        0 ≤ bandIndex (N := numerics) s.work.ff.frequency l
        ∧ bandIndex (N := numerics) s.work.ff.frequency l < row.length) →
      ∃ t, exec .voicing s = .next t
        ∧ t = { s with stage := 16, work := { s.work with
                  cmp := { s.work.cmp with voicingDecisions := t.work.cmp.voicingDecisions } } }
        ∧ t.work.cmp.voicingDecisions.length = 57
        ∧ (∀ l, 1 ≤ l → l ≤ s.work.ff.harmonicCount →
            t.work.cmp.voicingDecisions.getD l false
              = (row.getD (bandIndex (N := numerics) s.work.ff.frequency l).toNat false
                  && !(decide (s.work.frameType = .silence) && s.rom.ambe.silenceForceUnvoiced)))
        ∧ (∀ l, l = 0 ∨ s.work.ff.harmonicCount < l → t.work.cmp.voicingDecisions.getD l false = false))
    ∧ (s.codec = .ambe → s.rom.ambe.vuv.length ≤ s.work.fld.vuvIdx →
      ∃ t, exec .voicing s = .next t ∧ t.fault = 3 ∧ t.faultInfo = BitVec.ofNat 16 s.work.fld.vuvIdx
        ∧ t.stage = Stage.idle ∧ SameCarried s t)
    ∧ (∀ (row : List Bool) (l : Nat), s.codec = .ambe → s.rom.ambe.vuv[s.work.fld.vuvIdx]? = some row →
      1 ≤ l → l ≤ s.work.ff.harmonicCount →
      (∀ k, 1 ≤ k → k < l →
        0 ≤ bandIndex (N := numerics) s.work.ff.frequency k
        ∧ bandIndex (N := numerics) s.work.ff.frequency k < row.length) →
      ¬(0 ≤ bandIndex (N := numerics) s.work.ff.frequency l
        ∧ bandIndex (N := numerics) s.work.ff.frequency l < row.length) →
      ∃ t, exec .voicing s = .next t ∧ t.fault = 3
        ∧ t.faultInfo = BitVec.ofInt 16 (bandIndex (N := numerics) s.work.ff.frequency l)
        ∧ t.stage = Stage.idle ∧ SameCarried s t)
    ∧ (s.codec = .imbe → s.rom.legal = true → 9 ≤ s.work.ff.harmonicCount →
      s.work.fld.vuv.length = s.rom.imbe.bandCount.getD (s.work.ff.harmonicCount - 9) 0 →
      ∃ t row, exec .voicing s = .next t
        ∧ t = { s with stage := 16, work := { s.work with
                  cmp := { s.work.cmp with voicingDecisions := t.work.cmp.voicingDecisions } } }
        ∧ s.rom.imbe.vuvBand[s.rom.imbe.bandCount.getD (s.work.ff.harmonicCount - 9) 0 - 1]? = some row
        ∧ (∀ l, 1 ≤ l → l ≤ s.work.ff.harmonicCount →
            t.work.cmp.voicingDecisions.getD l false
              = decide (s.work.fld.vuv.getD (row.getD (l - 1) 0 - 1) 0 = 1))
        ∧ (∀ l, l = 0 ∨ s.work.ff.harmonicCount < l → t.work.cmp.voicingDecisions.getD l false = false)))
  ∧ ∀ (w0 : ℝ) (l : Nat), 0 < w0 →
      bandIndex (N := realNumerics) w0 l = ⌊(l : ℝ) * w0 * 16 / (2 * Real.pi)⌋
      ∧ 0 ≤ bandIndex (N := realNumerics) w0 l
      ∧ (bandIndex (N := realNumerics) w0 l < 8 ↔ (l : ℝ) * w0 < Real.pi)
      ∧ (belowHalfRate (N := realNumerics) w0 l = true ↔ (l : ℝ) * w0 < Real.pi)

/-- R157, R158, R160: the blocks partition the harmonics, and the residual is the blocks' inverse transforms in order. The
number of leading coefficients is log entry 33's. An AMBE block longer than its lead reads its codebook: the first whose
index is beyond it raises `CodebookIndex` with the index (R158, R168). -/
def Obligations.ResidPartitionsTheHarmonics : Prop :=
  ∀ s : State, s.rom.legal = true → harmonicRange s.work.ff.harmonicCount →
    (∀ i, s.codec = .ambe → i < 4 →
      2 < ((s.rom.ambe.jblock.getD (s.work.ff.harmonicCount - 9) []).getD i 0) →
      (s.rom.ambe.hoc.getD i []).length ≤ s.work.fld.hocIdx.getD i 0 →
      (∀ k, k < i → 2 < ((s.rom.ambe.jblock.getD (s.work.ff.harmonicCount - 9) []).getD k 0) →
        s.work.fld.hocIdx.getD k 0 < (s.rom.ambe.hoc.getD k []).length) →
        ∃ t, exec .resid s = .next t ∧ t.fault = 3 ∧ t.faultInfo = BitVec.ofNat 16 (s.work.fld.hocIdx.getD i 0)
          ∧ t.stage = Stage.idle ∧ SameCarried s t)
    ∧ ((s.codec = .ambe → ∀ i, i < 4 →
        2 < ((s.rom.ambe.jblock.getD (s.work.ff.harmonicCount - 9) []).getD i 0) →
        s.work.fld.hocIdx.getD i 0 < (s.rom.ambe.hoc.getD i []).length) →
      ∃ t, exec .resid s = .next t
        ∧ t = { s with stage := 17, work := { s.work with
                  jlen := t.work.jlen, coef := t.work.coef, tres := t.work.tres } }
        ∧ t.work.jlen.map (·.toNat) = (s.rom.jblock s.codec).getD (s.work.ff.harmonicCount - 9) []
        ∧ t.work.jlen.length = njblock s.codec
        ∧ (t.work.jlen.map (·.toNat)).sum = s.work.ff.harmonicCount ∧ (∀ j ∈ t.work.jlen, 1 ≤ j.toNat)
        ∧ t.work.coef.map List.length = t.work.jlen.map (·.toNat)
        ∧ t.work.tres = (t.work.coef.map (idct (N := numerics))).flatten
        ∧ t.work.tres.length = s.work.ff.harmonicCount
        ∧ (s.codec = .ambe → ∀ i k, i < 4 → 1 ≤ k → k ≤ (t.work.jlen.getD i 0).toNat →
            (t.work.coef.getD i []).getD (k - 1) (.int 0)
              = if k ≤ 2 then Config.blockLead .ambe (i + 1) k s.work.rg
                else (((s.rom.ambe.hoc.getD i []).getD (s.work.fld.hocIdx.getD i 0) []).getD (k - 3) (.int 0)))
        ∧ (s.codec = .imbe → ∀ i k, i < 6 → 1 ≤ k → k ≤ (t.work.jlen.getD i 0).toNat →
            (t.work.coef.getD i []).getD (k - 1) (.int 0)
              = if k ≤ leadLength .imbe (i + 1) s.work.rg then Config.blockLead .imbe (i + 1) k s.work.rg
                else Config.hocCoefImbe (i + 1) k s.work.fld.hocQ s.work.ff.harmonicCount))

/-- R161, R165, R166, R167, in the machine's numbers (log entry 1); a `UV_ATTEN` that is not `>= 0` (R287) reads 0 (log entry
10); that a `T[l]` no block gives reads 0 is the model's choice (log entry 42). -/
def Obligations.PredictFillsTheSpectrum : Prop :=
  ∀ s : State, s.work.cmp.fundamentalFrequency.harmonicCount ≤ 56 →
    ∃ t, exec .predict s = .next t
      ∧ t = { s with stage := 18, work := { s.work with cmp := { s.work.cmp with
                log2SpectralAmplitudes := t.work.cmp.log2SpectralAmplitudes
                spectralAmplitudes := t.work.cmp.spectralAmplitudes } } }
      ∧ (∀ l, 1 ≤ l → l ≤ s.work.cmp.fundamentalFrequency.harmonicCount →
          t.work.cmp.log2SpectralAmplitudes.getD l (.int 0)
            = Config.add (Config.sub (Config.add (s.work.tres.getD (l - 1) (.int 0))
                  (Config.mul (Config.predCoef s.codec s.work.cmp.fundamentalFrequency.harmonicCount)
                    (interpolated (N := numerics) s.pmp s.work.cmp.fundamentalFrequency.harmonicCount l)))
                (Config.mul (Config.predCoef s.codec s.work.cmp.fundamentalFrequency.harmonicCount)
                  (interpolatedMean (N := numerics) s.pmp s.work.cmp.fundamentalFrequency.harmonicCount)))
              (Config.gainTerm s.codec s.work.cmp.gain s.work.cmp.fundamentalFrequency.harmonicCount s.work.tres)
          ∧ (s.work.cmp.voicingDecisions.getD l false = true →
              t.work.cmp.spectralAmplitudes.getD l (.int 0)
                = Config.exp (Config.mul Config.ln2 (t.work.cmp.log2SpectralAmplitudes.getD l (.int 0))))
          ∧ (s.work.cmp.voicingDecisions.getD l false = false →
              t.work.cmp.spectralAmplitudes.getD l (.int 0)
                = Config.mul (Config.exp (Config.mul Config.ln2 (t.work.cmp.log2SpectralAmplitudes.getD l (.int 0))))
                    (if Config.le (.int 0) (Config.uvAtten s.codec s.work.cmp.fundamentalFrequency.frequency) then
                      Config.uvAtten s.codec s.work.cmp.fundamentalFrequency.frequency else .int 0)))
      ∧ t.work.cmp.log2SpectralAmplitudes.getD 0 (.int 0) = .int 0
      ∧ t.work.cmp.spectralAmplitudes.getD 0 (.int 0) = .int 0

/-- R161 over the reals: the integer form of the interpolation is the scaled position's floor and remainder, and the mean
of R165 is the mean over the harmonics. `plog` is the previous curve as R23 reads it: 0 at index 0, clamped to the highest
index. -/
def Obligations.InterpolationOverTheReals : Prop :=
  ∀ (prev : ModelParams ℝ) (plog : Nat → ℝ) (lc l : Nat), 1 ≤ lc → 1 ≤ l → l ≤ lc →
    plog 0 = 0 →
    (∀ i, 1 ≤ i → plog i = prev.log2SpectralAmplitudes.getD (min i prev.fundamentalFrequency.harmonicCount) 0) →
    interpolated (N := realNumerics) prev lc l
      = (1 - Int.fract ((prev.fundamentalFrequency.harmonicCount : ℝ) / lc * l))
            * plog ⌊(prev.fundamentalFrequency.harmonicCount : ℝ) / lc * l⌋₊
          + Int.fract ((prev.fundamentalFrequency.harmonicCount : ℝ) / lc * l)
            * plog (⌊(prev.fundamentalFrequency.harmonicCount : ℝ) / lc * l⌋₊ + 1)
    ∧ interpolatedMean (N := realNumerics) prev lc
        = (∑ i ∈ Finset.Icc 1 lc, interpolated (N := realNumerics) prev lc i) / lc

/-! ### Enhancer and Smoother -/

/-- R180 to R185, R187 to R192, in the machine's numbers (log entry 1; the free weights are log entry 15's): what the two
stages write, and that they write nothing else. -/
def Obligations.EnhanceAndSmoothComplete : Prop :=
  ∀ s : State,
    (∃ t r, exec .enhance s = .next t
      ∧ r = enhanceParams (N := numerics) (Config.freeWeight s.freeCtr) s.pmp.localEnergy s.work.weights s.work.cmp
      ∧ t = { s with stage := 19, freeCtr := t.freeCtr, work := { s.work with
                rm0 := r.rm0, rm1 := r.rm1, weights := r.weights, cmp := r.cmp } }
      ∧ r.cmp = { s.work.cmp with
                enhancedSpectralAmplitudes := r.cmp.enhancedSpectralAmplitudes, localEnergy := r.cmp.localEnergy }
      ∧ r.cmp.localEnergy = (if Config.eq r.rm0 (.int 0) then s.work.cmp.localEnergy
          else localEnergyNext (N := numerics) s.pmp.localEnergy r.rm0)
      ∧ (Config.eq r.rm0 (.int 0) = false ∨ ∀ l, r.cmp.enhancedSpectralAmplitudes.getD l (.int 0) = .int 0))
    ∧ ∃ t r, exec .smooth s = .next t
      ∧ r = smoothParams (N := numerics) romFns s.codec s.work.eT.toNat (s.errorAt (s.rom.smoothCoset s.codec)).toNat
              s.pmp.amplitudeThreshold s.work.cmp
      ∧ t = { s with stage := 20, work := { s.work with vm := r.vm, tm := r.tm, am := r.am, cmp := r.cmp } }
      ∧ r.cmp = { s.work.cmp with
                voicingDecisions := r.cmp.voicingDecisions,
                enhancedSpectralAmplitudes := r.cmp.enhancedSpectralAmplitudes, amplitudeThreshold := r.tm }
      ∧ ∀ l, l < 57 → s.work.cmp.voicingDecisions.getD l false = true → r.cmp.voicingDecisions.getD l false = true

/-- R181 to R186 over the reals, over which the spec states them, whatever the weights at a zero denominator are (U4). -/
def Obligations.EnhancementOverTheReals : Prop :=
  ∀ (free : Nat → ℝ) (prevEnergy : ℝ) (old : List ℝ) (p : ModelParams ℝ) (r : Enhanced ℝ) (lc : Nat) (w0 : ℝ)
    (m w e : Nat → ℝ),
    r = enhanceParams (N := realNumerics) free prevEnergy old p →
    lc = p.fundamentalFrequency.harmonicCount → lc ≤ 56 → w0 = p.fundamentalFrequency.frequency →
    (∀ l, m l = p.spectralAmplitudes.getD l 0) → (∀ l, w l = r.weights.getD (l - 1) 0) →
    (∀ l, e l = if 8 * l ≤ lc then m l else if 1.2 < w l then m l * 1.2 else if w l < 0.5 then m l * 0.5 else m l * w l) →
      r.rm0 = ∑ l ∈ Finset.Icc 1 lc, m l ^ 2
      ∧ r.rm1 = ∑ l ∈ Finset.Icc 1 lc, m l ^ 2 * Real.cos (w0 * l)
      ∧ (r.rm0 = 0 → (∀ l, r.cmp.enhancedSpectralAmplitudes.getD l 0 = 0) ∧ r.cmp.localEnergy = p.localEnergy)
      ∧ (r.rm0 ≠ 0 →
          (∀ l, 1 ≤ l → l ≤ lc → w0 * r.rm0 * (r.rm0 ^ 2 - r.rm1 ^ 2) ≠ 0 →
            w l = Real.sqrt (m l) * ((Real.pi * 0.96 * (r.rm0 ^ 2 + r.rm1 ^ 2 - 2 * r.rm0 * r.rm1 * Real.cos (w0 * l)))
                    / (w0 * r.rm0 * (r.rm0 ^ 2 - r.rm1 ^ 2))) ^ (0.25 : ℝ))
          ∧ (∀ l, 1 ≤ l → l ≤ lc → r.cmp.enhancedSpectralAmplitudes.getD l 0
              = e l * Real.sqrt (r.rm0 / ∑ i ∈ Finset.Icc 1 lc, e i ^ 2))
          ∧ r.cmp.localEnergy = max 10000 (0.95 * prevEnergy + 0.05 * r.rm0)
          ∧ ∑ l ∈ Finset.Icc 1 lc, r.cmp.enhancedSpectralAmplitudes.getD l 0 ^ 2 = r.rm0)

/-- R188 to R192 over the reals; `VM = none` is "a value no amplitude exceeds". That the bounded sum is `Tm` is asked where
the sum is not 0. -/
def Obligations.SmoothingOverTheReals : Prop :=
  ∀ (F : RomFns ℝ) (c : Codec) (eT coset : Nat) (prevTm : ℝ) (p : ModelParams ℝ) (r : Smoothed ℝ) (lc : Nat)
    (e : Nat → ℝ),
    r = smoothParams (N := realNumerics) F c eT coset prevTm p →
    lc = p.fundamentalFrequency.harmonicCount → lc ≤ 56 → (∀ l, e l = p.enhancedSpectralAmplitudes.getD l 0) →
      r.vm = (if p.errorRate ≤ 0.005 ∧ eT ≤ 4 then none
              else if p.errorRate ≤ 0.0125 ∧ coset = 0 then
                some (45.255 * p.localEnergy ^ (0.375 : ℝ) / Real.exp (277.26 * p.errorRate))
              else some (1.414 * p.localEnergy ^ (0.375 : ℝ)))
      ∧ (∀ l, 1 ≤ l → l ≤ lc → (r.cmp.voicingDecisions.getD l false = true ↔
            p.voicingDecisions.getD l false = true ∨ ∃ v, r.vm = some v ∧ v < e l))
      ∧ r.tm = (if p.errorRate ≤ 0.005 ∧ eT ≤ 6 then 20480
                else match c with
                  | .imbe => 6000 - 300 * (eT : ℝ) + prevTm
                  | .ambe => F.tmElseAmbe eT prevTm)
      ∧ r.am = ∑ l ∈ Finset.Icc 1 lc, e l
      ∧ (∀ l, 1 ≤ l → l ≤ lc → r.cmp.enhancedSpectralAmplitudes.getD l 0
            = if r.tm < r.am then e l * (r.tm / r.am) else e l)
      ∧ (r.tm < r.am → r.am ≠ 0 →
            ∑ l ∈ Finset.Icc 1 lc, r.cmp.enhancedSpectralAmplitudes.getD l 0 = r.tm)
      ∧ r.cmp.amplitudeThreshold = r.tm

/-! ### Synthesizer -/

/-- R126, R200, R201: the two generators and the rolling noise buffer; what `LCG.STEP` and `NOISE.STEP` return stands in the
model's latch (log entry 22). -/
def Obligations.GeneratorsAdvance : Prop :=
  (∀ (s : State) (seed : BitVec 16), ∃ next bit, exec (.lcgStep seed) s = .next (s.withRes (.lcg next bit))
    ∧ next = (173 * seed.toNat + 13849) % 65536 ∧ (bit = true ↔ 32768 ≤ next) ∧ bit = next.testBit 15)
  ∧ (∀ s : State, ∃ t v, exec .noiseStep s = .next t
      ∧ v = (171 * s.ss.noiseReg + 11213) % 53125
      ∧ t = State.withRes { s with ss := { s.ss with noiseReg := v } } (.value v))
  ∧ (∀ s : State, ∃ t, exec .noise s = .next t
      ∧ t = { s with stage := 21, ss := { s.ss with noiseBuf := t.ss.noiseBuf, noiseReg := t.ss.noiseReg } }
      ∧ t.ss.noiseBuf.length = 256
      ∧ (∀ i, i < 96 → t.ss.noiseBuf.getD i 0 = s.ss.noiseBuf.getD (i + 160) 0)
      ∧ (∀ i, 96 ≤ i → i < 256 →
          t.ss.noiseBuf.getD i 0 = (fun x => (171 * x + 11213) % 53125)^[i - 95] s.ss.noiseReg)
      ∧ t.ss.noiseReg = (fun x => (171 * x + 11213) % 53125)^[160] s.ss.noiseReg)
  ∧ (List.range 8).map (fun k => (fun x => (171 * x + 11213) % 53125)^[k + 1] 3147)
      = [18100, 25063, 46986, 23944, 15012, 28265, 10153, 47376]

/-- R203 to R210, R220 to R238, R240, in the machine's numbers (log entry 1; how a formula is taken apart into operations is log
entries 5 and 6; the free scales are log entry 16's, the draws
log entry 17's; which of two bands a bin takes is log entry 44's, a bin beyond the transform log entry 38's): what the stages write,
and that they write nothing else. -/
def Obligations.SynthesisStagesComplete : Prop :=
  ∀ s : State,
    (∃ t, exec .unvoiced s = .next t
      ∧ t = { s with stage := 22, freeCtr := t.freeCtr, work := { s.work with
                x := t.work.x, spec := t.work.spec, uwShaped := t.work.uwShaped, uw := t.work.uw, suv := t.work.suv } }
      ∧ t.work.x = windowNoise (N := numerics) s.rom.window s.ss.noiseBuf
      ∧ t.work.x.length = 256
      ∧ (∀ i, i < 256 → t.work.x.getD i (.int 0)
          = Config.mul (.int (s.ss.noiseBuf.getD i 0)) (s.rom.window.getD ((i : Int) - 128).natAbs (.int 0)))
      ∧ t.work.spec = xformForward (N := numerics) t.work.x
      ∧ t.work.uwShaped = shapeSpectrum (N := numerics) (Config.freeScale s.freeCtr) s.rom.gammaW s.work.cmp t.work.spec
      ∧ t.work.uw = xformInverse (N := numerics) t.work.uwShaped
      ∧ t.work.suv.length = 160
      ∧ ∀ n, n < 160 → t.work.suv.getD n (.int 0) = overlapAdd (N := numerics) s.rom.window s.ss.prevUw t.work.uw n)
    ∧ (∃ t, exec .phase s = .next t
      ∧ t = { s with stage := 23, drawCtr := t.drawCtr, work := { s.work with pv := t.work.pv, po := t.work.po } }
      ∧ t.drawCtr = s.drawCtr
          + (max s.work.cmp.fundamentalFrequency.harmonicCount s.pmp.fundamentalFrequency.harmonicCount
              - s.work.cmp.fundamentalFrequency.harmonicCount / 4)
      ∧ t.work.pv = trackedPhases (N := numerics) s.pmp s.work.cmp s.ss.phaseV
      ∧ t.work.po = oscillatorPhases (N := numerics) (fun j => drawValue (s.drawCtr + j)) s.pmp s.work.cmp t.work.pv
          s.ss.phaseO)
    ∧ (∃ t, exec .voiced s = .next t
      ∧ t = { s with stage := 24, work := { s.work with sv := t.work.sv } }
      ∧ t.work.sv.length = 160
      ∧ ∀ n, n < 160 → t.work.sv.getD n (.int 0)
          = voicedSample (N := numerics) s.rom.window s.rom.pitchJumpRatio s.pmp s.work.cmp s.ss.phaseO s.work.po n)
    ∧ (∃ t, exec .combine s = .next t
      ∧ t = { s with stage := 25, work := { s.work with out := t.work.out } }
      ∧ t.work.out.length = 160
      ∧ ∀ n, n < 160 → t.work.out.getD n (.int 0)
          = Config.mul (Config.mul s.gain s.rom.outScale)
              (Config.add (s.work.suv.getD n (.int 0)) (s.work.sv.getD n (.int 0))))

/-- R159, R202, R205, R209, R291 run on their own (log entry 22), in the machine's numbers (log entry 1; how a sum, a product and a
complex term are taken apart is log entries 5 and 6): each completes and writes its result alone; the window is the
ROM's table at the distance from the centre, on either side of it, and 0 beyond the table. -/
def Obligations.RealPrimitivesComplete : Prop :=
  ∀ s : State,
    (∀ (x1 : MReal) (xs : List MReal), ∃ ys, exec (.idct x1 xs) s = .next (s.withRes (.reals ys))
      ∧ ys = idct (N := numerics) (x1 :: xs) ∧ ys.length = xs.length + 1)
    ∧ (∀ n : Int, ∃ w, exec (.ws n) s = .next (s.withRes (.real w))
      ∧ exec (.ws (-n)) s = .next (s.withRes (.real w))
      ∧ w = s.rom.window.getD n.natAbs (.int 0)
      ∧ (s.rom.window.length ≤ n.natAbs → w = .int 0))
    ∧ (∃ t, exec .xformFwd s = .next t ∧ t = { s with work := { s.work with spec := t.work.spec } }
      ∧ t.work.spec = xformForward (N := numerics) s.work.x ∧ t.work.spec.length = 256)
    ∧ ∃ t, exec .xformInv s = .next t ∧ t = { s with work := { s.work with uw := t.work.uw } }
      ∧ t.work.uw = xformInverse (N := numerics) s.work.uwShaped ∧ t.work.uw.length = 256

/-- R258, R70: what `COMMIT` persists and shows. That a flag is 0 on a path that does not set it is log entry 31; that a
harmonic count of 64 or more, or a repeat count of 8 or more, is shown modulo 64 or 8 is the model's choice (log entry 28). -/
def Obligations.CommitPersists : Prop :=
  ∀ s : State, ∃ t, exec .commit s = .next t
    ∧ t = { s with
        stage := Stage.idle, pmp := t.pmp, ss := t.ss, status := t.status, tone := t.tone,
        result := .samples s.work.out, work := t.work, freeCtr := t.freeCtr, toneCtr := t.toneCtr }
    ∧ t.pmp = s.work.cmp
    ∧ (∀ l, 1 ≤ l → l ≤ 56 → t.ss.phaseV.getD l (.int 0) = s.work.pv.getD l (.int 0)
        ∧ t.ss.phaseO.getD l (.int 0) = s.work.po.getD l (.int 0))
    ∧ (∀ i, i < 256 → t.ss.prevUw.getD i (.int 0) = s.work.uw.getD i (.int 0))
    ∧ t.ss.noiseBuf = s.ss.noiseBuf ∧ t.ss.noiseReg = s.ss.noiseReg
    ∧ (s.work.frameType = .voice → t.status.frameType = 0) ∧ (s.work.frameType = .silence → t.status.frameType = 1)
    ∧ (s.work.frameType = .erasure → t.status.frameType = 2) ∧ (s.work.frameType = .tone → t.status.frameType = 3)
    ∧ (s.work.frameType = .invalid → t.status.frameType = 4) ∧ t.status.repeated = s.work.repeatFlag
    ∧ (s.work.repeatFlag = true → t.status.muted = s.work.muted)
    ∧ (s.work.repeatFlag = false → t.status.muted = false)
    ∧ (s.codec = .ambe → t.status.forcedErasure = s.work.forcedErasure)
    ∧ (s.codec = .imbe → t.status.forcedErasure = false)
    ∧ t.status.w0Index = s.work.w0Index
    ∧ t.status.harmonics = BitVec.ofNat 6 s.work.cmp.fundamentalFrequency.harmonicCount
    ∧ t.status.e.length = 7 ∧ (∀ i, i < 7 → t.status.e.getD i 0 = s.errorAt i)
    ∧ t.status.eT = s.work.eT ∧ t.status.repeatCount = BitVec.ofNat 3 s.work.cmp.repeatCount
    ∧ (t.tone.valid = true ↔
        s.codec = .ambe ∧ s.work.repeatFlag = false ∧ s.work.frameType = .tone ∧ s.work.tone.valid = true)
    ∧ (t.tone.valid = true → t.tone = s.work.tone)

/-- R205, R209 over the reals: the spectrum of a real buffer is conjugate symmetric, and the inverse transform gives the
buffer back. -/
def Obligations.TransformPairOverTheReals : Prop :=
  ∀ x : List ℝ, x.length = 256 →
    (∀ m, m < 256 → binAt (N := realNumerics) (xformForward (N := realNumerics) x) m
        = (∑ i ∈ Finset.range 256, x.getD i 0 * Real.cos (2 * Real.pi * m * ((i : ℝ) - 128) / 256),
           - ∑ i ∈ Finset.range 256, x.getD i 0 * Real.sin (2 * Real.pi * m * ((i : ℝ) - 128) / 256)))
    ∧ (∀ m, 1 ≤ m → m ≤ 255 →
        binAt (N := realNumerics) (xformForward (N := realNumerics) x) (256 - m)
          = conj (N := realNumerics) (binAt (N := realNumerics) (xformForward (N := realNumerics) x) m))
    ∧ xformInverse (N := realNumerics) (xformForward (N := realNumerics) x) = x

/-- R206, R207, R208 over the reals: the bands abut, a bin belongs to one band at most; a bin of an unvoiced band is scaled, one
of a voiced band and one no band owns is 0, and the bins 129 to 255 mirror the lower ones; a parameter set whose amplitudes
are all 0 shapes every bin to 0, whatever the scale at a zero band energy is (U5, R290). The frequency has no upper bound: that a
band which runs beyond bin 255 reads 0 there is the model's choice (log entry 38). -/
def Obligations.BandsAndBinsOverTheReals : Prop :=
  (∀ (w0 : ℝ) (l : Nat), bandHi (N := realNumerics) w0 l = bandLo (N := realNumerics) w0 (l + 1)
    ∧ bandLo (N := realNumerics) w0 l = ⌈256 / (2 * Real.pi) * ((l : ℝ) - 0.5) * w0⌉)
  ∧ (∀ w0 : ℝ, 0 < w0 → 1 ≤ bandLo (N := realNumerics) w0 1
      ∧ ∀ l l' m, ownsBin (N := realNumerics) w0 l m = true → ownsBin (N := realNumerics) w0 l' m = true → l = l')
  ∧ (∀ (free : Nat → ℝ) (gammaW : ℝ) (p : ModelParams ℝ) (u : List (ℝ × ℝ)) (l m : Nat),
      0 < p.fundamentalFrequency.frequency → 1 ≤ l → l ≤ p.fundamentalFrequency.harmonicCount → m ≤ 128 →
      ownsBin (N := realNumerics) p.fundamentalFrequency.frequency l m = true →
      p.voicingDecisions.getD l false = false →
      (∑ i ∈ Finset.Ico (bandLo (N := realNumerics) p.fundamentalFrequency.frequency l).toNat
              (bandHi (N := realNumerics) p.fundamentalFrequency.frequency l).toNat,
            ((u.getD i (0, 0)).1 ^ 2 + (u.getD i (0, 0)).2 ^ 2)) ≠ 0 →
      binAt (N := realNumerics) (shapeSpectrum (N := realNumerics) free gammaW p u) m
        = let mse := (∑ i ∈ Finset.Ico (bandLo (N := realNumerics) p.fundamentalFrequency.frequency l).toNat
              (bandHi (N := realNumerics) p.fundamentalFrequency.frequency l).toNat,
                ((u.getD i (0, 0)).1 ^ 2 + (u.getD i (0, 0)).2 ^ 2))
            / ((bandHi (N := realNumerics) p.fundamentalFrequency.frequency l
                - bandLo (N := realNumerics) p.fundamentalFrequency.frequency l : ℤ) : ℝ)
          let sc := gammaW * p.enhancedSpectralAmplitudes.getD l 0 / Real.sqrt mse
          (sc * (u.getD m (0, 0)).1, sc * (u.getD m (0, 0)).2))
  ∧ (∀ (free : Nat → ℝ) (gammaW : ℝ) (p : ModelParams ℝ) (u : List (ℝ × ℝ)) (m : Nat),
      (∀ l : Nat, 0 < p.fundamentalFrequency.frequency → 1 ≤ l → l ≤ p.fundamentalFrequency.harmonicCount → m ≤ 128 →
        ownsBin (N := realNumerics) p.fundamentalFrequency.frequency l m = true →
        p.voicingDecisions.getD l false = true →
          binAt (N := realNumerics) (shapeSpectrum (N := realNumerics) free gammaW p u) m = (0, 0))
      ∧ (m ≤ 128 →
          (∀ l : Nat, 1 ≤ l → l ≤ p.fundamentalFrequency.harmonicCount →
            ¬(⌈256 / (2 * Real.pi) * ((l : ℝ) - 0.5) * p.fundamentalFrequency.frequency⌉ ≤ (m : ℤ)
              ∧ (m : ℤ) < ⌈256 / (2 * Real.pi) * ((l : ℝ) + 0.5) * p.fundamentalFrequency.frequency⌉)) →
          binAt (N := realNumerics) (shapeSpectrum (N := realNumerics) free gammaW p u) m = (0, 0))
      ∧ (129 ≤ m → m ≤ 255 →
          binAt (N := realNumerics) (shapeSpectrum (N := realNumerics) free gammaW p u) m
            = ((binAt (N := realNumerics) (shapeSpectrum (N := realNumerics) free gammaW p u) (256 - m)).1,
               -(binAt (N := realNumerics) (shapeSpectrum (N := realNumerics) free gammaW p u) (256 - m)).2)))
  ∧ (∀ (free : Nat → ℝ) (gammaW : ℝ) (p : ModelParams ℝ) (u : List (ℝ × ℝ)),
      (∀ l, l ≤ p.fundamentalFrequency.harmonicCount → p.enhancedSpectralAmplitudes.getD l 0 = 0) →
      ∀ m, binAt (N := realNumerics) (shapeSpectrum (N := realNumerics) free gammaW p u) m = (0, 0))

/-- R202, R210 over the reals with the default window: the weights of consecutive frames add up to 1, the division is never
by 0, and each end of the frame is one buffer alone. -/
def Obligations.OverlapAddOverTheReals : Prop :=
  ∀ ws : List ℝ, ws = defaultWindow (N := realNumerics) →
    (∀ n : Nat, n < 160 →
      windowAt (N := realNumerics) ws n + windowAt (N := realNumerics) ws ((n : ℤ) - 160) = 1
      ∧ windowAt (N := realNumerics) ws n ^ 2 + windowAt (N := realNumerics) ws ((n : ℤ) - 160) ^ 2 ≠ 0)
    ∧ (∀ n : ℤ, windowAt (N := realNumerics) ws n
        = if n.natAbs ≤ 55 then 1 else if n.natAbs ≤ 105 then (105 - (n.natAbs : ℝ)) / 50 else 0)
    ∧ ∀ (prevUw uw : List ℝ) (n : Nat),
        (n ≤ 55 → overlapAdd (N := realNumerics) ws prevUw uw n = prevUw.getD (n + 128) 0)
        ∧ (105 ≤ n → n < 160 → overlapAdd (N := realNumerics) ws prevUw uw n = uw.getD (n - 32) 0)
        ∧ (56 ≤ n → n < 105 → overlapAdd (N := realNumerics) ws prevUw uw n
            = ((105 - (n : ℝ)) / 50 * prevUw.getD (n + 128) 0 + ((n : ℝ) - 55) / 50 * uw.getD (n - 32) 0)
              / (((105 - (n : ℝ)) / 50) ^ 2 + (((n : ℝ) - 55) / 50) ^ 2))

/-- R221 to R238 over the reals: the tracked phase, the four branches and the sum; the smooth branch's phase begins at the
old oscillator's and ends at the new one's but for whole turns (R231). -/
def Obligations.OscillatorsOverTheReals : Prop :=
  (∀ (ws : List ℝ) (ratio : ℝ) (prev cmp : ModelParams ℝ) (phaseO po : List ℝ) (n : Nat) (w0p w0c : ℝ)
      (mp mc : Nat → ℝ) (vp vc : Nat → Prop) (jump : Prop) (s : Nat → ℝ),
      w0p = prev.fundamentalFrequency.frequency → w0c = cmp.fundamentalFrequency.frequency →
      (∀ l, mp l = if l ≤ prev.fundamentalFrequency.harmonicCount then prev.enhancedSpectralAmplitudes.getD l 0 else 0) →
      (∀ l, mc l = if l ≤ cmp.fundamentalFrequency.harmonicCount then cmp.enhancedSpectralAmplitudes.getD l 0 else 0) →
      (∀ l, vp l ↔ l ≤ prev.fundamentalFrequency.harmonicCount ∧ prev.voicingDecisions.getD l false = true) →
      (∀ l, vc l ↔ l ≤ cmp.fundamentalFrequency.harmonicCount ∧ cmp.voicingDecisions.getD l false = true) →
      (jump ↔ ratio * w0c ≤ |w0c - w0p|) →
      (∀ l, (¬vp l ∧ ¬vc l → s l = 0)
        ∧ (vp l ∧ ¬vc l →
            s l = windowAt (N := realNumerics) ws n * mp l * Real.cos (w0p * n * l + phaseO.getD l 0))
        ∧ (¬vp l ∧ vc l →
            s l = windowAt (N := realNumerics) ws ((n : ℤ) - 160) * mc l
              * Real.cos (w0c * ((n : ℝ) - 160) * l + po.getD l 0))
        ∧ (vp l ∧ vc l ∧ (8 ≤ l ∨ jump) →
            s l = windowAt (N := realNumerics) ws n * mp l * Real.cos (w0p * n * l + phaseO.getD l 0)
              + windowAt (N := realNumerics) ws ((n : ℤ) - 160) * mc l
                * Real.cos (w0c * ((n : ℝ) - 160) * l + po.getD l 0))
        ∧ (vp l ∧ vc l ∧ l < 8 ∧ ¬jump →
            s l = (mp l + (n : ℝ) / 160 * (mc l - mp l))
              * Real.cos (smoothTheta (N := realNumerics) w0p w0c (phaseO.getD l 0) (po.getD l 0) l n))) →
      voicedSample (N := realNumerics) ws ratio prev cmp phaseO po n
        = 2 * ∑ l ∈ Finset.Icc 1 (max cmp.fundamentalFrequency.harmonicCount prev.fundamentalFrequency.harmonicCount), s l)
  ∧ (∀ (w0p w0c phaseO po : ℝ) (l : Nat),
      smoothTheta (N := realNumerics) w0p w0c phaseO po l 0 = phaseO
      ∧ (∃ k : ℤ, smoothTheta (N := realNumerics) w0p w0c phaseO po l 160 = po + 2 * Real.pi * k)
      ∧ ∃ dw : ℝ, -Real.pi ≤ 160 * dw ∧ 160 * dw < Real.pi
          ∧ ∀ n : Nat, smoothTheta (N := realNumerics) w0p w0c phaseO po l n
              = phaseO + (w0p * l + dw) * n + (w0c - w0p) * l * (n : ℝ) ^ 2 / 320)
  ∧ ∀ (draw : Nat → ℝ) (prev cmp : ModelParams ℝ) (phaseV phaseO : List ℝ) (pv : List ℝ) (l : Nat),
      pv = trackedPhases (N := realNumerics) prev cmp phaseV → 1 ≤ l → l ≤ 56 →
      (l ≤ max cmp.fundamentalFrequency.harmonicCount prev.fundamentalFrequency.harmonicCount →
        pv.getD l 0 = phaseV.getD l 0
          + (prev.fundamentalFrequency.frequency + cmp.fundamentalFrequency.frequency) * 80 * l
        ∧ (oscillatorPhases (N := realNumerics) draw prev cmp pv phaseO).getD l 0
            = if l ≤ cmp.fundamentalFrequency.harmonicCount / 4 then pv.getD l 0
              else pv.getD l 0
                + (((Finset.Icc 1 cmp.fundamentalFrequency.harmonicCount).filter
                      (fun i => cmp.voicingDecisions.getD i false = false)).card : ℝ)
                    / (cmp.fundamentalFrequency.harmonicCount : ℝ)
                  * draw (l - cmp.fundamentalFrequency.harmonicCount / 4 - 1))
      ∧ (max cmp.fundamentalFrequency.harmonicCount prev.fundamentalFrequency.harmonicCount < l →
          pv.getD l 0 = phaseV.getD l 0
          ∧ (oscillatorPhases (N := realNumerics) draw prev cmp pv phaseO).getD l 0 = phaseO.getD l 0)
end

