-- ==== Sys2Proof/Laws/Arrays.lean ====
section
/-! SUPPORT. Arrays of fixed length (`tab`, `setArr`), table reads (R168) and the spaces' reads and writes (R43). -/

namespace Sys2Proof.Machine

section
variable {α : Type}

@[simp] theorem tab_length (n : Nat) (f : Nat → α) : (tab n f).length = n := by simp [tab]

theorem tab_getElem? (n : Nat) (f : Nat → α) (i : Nat) : (tab n f)[i]? = if i < n then some (f i) else none := by
  by_cases h : i < n <;> simp [tab, h]

theorem tab_getD (n : Nat) (f : Nat → α) (i : Nat) (d : α) : (tab n f).getD i d = if i < n then f i else d := by
  by_cases h : i < n <;> simp [tab, h]

theorem tab_getD_lt {n : Nat} (f : Nat → α) {i : Nat} (h : i < n) (d : α) : (tab n f).getD i d = f i := by
  simp [tab, h]

theorem tab_eq_of {n : Nat} {xs : List α} {d : α} {f : Nat → α} (hl : xs.length = n)
    (h : ∀ i, i < n → xs.getD i d = f i) : xs = tab n f := by
  apply List.ext_getElem (by simp [hl])
  intro i h1 h2
  have := h i (hl ▸ h1)
  simpa [tab, h1] using this

theorem tab_const (n : Nat) (a : α) : tab n (fun _ => a) = List.replicate n a := by
  simp [tab, List.map_const']

theorem mem_tab {n : Nat} {f : Nat → α} {a : α} : a ∈ tab n f ↔ ∃ i, i < n ∧ f i = a := by simp [tab]

@[simp] theorem setArr_length (n : Nat) (d : α) (xs : List α) (i : Nat) (v : α) : (setArr n d xs i v).length = n := by
  simp [setArr]

theorem setArr_getD (n : Nat) (d : α) (xs : List α) (i : Nat) (v : α) (j : Nat) :
    (setArr n d xs i v).getD j d = if j < n then (if j = i then v else xs.getD j d) else d := by
  simp only [setArr, tab_getD]

/-! ### Reads of a table -/

theorem readTable_ok {t : List α} {i : Nat} {a : α} : readTable t i = .ok a ↔ t[i]? = some a := by
  unfold readTable; split <;> simp_all

theorem readTable_lt {t : List α} {i : Nat} (h : i < t.length) (d : α) : readTable t i = .ok (t.getD i d) := by
  simp [readTable, h]

theorem readTable_ge {t : List α} {i : Nat} (h : t.length ≤ i) : readTable t i = .error ⟨.codebookIndex, i⟩ := by
  simp [readTable, h]

theorem readFrom_ok {base : Nat} {t : List α} {i : Nat} {a : α} :
    readFrom base t i = .ok a ↔ base ≤ i ∧ t[i - base]? = some a := by
  unfold readFrom; split <;> [skip; simp_all]; split <;> simp_all

theorem readFrom_lt {base : Nat} {t : List α} {i : Nat} (hb : base ≤ i) (h : i - base < t.length) (d : α) :
    readFrom base t i = .ok (t.getD (i - base) d) := by
  simp [readFrom, hb, h]

/-- A table read raises `CodebookIndex` with the index, or nothing. -/
theorem readTable_error {t : List α} {i : Nat} {x : Raised} (h : readTable t i = .error x) :
    x = ⟨.codebookIndex, i⟩ ∧ t.length ≤ i := by
  unfold readTable at h; split at h <;> simp_all

theorem readFrom_error {base : Nat} {t : List α} {i : Nat} {x : Raised} (h : readFrom base t i = .error x) :
    x = ⟨.codebookIndex, i⟩ ∧ ¬(base ≤ i ∧ i - base < t.length) := by
  unfold readFrom at h; split at h <;> [skip; simp_all]; split at h <;> simp_all

/-! ### Spaces -/

theorem rangeOk_iff {size n : Nat} {addr : Int} : rangeOk size addr n = true ↔ 0 ≤ addr ∧ addr + n ≤ size := by
  simp [rangeOk]

theorem rangeOk_nat {size addr n : Nat} (h : addr + n ≤ size) : rangeOk size (addr : Int) n = true := by
  rw [rangeOk_iff]; omega

theorem rangeError_info (size : Nat) (addr : Int) :
    (rangeError size addr).info = if addr < 0 then addr else max addr size := rfl

theorem memRead_ok {space : List α} {addr n : Nat} (h : addr + n ≤ space.length) :
    memRead space addr n = .ok ((space.drop addr).take n) := by
  rw [memRead, if_pos (rangeOk_nat h), Int.toNat_natCast]

/-- A request outside the space raises `IndexRange` (R43). -/
theorem memRead_error {space : List α} {addr : Int} {n : Nat} (h : ¬(0 ≤ addr ∧ addr + n ≤ space.length)) :
    memRead space addr n = .error (rangeError space.length addr) := by
  rw [memRead, if_neg (by rwa [rangeOk_iff])]

/-- What `MemWrite` does (R43): it needs the range inside the space, keeps the length, writes the elements there and leaves
every other one. -/
theorem memWrite_ok {space v : List α} {addr : Nat} (h : addr + v.length ≤ space.length) :
    ∃ sp, memWrite space addr v = .ok sp ∧ sp.length = space.length
      ∧ (∀ j, j < v.length → ∀ d, sp.getD (addr + j) d = v.getD j d)
      ∧ ∀ p, p < addr ∨ addr + v.length ≤ p → ∀ d, sp.getD p d = space.getD p d := by
  refine ⟨_, by rw [memWrite, if_pos (rangeOk_nat h), Int.toNat_natCast], by simp; omega, ?_, ?_⟩
  · intro j hj d
    have hta : (space.take addr).length = addr := by simp; omega
    rw [List.append_assoc, List.getD_append_right _ _ _ _ (by omega), hta,
      Nat.add_sub_cancel_left, List.getD_append _ _ _ _ hj]
  · intro p hp d
    have hta : (space.take addr).length = addr := by simp; omega
    rw [List.append_assoc]
    rcases hp with hp | hp
    · rw [List.getD_append _ _ _ _ (by omega)]
      simp [List.getD, hp]
    · rw [List.getD_append_right _ _ _ _ (by omega), hta, List.getD_append_right _ _ _ _ (by omega)]
      simp only [List.getD, List.getElem?_drop]
      congr 2; omega

end

end Sys2Proof.Machine
end

