-- ==== Sys2Proof/Laws/Reals.lean ====
section
/-! SUPPORT. The generic rules read over the mathematical reals: every operation of `realNumerics` is the library's, the
sums are the library's sums. -/

namespace Sys2Proof.Machine

/-! ### Operations -/

theorem real_add (a b : ℝ) : @HAdd.hAdd ℝ ℝ ℝ (@instHAdd ℝ realNumerics.toAdd) a b = a + b := rfl
theorem real_sub (a b : ℝ) : @HSub.hSub ℝ ℝ ℝ (@instHSub ℝ realNumerics.toSub) a b = a - b := rfl
theorem real_mul (a b : ℝ) : @HMul.hMul ℝ ℝ ℝ (@instHMul ℝ realNumerics.toMul) a b = a * b := rfl
theorem real_div (a b : ℝ) : @HDiv.hDiv ℝ ℝ ℝ (@instHDiv ℝ realNumerics.toDiv) a b = a / b := rfl
theorem real_sqrt (a : ℝ) : Num.sqrt (self := realNumerics) a = Real.sqrt a := rfl
theorem real_exp (a : ℝ) : Num.exp (self := realNumerics) a = Real.exp a := rfl
theorem real_cos (a : ℝ) : Num.cos (self := realNumerics) a = Real.cos a := rfl
theorem real_sin (a : ℝ) : Num.sin (self := realNumerics) a = Real.sin a := rfl
theorem real_pow (a b : ℝ) : Num.pow (self := realNumerics) a b = a ^ b := rfl
theorem real_pi : Num.pi (self := realNumerics) = Real.pi := rfl
theorem real_ln2 : Num.ln2 (self := realNumerics) = Real.log 2 := rfl
theorem real_floor (a : ℝ) : Num.floor (self := realNumerics) a = ⌊a⌋ := rfl
theorem real_ceil (a : ℝ) : Num.ceil (self := realNumerics) a = ⌈a⌉ := rfl
theorem real_ri (i : ℤ) : ri (N := realNumerics) i = (i : ℝ) := rfl
theorem real_lt {a b : ℝ} : Num.lt (self := realNumerics) a b = true ↔ a < b := decide_eq_true_iff
theorem real_le {a b : ℝ} : Num.le (self := realNumerics) a b = true ↔ a ≤ b := decide_eq_true_iff
theorem real_eq {a b : ℝ} : Num.eq (self := realNumerics) a b = true ↔ a = b := decide_eq_true_iff

theorem real_rlit (n : ℤ) (d : ℕ) : rlit (N := realNumerics) n d = (n : ℝ) / (d : ℝ) := by
  change ((mkRat n d : ℚ) : ℝ) = _
  rw [Rat.mkRat_eq_div]; push_cast; rfl

/-! ### Sums and reads -/

theorem real_sum0 (n : ℕ) (f : ℕ → ℝ) : sum0 (N := realNumerics) n f = ∑ i ∈ Finset.range n, f i := by
  induction n with
  | zero => simp [sum0, real_ri]
  | succ n ih =>
    rw [Finset.sum_range_succ, ← ih]
    unfold sum0
    rw [List.range_succ, List.foldl_append]
    rfl

theorem real_sum1 (n : ℕ) (f : ℕ → ℝ) : sum1 (N := realNumerics) n f = ∑ l ∈ Finset.Icc 1 n, f l := by
  unfold sum1
  rw [real_sum0, Finset.range_eq_Ico, Finset.sum_Ico_add' f 0 n 1]
  rfl

theorem real_rd (xs : List ℝ) (i : ℕ) : rd (N := realNumerics) xs i = xs.getD i 0 := by simp [rd, real_ri]

theorem real_absR (x : ℝ) : absR (N := realNumerics) x = |x| := by
  unfold absR
  simp only [real_lt, real_ri, Int.cast_zero, zero_sub]
  split
  · next h => rw [abs_of_neg h]
  · next h => rw [abs_of_nonneg (not_lt.1 h)]

theorem real_maxR (a b : ℝ) : maxR (N := realNumerics) a b = max a b := by
  unfold maxR
  simp only [real_lt]
  split
  · next h => rw [max_eq_right h.le]
  · next h => rw [max_eq_left (not_lt.1 h)]

/-! ### What the rules ask of a gain and of the ROM's reals, over the reals -/

theorem real_gainOk {g : ℝ} : gainOk (N := realNumerics) g = true ↔ 0 < g ∧ g < 16 := by
  unfold gainOk
  simp only [Bool.and_eq_true, real_lt, real_ri, Int.cast_zero, Int.cast_ofNat]
  exact ⟨fun ⟨⟨_, a⟩, b⟩ => ⟨a, b⟩, fun ⟨a, b⟩ => ⟨⟨rfl, a⟩, b⟩⟩

theorem real_belowHalfRate {w0 : ℝ} {l : ℕ} : belowHalfRate (N := realNumerics) w0 l = true ↔ l * w0 < Real.pi := by
  unfold belowHalfRate
  simp only [real_lt, real_mul, real_ri, real_pi, Int.cast_natCast]

theorem real_gammaOk {g : ℝ} : gammaOk (N := realNumerics) g = true ↔ 146.643 ≤ g ∧ g < 146.644 := by
  unfold gammaOk
  simp only [Bool.and_eq_true, real_le, real_lt, real_rlit]
  norm_num

theorem real_jumpRatioOk {r : ℝ} : jumpRatioOk (N := realNumerics) r = true ↔ 0 < r := by
  unfold jumpRatioOk
  simp only [real_lt, real_ri, Int.cast_zero]

theorem real_nonNegative {x : ℝ} : nonNegative (N := realNumerics) x = max 0 x := by
  unfold nonNegative
  simp only [real_le, real_ri, Int.cast_zero]
  split
  · next h => rw [max_eq_right h]
  · next h => rw [max_eq_left (not_le.1 h).le]

/-- The literals usually published for `GAMMA_W` and `PITCH_JUMP_RATIO` meet R292 and R293. -/
theorem real_defaults_ok : gammaOk (N := realNumerics) (rlit (N := realNumerics) 146643269 1000000) = true
    ∧ jumpRatioOk (N := realNumerics) (rlit (N := realNumerics) 1 10) = true := by
  rw [real_gammaOk, real_jumpRatioOk, real_rlit, real_rlit]
  norm_num

/-! ### The default window (R202) meets what R291 asks of one -/

theorem real_window (n : ℤ) : windowAt (N := realNumerics) (defaultWindow (N := realNumerics)) n
    = if n.natAbs ≤ 55 then 1 else if n.natAbs < 105 then (105 - (n.natAbs : ℝ)) / 50 else 0 := by
  unfold windowAt
  rw [real_rd]
  unfold defaultWindow
  rw [tab_getD]
  simp only [real_ri, real_rlit]
  split_ifs <;> first | omega | (simp only [Int.cast_sub, Int.cast_natCast, Int.cast_ofNat, Int.cast_one, Int.cast_zero] <;> rfl)

theorem real_windowOk : windowOk (N := realNumerics) (defaultWindow (N := realNumerics)) = true := by
  unfold windowOk
  simp only [List.all_eq_true, List.mem_range, real_window, real_lt, real_add, real_mul, real_ri, Int.cast_zero]
  intro n hn
  by_cases h : n ≤ 55
  · rw [if_pos (by omega)]
    nlinarith [mul_self_nonneg (if ((n : ℤ) - 160).natAbs ≤ 55 then (1 : ℝ)
      else if ((n : ℤ) - 160).natAbs < 105 then (105 - (((n : ℤ) - 160).natAbs : ℝ)) / 50 else 0)]
  · by_cases h' : n < 105
    · rw [if_neg (by omega), if_pos (by omega)]
      have : (0 : ℝ) < (105 - (((n : ℤ).natAbs : ℕ) : ℝ)) / 50 := by
        have : ((n : ℤ).natAbs : ℝ) < 105 := by exact_mod_cast (by omega : (n : ℤ).natAbs < 105)
        linarith
      nlinarith [mul_pos this this, mul_self_nonneg (if ((n : ℤ) - 160).natAbs ≤ 55 then (1 : ℝ)
        else if ((n : ℤ) - 160).natAbs < 105 then (105 - (((n : ℤ) - 160).natAbs : ℝ)) / 50 else 0)]
    · rw [if_neg (by omega), if_neg (by omega), if_pos (by omega)]
      norm_num

theorem real_rampStep (n : ℕ) : rampStepOk (N := realNumerics) (windowAt (N := realNumerics) (defaultWindow (N := realNumerics)) n)
    (windowAt (N := realNumerics) (defaultWindow (N := realNumerics)) ((n : ℤ) + 1)) = true := by
  unfold rampStepOk
  simp only [real_window, Bool.and_eq_true, Bool.or_eq_true, real_le, real_lt, real_ri, Int.cast_zero, Int.cast_one,
    Int.natAbs_natCast, show ((n : ℤ) + 1).natAbs = n + 1 by omega]
  have hc : (n : ℝ) + 1 = ((n + 1 : ℕ) : ℝ) := by push_cast; rfl
  rcases Nat.lt_or_ge n 55 with h | h
  · rw [if_pos (by omega), if_pos (by omega)]; norm_num
  · have h1 : (55 : ℝ) ≤ n := by exact_mod_cast h
    rcases Nat.lt_or_ge n 104 with h' | h'
    · have h2 : (n : ℝ) + 1 ≤ 104 := by rw [hc]; exact_mod_cast h'
      rw [if_neg (show ¬n + 1 ≤ 55 by omega), if_pos (show n + 1 < 105 by omega), ← hc]
      by_cases h5 : n ≤ 55
      · rw [if_pos h5]
        refine ⟨⟨⟨by norm_num, le_rfl⟩, by linarith⟩, .inl (.inl le_rfl)⟩
      · have h3 : (56 : ℝ) ≤ n := by exact_mod_cast (by omega : 56 ≤ n)
        rw [if_neg h5, if_pos (by omega)]
        refine ⟨⟨⟨?_, ?_⟩, ?_⟩, .inr ?_⟩ <;> linarith
    · rw [if_neg (show ¬n + 1 ≤ 55 by omega), if_neg (show ¬n + 1 < 105 by omega), if_neg (show ¬n ≤ 55 by omega)]
      by_cases h5 : n < 105
      · have h3 : (n : ℝ) ≤ 104 := by exact_mod_cast (by omega : n ≤ 104)
        have h4 : (104 : ℝ) ≤ n := by exact_mod_cast h'
        rw [if_pos h5]
        refine ⟨⟨⟨?_, ?_⟩, ?_⟩, .inl (.inr le_rfl)⟩ <;> linarith
      · rw [if_neg h5]; norm_num

theorem real_rampLength : rampLength (N := realNumerics) (defaultWindow (N := realNumerics)) = 49 := by
  have h : ∀ n ∈ List.range 106, (Num.lt (self := realNumerics) (ri (N := realNumerics) 0)
        (windowAt (N := realNumerics) (defaultWindow (N := realNumerics)) n)
      && Num.lt (self := realNumerics) (windowAt (N := realNumerics) (defaultWindow (N := realNumerics)) n) (ri (N := realNumerics) 1))
      = (decide (56 ≤ n) && decide (n < 105)) := by
    intro n hn
    rw [Bool.eq_iff_iff]
    simp only [Bool.and_eq_true, real_lt, real_ri, real_window, Int.natAbs_natCast, Int.cast_zero, Int.cast_one, decide_eq_true_eq]
    rcases Nat.lt_or_ge n 56 with h | h
    · rw [if_pos (by omega)]; constructor <;> intro h' <;> [exact absurd h'.2 (lt_irrefl _); omega]
    · rcases Nat.lt_or_ge n 105 with h' | h'
      · have h1 : (56 : ℝ) ≤ n := by exact_mod_cast h
        have h2 : (n : ℝ) ≤ 104 := by exact_mod_cast (by omega : n ≤ 104)
        rw [if_neg (by omega), if_pos h']
        exact ⟨fun _ => ⟨h, h'⟩, fun _ => ⟨by linarith, by linarith⟩⟩
      · rw [if_neg (by omega), if_neg (by omega)]
        constructor <;> intro h' <;> [exact absurd h'.1 (lt_irrefl _); omega]
  have hl : (defaultWindow (N := realNumerics)).length = 106 := tab_length ..
  unfold rampLength
  rw [hl, List.filter_congr h]
  rfl

theorem real_windowShapeOk : windowShapeOk (N := realNumerics) (defaultWindow (N := realNumerics)) = true := by
  simp only [windowShapeOk, real_rampLength, Bool.and_eq_true, List.all_eq_true, real_eq]
  refine ⟨⟨⟨⟨?_, ?_⟩, fun n _ => real_rampStep n⟩, rfl⟩, rfl⟩ <;> rw [real_window] <;> simp [real_ri]

end Sys2Proof.Machine
end

