-- ==== Sys2Proof/Machine/AnyNumerics.lean ====
section
/-! DEFINITION. The machine over any type of reals: R6 and R9 let a model take `Real` and `NUM` as arguments. The dispatch, one
step and runs of several steps, all given `NUM` and the other open parameters; every meaning is the one `exec` calls. At
`openParams` it is the machine (`Sys2Proof/Laws/Step.lean`, `step_eq_stepOver`); at `realParams` it is the spec's hardware
over the mathematical reals. -/

namespace Sys2Proof.Machine

variable {R : Type}

/-- The meaning of an instruction over any type of reals. -/
def execOver (P : OpenParams R) (i : Instr R) (s : State R) : Host.Outcome (State R) Fault Refusal :=
  match i with
  | .name => execName s P
  | .reset => execReset s P
  | .setgain g => execSetgain g s P
  | .decode n bytes => execDecode n bytes s P
  | .idle => execIdle s
  | .load => execLoad s P
  | .partition => execPartition s P
  | .ecc0 => execEcc0 s P
  | .derand => execDerand s P
  | .eccn => execEccn s P
  | .errsum => execErrsum s
  | .w0idx => execW0idx s P
  | .tonechk => execTonechk s P
  | .fields => execFields s P
  | .repeatchk => execRepeatchk s P
  | .repeatFrame => execRepeatFrame s
  | .toneset => execToneset s P
  | .mpnew => execMpnew s P
  | .gain => execGain s P
  | .voicing => execVoicing s P
  | .resid => execResid s P
  | .predict => execPredict s P
  | .enhance => execEnhance s P
  | .smooth => execSmooth s P
  | .noise => execNoise s
  | .unvoiced => execUnvoiced s P
  | .phase => execPhase s P
  | .voiced => execVoiced s P
  | .combine => execCombine s P
  | .commit => execCommit s P
  | .bfGet f k => execBfGet f k s P
  | .bfSet f k => execBfSet f k s P
  | .bfClr f k => execBfClr f k s P
  | .bfExtract f idx => execBfExtract f idx s P
  | .bfXor f g => execBfXor f g s P
  | .bfRot f a m c => execBfRot f a m c s P
  | .bfLoad bytes => execBfLoad bytes s
  | .bfLoadHex chars => execBfLoadHex chars s P
  | .eccC24 f o => execEccC24 f o s P
  | .eccC23 f o => execEccC23 f o s P
  | .eccC15 f o => execEccC15 f o s P
  | .idct x1 xs => execIdct x1 xs s P
  | .ffLookup codec v => execFfLookup codec v s P
  | .lcgStep seed => execLcgStep seed s
  | .noiseStep => execNoiseStep s
  | .xformFwd => execXformFwd s P
  | .xformInv => execXformInv s P
  | .ws n => execWs n s P

/-- One step over any type of reals. -/
def stepOver (P : OpenParams R) (s : State R) : Host.Outcome (State R) Fault Refusal := stepBody (execOver P) s P

/-- `k` steps over any type of reals, stopping at the first fault or refusal. -/
def stepsOver (P : OpenParams R) : Nat → State R → Host.Outcome (State R) Fault Refusal
  | 0, s => .next s
  | k + 1, s =>
    match stepOver P s with
    | .next t => stepsOver P k t
    | .fault r => .fault r
    | .refused r => .refused r

/-- A whole DECODE over any type of reals: the command on the port and the 23 stages a frame runs at the most (R350); a step at
rest with an empty port changes nothing, so that a frame with fewer stages ends the same way. -/
def decodeFrameOver (P : OpenParams R) (bytes : List Byte) (s : State R) : Host.Outcome (State R) Fault Refusal :=
  stepsOver P 24 { s with port := [.byte 3, .count (BitVec.ofNat 16 bytes.length)] ++ bytes.map .byte }

end Sys2Proof.Machine
end

