-- ==== Sys2Proof/Laws/AnyNumerics.lean ====
section
/-! SUPPORT. The machine over any type of reals (R6, R9): what a step at work runs, the six stages every DECODE ends with, and
the samples they give over the mathematical reals. -/

namespace Sys2Proof.Machine

variable {R : Type}

/-- A step at a stage runs the instruction that the id of the stage decodes to. -/
theorem stepOver_stage {P : OpenParams R} {s : State R} {i : Instr R} (hp : s.poresetRequest = false)
    (hs : s.stage ≠ Stage.idle) (hlt : s.stage.toNat < 32) (hd : decodeUop s.stage s.operands = .ok i s.operands) :
    stepOver P s = execOver P i s := by
  have hf : s.fetch = .uop s.stage :: s.operands := if_neg hs
  have hc : s.consume s.operands = s := by rw [State.consume, if_neg hs]
  rw [stepOver, stepBody, if_neg (by simp [hp]), if_neg hs, stepStage, hf]
  simp only [decodeOver, hd]
  rw [runFetched, hc, if_neg (by simp [isPrimitiveStage]; omega)]

/-- A stage with no operand words, named by its id. -/
theorem stepOver_id {P : OpenParams R} {t u : State R} {i : Instr R} (id : BitVec 6) (h1 : t.poresetRequest = false)
    (h2 : t.stage = id) (h3 : id ≠ Stage.idle) (h4 : id.toNat < 32) (h5 : decodeUop id t.operands = .ok i t.operands)
    (h6 : execOver P i t = .next u) : stepOver P t = .next u := by
  subst h2
  rw [stepOver_stage h1 h3 h4 h5, h6]

/-- From NOISE on every frame runs the same six stages and ends at rest (R256, R257). -/
theorem stepsOver_synthesis {P : OpenParams R} {s : State R} (hp : s.poresetRequest = false) (hs : s.stage = Stage.noise) :
    stepsOver P 6 s = .next (commitStage (combineStage (voicedStage (phaseStage (unvoicedStage (noiseStage s) P) P) P) P) P) := by
  have h0 : stepOver P s = .next (noiseStage s) :=
    stepOver_id (i := .noise) Stage.noise hp hs (by decide) (by decide) rfl rfl
  have h1 : ∀ t : State R, t.poresetRequest = false → t.stage = Stage.unvoiced → stepOver P t = .next (unvoicedStage t P) :=
    fun t hp hs => stepOver_id (i := .unvoiced) Stage.unvoiced hp hs (by decide) (by decide) rfl rfl
  have h2 : ∀ t : State R, t.poresetRequest = false → t.stage = Stage.phase → stepOver P t = .next (phaseStage t P) :=
    fun t hp hs => stepOver_id (i := .phase) Stage.phase hp hs (by decide) (by decide) rfl rfl
  have h3 : ∀ t : State R, t.poresetRequest = false → t.stage = Stage.voiced → stepOver P t = .next (voicedStage t P) :=
    fun t hp hs => stepOver_id (i := .voiced) Stage.voiced hp hs (by decide) (by decide) rfl rfl
  have h4 : ∀ t : State R, t.poresetRequest = false → t.stage = Stage.combine → stepOver P t = .next (combineStage t P) :=
    fun t hp hs => stepOver_id (i := .combine) Stage.combine hp hs (by decide) (by decide) rfl rfl
  have h5 : ∀ t : State R, t.poresetRequest = false → t.stage = Stage.commit → stepOver P t = .next (commitStage t P) :=
    fun t hp hs => stepOver_id (i := .commit) Stage.commit hp hs (by decide) (by decide) rfl rfl
  have e1 := h1 (noiseStage s) hp rfl
  have e2 := h2 _ (show (unvoicedStage (noiseStage s) P).poresetRequest = false from hp) rfl
  have e3 := h3 _ (show (phaseStage (unvoicedStage (noiseStage s) P) P).poresetRequest = false from hp) rfl
  have e4 := h4 _ (show (voicedStage (phaseStage (unvoicedStage (noiseStage s) P) P) P).poresetRequest = false from hp) rfl
  have e5 := h5 _ (show (combineStage (voicedStage (phaseStage (unvoicedStage (noiseStage s) P) P) P) P).poresetRequest = false
    from hp) rfl
  simp only [stepsOver, h0, e1, e2, e3, e4, e5]

/-! ### The samples -/

theorem combineStage_out (s : State R) (P : OpenParams R) : (combineStage s P).work.out = tab nsamp (fun n =>
    outputSample (N := P.toNum) s.gain s.rom.outScale (rd (N := P.toNum) s.work.suv n) (rd (N := P.toNum) s.work.sv n)) := rfl

theorem voicedStage_sv (s : State R) (P : OpenParams R) : (voicedStage s P).work.sv = tab nsamp
    (voicedSample (N := P.toNum) s.rom.window s.rom.pitchJumpRatio s.pmp s.work.cmp s.ss.phaseO s.work.po) := rfl

theorem unvoicedStage_suv (s : State R) (P : OpenParams R) : (unvoicedStage s P).work.suv = tab nsamp
    (overlapAdd (N := P.toNum) s.rom.window s.ss.prevUw (unvoicedStage s P).work.uw) := by simp only [unvoicedStage]

/-- What COMBINE makes of the two components it is given, over the mathematical reals. -/
theorem real_combine (F : RomFns ℝ) (draw : ℕ → ℝ) (fw : ℕ → Work ℝ) (w sc : ℕ → ℕ → ℝ) (s : State ℝ) {n : ℕ} (hn : n < 160) :
    (combineStage s (realParams F draw fw w sc)).work.out.getD n 0
      = s.gain * s.rom.outScale * (s.work.suv.getD n 0 + s.work.sv.getD n 0) := by
  rw [combineStage_out, tab_getD_lt _ (show n < nsamp from hn), ← real_rd s.work.suv, ← real_rd s.work.sv]
  rfl

/-- Over the mathematical reals a frame ends with 160 samples, each `GAIN * OUT_SCALE * (suv[n] + sv[n])` (R210, R238, R240,
R258). -/
theorem real_synthesis (F : RomFns ℝ) (draw : ℕ → ℝ) (fw : ℕ → Work ℝ) (w sc : ℕ → ℕ → ℝ) {s : State ℝ}
    (hp : s.poresetRequest = false) (hs : s.stage = Stage.noise) :
    ∃ t xs uw po, stepsOver (realParams F draw fw w sc) 6 s = .next t ∧ t.stage = Stage.idle
      ∧ t.result = .samples xs ∧ xs.length = 160
      ∧ ∀ n, n < 160 → xs.getD n 0 = s.gain * s.rom.outScale
          * (overlapAdd (N := realNumerics) s.rom.window s.ss.prevUw uw n
              + voicedSample (N := realNumerics) s.rom.window s.rom.pitchJumpRatio s.pmp s.work.cmp s.ss.phaseO po n) := by
  generalize hP : realParams F draw fw w sc = P
  refine ⟨_, (combineStage (voicedStage (phaseStage (unvoicedStage (noiseStage s) P) P) P) P).work.out,
    (unvoicedStage (noiseStage s) P).work.uw, (phaseStage (unvoicedStage (noiseStage s) P) P).work.po,
    stepsOver_synthesis hp hs, rfl, rfl, ?_, fun n hn => ?_⟩
  · rw [combineStage_out]; exact tab_length ..
  · subst hP
    rw [real_combine _ _ _ _ _ _ hn, voicedStage_sv, tab_getD_lt _ (show n < nsamp from hn)]
    change _ * _ * ((unvoicedStage (noiseStage s) _).work.suv.getD n 0 + _) = _
    rw [unvoicedStage_suv, tab_getD_lt _ (show n < nsamp from hn)]
    rfl

end Sys2Proof.Machine
end

