-- ==== Sys2Proof/Laws/Frames.lean ====
section
/-! SUPPORT. The bit frame operations (R90 to R98): one lemma for what each answers inside its range and one for what it
raises outside. -/

namespace Sys2Proof.Machine

theorem bitIndexOk_iff {f : Frame} {i : Int} : bitIndexOk f i = true ↔ 0 ≤ i ∧ i < f.length := by
  simp [bitIndexOk]

theorem bitIndexOk_nat {f : Frame} {i : Nat} (h : i < f.length) : bitIndexOk f (i : Int) = true := by
  simp [bitIndexOk]; omega

/-! ### One bit -/

theorem getBit_ok {f : Frame} {i : Int} (h : 0 ≤ i ∧ i < f.length) : getBit f i = .ok (f.getD i.toNat false) :=
  if_pos (bitIndexOk_iff.2 h)

theorem getBit_error {f : Frame} {i : Int} (h : ¬(0 ≤ i ∧ i < f.length)) : getBit f i = .error ⟨.indexRange, i⟩ :=
  if_neg (mt bitIndexOk_iff.1 h)

theorem putBit_ok {f : Frame} {i : Int} (h : 0 ≤ i ∧ i < f.length) (b : Bool) : putBit f i b = .ok (f.set i.toNat b) :=
  if_pos (bitIndexOk_iff.2 h)

theorem putBit_error {f : Frame} {i : Int} (h : ¬(0 ≤ i ∧ i < f.length)) (b : Bool) :
    putBit f i b = .error ⟨.indexRange, i⟩ := if_neg (mt bitIndexOk_iff.1 h)

theorem set_getD (f : Frame) (i : Nat) (b : Bool) (p : Nat) (h : i < f.length) :
    (f.set i b).getD p false = if p = i then b else f.getD p false := by
  simp only [List.getD, List.getElem?_set]
  by_cases hp : i = p
  · subst hp; simp [h]
  · simp [hp, Ne.symm hp]

theorem ext_getD {f g : Frame} (hl : f.length = g.length) (h : ∀ p, f.getD p false = g.getD p false) : f = g := by
  apply List.ext_getElem hl
  intro i h1 h2
  have := h i
  simpa [h1, h2] using this

theorem getD_ge {f : Frame} {p : Nat} (h : f.length ≤ p) : f.getD p false = false := by simp [h]

/-! ### Fields -/

/-- The loop of R95 inside its range, from any value on: `m` bits more, the first index the most significant. -/
theorem extractFrom_ok {f : Frame} : ∀ (idx : List Int) (v : Nat), (∀ i ∈ idx, 0 ≤ i ∧ i < f.length) →
    ∃ w, extractFrom f v idx = .ok w ∧ w / 2 ^ idx.length = v
      ∧ ∀ k, k < idx.length → w.testBit (idx.length - 1 - k) = f.getD (idx.getD k 0).toNat false
  | [], v, _ => ⟨v, rfl, by simp, by simp⟩
  | i :: is, v, h => by
    have hi := h i (by simp)
    obtain ⟨w, hw, hd, hb⟩ := extractFrom_ok is (2 * v + (f.getD i.toNat false).toNat)
      (fun j hj => h j (by simp [hj]))
    refine ⟨w, by rw [extractFrom, getBit_ok hi]; exact hw, ?_, ?_⟩
    · rw [List.length_cons, pow_succ, ← Nat.div_div_eq_div_mul, hd]
      cases f.getD i.toNat false <;> (simp; try omega)
    · intro k hk
      cases k with
      | zero =>
        simp only [List.length_cons, Nat.add_sub_cancel, Nat.sub_zero, List.getD_cons_zero]
        rw [Nat.testBit_eq_decide_div_mod_eq, hd]
        cases f.getD i.toNat false <;> simp
      | succ k =>
        have := hb k (by simpa using hk)
        simp only [List.length_cons, List.getD_cons_succ]
        rw [← this]; congr 1; simp at hk; omega

/-- The loop of R95 stops at the first index outside the frame. -/
theorem extractFrom_error {f : Frame} (i : Int) (post : List Int) (hi : ¬(0 ≤ i ∧ i < f.length)) :
    ∀ (pre : List Int) (v : Nat), (∀ j ∈ pre, 0 ≤ j ∧ j < f.length) →
      extractFrom f v (pre ++ i :: post) = .error ⟨.indexRange, i⟩
  | [], v, _ => by simp [extractFrom, getBit_error hi]
  | j :: js, v, h => by
    simp only [List.cons_append, extractFrom, getBit_ok (h j (by simp))]
    exact extractFrom_error i post hi js _ (fun k hk => h k (by simp [hk]))

/-- `BF.EXTRACT` inside its range (R95). -/
theorem extract_ok {f : Frame} {idx : List Int} (hm : idx.length ≤ 32) (h : ∀ i ∈ idx, 0 ≤ i ∧ i < f.length) :
    ∃ v, extract f idx = .ok v ∧ v < 2 ^ idx.length
      ∧ ∀ k, k < idx.length → v.testBit (idx.length - 1 - k) = f.getD (idx.getD k 0).toNat false := by
  obtain ⟨w, hw, hd, hb⟩ := extractFrom_ok idx 0 h
  exact ⟨w, by simp [extract, hm, hw], (Nat.div_eq_zero_iff_lt (by positivity)).1 hd, hb⟩

/-- `BF.EXTRACT` through an index list of the ROM (R66). -/
theorem extractRom_ok {f : Frame} {idx : List Nat} (hm : idx.length ≤ 32) (h : ∀ i ∈ idx, i < f.length) :
    ∃ v, extractRom f idx = .ok v ∧ v < 2 ^ idx.length
      ∧ ∀ k, k < idx.length → v.testBit (idx.length - 1 - k) = f.getD (idx.getD k 0) false := by
  obtain ⟨v, hv, hl, hb⟩ := extract_ok (f := f) (idx := idx.map Int.ofNat) (by simpa using hm)
    (by intro i hi
        obtain ⟨j, hj, rfl⟩ := List.mem_map.1 hi
        have := h j hj
        exact ⟨Int.natCast_nonneg j, by simpa using this⟩)
  refine ⟨v, hv, by simpa using hl, fun k hk => ?_⟩
  have := hb k (by simpa using hk)
  simp only [List.length_map] at this
  rw [this]
  simp [List.getD, hk]

/-! ### Whole frames -/

theorem xorFrame_ok {f g : Frame} (h : f.length = g.length) :
    ∃ r, xorFrame f g = .ok r ∧ r.length = f.length
      ∧ ∀ p, r.getD p false = xor (f.getD p false) (g.getD p false) := by
  refine ⟨_, by rw [xorFrame, if_pos h], by simp [h], fun p => ?_⟩
  by_cases hp : p < f.length
  · have hp' : p < g.length := h ▸ hp
    simp [List.getD, hp, hp']
  · have hp' : ¬p < g.length := h ▸ hp
    simp [List.getD, hp, hp']

theorem xorFrame_error {f g : Frame} (h : f.length ≠ g.length) :
    xorFrame f g = .error ⟨.indexRange, (max f.length g.length : Nat)⟩ := by
  rw [xorFrame, if_neg h, Nat.cast_max]

theorem rotFrame_zero (f : Frame) (a c : Int) : rotFrame f a 0 c = .ok f := if_pos rfl

theorem rotFrame_ok {f : Frame} {a m : Nat} (c : Nat) (h : a + m ≤ f.length) :
    ∃ r, rotFrame f a m c = .ok r ∧ r.length = f.length
      ∧ (∀ k, k < m → r.getD (a + k) false = f.getD (a + (k + c) % m) false)
      ∧ ∀ p, p < a ∨ a + m ≤ p → r.getD p false = f.getD p false := by
  by_cases hm : m = 0
  · subst hm; exact ⟨f, rotFrame_zero .., rfl, by simp, fun _ _ => rfl⟩
  refine ⟨rotateRange f a m c, ?_, by simp [rotateRange], fun k hk => ?_, fun p hp => ?_⟩
  · rw [rotFrame, if_neg (by simpa using hm), if_neg (by omega), if_neg (by omega)]
    simp only [Int.toNat_natCast]
    rw [if_pos (rangeOk_nat h)]
  · rw [rotateRange, tab_getD_lt _ (by omega)]
    simp [hk]
  · by_cases hp' : p < f.length
    · rw [rotateRange, tab_getD_lt _ hp', if_neg (by omega)]
    · rw [getD_ge (by simpa [rotateRange] using hp'), getD_ge (by simpa using hp')]

/-- What a rotation that is not one of R97's raises (log entry 26). -/
theorem rotFrame_error {f : Frame} {a m c : Int} (hm : m ≠ 0) (h : ¬(0 < m ∧ 0 ≤ c ∧ 0 ≤ a ∧ a + m ≤ f.length)) :
    rotFrame f a m c = .error (if m < 0 then ⟨.indexRange, m⟩ else if c < 0 then ⟨.indexRange, c⟩
      else rangeError f.length a) := by
  unfold rotFrame
  rw [if_neg hm]
  split
  · rfl
  · split
    · rfl
    · rw [if_neg]
      rw [rangeOk_iff]; omega

/-- A rotation keeps the size of the frame. -/
theorem rotFrame_length {f r : Frame} {a m c : Int} (h : rotFrame f a m c = .ok r) : r.length = f.length := by
  unfold rotFrame at h
  split at h
  · cases h; rfl
  · split at h <;> [cases h; skip]
    split at h <;> [cases h; skip]
    split at h <;> cases h
    simp [rotateRange]

/-! ### Loading -/

theorem loadBits_length (bs : List Byte) : (loadBits bs).length = 8 * bs.length := by
  induction bs with
  | nil => rfl
  | cons b bs ih => simp only [loadBits, List.flatMap_cons, List.length_append, tab_length] at *; simp; omega

/-- R44: bit `8k + j` is bit `j` of byte `k`. -/
theorem loadBits_getD (bs : List Byte) (k j : Nat) (hk : k < bs.length) (hj : j < 8) :
    (loadBits bs).getD (8 * k + j) false = (bs.getD k 0).getLsbD j := by
  induction bs generalizing k with
  | nil => simp at hk
  | cons b bs ih =>
    simp only [loadBits, List.flatMap_cons]
    cases k with
    | zero =>
      rw [List.getD_append _ _ _ _ (by simp; omega), tab_getD_lt _ (by omega)]; simp
    | succ k =>
      rw [List.getD_append_right _ _ _ _ (by simp; omega)]
      simp only [tab_length, List.getD_cons_succ]
      rw [← ih k (by simpa using hk), loadBits]; congr 1; omega

end Sys2Proof.Machine
end

