-- ==== Sys2Proof/Laws/Codes.lean ====
section
/-! SUPPORT. The block-code corrector (R106): the distance is a metric on words of `n` bits, and what one correction can
do. -/

namespace Sys2Proof.Machine

/-! ### Distance -/

theorem popcount_congr : ∀ (n x y : Nat), (∀ j, j < n → x.testBit j = y.testBit j) → popcount n x = popcount n y
  | 0, _, _, _ => rfl
  | n + 1, x, y, h => by
    have h0 := h 0 (by omega)
    simp only [Nat.testBit_zero, decide_eq_decide] at h0
    have hr := popcount_congr n (x / 2) (y / 2) (fun j hj => by
      simpa [Nat.testBit_succ] using h (j + 1) (by omega))
    simp only [popcount, hr]; omega

theorem popcount_xor_le : ∀ (n x y : Nat), popcount n (x ^^^ y) ≤ popcount n x + popcount n y
  | 0, _, _ => by simp [popcount]
  | n + 1, x, y => by
    have hr := popcount_xor_le n (x / 2) (y / 2)
    have h2 : (x ^^^ y) / 2 = x / 2 ^^^ y / 2 := Nat.xor_div_two
    have h1 : (x ^^^ y) % 2 ≤ x % 2 + y % 2 := by
      rw [Nat.xor_mod_two_eq]; omega
    simp only [popcount, h2]; omega

theorem wordDist_triangle (n a r b : Nat) : wordDist n a b ≤ wordDist n r a + wordDist n r b := by
  have : a ^^^ b = (r ^^^ a) ^^^ (r ^^^ b) := by
    rw [Nat.xor_comm r a, Nat.xor_assoc, ← Nat.xor_assoc r r b, Nat.xor_self, Nat.zero_xor]
  rw [wordDist, this]
  exact popcount_xor_le ..

/-- The distance sees the low `n` bits of a word only. -/
theorem wordDist_congr {n r r' : Nat} (h : ∀ j, j < n → r.testBit j = r'.testBit j) (w : Nat) :
    wordDist n r w = wordDist n r' w :=
  popcount_congr _ _ _ (fun j hj => by simp [Nat.testBit_xor, h j hj])

/-! ### Words of a frame -/

theorem bitsValue_cons (bits : List Bool) : ∀ v : Nat,
    bits.foldl (fun v b => 2 * v + b.toNat) v / 2 ^ bits.length = v
      ∧ ∀ k, k < bits.length →
          (bits.foldl (fun v b => 2 * v + b.toNat) v).testBit (bits.length - 1 - k) = bits.getD k false := by
  induction bits with
  | nil => intro v; simp
  | cons b bs ih =>
    intro v
    obtain ⟨hd, hb⟩ := ih (2 * v + b.toNat)
    refine ⟨?_, fun k hk => ?_⟩
    · rw [List.foldl_cons, List.length_cons, pow_succ, ← Nat.div_div_eq_div_mul, hd]
      cases b <;> (simp; try omega)
    · cases k with
      | zero =>
        simp only [List.foldl_cons, List.length_cons, Nat.add_sub_cancel, Nat.sub_zero, List.getD_cons_zero]
        rw [Nat.testBit_eq_decide_div_mod_eq, hd]
        cases b <;> simp
      | succ k =>
        simp only [List.foldl_cons, List.length_cons, List.getD_cons_succ]
        rw [← hb k (by simpa using hk)]
        congr 1; simp at hk; omega

/-- Bit `k` of a word, the first bit the most significant (R268). -/
theorem bitsValue_testBit (bits : List Bool) {k : Nat} (hk : k < bits.length) :
    (bitsValue bits).testBit (bits.length - 1 - k) = bits.getD k false := (bitsValue_cons bits 0).2 k hk

@[simp] theorem valueBits_length (n v : Nat) : (valueBits n v).length = n := by simp [valueBits]

theorem valueBits_getD {n : Nat} (v : Nat) {j : Nat} (h : j < n) (d : Bool) :
    (valueBits n v).getD j d = v.testBit (n - 1 - j) := by simp only [valueBits, tab_getD_lt _ h]

/-- The `n` bits of a frame from `o` on. -/
def slice (f : Frame) (o n : Nat) : List Bool := (f.drop o).take n

theorem slice_length {f : Frame} {o n : Nat} (h : o + n ≤ f.length) : (slice f o n).length = n := by
  simp [slice]; omega

theorem slice_getD {f : Frame} {o n : Nat} (j : Nat) (hj : j < n) : (slice f o n).getD j false = f.getD (o + j) false := by
  simp [slice, List.getD, hj]

/-- A word whose bits are the frame's has the frame's distances. -/
theorem wordDist_slice {f : Frame} {o n r : Nat} (h : o + n ≤ f.length)
    (hr : ∀ j, j < n → r.testBit (n - 1 - j) = f.getD (o + j) false) (w : Nat) :
    wordDist n (bitsValue (slice f o n)) w = wordDist n r w := by
  apply wordDist_congr
  intro j hj
  have hl := slice_length h
  have h1 := bitsValue_testBit (slice f o n) (k := n - 1 - j) (by omega)
  rw [hl, slice_getD _ (by omega), ← hr _ (by omega)] at h1
  have : n - 1 - (n - 1 - j) = j := by omega
  rwa [this] at h1

/-! ### One correction -/

/-- Everything a correction does (R106): inside the frame it answers; a near codeword is written and its distance
returned, or the frame stays and the sentinel is returned. -/
theorem eccCorrect_ok {c : BlockCode} {f : Frame} {o : Nat} (h : o + c.n ≤ f.length) :
    ∃ g count, eccCorrect c f o = .ok (g, count) ∧ g.length = f.length
      ∧ (∀ p, p < o ∨ o + c.n ≤ p → g.getD p false = f.getD p false)
      ∧ ((∃ w ∈ c.cw, wordDist c.n (bitsValue (slice f o c.n)) w ≤ c.t
            ∧ nearCodeword c (bitsValue (slice f o c.n)) = some w
            ∧ count = wordDist c.n (bitsValue (slice f o c.n)) w
            ∧ ∀ j, j < c.n → g.getD (o + j) false = w.testBit (c.n - 1 - j))
        ∨ ((∀ w ∈ c.cw, c.t < wordDist c.n (bitsValue (slice f o c.n)) w)
            ∧ nearCodeword c (bitsValue (slice f o c.n)) = none ∧ g = f ∧ count = c.sentinel)) := by
  have hr : memRead f o c.n = .ok (slice f o c.n) := memRead_ok h
  cases hw : nearCodeword c (bitsValue (slice f o c.n)) with
  | none =>
    refine ⟨f, c.sentinel, by simp [eccCorrect, hr, hw], rfl, fun _ _ => rfl, Or.inr ⟨?_, rfl, rfl, rfl⟩⟩
    intro w hm
    have := List.find?_eq_none.1 hw w hm
    simpa using this
  | some w =>
    obtain ⟨g, hg, hl, hin, hout⟩ := memWrite_ok (space := f) (v := valueBits c.n w) (addr := o) (by simpa using h)
    refine ⟨g, _, by simp only [eccCorrect, hr, hw, hg], hl, fun p hp => hout p (by simpa using hp) _,
      Or.inl ⟨w, List.mem_of_find?_eq_some hw, by simpa using List.find?_some hw, rfl, rfl, fun j hj => ?_⟩⟩
    rw [hin j (by simpa using hj), valueBits_getD _ hj]

/-- A codeword that is not inside the frame raises `IndexRange` (R43). -/
theorem eccCorrect_error {c : BlockCode} {f : Frame} {o : Int} (h : ¬(0 ≤ o ∧ o + c.n ≤ f.length)) :
    eccCorrect c f o = .error (rangeError f.length o) := by
  simp only [eccCorrect, memRead_error h]

/-- A correction keeps the size of the frame. -/
theorem eccCorrect_length {c : BlockCode} {f g : Frame} {o : Int} {n : Nat} (h : eccCorrect c f o = .ok (g, n)) :
    g.length = f.length := by
  by_cases hr : 0 ≤ o ∧ o + c.n ≤ f.length
  · obtain ⟨o, rfl⟩ := Int.eq_ofNat_of_zero_le hr.1
    obtain ⟨g', n', h1, h2, -⟩ := eccCorrect_ok (c := c) (f := f) (o := o) (by omega)
    rw [h1] at h; injection h with h; injection h with h h'; rw [← h, h2]
  · rw [eccCorrect_error hr] at h; cases h

/-- A correction reads the codeword's bits alone: two frames that agree there give the same count and the same bits. -/
theorem eccCorrect_local {c : BlockCode} {f f' : Frame} {o : Nat} (h : o + c.n ≤ f.length) (h' : o + c.n ≤ f'.length)
    (hb : ∀ j, j < c.n → f'.getD (o + j) false = f.getD (o + j) false) :
    ∃ g g' count, eccCorrect c f o = .ok (g, count) ∧ eccCorrect c f' o = .ok (g', count)
      ∧ ∀ j, j < c.n → g'.getD (o + j) false = g.getD (o + j) false := by
  have hs : slice f' o c.n = slice f o c.n :=
    ext_getD (by rw [slice_length h, slice_length h']) (fun p => by
      by_cases hp : p < c.n
      · rw [slice_getD _ hp, slice_getD _ hp, hb p hp]
      · rw [getD_ge (by rw [slice_length h']; omega), getD_ge (by rw [slice_length h]; omega)])
  obtain ⟨g, n, hg, -, -, hc⟩ := eccCorrect_ok (c := c) h
  obtain ⟨g', n', hg', -, -, hc'⟩ := eccCorrect_ok (c := c) h'
  rw [hs] at hc'
  rcases hc with ⟨w, -, -, hw, rfl, hgw⟩ | ⟨-, hw, rfl, rfl⟩ <;>
    rcases hc' with ⟨w', -, -, hw', rfl, hgw'⟩ | ⟨-, hw', rfl, rfl⟩ <;>
    simp only [hw, Option.some.injEq, reduceCtorEq] at hw'
  · subst hw'
    exact ⟨_, _, _, hg, hg', fun j hj => by rw [hgw j hj, hgw' j hj]⟩
  · exact ⟨_, _, _, hg, hg', hb⟩

end Sys2Proof.Machine
end

