-- ==== Sys2Proof/Laws/Stages.lean ====
section
/-! SUPPORT. What a stage that may raise can write: where it answers a state, that state differs from the one before in
`STAGE`, the working registers and the counter of `TONE` alone. -/

namespace Sys2Proof.Machine

theorem except_bind_ok {ε α β : Type} {x : Except ε α} {f : α → Except ε β} {b : β} :
    (x >>= f) = .ok b ↔ ∃ a, x = .ok a ∧ f a = .ok b := by
  cases x <;> simp [bind, Except.bind]

theorem except_ok_bind {ε α β : Type} (a : α) (f : α → Except ε β) : (Except.ok a >>= f) = f a := rfl
theorem except_error_bind {ε α β : Type} (e : ε) (f : α → Except ε β) : (Except.error e >>= f) = .error e := rfl

theorem except_map_ok {ε α β : Type} {x : Except ε α} {f : α → β} {b : β} :
    x.map f = .ok b ↔ ∃ a, x = .ok a ∧ f a = b := by
  cases x <;> simp [Except.map]

@[simp] theorem settle_ok (s t : State) : settle s (.ok t) = .next t := rfl
@[simp] theorem settle_error (s : State) (x : Raised) : settle s (.error x) = .next (s.raise x) := rfl

/-- A meaning that may raise answers its state or takes the exception. -/
theorem settle_next {s t : State} {r : Except Raised State} (h : settle s r = .next t) :
    r = .ok t ∨ ∃ x, r = .error x ∧ t = s.raise x := by
  cases r with
  | ok a => exact .inl (by simpa using h)
  | error x => exact .inr ⟨x, rfl, by simpa using h.symm⟩

theorem command_running {s : State} (h : s.halted = false) (body : State → Except Raised State) :
    command s body = settle s (body { s with result := .none }) := if_neg (by simp [h])

theorem command_halted {s : State} (h : s.halted = true) (body : State → Except Raised State) :
    command s body = .next { s with result := .none } := if_pos h

/-! ### Frame Decoder -/

theorem loadStage_ok {s t : State} (h : loadStage s = .ok t) :
    s.work.inCount.toNat = frameBytes s.codec
      ∧ t = { s with stage := Stage.partition,
                     work := { s.work with fb := loadBits (payload (frameBytes s.codec) s.work.inBytes) } } := by
  unfold loadStage at h
  split at h
  · next hc => exact ⟨hc, by simpa using h.symm⟩
  · simp at h

theorem partitionStage_ok {s t : State} (h : partitionStage s = .ok t) :
    t = { s with stage := Stage.ecc0, work := { s.work with wf := t.work.wf } } := by
  simp only [partitionStage, except_bind_ok] at h
  obtain ⟨_, -, h⟩ := h
  simp only [Except.ok.injEq] at h; subst h; rfl

theorem ecc0Stage_ok {s t : State} (h : ecc0Stage s = .ok t) :
    t = { s with stage := Stage.derand, work := { s.work with wf := t.work.wf, e := t.work.e, u0 := t.work.u0 } } := by
  simp only [ecc0Stage, except_bind_ok] at h
  obtain ⟨_, -, _, -, _, -, h⟩ := h
  simp only [Except.ok.injEq] at h; subst h; rfl

theorem derandStage_ok {s t : State} (h : derandStage s = .ok t) :
    t = { s with stage := Stage.eccn, work := { s.work with wf := t.work.wf, mask := t.work.mask } } := by
  simp only [derandStage, except_bind_ok] at h
  obtain ⟨_, -, _, -, h⟩ := h
  simp only [Except.ok.injEq] at h; subst h; rfl

theorem eccnStage_ok {s t : State} (h : eccnStage s = .ok t) :
    t = { s with stage := Stage.errsum, work := { s.work with wf := t.work.wf, e := t.work.e } } := by
  simp only [eccnStage, except_bind_ok] at h
  obtain ⟨_, -, h⟩ := h
  simp only [Except.ok.injEq] at h; subst h; rfl

theorem w0idxStage_ok {s t : State} (h : w0idxStage s = .ok t) :
    ∃ v ff, extractRom s.work.wf (s.rom.w0Idx s.codec) = .ok v ∧ ffFind s.rom s.codec v = .ok ff
      ∧ t = { s with stage := afterW0idx s.codec,
                     work := { s.work with w0Index := BitVec.ofNat 8 v, ff := ff, frameType := ff.frameType } } := by
  simp only [w0idxStage, except_bind_ok] at h
  obtain ⟨v, hv, ff, hf, h⟩ := h
  exact ⟨v, ff, hv, hf, by simpa using h.symm⟩

theorem tonechkStage_imbe {s : State} (hc : s.codec = .imbe) : tonechkStage s = .ok { s with stage := Stage.fields } := by
  simp [tonechkStage, hc]

theorem tonechkStage_ambe {s t : State} (hc : s.codec = .ambe) (h : tonechkStage s = .ok t) :
    ∃ v tone, extractRom s.work.wf s.rom.ambe.toneCheckIdx = .ok v
      ∧ toneFor s (toneClassify (decide (v = s.rom.ambe.toneCheckValue)) s.work.ff.frameType
          (decide (s.rom.ambe.toneConflictErr ≤ s.work.eT.toNat))).1 = .ok tone
      ∧ t = { s with stage := Stage.fields, toneCtr := s.toneCtr + 1,
                     work := { s.work with
                       frameType := (toneClassify (decide (v = s.rom.ambe.toneCheckValue)) s.work.ff.frameType
                         (decide (s.rom.ambe.toneConflictErr ≤ s.work.eT.toNat))).1
                       forcedErasure := (toneClassify (decide (v = s.rom.ambe.toneCheckValue)) s.work.ff.frameType
                         (decide (s.rom.ambe.toneConflictErr ≤ s.work.eT.toNat))).2
                       tone := tone } } := by
  simp only [tonechkStage, hc, except_bind_ok] at h
  obtain ⟨v, hv, tone, ht, h⟩ := h
  exact ⟨v, tone, hv, ht, by simpa [hc] using h.symm⟩

theorem fieldsStage_ok {s t : State} (h : fieldsStage s = .ok t) :
    t = { s with stage := Stage.repeatchk, work := { s.work with fld := t.work.fld } } := by
  unfold fieldsStage at h
  split at h
  · simp only [Except.ok.injEq] at h; subst h; rfl
  · simp only [except_bind_ok] at h
    obtain ⟨_, -, h⟩ := h
    simp only [Except.ok.injEq] at h; subst h; rfl

/-! ### Model Parameter Decoder -/

theorem gainStage_ok {s t : State} (h : gainStage s = .ok t) :
    t = { s with stage := Stage.voicing, work := { s.work with
            gvec := t.work.gvec, rg := t.work.rg, cmp := { s.work.cmp with gain := t.work.cmp.gain } } } := by
  unfold gainStage at h
  split at h <;>
  · simp only [except_bind_ok] at h
    obtain ⟨_, -, h⟩ := h
    simp only [Except.ok.injEq] at h; subst h; rfl

theorem voicingStage_ok {s t : State} (h : voicingStage s = .ok t) :
    ∃ vs, voicingFlags s = .ok vs
      ∧ t = { s with stage := Stage.resid, work := { s.work with
                cmp := { s.work.cmp with voicingDecisions := voicingArray s.work.ff.harmonicCount vs } } } := by
  simp only [voicingStage, except_bind_ok] at h
  obtain ⟨vs, hv, h⟩ := h
  exact ⟨vs, hv, by simpa using h.symm⟩

theorem residStage_ok {s t : State} (h : residStage s = .ok t) :
    t = { s with stage := Stage.predict, work := { s.work with
            jlen := t.work.jlen, coef := t.work.coef, tres := t.work.tres } } := by
  simp only [residStage, except_bind_ok] at h
  obtain ⟨_, -, _, -, h⟩ := h
  simp only [Except.ok.injEq] at h; subst h; rfl

/-! ### Primitives -/

theorem eccPrimitive_ok {c : BlockCode} {sel : FrameSel} {o : Int} {s t : State} (h : eccPrimitive c sel o s = .ok t) :
    ∃ f count, eccCorrect c (frameOf s.work sel) o = .ok (f, count) ∧ t = (s.withFrame sel f).withRes (.value count) := by
  unfold eccPrimitive at h
  split at h
  · simp at h
  · next f count hc => exact ⟨f, count, hc, by simpa using h.symm⟩

end Sys2Proof.Machine
end

