-- ==== Sys2Proof/Laws/State.lean ====
section
/-! SUPPORT. What each named update of the state leaves in each field, by definition. The stages' own work is in
`Sys2Proof/Laws/Stages.lean`. -/

namespace Sys2Proof.Machine

/-! ### `State.raise` -/

@[simp] theorem State.raise_codec (s : State) (r : Raised) : (s.raise r).codec = s.codec := rfl
@[simp] theorem State.raise_stage (s : State) (r : Raised) : (s.raise r).stage = Stage.idle := rfl
@[simp] theorem State.raise_gain (s : State) (r : Raised) : (s.raise r).gain = s.gain := rfl
@[simp] theorem State.raise_fault (s : State) (r : Raised) : (s.raise r).fault = r.cause.code := rfl
@[simp] theorem State.raise_faultInfo (s : State) (r : Raised) : (s.raise r).faultInfo = BitVec.ofInt 16 r.info := rfl
@[simp] theorem State.raise_status (s : State) (r : Raised) : (s.raise r).status = s.status := rfl
@[simp] theorem State.raise_tone (s : State) (r : Raised) : (s.raise r).tone = s.tone := rfl
@[simp] theorem State.raise_pmp (s : State) (r : Raised) : (s.raise r).pmp = s.pmp := rfl
@[simp] theorem State.raise_ss (s : State) (r : Raised) : (s.raise r).ss = s.ss := rfl
@[simp] theorem State.raise_work (s : State) (r : Raised) : (s.raise r).work = if r.cause.halts then freeWork s.codec s.rom s.freeCtr else s.work := rfl
@[simp] theorem State.raise_rom (s : State) (r : Raised) : (s.raise r).rom = s.rom := rfl
@[simp] theorem State.raise_port (s : State) (r : Raised) : (s.raise r).port = s.port := rfl
@[simp] theorem State.raise_operands (s : State) (r : Raised) : (s.raise r).operands = s.operands := rfl
@[simp] theorem State.raise_result (s : State) (r : Raised) : (s.raise r).result = .none := rfl
@[simp] theorem State.raise_poresetRequest (s : State) (r : Raised) : (s.raise r).poresetRequest = s.poresetRequest := rfl
@[simp] theorem State.raise_drawCtr (s : State) (r : Raised) : (s.raise r).drawCtr = s.drawCtr := rfl
@[simp] theorem State.raise_freeCtr (s : State) (r : Raised) : (s.raise r).freeCtr = if r.cause.halts then s.freeCtr + 1 else s.freeCtr := rfl
@[simp] theorem State.raise_toneCtr (s : State) (r : Raised) : (s.raise r).toneCtr = s.toneCtr := rfl

/-! ### `State.poreset` -/

@[simp] theorem State.poreset_codec (s : State) : (s.poreset).codec = s.codec := rfl
@[simp] theorem State.poreset_stage (s : State) : (s.poreset).stage = 0 := rfl
@[simp] theorem State.poreset_gain (s : State) : (s.poreset).gain = .int 1 := rfl
@[simp] theorem State.poreset_fault (s : State) : (s.poreset).fault = 0 := rfl
@[simp] theorem State.poreset_faultInfo (s : State) : (s.poreset).faultInfo = 0 := rfl
@[simp] theorem State.poreset_status (s : State) : (s.poreset).status = zeroStatus := rfl
@[simp] theorem State.poreset_tone (s : State) : (s.poreset).tone = resetTone := rfl
@[simp] theorem State.poreset_pmp (s : State) : (s.poreset).pmp = s.rom.mpDefault s.codec := rfl
@[simp] theorem State.poreset_ss (s : State) : (s.poreset).ss = resetSynth := rfl
@[simp] theorem State.poreset_work (s : State) : (s.poreset).work = zeroWork s.codec (s.rom.mpDefault s.codec) := rfl
@[simp] theorem State.poreset_rom (s : State) : (s.poreset).rom = s.rom := rfl
@[simp] theorem State.poreset_port (s : State) : (s.poreset).port = s.port := rfl
@[simp] theorem State.poreset_operands (s : State) : (s.poreset).operands = [] := rfl
@[simp] theorem State.poreset_result (s : State) : (s.poreset).result = .none := rfl
@[simp] theorem State.poreset_poresetRequest (s : State) : (s.poreset).poresetRequest = false := rfl
@[simp] theorem State.poreset_drawCtr (s : State) : (s.poreset).drawCtr = s.drawCtr := rfl
@[simp] theorem State.poreset_freeCtr (s : State) : (s.poreset).freeCtr = s.freeCtr := rfl
@[simp] theorem State.poreset_toneCtr (s : State) : (s.poreset).toneCtr = s.toneCtr := rfl

/-! ### `State.withRes` -/

@[simp] theorem State.withRes_codec (s : State) (r : PrimResult) : (s.withRes r).codec = s.codec := rfl
@[simp] theorem State.withRes_stage (s : State) (r : PrimResult) : (s.withRes r).stage = s.stage := rfl
@[simp] theorem State.withRes_gain (s : State) (r : PrimResult) : (s.withRes r).gain = s.gain := rfl
@[simp] theorem State.withRes_fault (s : State) (r : PrimResult) : (s.withRes r).fault = s.fault := rfl
@[simp] theorem State.withRes_faultInfo (s : State) (r : PrimResult) : (s.withRes r).faultInfo = s.faultInfo := rfl
@[simp] theorem State.withRes_status (s : State) (r : PrimResult) : (s.withRes r).status = s.status := rfl
@[simp] theorem State.withRes_tone (s : State) (r : PrimResult) : (s.withRes r).tone = s.tone := rfl
@[simp] theorem State.withRes_pmp (s : State) (r : PrimResult) : (s.withRes r).pmp = s.pmp := rfl
@[simp] theorem State.withRes_ss (s : State) (r : PrimResult) : (s.withRes r).ss = s.ss := rfl
@[simp] theorem State.withRes_work (s : State) (r : PrimResult) : (s.withRes r).work = { s.work with res := r } := rfl
@[simp] theorem State.withRes_rom (s : State) (r : PrimResult) : (s.withRes r).rom = s.rom := rfl
@[simp] theorem State.withRes_port (s : State) (r : PrimResult) : (s.withRes r).port = s.port := rfl
@[simp] theorem State.withRes_operands (s : State) (r : PrimResult) : (s.withRes r).operands = s.operands := rfl
@[simp] theorem State.withRes_result (s : State) (r : PrimResult) : (s.withRes r).result = s.result := rfl
@[simp] theorem State.withRes_poresetRequest (s : State) (r : PrimResult) : (s.withRes r).poresetRequest = s.poresetRequest := rfl
@[simp] theorem State.withRes_drawCtr (s : State) (r : PrimResult) : (s.withRes r).drawCtr = s.drawCtr := rfl
@[simp] theorem State.withRes_freeCtr (s : State) (r : PrimResult) : (s.withRes r).freeCtr = s.freeCtr := rfl
@[simp] theorem State.withRes_toneCtr (s : State) (r : PrimResult) : (s.withRes r).toneCtr = s.toneCtr := rfl

/-! ### `State.withFrame` -/

@[simp] theorem State.withFrame_codec (s : State) (sel : FrameSel) (f : Frame) : (s.withFrame sel f).codec = s.codec := rfl
@[simp] theorem State.withFrame_stage (s : State) (sel : FrameSel) (f : Frame) : (s.withFrame sel f).stage = s.stage := rfl
@[simp] theorem State.withFrame_gain (s : State) (sel : FrameSel) (f : Frame) : (s.withFrame sel f).gain = s.gain := rfl
@[simp] theorem State.withFrame_fault (s : State) (sel : FrameSel) (f : Frame) : (s.withFrame sel f).fault = s.fault := rfl
@[simp] theorem State.withFrame_faultInfo (s : State) (sel : FrameSel) (f : Frame) : (s.withFrame sel f).faultInfo = s.faultInfo := rfl
@[simp] theorem State.withFrame_status (s : State) (sel : FrameSel) (f : Frame) : (s.withFrame sel f).status = s.status := rfl
@[simp] theorem State.withFrame_tone (s : State) (sel : FrameSel) (f : Frame) : (s.withFrame sel f).tone = s.tone := rfl
@[simp] theorem State.withFrame_pmp (s : State) (sel : FrameSel) (f : Frame) : (s.withFrame sel f).pmp = s.pmp := rfl
@[simp] theorem State.withFrame_ss (s : State) (sel : FrameSel) (f : Frame) : (s.withFrame sel f).ss = s.ss := rfl
@[simp] theorem State.withFrame_work (s : State) (sel : FrameSel) (f : Frame) : (s.withFrame sel f).work = putFrame s.work sel f := rfl
@[simp] theorem State.withFrame_rom (s : State) (sel : FrameSel) (f : Frame) : (s.withFrame sel f).rom = s.rom := rfl
@[simp] theorem State.withFrame_port (s : State) (sel : FrameSel) (f : Frame) : (s.withFrame sel f).port = s.port := rfl
@[simp] theorem State.withFrame_operands (s : State) (sel : FrameSel) (f : Frame) : (s.withFrame sel f).operands = s.operands := rfl
@[simp] theorem State.withFrame_result (s : State) (sel : FrameSel) (f : Frame) : (s.withFrame sel f).result = s.result := rfl
@[simp] theorem State.withFrame_poresetRequest (s : State) (sel : FrameSel) (f : Frame) : (s.withFrame sel f).poresetRequest = s.poresetRequest := rfl
@[simp] theorem State.withFrame_drawCtr (s : State) (sel : FrameSel) (f : Frame) : (s.withFrame sel f).drawCtr = s.drawCtr := rfl
@[simp] theorem State.withFrame_freeCtr (s : State) (sel : FrameSel) (f : Frame) : (s.withFrame sel f).freeCtr = s.freeCtr := rfl
@[simp] theorem State.withFrame_toneCtr (s : State) (sel : FrameSel) (f : Frame) : (s.withFrame sel f).toneCtr = s.toneCtr := rfl

/-! ### `resetCommand` -/

@[simp] theorem resetCommand_codec (s : State) : (resetCommand s).codec = s.codec := rfl
@[simp] theorem resetCommand_stage (s : State) : (resetCommand s).stage = s.stage := rfl
@[simp] theorem resetCommand_gain (s : State) : (resetCommand s).gain = s.gain := rfl
@[simp] theorem resetCommand_fault (s : State) : (resetCommand s).fault = s.fault := rfl
@[simp] theorem resetCommand_faultInfo (s : State) : (resetCommand s).faultInfo = s.faultInfo := rfl
@[simp] theorem resetCommand_status (s : State) : (resetCommand s).status = zeroStatus := rfl
@[simp] theorem resetCommand_tone (s : State) : (resetCommand s).tone = if s.tone.valid then invalidTone s.toneCtr else s.tone := rfl
@[simp] theorem resetCommand_pmp (s : State) : (resetCommand s).pmp = s.rom.mpDefault s.codec := rfl
@[simp] theorem resetCommand_ss (s : State) : (resetCommand s).ss = resetSynth := rfl
@[simp] theorem resetCommand_work (s : State) : (resetCommand s).work = s.work := rfl
@[simp] theorem resetCommand_rom (s : State) : (resetCommand s).rom = s.rom := rfl
@[simp] theorem resetCommand_port (s : State) : (resetCommand s).port = s.port := rfl
@[simp] theorem resetCommand_operands (s : State) : (resetCommand s).operands = s.operands := rfl
@[simp] theorem resetCommand_result (s : State) : (resetCommand s).result = s.result := rfl
@[simp] theorem resetCommand_poresetRequest (s : State) : (resetCommand s).poresetRequest = s.poresetRequest := rfl
@[simp] theorem resetCommand_drawCtr (s : State) : (resetCommand s).drawCtr = s.drawCtr := rfl
@[simp] theorem resetCommand_freeCtr (s : State) : (resetCommand s).freeCtr = s.freeCtr := rfl
@[simp] theorem resetCommand_toneCtr (s : State) : (resetCommand s).toneCtr = if s.tone.valid then s.toneCtr + 1 else s.toneCtr := rfl

/-! ### `decodeCommandBody` -/

@[simp] theorem decodeCommandBody_codec (n : BitVec 16) (bytes : List Byte) (s : State) : (decodeCommandBody n bytes s).codec = s.codec := rfl
@[simp] theorem decodeCommandBody_stage (n : BitVec 16) (bytes : List Byte) (s : State) : (decodeCommandBody n bytes s).stage = Stage.load := rfl
@[simp] theorem decodeCommandBody_gain (n : BitVec 16) (bytes : List Byte) (s : State) : (decodeCommandBody n bytes s).gain = s.gain := rfl
@[simp] theorem decodeCommandBody_fault (n : BitVec 16) (bytes : List Byte) (s : State) : (decodeCommandBody n bytes s).fault = s.fault := rfl
@[simp] theorem decodeCommandBody_faultInfo (n : BitVec 16) (bytes : List Byte) (s : State) : (decodeCommandBody n bytes s).faultInfo = s.faultInfo := rfl
@[simp] theorem decodeCommandBody_status (n : BitVec 16) (bytes : List Byte) (s : State) : (decodeCommandBody n bytes s).status = s.status := rfl
@[simp] theorem decodeCommandBody_tone (n : BitVec 16) (bytes : List Byte) (s : State) : (decodeCommandBody n bytes s).tone = s.tone := rfl
@[simp] theorem decodeCommandBody_pmp (n : BitVec 16) (bytes : List Byte) (s : State) : (decodeCommandBody n bytes s).pmp = s.pmp := rfl
@[simp] theorem decodeCommandBody_ss (n : BitVec 16) (bytes : List Byte) (s : State) : (decodeCommandBody n bytes s).ss = s.ss := rfl
@[simp] theorem decodeCommandBody_work (n : BitVec 16) (bytes : List Byte) (s : State) : (decodeCommandBody n bytes s).work = { s.work with inCount := n, inBytes := bytes } := rfl
@[simp] theorem decodeCommandBody_rom (n : BitVec 16) (bytes : List Byte) (s : State) : (decodeCommandBody n bytes s).rom = s.rom := rfl
@[simp] theorem decodeCommandBody_port (n : BitVec 16) (bytes : List Byte) (s : State) : (decodeCommandBody n bytes s).port = s.port := rfl
@[simp] theorem decodeCommandBody_operands (n : BitVec 16) (bytes : List Byte) (s : State) : (decodeCommandBody n bytes s).operands = s.operands := rfl
@[simp] theorem decodeCommandBody_result (n : BitVec 16) (bytes : List Byte) (s : State) : (decodeCommandBody n bytes s).result = s.result := rfl
@[simp] theorem decodeCommandBody_poresetRequest (n : BitVec 16) (bytes : List Byte) (s : State) : (decodeCommandBody n bytes s).poresetRequest = s.poresetRequest := rfl
@[simp] theorem decodeCommandBody_drawCtr (n : BitVec 16) (bytes : List Byte) (s : State) : (decodeCommandBody n bytes s).drawCtr = s.drawCtr := rfl
@[simp] theorem decodeCommandBody_freeCtr (n : BitVec 16) (bytes : List Byte) (s : State) : (decodeCommandBody n bytes s).freeCtr = s.freeCtr := rfl
@[simp] theorem decodeCommandBody_toneCtr (n : BitVec 16) (bytes : List Byte) (s : State) : (decodeCommandBody n bytes s).toneCtr = s.toneCtr := rfl

/-! ### `commitStage` -/

@[simp] theorem commitStage_codec (s : State) : (commitStage s).codec = s.codec := rfl
@[simp] theorem commitStage_stage (s : State) : (commitStage s).stage = Stage.idle := rfl
@[simp] theorem commitStage_gain (s : State) : (commitStage s).gain = s.gain := rfl
@[simp] theorem commitStage_fault (s : State) : (commitStage s).fault = s.fault := rfl
@[simp] theorem commitStage_faultInfo (s : State) : (commitStage s).faultInfo = s.faultInfo := rfl
@[simp] theorem commitStage_status (s : State) : (commitStage s).status = statusOf s := rfl
@[simp] theorem commitStage_tone (s : State) : (commitStage s).tone = toneOf s := rfl
@[simp] theorem commitStage_pmp (s : State) : (commitStage s).pmp = s.work.cmp := rfl
@[simp] theorem commitStage_work (s : State) : (commitStage s).work = freeWork s.codec s.rom s.freeCtr := rfl
@[simp] theorem commitStage_rom (s : State) : (commitStage s).rom = s.rom := rfl
@[simp] theorem commitStage_port (s : State) : (commitStage s).port = s.port := rfl
@[simp] theorem commitStage_operands (s : State) : (commitStage s).operands = s.operands := rfl
@[simp] theorem commitStage_result (s : State) : (commitStage s).result = .samples s.work.out := rfl
@[simp] theorem commitStage_poresetRequest (s : State) : (commitStage s).poresetRequest = s.poresetRequest := rfl
@[simp] theorem commitStage_drawCtr (s : State) : (commitStage s).drawCtr = s.drawCtr := rfl
@[simp] theorem commitStage_freeCtr (s : State) : (commitStage s).freeCtr = s.freeCtr + 1 := rfl
@[simp] theorem commitStage_toneCtr (s : State) : (commitStage s).toneCtr = s.toneCtr + 1 := rfl

/-! ### `errsumStage` -/

@[simp] theorem errsumStage_codec (s : State) : (errsumStage s).codec = s.codec := rfl
@[simp] theorem errsumStage_stage (s : State) : (errsumStage s).stage = Stage.w0idx := rfl
@[simp] theorem errsumStage_gain (s : State) : (errsumStage s).gain = s.gain := rfl
@[simp] theorem errsumStage_fault (s : State) : (errsumStage s).fault = s.fault := rfl
@[simp] theorem errsumStage_faultInfo (s : State) : (errsumStage s).faultInfo = s.faultInfo := rfl
@[simp] theorem errsumStage_status (s : State) : (errsumStage s).status = s.status := rfl
@[simp] theorem errsumStage_tone (s : State) : (errsumStage s).tone = s.tone := rfl
@[simp] theorem errsumStage_pmp (s : State) : (errsumStage s).pmp = s.pmp := rfl
@[simp] theorem errsumStage_ss (s : State) : (errsumStage s).ss = s.ss := rfl
@[simp] theorem errsumStage_rom (s : State) : (errsumStage s).rom = s.rom := rfl
@[simp] theorem errsumStage_port (s : State) : (errsumStage s).port = s.port := rfl
@[simp] theorem errsumStage_operands (s : State) : (errsumStage s).operands = s.operands := rfl
@[simp] theorem errsumStage_result (s : State) : (errsumStage s).result = s.result := rfl
@[simp] theorem errsumStage_poresetRequest (s : State) : (errsumStage s).poresetRequest = s.poresetRequest := rfl
@[simp] theorem errsumStage_drawCtr (s : State) : (errsumStage s).drawCtr = s.drawCtr := rfl
@[simp] theorem errsumStage_freeCtr (s : State) : (errsumStage s).freeCtr = s.freeCtr := rfl
@[simp] theorem errsumStage_toneCtr (s : State) : (errsumStage s).toneCtr = s.toneCtr := rfl

/-! ### `repeatchkStage` -/

@[simp] theorem repeatchkStage_codec (s : State) : (repeatchkStage s).codec = s.codec := rfl
@[simp] theorem repeatchkStage_gain (s : State) : (repeatchkStage s).gain = s.gain := rfl
@[simp] theorem repeatchkStage_fault (s : State) : (repeatchkStage s).fault = s.fault := rfl
@[simp] theorem repeatchkStage_faultInfo (s : State) : (repeatchkStage s).faultInfo = s.faultInfo := rfl
@[simp] theorem repeatchkStage_status (s : State) : (repeatchkStage s).status = s.status := rfl
@[simp] theorem repeatchkStage_tone (s : State) : (repeatchkStage s).tone = s.tone := rfl
@[simp] theorem repeatchkStage_pmp (s : State) : (repeatchkStage s).pmp = s.pmp := rfl
@[simp] theorem repeatchkStage_ss (s : State) : (repeatchkStage s).ss = s.ss := rfl
@[simp] theorem repeatchkStage_rom (s : State) : (repeatchkStage s).rom = s.rom := rfl
@[simp] theorem repeatchkStage_port (s : State) : (repeatchkStage s).port = s.port := rfl
@[simp] theorem repeatchkStage_operands (s : State) : (repeatchkStage s).operands = s.operands := rfl
@[simp] theorem repeatchkStage_result (s : State) : (repeatchkStage s).result = s.result := rfl
@[simp] theorem repeatchkStage_poresetRequest (s : State) : (repeatchkStage s).poresetRequest = s.poresetRequest := rfl
@[simp] theorem repeatchkStage_drawCtr (s : State) : (repeatchkStage s).drawCtr = s.drawCtr := rfl
@[simp] theorem repeatchkStage_freeCtr (s : State) : (repeatchkStage s).freeCtr = s.freeCtr := rfl
@[simp] theorem repeatchkStage_toneCtr (s : State) : (repeatchkStage s).toneCtr = s.toneCtr := rfl

/-! ### `tonesetStage` -/

@[simp] theorem tonesetStage_codec (s : State) : (tonesetStage s).codec = s.codec := rfl
@[simp] theorem tonesetStage_stage (s : State) : (tonesetStage s).stage = Stage.noise := rfl
@[simp] theorem tonesetStage_gain (s : State) : (tonesetStage s).gain = s.gain := rfl
@[simp] theorem tonesetStage_fault (s : State) : (tonesetStage s).fault = s.fault := rfl
@[simp] theorem tonesetStage_faultInfo (s : State) : (tonesetStage s).faultInfo = s.faultInfo := rfl
@[simp] theorem tonesetStage_status (s : State) : (tonesetStage s).status = s.status := rfl
@[simp] theorem tonesetStage_tone (s : State) : (tonesetStage s).tone = s.tone := rfl
@[simp] theorem tonesetStage_pmp (s : State) : (tonesetStage s).pmp = s.pmp := rfl
@[simp] theorem tonesetStage_ss (s : State) : (tonesetStage s).ss = s.ss := rfl
@[simp] theorem tonesetStage_rom (s : State) : (tonesetStage s).rom = s.rom := rfl
@[simp] theorem tonesetStage_port (s : State) : (tonesetStage s).port = s.port := rfl
@[simp] theorem tonesetStage_operands (s : State) : (tonesetStage s).operands = s.operands := rfl
@[simp] theorem tonesetStage_result (s : State) : (tonesetStage s).result = s.result := rfl
@[simp] theorem tonesetStage_poresetRequest (s : State) : (tonesetStage s).poresetRequest = s.poresetRequest := rfl
@[simp] theorem tonesetStage_drawCtr (s : State) : (tonesetStage s).drawCtr = s.drawCtr := rfl
@[simp] theorem tonesetStage_freeCtr (s : State) : (tonesetStage s).freeCtr = s.freeCtr := rfl
@[simp] theorem tonesetStage_toneCtr (s : State) : (tonesetStage s).toneCtr = s.toneCtr := rfl

/-! ### `mpnewStage` -/

@[simp] theorem mpnewStage_codec (s : State) : (mpnewStage s).codec = s.codec := rfl
@[simp] theorem mpnewStage_stage (s : State) : (mpnewStage s).stage = Stage.gain := rfl
@[simp] theorem mpnewStage_gain (s : State) : (mpnewStage s).gain = s.gain := rfl
@[simp] theorem mpnewStage_fault (s : State) : (mpnewStage s).fault = s.fault := rfl
@[simp] theorem mpnewStage_faultInfo (s : State) : (mpnewStage s).faultInfo = s.faultInfo := rfl
@[simp] theorem mpnewStage_status (s : State) : (mpnewStage s).status = s.status := rfl
@[simp] theorem mpnewStage_tone (s : State) : (mpnewStage s).tone = s.tone := rfl
@[simp] theorem mpnewStage_pmp (s : State) : (mpnewStage s).pmp = s.pmp := rfl
@[simp] theorem mpnewStage_ss (s : State) : (mpnewStage s).ss = s.ss := rfl
@[simp] theorem mpnewStage_rom (s : State) : (mpnewStage s).rom = s.rom := rfl
@[simp] theorem mpnewStage_port (s : State) : (mpnewStage s).port = s.port := rfl
@[simp] theorem mpnewStage_operands (s : State) : (mpnewStage s).operands = s.operands := rfl
@[simp] theorem mpnewStage_result (s : State) : (mpnewStage s).result = s.result := rfl
@[simp] theorem mpnewStage_poresetRequest (s : State) : (mpnewStage s).poresetRequest = s.poresetRequest := rfl
@[simp] theorem mpnewStage_drawCtr (s : State) : (mpnewStage s).drawCtr = s.drawCtr := rfl
@[simp] theorem mpnewStage_freeCtr (s : State) : (mpnewStage s).freeCtr = s.freeCtr := rfl
@[simp] theorem mpnewStage_toneCtr (s : State) : (mpnewStage s).toneCtr = s.toneCtr := rfl

/-! ### `predictStage` -/

@[simp] theorem predictStage_codec (s : State) : (predictStage s).codec = s.codec := rfl
@[simp] theorem predictStage_stage (s : State) : (predictStage s).stage = Stage.enhance := rfl
@[simp] theorem predictStage_gain (s : State) : (predictStage s).gain = s.gain := rfl
@[simp] theorem predictStage_fault (s : State) : (predictStage s).fault = s.fault := rfl
@[simp] theorem predictStage_faultInfo (s : State) : (predictStage s).faultInfo = s.faultInfo := rfl
@[simp] theorem predictStage_status (s : State) : (predictStage s).status = s.status := rfl
@[simp] theorem predictStage_tone (s : State) : (predictStage s).tone = s.tone := rfl
@[simp] theorem predictStage_pmp (s : State) : (predictStage s).pmp = s.pmp := rfl
@[simp] theorem predictStage_ss (s : State) : (predictStage s).ss = s.ss := rfl
@[simp] theorem predictStage_rom (s : State) : (predictStage s).rom = s.rom := rfl
@[simp] theorem predictStage_port (s : State) : (predictStage s).port = s.port := rfl
@[simp] theorem predictStage_operands (s : State) : (predictStage s).operands = s.operands := rfl
@[simp] theorem predictStage_result (s : State) : (predictStage s).result = s.result := rfl
@[simp] theorem predictStage_poresetRequest (s : State) : (predictStage s).poresetRequest = s.poresetRequest := rfl
@[simp] theorem predictStage_drawCtr (s : State) : (predictStage s).drawCtr = s.drawCtr := rfl
@[simp] theorem predictStage_freeCtr (s : State) : (predictStage s).freeCtr = s.freeCtr := rfl
@[simp] theorem predictStage_toneCtr (s : State) : (predictStage s).toneCtr = s.toneCtr := rfl

/-! ### `smoothStage` -/

@[simp] theorem smoothStage_codec (s : State) : (smoothStage s).codec = s.codec := rfl
@[simp] theorem smoothStage_stage (s : State) : (smoothStage s).stage = Stage.noise := rfl
@[simp] theorem smoothStage_gain (s : State) : (smoothStage s).gain = s.gain := rfl
@[simp] theorem smoothStage_fault (s : State) : (smoothStage s).fault = s.fault := rfl
@[simp] theorem smoothStage_faultInfo (s : State) : (smoothStage s).faultInfo = s.faultInfo := rfl
@[simp] theorem smoothStage_status (s : State) : (smoothStage s).status = s.status := rfl
@[simp] theorem smoothStage_tone (s : State) : (smoothStage s).tone = s.tone := rfl
@[simp] theorem smoothStage_pmp (s : State) : (smoothStage s).pmp = s.pmp := rfl
@[simp] theorem smoothStage_ss (s : State) : (smoothStage s).ss = s.ss := rfl
@[simp] theorem smoothStage_rom (s : State) : (smoothStage s).rom = s.rom := rfl
@[simp] theorem smoothStage_port (s : State) : (smoothStage s).port = s.port := rfl
@[simp] theorem smoothStage_operands (s : State) : (smoothStage s).operands = s.operands := rfl
@[simp] theorem smoothStage_result (s : State) : (smoothStage s).result = s.result := rfl
@[simp] theorem smoothStage_poresetRequest (s : State) : (smoothStage s).poresetRequest = s.poresetRequest := rfl
@[simp] theorem smoothStage_drawCtr (s : State) : (smoothStage s).drawCtr = s.drawCtr := rfl
@[simp] theorem smoothStage_freeCtr (s : State) : (smoothStage s).freeCtr = s.freeCtr := rfl
@[simp] theorem smoothStage_toneCtr (s : State) : (smoothStage s).toneCtr = s.toneCtr := rfl

/-! ### `voicedStage` -/

@[simp] theorem voicedStage_codec (s : State) : (voicedStage s).codec = s.codec := rfl
@[simp] theorem voicedStage_stage (s : State) : (voicedStage s).stage = Stage.combine := rfl
@[simp] theorem voicedStage_gain (s : State) : (voicedStage s).gain = s.gain := rfl
@[simp] theorem voicedStage_fault (s : State) : (voicedStage s).fault = s.fault := rfl
@[simp] theorem voicedStage_faultInfo (s : State) : (voicedStage s).faultInfo = s.faultInfo := rfl
@[simp] theorem voicedStage_status (s : State) : (voicedStage s).status = s.status := rfl
@[simp] theorem voicedStage_tone (s : State) : (voicedStage s).tone = s.tone := rfl
@[simp] theorem voicedStage_pmp (s : State) : (voicedStage s).pmp = s.pmp := rfl
@[simp] theorem voicedStage_ss (s : State) : (voicedStage s).ss = s.ss := rfl
@[simp] theorem voicedStage_rom (s : State) : (voicedStage s).rom = s.rom := rfl
@[simp] theorem voicedStage_port (s : State) : (voicedStage s).port = s.port := rfl
@[simp] theorem voicedStage_operands (s : State) : (voicedStage s).operands = s.operands := rfl
@[simp] theorem voicedStage_result (s : State) : (voicedStage s).result = s.result := rfl
@[simp] theorem voicedStage_poresetRequest (s : State) : (voicedStage s).poresetRequest = s.poresetRequest := rfl
@[simp] theorem voicedStage_drawCtr (s : State) : (voicedStage s).drawCtr = s.drawCtr := rfl
@[simp] theorem voicedStage_freeCtr (s : State) : (voicedStage s).freeCtr = s.freeCtr := rfl
@[simp] theorem voicedStage_toneCtr (s : State) : (voicedStage s).toneCtr = s.toneCtr := rfl

/-! ### `combineStage` -/

@[simp] theorem combineStage_codec (s : State) : (combineStage s).codec = s.codec := rfl
@[simp] theorem combineStage_stage (s : State) : (combineStage s).stage = Stage.commit := rfl
@[simp] theorem combineStage_gain (s : State) : (combineStage s).gain = s.gain := rfl
@[simp] theorem combineStage_fault (s : State) : (combineStage s).fault = s.fault := rfl
@[simp] theorem combineStage_faultInfo (s : State) : (combineStage s).faultInfo = s.faultInfo := rfl
@[simp] theorem combineStage_status (s : State) : (combineStage s).status = s.status := rfl
@[simp] theorem combineStage_tone (s : State) : (combineStage s).tone = s.tone := rfl
@[simp] theorem combineStage_pmp (s : State) : (combineStage s).pmp = s.pmp := rfl
@[simp] theorem combineStage_ss (s : State) : (combineStage s).ss = s.ss := rfl
@[simp] theorem combineStage_rom (s : State) : (combineStage s).rom = s.rom := rfl
@[simp] theorem combineStage_port (s : State) : (combineStage s).port = s.port := rfl
@[simp] theorem combineStage_operands (s : State) : (combineStage s).operands = s.operands := rfl
@[simp] theorem combineStage_result (s : State) : (combineStage s).result = s.result := rfl
@[simp] theorem combineStage_poresetRequest (s : State) : (combineStage s).poresetRequest = s.poresetRequest := rfl
@[simp] theorem combineStage_drawCtr (s : State) : (combineStage s).drawCtr = s.drawCtr := rfl
@[simp] theorem combineStage_freeCtr (s : State) : (combineStage s).freeCtr = s.freeCtr := rfl
@[simp] theorem combineStage_toneCtr (s : State) : (combineStage s).toneCtr = s.toneCtr := rfl

/-! ### `enhanceStage` -/

@[simp] theorem enhanceStage_codec (s : State) : (enhanceStage s).codec = s.codec := rfl
@[simp] theorem enhanceStage_stage (s : State) : (enhanceStage s).stage = Stage.smooth := rfl
@[simp] theorem enhanceStage_gain (s : State) : (enhanceStage s).gain = s.gain := rfl
@[simp] theorem enhanceStage_fault (s : State) : (enhanceStage s).fault = s.fault := rfl
@[simp] theorem enhanceStage_faultInfo (s : State) : (enhanceStage s).faultInfo = s.faultInfo := rfl
@[simp] theorem enhanceStage_status (s : State) : (enhanceStage s).status = s.status := rfl
@[simp] theorem enhanceStage_tone (s : State) : (enhanceStage s).tone = s.tone := rfl
@[simp] theorem enhanceStage_pmp (s : State) : (enhanceStage s).pmp = s.pmp := rfl
@[simp] theorem enhanceStage_ss (s : State) : (enhanceStage s).ss = s.ss := rfl
@[simp] theorem enhanceStage_rom (s : State) : (enhanceStage s).rom = s.rom := rfl
@[simp] theorem enhanceStage_port (s : State) : (enhanceStage s).port = s.port := rfl
@[simp] theorem enhanceStage_operands (s : State) : (enhanceStage s).operands = s.operands := rfl
@[simp] theorem enhanceStage_result (s : State) : (enhanceStage s).result = s.result := rfl
@[simp] theorem enhanceStage_poresetRequest (s : State) : (enhanceStage s).poresetRequest = s.poresetRequest := rfl
@[simp] theorem enhanceStage_drawCtr (s : State) : (enhanceStage s).drawCtr = s.drawCtr := rfl
@[simp] theorem enhanceStage_freeCtr (s : State) : (enhanceStage s).freeCtr = s.freeCtr + 1 := rfl
@[simp] theorem enhanceStage_toneCtr (s : State) : (enhanceStage s).toneCtr = s.toneCtr := rfl

/-! ### `unvoicedStage` -/

@[simp] theorem unvoicedStage_codec (s : State) : (unvoicedStage s).codec = s.codec := rfl
@[simp] theorem unvoicedStage_stage (s : State) : (unvoicedStage s).stage = Stage.phase := rfl
@[simp] theorem unvoicedStage_gain (s : State) : (unvoicedStage s).gain = s.gain := rfl
@[simp] theorem unvoicedStage_fault (s : State) : (unvoicedStage s).fault = s.fault := rfl
@[simp] theorem unvoicedStage_faultInfo (s : State) : (unvoicedStage s).faultInfo = s.faultInfo := rfl
@[simp] theorem unvoicedStage_status (s : State) : (unvoicedStage s).status = s.status := rfl
@[simp] theorem unvoicedStage_tone (s : State) : (unvoicedStage s).tone = s.tone := rfl
@[simp] theorem unvoicedStage_pmp (s : State) : (unvoicedStage s).pmp = s.pmp := rfl
@[simp] theorem unvoicedStage_ss (s : State) : (unvoicedStage s).ss = s.ss := rfl
@[simp] theorem unvoicedStage_rom (s : State) : (unvoicedStage s).rom = s.rom := rfl
@[simp] theorem unvoicedStage_port (s : State) : (unvoicedStage s).port = s.port := rfl
@[simp] theorem unvoicedStage_operands (s : State) : (unvoicedStage s).operands = s.operands := rfl
@[simp] theorem unvoicedStage_result (s : State) : (unvoicedStage s).result = s.result := rfl
@[simp] theorem unvoicedStage_poresetRequest (s : State) : (unvoicedStage s).poresetRequest = s.poresetRequest := rfl
@[simp] theorem unvoicedStage_drawCtr (s : State) : (unvoicedStage s).drawCtr = s.drawCtr := rfl
@[simp] theorem unvoicedStage_freeCtr (s : State) : (unvoicedStage s).freeCtr = s.freeCtr + 1 := rfl
@[simp] theorem unvoicedStage_toneCtr (s : State) : (unvoicedStage s).toneCtr = s.toneCtr := rfl

/-! ### `noiseStage` -/

@[simp] theorem noiseStage_codec (s : State) : (noiseStage s).codec = s.codec := rfl
@[simp] theorem noiseStage_stage (s : State) : (noiseStage s).stage = Stage.unvoiced := rfl
@[simp] theorem noiseStage_gain (s : State) : (noiseStage s).gain = s.gain := rfl
@[simp] theorem noiseStage_fault (s : State) : (noiseStage s).fault = s.fault := rfl
@[simp] theorem noiseStage_faultInfo (s : State) : (noiseStage s).faultInfo = s.faultInfo := rfl
@[simp] theorem noiseStage_status (s : State) : (noiseStage s).status = s.status := rfl
@[simp] theorem noiseStage_tone (s : State) : (noiseStage s).tone = s.tone := rfl
@[simp] theorem noiseStage_pmp (s : State) : (noiseStage s).pmp = s.pmp := rfl
@[simp] theorem noiseStage_work (s : State) : (noiseStage s).work = s.work := rfl
@[simp] theorem noiseStage_rom (s : State) : (noiseStage s).rom = s.rom := rfl
@[simp] theorem noiseStage_port (s : State) : (noiseStage s).port = s.port := rfl
@[simp] theorem noiseStage_operands (s : State) : (noiseStage s).operands = s.operands := rfl
@[simp] theorem noiseStage_result (s : State) : (noiseStage s).result = s.result := rfl
@[simp] theorem noiseStage_poresetRequest (s : State) : (noiseStage s).poresetRequest = s.poresetRequest := rfl
@[simp] theorem noiseStage_drawCtr (s : State) : (noiseStage s).drawCtr = s.drawCtr := rfl
@[simp] theorem noiseStage_freeCtr (s : State) : (noiseStage s).freeCtr = s.freeCtr := rfl
@[simp] theorem noiseStage_toneCtr (s : State) : (noiseStage s).toneCtr = s.toneCtr := rfl

/-! ### `phaseStage` -/

@[simp] theorem phaseStage_codec (s : State) : (phaseStage s).codec = s.codec := rfl
@[simp] theorem phaseStage_stage (s : State) : (phaseStage s).stage = Stage.voiced := rfl
@[simp] theorem phaseStage_gain (s : State) : (phaseStage s).gain = s.gain := rfl
@[simp] theorem phaseStage_fault (s : State) : (phaseStage s).fault = s.fault := rfl
@[simp] theorem phaseStage_faultInfo (s : State) : (phaseStage s).faultInfo = s.faultInfo := rfl
@[simp] theorem phaseStage_status (s : State) : (phaseStage s).status = s.status := rfl
@[simp] theorem phaseStage_tone (s : State) : (phaseStage s).tone = s.tone := rfl
@[simp] theorem phaseStage_pmp (s : State) : (phaseStage s).pmp = s.pmp := rfl
@[simp] theorem phaseStage_ss (s : State) : (phaseStage s).ss = s.ss := rfl
@[simp] theorem phaseStage_rom (s : State) : (phaseStage s).rom = s.rom := rfl
@[simp] theorem phaseStage_port (s : State) : (phaseStage s).port = s.port := rfl
@[simp] theorem phaseStage_operands (s : State) : (phaseStage s).operands = s.operands := rfl
@[simp] theorem phaseStage_result (s : State) : (phaseStage s).result = s.result := rfl
@[simp] theorem phaseStage_poresetRequest (s : State) : (phaseStage s).poresetRequest = s.poresetRequest := rfl
@[simp] theorem phaseStage_drawCtr (s : State) : (phaseStage s).drawCtr = s.drawCtr + drawCount s.pmp s.work.cmp := rfl
@[simp] theorem phaseStage_freeCtr (s : State) : (phaseStage s).freeCtr = s.freeCtr := rfl
@[simp] theorem phaseStage_toneCtr (s : State) : (phaseStage s).toneCtr = s.toneCtr := rfl

/-! ### `REPEAT`, whose two branches differ in `CMP` and `muted` alone -/

@[simp] theorem repeatStage_codec (s : State) : (repeatStage s).codec = s.codec := by unfold repeatStage; split <;> rfl
@[simp] theorem repeatStage_stage (s : State) : (repeatStage s).stage = Stage.noise := by unfold repeatStage; split <;> rfl
@[simp] theorem repeatStage_gain (s : State) : (repeatStage s).gain = s.gain := by unfold repeatStage; split <;> rfl
@[simp] theorem repeatStage_fault (s : State) : (repeatStage s).fault = s.fault := by unfold repeatStage; split <;> rfl
@[simp] theorem repeatStage_faultInfo (s : State) : (repeatStage s).faultInfo = s.faultInfo := by unfold repeatStage; split <;> rfl
@[simp] theorem repeatStage_status (s : State) : (repeatStage s).status = s.status := by unfold repeatStage; split <;> rfl
@[simp] theorem repeatStage_tone (s : State) : (repeatStage s).tone = s.tone := by unfold repeatStage; split <;> rfl
@[simp] theorem repeatStage_pmp (s : State) : (repeatStage s).pmp = s.pmp := by unfold repeatStage; split <;> rfl
@[simp] theorem repeatStage_ss (s : State) : (repeatStage s).ss = s.ss := by unfold repeatStage; split <;> rfl
@[simp] theorem repeatStage_rom (s : State) : (repeatStage s).rom = s.rom := by unfold repeatStage; split <;> rfl
@[simp] theorem repeatStage_port (s : State) : (repeatStage s).port = s.port := by unfold repeatStage; split <;> rfl
@[simp] theorem repeatStage_operands (s : State) : (repeatStage s).operands = s.operands := by unfold repeatStage; split <;> rfl
@[simp] theorem repeatStage_result (s : State) : (repeatStage s).result = s.result := by unfold repeatStage; split <;> rfl
@[simp] theorem repeatStage_poresetRequest (s : State) : (repeatStage s).poresetRequest = s.poresetRequest := by unfold repeatStage; split <;> rfl
@[simp] theorem repeatStage_drawCtr (s : State) : (repeatStage s).drawCtr = s.drawCtr := by unfold repeatStage; split <;> rfl
@[simp] theorem repeatStage_freeCtr (s : State) : (repeatStage s).freeCtr = s.freeCtr := by unfold repeatStage; split <;> rfl
@[simp] theorem repeatStage_toneCtr (s : State) : (repeatStage s).toneCtr = s.toneCtr := by unfold repeatStage; split <;> rfl

/-! ### Taking the fetched words -/

@[simp] theorem State.consume_codec (s : State) (ws : List CodeWord) : (s.consume ws).codec = s.codec := by unfold State.consume; split <;> rfl
@[simp] theorem State.consume_stage (s : State) (ws : List CodeWord) : (s.consume ws).stage = s.stage := by unfold State.consume; split <;> rfl
@[simp] theorem State.consume_gain (s : State) (ws : List CodeWord) : (s.consume ws).gain = s.gain := by unfold State.consume; split <;> rfl
@[simp] theorem State.consume_fault (s : State) (ws : List CodeWord) : (s.consume ws).fault = s.fault := by unfold State.consume; split <;> rfl
@[simp] theorem State.consume_faultInfo (s : State) (ws : List CodeWord) : (s.consume ws).faultInfo = s.faultInfo := by unfold State.consume; split <;> rfl
@[simp] theorem State.consume_status (s : State) (ws : List CodeWord) : (s.consume ws).status = s.status := by unfold State.consume; split <;> rfl
@[simp] theorem State.consume_tone (s : State) (ws : List CodeWord) : (s.consume ws).tone = s.tone := by unfold State.consume; split <;> rfl
@[simp] theorem State.consume_pmp (s : State) (ws : List CodeWord) : (s.consume ws).pmp = s.pmp := by unfold State.consume; split <;> rfl
@[simp] theorem State.consume_ss (s : State) (ws : List CodeWord) : (s.consume ws).ss = s.ss := by unfold State.consume; split <;> rfl
@[simp] theorem State.consume_work (s : State) (ws : List CodeWord) : (s.consume ws).work = s.work := by unfold State.consume; split <;> rfl
@[simp] theorem State.consume_rom (s : State) (ws : List CodeWord) : (s.consume ws).rom = s.rom := by unfold State.consume; split <;> rfl
@[simp] theorem State.consume_result (s : State) (ws : List CodeWord) : (s.consume ws).result = s.result := by unfold State.consume; split <;> rfl
@[simp] theorem State.consume_poresetRequest (s : State) (ws : List CodeWord) : (s.consume ws).poresetRequest = s.poresetRequest := by unfold State.consume; split <;> rfl
@[simp] theorem State.consume_drawCtr (s : State) (ws : List CodeWord) : (s.consume ws).drawCtr = s.drawCtr := by unfold State.consume; split <;> rfl
@[simp] theorem State.consume_freeCtr (s : State) (ws : List CodeWord) : (s.consume ws).freeCtr = s.freeCtr := by unfold State.consume; split <;> rfl
@[simp] theorem State.consume_toneCtr (s : State) (ws : List CodeWord) : (s.consume ws).toneCtr = s.toneCtr := by unfold State.consume; split <;> rfl

theorem State.consume_idle {s : State} (h : s.stage = Stage.idle) (ws : List CodeWord) :
    s.consume ws = { s with port := ws } := if_pos h

theorem State.consume_stage_words {s : State} (h : s.stage ≠ Stage.idle) (ws : List CodeWord) :
    s.consume ws = { s with operands := ws } := if_neg h

/-! ### Frames by name -/

@[simp] theorem frameOf_putFrame (w : Work) (sel : FrameSel) (f : Frame) : frameOf (putFrame w sel f) sel = f := by
  cases sel <;> rfl

theorem frameOf_putFrame_ne (w : Work) {sel sel' : FrameSel} (h : sel ≠ sel') (f : Frame) :
    frameOf (putFrame w sel f) sel' = frameOf w sel' := by
  cases sel <;> cases sel' <;> first | rfl | exact absurd rfl h

@[simp] theorem putFrame_frameOf (w : Work) (sel : FrameSel) : putFrame w sel (frameOf w sel) = w := by
  cases sel <;> rfl

@[simp] theorem frameOf_res (w : Work) (r : PrimResult) (sel : FrameSel) :
    frameOf { w with res := r } sel = frameOf w sel := by cases sel <;> rfl

end Sys2Proof.Machine
end

