-- ==== Sys2Proof/Laws/Step.lean ====
section
/-! SUPPORT. What one step can do, said once: a requested `PORESET`, a command at rest, the stage `STAGE` names, a primitive. -/

namespace Sys2Proof.Machine

theorem step_poreset {s : State} (hp : s.poresetRequest = true) : step s = .next s.poreset := by
  simp [step, stepBody, hp]

theorem step_idle {s : State} (hp : s.poresetRequest = false) (hs : s.stage = Stage.idle) : step s = stepIdle exec s := by
  simp [step, stepBody, hp, hs]

theorem step_stage {s : State} (hp : s.poresetRequest = false) (hs : s.stage ≠ Stage.idle) : step s = stepStage exec s := by
  unfold step stepBody
  rw [if_neg (by simp [hp]), if_neg hs]

theorem halted_iff {s : State} : s.halted = true ↔ s.fault = 2 ∨ s.fault = 3 ∨ s.fault = 4 := by
  simp [State.halted, or_assoc]

/-! ### The meanings of the commands, and which outcomes they have -/

theorem exec_name (s : State) :
    exec .name s = command s (fun s => .ok { s with result := .name (s.rom.nameStr s.codec) }) := rfl
theorem exec_reset (s : State) : exec .reset s = command s (fun s => .ok (resetCommand s)) := rfl
theorem exec_setgain (g : MReal) (s : State) : exec (.setgain g) s = command s (setgainCommand g) := rfl
theorem exec_decode (n : BitVec 16) (bytes : List Byte) (s : State) :
    exec (.decode n bytes) s = command s (fun s => .ok (decodeCommandBody n bytes s)) := rfl

/-- A command answers itself: halted, nothing but an empty result; else its body's state or the exception. -/
theorem command_next {s t : State} {body : State → Except Raised State} (h : command s body = .next t) :
    (s.halted = true ∧ t = { s with result := .none })
      ∨ (s.halted = false ∧ (body { s with result := .none } = .ok t
          ∨ ∃ x, body { s with result := .none } = .error x ∧ t = s.raise x)) := by
  by_cases hh : s.halted = true
  · rw [command_halted hh] at h; cases h; exact .inl ⟨hh, rfl⟩
  · have hh : s.halted = false := by simpa using hh
    rw [command_running hh] at h
    exact .inr ⟨hh, settle_next h⟩

/-- What a command word can decode to. -/
theorem decodeCommand_cases (b : Byte) (ws : List CodeWord) :
    (∃ rest, decodeCommand b ws = .ok .name rest) ∨ (∃ rest, decodeCommand b ws = .ok .reset rest)
      ∨ (∃ g rest, decodeCommand b ws = .ok (.setgain g) rest)
      ∨ (∃ n bytes rest, decodeCommand b ws = .ok (.decode n bytes) rest)
      ∨ decodeCommand b ws = .incomplete ∨ decodeCommand b ws = .mismatch
      ∨ decodeCommand b ws = .illegalCommand b ws := by
  unfold decodeCommand
  split
  · simp
  · simp
  · cases getReal ws <;> simp [Got.andThen]
  · cases getCount ws <;> simp [Got.andThen]
    next n rest => cases getMany getByte n.toNat rest <;> simp
  · simp

/-- Everything a step at rest can do (R245, R61, R322). -/
theorem step_idle_next {s t : State} (hp : s.poresetRequest = false) (hs : s.stage = Stage.idle)
    (h : step s = .next t) :
    t = s
      ∨ ∃ ws, (exec .name { s with port := ws } = .next t
          ∨ exec .reset { s with port := ws } = .next t
          ∨ (∃ g, exec (.setgain g) { s with port := ws } = .next t)
          ∨ (∃ n bytes, exec (.decode n bytes) { s with port := ws } = .next t)
          ∨ ∃ cmd, illegalCommand { s with port := ws } cmd = .next t) := by
  rw [step_idle hp hs, stepIdle] at h
  split at h
  · next hb =>
    cases hport : s.port with
    | nil =>
      have hd : decodeOver s.fetch = .ok .idle [] := by simp [State.fetch, hs, hport]; rfl
      rw [hd] at h
      simp only [runFetched, State.consume_idle hs] at h
      rw [if_neg (by simp [isPrimitiveStage, hs])] at h
      change Host.Outcome.next { s with port := [] } = _ at h
      left
      injection h with h; rw [← h, ← hport]
    | cons w ws =>
      rw [hport] at hb
      cases w <;> simp only [portBegins, Bool.false_eq_true] at hb
      next b =>
      have hd : decodeOver s.fetch = decodeCommand b ws := by simp [State.fetch, hs, hport, decodeOver]
      rw [hd] at h
      have hrun : ∀ i r, runFetched exec s i (s.consume r) = exec i { s with port := r } := by
        intro i r
        rw [runFetched, State.consume_idle hs, if_neg (by simp [isPrimitiveStage, hs])]
      rcases decodeCommand_cases b ws with ⟨r, hc⟩ | ⟨r, hc⟩ | ⟨g, r, hc⟩ | ⟨n, bytes, r, hc⟩ | hc | hc | hc <;>
        rw [hc] at h
      · exact .inr ⟨r, .inl (by rw [← hrun]; exact h)⟩
      · exact .inr ⟨r, .inr (.inl (by rw [← hrun]; exact h))⟩
      · exact .inr ⟨r, .inr (.inr (.inl ⟨g, by rw [← hrun]; exact h⟩))⟩
      · exact .inr ⟨r, .inr (.inr (.inr (.inl ⟨n, bytes, by rw [← hrun]; exact h⟩)))⟩
      · left; change Host.Outcome.next s = _ at h; injection h with h; exact h.symm
      · cases h
      · exact .inr ⟨ws, .inr (.inr (.inr (.inr ⟨b, by rw [← State.consume_idle hs]; exact h⟩)))⟩
  · cases h

/-! ### The machine is the generic one at its own arguments (R6, R9) -/

theorem exec_eq_execOver (i : Instr) (s : State) : exec i s = execOver openParams i s := by cases i <;> rfl

theorem step_eq_stepOver (s : State) : step s = stepOver openParams s := by
  have h : exec = execOver openParams := funext fun i => funext fun s => exec_eq_execOver i s
  rw [step, stepOver, h]

theorem steps_eq_stepsOver (k : Nat) (s : State) : steps k s = stepsOver openParams k s := by
  induction k generalizing s with
  | zero => rfl
  | succ k ih =>
    rw [steps, stepsOver, step_eq_stepOver]
    cases stepOver openParams s <;> simp only [ih]

/-! ### A step of a stage is its meaning -/

theorem consume_operands {s : State} (hs : s.stage ≠ Stage.idle) : s.consume s.operands = s := by
  rw [State.consume_stage_words hs]

theorem step_stage_of {s : State} {i : Instr} (hp : s.poresetRequest = false) (hs : s.stage ≠ Stage.idle)
    (hlt : s.stage.toNat < 32) (hd : decodeUop s.stage s.operands = .ok i s.operands) : step s = exec i s := by
  have hf : s.fetch = .uop s.stage :: s.operands := if_neg hs
  rw [step_stage hp hs, stepStage, hf]
  simp only [decodeOver, hd]
  rw [runFetched, consume_operands hs, if_neg (by simp [isPrimitiveStage]; omega)]

theorem step_load {s : State} (hp : s.poresetRequest = false) (hs : s.stage = Stage.load) : step s = execLoad s :=
  step_stage_of (i := .load) hp (by rw [hs]; decide) (by rw [hs]; decide) (by rw [hs]; rfl)
theorem step_partition {s : State} (hp : s.poresetRequest = false) (hs : s.stage = Stage.partition) : step s = execPartition s :=
  step_stage_of (i := .partition) hp (by rw [hs]; decide) (by rw [hs]; decide) (by rw [hs]; rfl)
theorem step_ecc0 {s : State} (hp : s.poresetRequest = false) (hs : s.stage = Stage.ecc0) : step s = execEcc0 s :=
  step_stage_of (i := .ecc0) hp (by rw [hs]; decide) (by rw [hs]; decide) (by rw [hs]; rfl)
theorem step_derand {s : State} (hp : s.poresetRequest = false) (hs : s.stage = Stage.derand) : step s = execDerand s :=
  step_stage_of (i := .derand) hp (by rw [hs]; decide) (by rw [hs]; decide) (by rw [hs]; rfl)
theorem step_eccn {s : State} (hp : s.poresetRequest = false) (hs : s.stage = Stage.eccn) : step s = execEccn s :=
  step_stage_of (i := .eccn) hp (by rw [hs]; decide) (by rw [hs]; decide) (by rw [hs]; rfl)
theorem step_errsum {s : State} (hp : s.poresetRequest = false) (hs : s.stage = Stage.errsum) : step s = execErrsum s :=
  step_stage_of (i := .errsum) hp (by rw [hs]; decide) (by rw [hs]; decide) (by rw [hs]; rfl)
theorem step_w0idx {s : State} (hp : s.poresetRequest = false) (hs : s.stage = Stage.w0idx) : step s = execW0idx s :=
  step_stage_of (i := .w0idx) hp (by rw [hs]; decide) (by rw [hs]; decide) (by rw [hs]; rfl)
theorem step_tonechk {s : State} (hp : s.poresetRequest = false) (hs : s.stage = Stage.tonechk) : step s = execTonechk s :=
  step_stage_of (i := .tonechk) hp (by rw [hs]; decide) (by rw [hs]; decide) (by rw [hs]; rfl)
theorem step_fields {s : State} (hp : s.poresetRequest = false) (hs : s.stage = Stage.fields) : step s = execFields s :=
  step_stage_of (i := .fields) hp (by rw [hs]; decide) (by rw [hs]; decide) (by rw [hs]; rfl)
theorem step_repeatchk {s : State} (hp : s.poresetRequest = false) (hs : s.stage = Stage.repeatchk) : step s = execRepeatchk s :=
  step_stage_of (i := .repeatchk) hp (by rw [hs]; decide) (by rw [hs]; decide) (by rw [hs]; rfl)
theorem step_repeatFrame {s : State} (hp : s.poresetRequest = false) (hs : s.stage = Stage.repeatFrame) : step s = execRepeatFrame s :=
  step_stage_of (i := .repeatFrame) hp (by rw [hs]; decide) (by rw [hs]; decide) (by rw [hs]; rfl)
theorem step_toneset {s : State} (hp : s.poresetRequest = false) (hs : s.stage = Stage.toneset) : step s = execToneset s :=
  step_stage_of (i := .toneset) hp (by rw [hs]; decide) (by rw [hs]; decide) (by rw [hs]; rfl)
theorem step_mpnew {s : State} (hp : s.poresetRequest = false) (hs : s.stage = Stage.mpnew) : step s = execMpnew s :=
  step_stage_of (i := .mpnew) hp (by rw [hs]; decide) (by rw [hs]; decide) (by rw [hs]; rfl)
theorem step_gain {s : State} (hp : s.poresetRequest = false) (hs : s.stage = Stage.gain) : step s = execGain s :=
  step_stage_of (i := .gain) hp (by rw [hs]; decide) (by rw [hs]; decide) (by rw [hs]; rfl)
theorem step_voicing {s : State} (hp : s.poresetRequest = false) (hs : s.stage = Stage.voicing) : step s = execVoicing s :=
  step_stage_of (i := .voicing) hp (by rw [hs]; decide) (by rw [hs]; decide) (by rw [hs]; rfl)
theorem step_resid {s : State} (hp : s.poresetRequest = false) (hs : s.stage = Stage.resid) : step s = execResid s :=
  step_stage_of (i := .resid) hp (by rw [hs]; decide) (by rw [hs]; decide) (by rw [hs]; rfl)
theorem step_predict {s : State} (hp : s.poresetRequest = false) (hs : s.stage = Stage.predict) : step s = execPredict s :=
  step_stage_of (i := .predict) hp (by rw [hs]; decide) (by rw [hs]; decide) (by rw [hs]; rfl)
theorem step_enhance {s : State} (hp : s.poresetRequest = false) (hs : s.stage = Stage.enhance) : step s = execEnhance s :=
  step_stage_of (i := .enhance) hp (by rw [hs]; decide) (by rw [hs]; decide) (by rw [hs]; rfl)
theorem step_smooth {s : State} (hp : s.poresetRequest = false) (hs : s.stage = Stage.smooth) : step s = execSmooth s :=
  step_stage_of (i := .smooth) hp (by rw [hs]; decide) (by rw [hs]; decide) (by rw [hs]; rfl)
theorem step_noise {s : State} (hp : s.poresetRequest = false) (hs : s.stage = Stage.noise) : step s = execNoise s :=
  step_stage_of (i := .noise) hp (by rw [hs]; decide) (by rw [hs]; decide) (by rw [hs]; rfl)
theorem step_unvoiced {s : State} (hp : s.poresetRequest = false) (hs : s.stage = Stage.unvoiced) : step s = execUnvoiced s :=
  step_stage_of (i := .unvoiced) hp (by rw [hs]; decide) (by rw [hs]; decide) (by rw [hs]; rfl)
theorem step_phase {s : State} (hp : s.poresetRequest = false) (hs : s.stage = Stage.phase) : step s = execPhase s :=
  step_stage_of (i := .phase) hp (by rw [hs]; decide) (by rw [hs]; decide) (by rw [hs]; rfl)
theorem step_voiced {s : State} (hp : s.poresetRequest = false) (hs : s.stage = Stage.voiced) : step s = execVoiced s :=
  step_stage_of (i := .voiced) hp (by rw [hs]; decide) (by rw [hs]; decide) (by rw [hs]; rfl)
theorem step_combine {s : State} (hp : s.poresetRequest = false) (hs : s.stage = Stage.combine) : step s = execCombine s :=
  step_stage_of (i := .combine) hp (by rw [hs]; decide) (by rw [hs]; decide) (by rw [hs]; rfl)
theorem step_commit {s : State} (hp : s.poresetRequest = false) (hs : s.stage = Stage.commit) : step s = execCommit s :=
  step_stage_of (i := .commit) hp (by rw [hs]; decide) (by rw [hs]; decide) (by rw [hs]; rfl)

/-- Everything a step at work can do: a stage runs its meaning; a primitive runs and `STAGE` returns to `IDLE`, or it waits
for its operand words. -/
theorem step_stage_next {s t : State} (hp : s.poresetRequest = false) (hs : s.stage ≠ Stage.idle)
    (h : step s = .next t) :
    (1 ≤ s.stage.toNat ∧ s.stage.toNat ≤ 25)
      ∨ (32 ≤ s.stage.toNat ∧ s.stage.toNat ≤ 49 ∧ ∃ i ws t', decodeUop s.stage s.operands = .ok i ws
          ∧ exec i { s with operands := ws } = .next t' ∧ t = { t' with stage := Stage.idle })
      ∨ (32 ≤ s.stage.toNat ∧ s.stage.toNat ≤ 49 ∧ t = s) := by
  by_cases hlt : s.stage.toNat ≤ 25
  · left
    refine ⟨?_, hlt⟩
    by_contra h0
    exact hs (BitVec.eq_of_toNat_eq (by simp; omega))
  right
  have hf : s.fetch = .uop s.stage :: s.operands := if_neg hs
  rw [step_stage hp hs, stepStage, hf] at h
  simp only [decodeOver] at h
  have hrange : 32 ≤ s.stage.toNat ∧ s.stage.toNat ≤ 49 := by
    by_contra hr
    have hu : decodeUop s.stage s.operands = .unusedMicroOp s.stage := by
      unfold decodeUop
      split <;> first | rfl | omega
    rw [hu] at h; cases h
  split at h
  case h_2 => cases h
  case h_3 | h_4 | h_5 | h_6 => injection h with h; exact .inr ⟨hrange.1, hrange.2, h.symm⟩
  next i ws hd =>
  refine .inl ⟨hrange.1, hrange.2, ?_⟩
  rw [runFetched, State.consume_stage_words hs, if_pos (by simp [isPrimitiveStage, hrange.1])] at h
  cases he : exec i { s with operands := ws } with
  | next t' => rw [he] at h; exact ⟨i, ws, t', hd, he, by injection h with h; exact h.symm⟩
  | fault r => rw [he] at h; cases h
  | refused r => rw [he] at h; cases h

end Sys2Proof.Machine
end

