-- ==== Sys2Proof/Laws/Effects.lean ====
section
/-! SUPPORT. Everything the step of a stage can do to the state, said once over all 25 stages. -/

namespace Sys2Proof.Machine

/-- The ids of the stages. -/
theorem stage_ids {n : Nat} (h1 : 1 ≤ n) (h2 : n ≤ 25) : n = 1 ∨ n = 2 ∨ n = 3 ∨ n = 4 ∨ n = 5 ∨ n = 6 ∨ n = 7 ∨ n = 8 ∨ n = 9 ∨ n = 10 ∨ n = 11 ∨ n = 12 ∨ n = 13 ∨ n = 14 ∨ n = 15 ∨ n = 16 ∨ n = 17 ∨ n = 18 ∨ n = 19 ∨ n = 20 ∨ n = 21 ∨ n = 22 ∨ n = 23 ∨ n = 24 ∨ n = 25 := by omega

theorem stage_of {b : BitVec 6} {n : Nat} (h : b.toNat = n) : b = BitVec.ofNat 6 n := by
  apply BitVec.eq_of_toNat_eq; have := b.isLt; simp; omega

/-- What the step of a stage can do: `STAGE`, the working registers and the counters; only `NOISE` and `COMMIT` write carried
state (R308); only the stages 1 to 17 raise (R257). -/
inductive StageEffect (s : State) : State → Prop
  | work (st : BitVec 6) (w : Work) (fc tc dc : Nat) (hs : s.stage.toNat ≠ 20) (hs' : s.stage.toNat ≠ 25) :
      StageEffect s { s with stage := st, work := w, freeCtr := fc, toneCtr := tc, drawCtr := dc }
  | noise (hs : s.stage = Stage.noise) : StageEffect s (noiseStage s)
  | commit (hs : s.stage = Stage.commit) : StageEffect s (commitStage s)
  | raised (hs : s.stage.toNat ≤ 17) (x : Raised) : StageEffect s (s.raise x)

theorem settle_stage {s t : State} {r : Except Raised State} (hid : s.stage.toNat ≤ 17)
   (hr : ∀ u, r = .ok u → ∃ st w tc, u = { s with stage := st, work := w, toneCtr := tc }) (h : settle s r = .next t) : StageEffect s t := by
  rcases settle_next h with h | ⟨x, -, rfl⟩
  · obtain ⟨st, w, tc, rfl⟩ := hr _ h
    exact .work st w s.freeCtr tc s.drawCtr (by omega) (by omega)
  · exact .raised hid x

theorem stage_effect {s t : State} (hp : s.poresetRequest = false) (h1 : 1 ≤ s.stage.toNat) (h2 : s.stage.toNat ≤ 25)
   (h : step s = .next t) : StageEffect s t := by
  rcases stage_ids h1 h2 with h' | h' | h' | h' | h' | h' | h' | h' | h' | h' | h' | h' | h' | h' | h' | h' | h' | h' | h' | h' | h' | h' | h' | h' | h'
  · rw [step_load hp (stage_of h')] at h
    exact settle_stage (by omega) (fun u hu => by obtain ⟨-, rfl⟩ := loadStage_ok hu; exact ⟨_, _, _, rfl⟩) h
  · rw [step_partition hp (stage_of h')] at h
    exact settle_stage (by omega) (fun u hu => ⟨_, _, _, partitionStage_ok hu⟩) h
  · rw [step_ecc0 hp (stage_of h')] at h
    exact settle_stage (by omega) (fun u hu => ⟨_, _, _, ecc0Stage_ok hu⟩) h
  · rw [step_derand hp (stage_of h')] at h
    exact settle_stage (by omega) (fun u hu => ⟨_, _, _, derandStage_ok hu⟩) h
  · rw [step_eccn hp (stage_of h')] at h
    exact settle_stage (by omega) (fun u hu => ⟨_, _, _, eccnStage_ok hu⟩) h
  · rw [step_errsum hp (stage_of h')] at h
    injection h with h; subst h; exact .work _ _ _ _ _ (by omega) (by omega)
  · rw [step_w0idx hp (stage_of h')] at h
    exact settle_stage (by omega) (fun u hu => by obtain ⟨_, _, -, -, rfl⟩ := w0idxStage_ok hu; exact ⟨_, _, _, rfl⟩) h
  · rw [step_tonechk hp (stage_of h')] at h
    refine settle_stage (by omega) (fun u hu => ?_) h
    have hc : s.codec = .ambe ∨ s.codec = .imbe := by cases s.codec <;> simp
    rcases hc with hc | hc
    · obtain ⟨_, _, -, -, rfl⟩ := tonechkStage_ambe hc hu; exact ⟨_, _, _, rfl⟩
    · rw [tonechkStage_imbe hc] at hu; cases hu; exact ⟨_, _, s.toneCtr, rfl⟩
  · rw [step_fields hp (stage_of h')] at h
    exact settle_stage (by omega) (fun u hu => ⟨_, _, _, fieldsStage_ok hu⟩) h
  · rw [step_repeatchk hp (stage_of h')] at h
    injection h with h; subst h; exact .work _ _ _ _ _ (by omega) (by omega)
  · rw [step_repeatFrame hp (stage_of h')] at h
    injection h with h; subst h; unfold repeatStage; split <;> exact .work _ _ _ _ _ (by omega) (by omega)
  · rw [step_toneset hp (stage_of h')] at h
    injection h with h; subst h; exact .work _ _ _ _ _ (by omega) (by omega)
  · rw [step_mpnew hp (stage_of h')] at h
    injection h with h; subst h; exact .work _ _ _ _ _ (by omega) (by omega)
  · rw [step_gain hp (stage_of h')] at h
    exact settle_stage (by omega) (fun u hu => ⟨_, _, _, gainStage_ok hu⟩) h
  · rw [step_voicing hp (stage_of h')] at h
    exact settle_stage (by omega) (fun u hu => by obtain ⟨_, -, rfl⟩ := voicingStage_ok hu; exact ⟨_, _, _, rfl⟩) h
  · rw [step_resid hp (stage_of h')] at h
    exact settle_stage (by omega) (fun u hu => ⟨_, _, _, residStage_ok hu⟩) h
  · rw [step_predict hp (stage_of h')] at h
    injection h with h; subst h; exact .work _ _ _ _ _ (by omega) (by omega)
  · rw [step_enhance hp (stage_of h')] at h
    injection h with h; subst h; exact .work _ _ _ _ _ (by omega) (by omega)
  · rw [step_smooth hp (stage_of h')] at h
    injection h with h; subst h; exact .work _ _ _ _ _ (by omega) (by omega)
  · rw [step_noise hp (stage_of h')] at h
    injection h with h; subst h; exact .noise (stage_of h')
  · rw [step_unvoiced hp (stage_of h')] at h
    injection h with h; subst h; exact .work _ _ _ _ _ (by omega) (by omega)
  · rw [step_phase hp (stage_of h')] at h
    injection h with h; subst h; exact .work _ _ _ _ _ (by omega) (by omega)
  · rw [step_voiced hp (stage_of h')] at h
    injection h with h; subst h; exact .work _ _ _ _ _ (by omega) (by omega)
  · rw [step_combine hp (stage_of h')] at h
    injection h with h; subst h; exact .work _ _ _ _ _ (by omega) (by omega)
  · rw [step_commit hp (stage_of h')] at h
    injection h with h; subst h; exact .commit (stage_of h')

end Sys2Proof.Machine
end

