-- ==== Sys2Proof/Laws/Words.lean ====
section
/-! SUPPORT. The operand readers of the decoder against the writers of the encoder: what one reads is what the other
writes, and the words after it. -/

namespace Sys2Proof

variable {R : Type}

/-- Reading as many operands as were written gives them and the words after them. -/
theorem getMany_map {α : Type} (one : List (CodeWord R) → Got R α) (w : α → CodeWord R)
    (h : ∀ a ws, one (w a :: ws) = .ok a ws) (xs : List α) (rest) :
   getMany one xs.length (xs.map w ++ rest) = .ok xs rest := by
  induction xs with
  | nil => rfl
  | cons x xs ih => simp [getMany, h, ih, Got.map]

/-! ### What a reader answers was written -/

/-- An operand that decodes was read. -/
theorem andThen_ok {α} {g : Got R α} {k : α → List (CodeWord R) → Decoded R} {i : Instr R} {rest} (h : g.andThen k = .ok i rest) : ∃ a r, g = .ok a r ∧ k a r = .ok i rest := by
  cases g <;> simp [Got.andThen] at h; exact ⟨_, _, rfl, h⟩

theorem getCount_ok {ws : List (CodeWord R)} {n} {r} (h : getCount ws = .ok n r) : ws = putCount n ++ r := by
  unfold getCount at h; split at h <;> simp_all [putCount]

theorem getInt_ok {ws : List (CodeWord R)} {n} {r} (h : getInt ws = .ok n r) : ws = putInt n ++ r := by
  unfold getInt at h; split at h <;> simp_all [putInt]

theorem getReal_ok {ws : List (CodeWord R)} {n} {r} (h : getReal ws = .ok n r) : ws = putReal n ++ r := by
  unfold getReal at h; split at h <;> simp_all [putReal]

theorem getByte_ok {ws : List (CodeWord R)} {n} {r} (h : getByte ws = .ok n r) : ws = .byte n :: r := by
  unfold getByte at h; split at h <;> simp_all

theorem getSel_ok {ws : List (CodeWord R)} {n} {r} (h : getSel ws = .ok n r) : ws = putSel n ++ r := by
  unfold getSel at h; split at h
  · next b ws =>
    split at h <;> simp at h <;> obtain ⟨rfl, rfl⟩ := h <;> simp [putSel] <;> apply BitVec.eq_of_toNat_eq <;> simpa
  · simp at h
  · simp at h

theorem getCodec_ok {ws : List (CodeWord R)} {n} {r} (h : getCodec ws = .ok n r) : ws = putCodec n ++ r := by
  unfold getCodec at h; split at h
  · next b ws =>
    split at h <;> simp at h <;> obtain ⟨rfl, rfl⟩ := h <;> simp [putCodec] <;> apply BitVec.eq_of_toNat_eq <;> simpa
  · simp at h
  · simp at h

theorem getMany_ok {α} {one : List (CodeWord R) → Got R α} {w : α → CodeWord R} (hone : ∀ ws a r, one ws = .ok a r → ws = w a :: r) :
   ∀ n ws xs r, getMany one n ws = .ok xs r → xs.length = n ∧ ws = xs.map w ++ r := by
  intro n; induction n with
  | zero => intro ws xs r h; simp [getMany] at h; obtain ⟨rfl, rfl⟩ := h; simp
  | succ n ih =>
    intro ws xs r h
    simp only [getMany] at h
    split at h <;> try simp at h
    next a rest he =>
      cases hm : getMany one n rest with
      | ok ys r' =>
        rw [hm] at h; simp [Got.map] at h; obtain ⟨rfl, rfl⟩ := h
        obtain ⟨h1, h2⟩ := ih _ _ _ hm
        have := hone _ _ _ he
        subst h2; simp [h1, this]
      | incomplete => rw [hm] at h; simp [Got.map] at h
      | mismatch => rw [hm] at h; simp [Got.map] at h

theorem getList_ok {α} {one : List (CodeWord R) → Got R α} {w : α → CodeWord R} (hone : ∀ ws a r, one ws = .ok a r → ws = w a :: r)
   {ex ws xs r} (h : getList one ex ws = .ok xs r) : ∃ n : BitVec 16, xs.length = n.toNat + ex ∧ ws = .count n :: (xs.map w ++ r) := by
  unfold getList at h; split at h <;> try simp at h
  next n rest hc =>
    obtain ⟨h1, h2⟩ := getMany_ok hone _ _ _ _ h
    exact ⟨n, h1, by rw [getCount_ok hc, h2]; rfl⟩

theorem getBytes_ok {ws : List (CodeWord R)} {xs r} (h : getBytes ws = .ok xs r) : xs.length < 65536 ∧ ws = putBytes xs ++ r := by
  obtain ⟨n, h1, h2⟩ := getList_ok (fun _ _ _ => getByte_ok) h
  refine ⟨by have := n.isLt; omega, ?_⟩
  rw [h2, putBytes, h1]; simp

theorem getReals_ok {ws : List (CodeWord R)} {xs r} (h : getReals ws = .ok xs r) : xs.length < 65536 ∧ ws = putReals xs ++ r := by
  obtain ⟨n, h1, h2⟩ := getList_ok (w := .real) (fun _ _ _ h => getReal_ok h) h
  refine ⟨by have := n.isLt; omega, ?_⟩
  rw [h2, putReals, h1]; simp

theorem getIdx_ok {ws : List (CodeWord R)} {xs r} (h : getIdx ws = .ok xs r) : 1 ≤ xs.length ∧ xs.length ≤ 65536 ∧ ws = putIdx xs ++ r := by
  obtain ⟨n, h1, h2⟩ := getList_ok (w := .int) (fun _ _ _ h => getInt_ok h) h
  refine ⟨by omega, by have := n.isLt; omega, ?_⟩
  rw [h2, putIdx, h1]; simp

end Sys2Proof
end

