-- ==== Sys2Proof/Laws/Commands.lean ====
section
/-! SUPPORT. What each host command can answer, the step that takes a DECODE, and how runs of several steps compose. -/

namespace Sys2Proof.Machine

theorem errorOf_some {α : Type} {r : Except Raised α} {x : Raised} : errorOf r = some x ↔ r = .error x := by
  cases r <;> simp [errorOf]

theorem errorOf_none {α : Type} {r : Except Raised α} : errorOf r = none ↔ ∃ a, r = .ok a := by
  cases r <;> simp [errorOf]

/-- What a meaning that raises leaves (R306). -/
theorem settle_raises {s : State} {r : Except Raised State} {x : Raised} (h : r = .error x) :
    ∃ t, settle s r = .next t ∧ t.fault = x.cause.code ∧ t.faultInfo = BitVec.ofInt 16 x.info ∧ t.stage = Stage.idle
      ∧ t.result = .none ∧ SameCarried s t ∧ (x.cause.halts = false → t.work = s.work) := by
  subst h
  exact ⟨s.raise x, rfl, rfl, rfl, rfl, rfl, ⟨rfl, rfl, rfl, rfl, rfl, rfl, rfl⟩, fun h => by simp [h]⟩

/-- The codes of R302 are 1 to 6. -/
theorem code_range (x : Raised) : 1 ≤ x.cause.code.toNat ∧ x.cause.code.toNat ≤ 6 := by
  rcases x with ⟨c, i⟩; cases c <;> simp [Cause.code]

theorem illegal_next {s t : State} {cmd : Byte} (h : illegalCommand s cmd = .next t) :
   t = {s with result := .none} ∨ ∃ x, t = s.raise x := by
  rcases command_next h with ⟨-, rfl⟩ | ⟨-, h | ⟨x, -, rfl⟩⟩
  · exact .inl rfl
  · cases h
  · exact .inr ⟨x, rfl⟩

theorem setgain_next {s t : State} {g : MReal} (h : exec (.setgain g) s = .next t) :
   (∃ g, t = {s with result := .none, gain := g} ∧ (gainOk (N := numerics) g = true ∨ g = s.gain)) ∨ ∃ x, t = s.raise x := by
  rw [exec_setgain] at h
  rcases command_next h with ⟨-, rfl⟩ | ⟨-, h | ⟨x, -, rfl⟩⟩
  · exact .inl ⟨s.gain, rfl, .inr rfl⟩
  · unfold setgainCommand at h; split at h <;> cases h
    next hg => exact .inl ⟨g, rfl, .inl hg⟩
  · exact .inr ⟨x, rfl⟩

theorem reset_next {s t : State} (h : exec .reset s = .next t) :
   t = {s with result := .none} ∨ t = resetCommand {s with result := .none} := by
  rw [exec_reset] at h
  rcases command_next h with ⟨-, rfl⟩ | ⟨-, h | ⟨x, hx, -⟩⟩
  · exact .inl rfl
  · cases h; exact .inr rfl
  · cases hx

theorem name_next {s t : State} (h : exec .name s = .next t) : ∃ r, t = {s with result := r} := by
  rw [exec_name] at h
  rcases command_next h with ⟨-, rfl⟩ | ⟨-, h | ⟨x, hx, -⟩⟩
  · exact ⟨_, rfl⟩
  · cases h; exact ⟨_, rfl⟩
  · cases hx

theorem decode_next {s t : State} {n bytes} (h : exec (.decode n bytes) s = .next t) :
   t = {s with result := .none} ∨ (s.halted = false ∧ t = decodeCommandBody n bytes {s with result := .none}) := by
  rw [exec_decode] at h
  rcases command_next h with ⟨-, rfl⟩ | ⟨hh, h | ⟨x, hx, -⟩⟩
  · exact .inl rfl
  · cases h; exact .inr ⟨hh, rfl⟩
  · cases hx

/-- The step of a resting instance that takes a whole DECODE (R245, R254). -/
theorem step_decode (s : State) (n : BitVec 16) (bytes : List Byte) (rest : List CodeWord) (hA : Accepting s) (hl : bytes.length = n.toNat)
   (hport : s.port = .byte 3 :: .count n :: (bytes.map .byte ++ rest)) :
   ∃ u, step s = .next u ∧ u = { s with stage := Stage.load, result := .none, port := rest, work := { s.work with inCount := n, inBytes := bytes } } := by
  obtain ⟨h1, h2, h3⟩ := hA
  have hf : s.fetch = .byte 3 :: .count n :: (bytes.map .byte ++ rest) := by simp [State.fetch, h1, hport]
  have hd : decodeOver s.fetch = .ok (.decode n bytes) rest := by
    rw [hf]
    show (getMany getByte n.toNat (bytes.map .byte ++ rest)).andThen _ = _
    rw [← hl, getMany_map getByte .byte (fun _ _ => rfl)]; rfl
  refine ⟨decodeCommandBody n bytes { s with port := rest, result := .none }, ?_, rfl⟩
  rw [step_idle h3 h1, stepIdle, if_pos (by simp [hport, portBegins]), hd]
  simp only
  rw [runFetched, if_neg (by simp [isPrimitiveStage, h1]), State.consume_idle h1, exec_decode, command_running (by exact h2)]
  rfl

theorem steps_succ {k : Nat} {s u t : State} (h : step s = .next u) (h2 : steps k u = .next t) : steps (k+1) s = .next t := by
  simp only [steps, h, h2]

theorem steps_trans {j : Nat} : ∀ {k : Nat} {s u t : State}, steps k s = .next u → steps j u = .next t → steps (k+j) s = .next t
  | 0, s, u, t, h, h2 => by simp only [steps] at h; injection h with h; subst h; simpa using h2
  | k+1, s, u, t, h, h2 => by
    simp only [steps] at h
    cases hs : step s with
    | next v => rw [hs] at h; rw [show k + 1 + j = (k + j) + 1 by omega]; exact steps_succ hs (steps_trans h h2)
    | fault r => rw [hs] at h; cases h
    | refused r => rw [hs] at h; cases h

theorem steps_one {s t : State} (h : step s = .next t) : steps 1 s = .next t := steps_succ h rfl

end Sys2Proof.Machine
end

