-- ==== Sys2Proof/Laws/Legal.lean ====
section
/-! SUPPORT. What a legal ROM gives, clause by clause, so that no proof unfolds `Rom.legal`. -/

namespace Sys2Proof.Machine

/-- What `idxListOk` says. -/
structure GoodIdx (bits : Nat) (l : List Nat) : Prop where
  pos : 1 ≤ l.length
  max : l.length ≤ 32
  inside : ∀ i ∈ l, i < bits
  nodup : l.Nodup

theorem idxListOk_iff {bits : Nat} {l : List Nat} : idxListOk bits l = true ↔ GoodIdx bits l := by
  simp only [idxListOk, Bool.and_eq_true, decide_eq_true_eq, List.all_eq_true]
  exact ⟨fun ⟨⟨⟨a, b⟩, c⟩, d⟩ => ⟨a, b, c, d⟩, fun ⟨a, b, c, d⟩ => ⟨⟨⟨a, b⟩, c⟩, d⟩⟩

theorem paramsShapeOk_iff {p : ModelParams MReal} : paramsShapeOk p = true ↔ ParamsShape p := by
  rw [paramsShapeOk, phaseLen]
  simp only [Bool.and_eq_true, decide_eq_true_eq]
  exact ⟨fun ⟨⟨⟨⟨a, b⟩, c⟩, d⟩, e⟩ => ⟨a, b, c, d, e⟩, fun ⟨a, b, c, d, e⟩ => ⟨⟨⟨⟨a, b⟩, c⟩, d⟩, e⟩⟩

/-- What `mpDefaultOk` says. -/
structure GoodDefault (p : ModelParams MReal) : Prop where
  repeats : p.repeatCount = 0
  low : 9 ≤ p.fundamentalFrequency.harmonicCount
  high : p.fundamentalFrequency.harmonicCount ≤ 56
  shape : ParamsShape p
  silent : (∀ m ∈ p.spectralAmplitudes, m = .int 0) ∧ ∀ m ∈ p.enhancedSpectralAmplitudes, m = .int 0

theorem mpDefaultOk_iff {p : ModelParams MReal} : mpDefaultOk p = true ↔ GoodDefault p := by
  simp only [mpDefaultOk, silentOk, Bool.and_eq_true, decide_eq_true_eq, paramsShapeOk_iff, List.all_eq_true]
  exact ⟨fun ⟨⟨⟨⟨a, b⟩, c⟩, d⟩, e⟩ => ⟨a, b, c, d, e⟩, fun ⟨a, b, c, d, e⟩ => ⟨⟨⟨⟨a, b⟩, c⟩, d⟩, e⟩⟩

/-- A frequency row whose harmonic count is in range. -/
def GoodRow (row : FreqRow) : Prop := 9 ≤ row.harmonicCount ∧ row.harmonicCount ≤ 56

theorem harmonicsOk_iff {row : FreqRow} : harmonicsOk row = true ↔ GoodRow row := by
  simp [harmonicsOk, GoodRow]

/-- What `jblockOk` says. -/
structure GoodBlocks (blocks : Nat) (rows : List (List Nat)) : Prop where
  count : rows.length = 48
  row : ∀ r, r < 48 → (rows.getD r []).length = blocks ∧ (∀ j ∈ rows.getD r [], 1 ≤ j) ∧ (rows.getD r []).sum = r + 9

theorem jblockOk_iff {blocks : Nat} {rows : List (List Nat)} : jblockOk blocks rows = true ↔ GoodBlocks blocks rows := by
  simp only [jblockOk, Bool.and_eq_true, decide_eq_true_eq, List.all_eq_true, List.mem_range]
  exact ⟨fun ⟨a, b⟩ => ⟨a, fun r hr => ⟨(b r hr).1.1, (b r hr).1.2, (b r hr).2⟩⟩,
    fun ⟨a, b⟩ => ⟨a, fun r hr => ⟨⟨(b r hr).1, (b r hr).2.1⟩, (b r hr).2.2⟩⟩⟩

/-- What `cosetsOk` says. -/
structure GoodCosets (rom : Rom) (bits : Nat) (first : CodeName) (cs : List Coset) : Prop where
  pos : 1 ≤ cs.length
  max : cs.length ≤ 7
  chain : cosetChain rom 0 cs = true
  head : cs.head?.map (·.code) = some first
  total : (cs.map (·.n)).sum ≤ bits

theorem cosetsOk_iff {rom : Rom} {bits : Nat} {first : CodeName} {cs : List Coset} :
    cosetsOk rom bits first cs = true ↔ GoodCosets rom bits first cs := by
  simp only [cosetsOk, Bool.and_eq_true, decide_eq_true_eq]
  exact ⟨fun ⟨⟨⟨⟨a, b⟩, c⟩, d⟩, e⟩ => ⟨a, b, c, d, e⟩, fun ⟨a, b, c, d, e⟩ => ⟨⟨⟨⟨a, b⟩, c⟩, d⟩, e⟩⟩

/-- A coset of a chain is as long as its code, and lies between the start and the end of the chain. -/
theorem cosetChain_mem {rom : Rom} {cs : List Coset} {off : Nat} (h : cosetChain rom off cs = true) {c : Coset}
    (hc : c ∈ cs) : c.n = (rom.code c.code).n ∧ off ≤ c.off ∧ c.off + c.n ≤ off + (cs.map (·.n)).sum := by
  induction cs generalizing off with
  | nil => cases hc
  | cons d ds ih =>
    simp only [cosetChain, Bool.and_eq_true, decide_eq_true_eq] at h
    obtain ⟨⟨⟨h1, h2⟩, -⟩, h4⟩ := h
    rcases List.mem_cons.mp hc with rfl | hc
    · simp; omega
    · have := ih h4 hc
      simp only [List.map_cons, List.sum_cons]
      omega

/-- What `AmbeRom.legal` says. -/
structure GoodAmbe (rom : Rom) (a : AmbeRom) : Prop where
  ffLen : a.ff.length = 128
  ffVoice : ∀ v, v < 120 → GoodRow (a.ff.getD v default)
  ffSilence : GoodRow (a.ff.getD 124 default) ∧ GoodRow (a.ff.getD 125 default)
  mapLen : a.cosetMap.length = 72
  mapInside : ∀ i ∈ a.cosetMap, i < 72
  mapNodup : a.cosetMap.Nodup
  cosets : GoodCosets rom 72 .code24 a.cosets
  later : laterCosetUses .code23 a.cosets = true
  w0Idx : GoodIdx 72 a.w0Idx
  w0Len : a.w0Idx.length = 7
  vuvIdx : GoodIdx 72 a.vuvIdx
  gainIdx : GoodIdx 72 a.gainIdx
  prba1Idx : GoodIdx 72 a.prba1Idx
  prba2Idx : GoodIdx 72 a.prba2Idx
  hocIdxLen : a.hocIdx.length = 4
  hocIdx : ∀ l ∈ a.hocIdx, GoodIdx 72 l ∧ (l.length = 4 ∨ l.length = 5)
  toneCheckIdx : GoodIdx 72 a.toneCheckIdx
  toneCheckValue : a.toneCheckValue < 2 ^ a.toneCheckIdx.length
  toneIdIdx : GoodIdx 72 a.toneIdIdx
  toneIdLen : a.toneIdIdx.length = 8
  toneAmpIdx : GoodIdx 72 a.toneAmpIdx
  toneAmpLen : a.toneAmpIdx.length = 7
  toneClassLen : a.toneClass.length = 256
  dgain : 2 ^ a.gainIdx.length ≤ a.dgain.length
  vuv : 2 ^ a.vuvIdx.length ≤ a.vuv.length
  vuvRow : ∀ row ∈ a.vuv, row.length = 8
  jblock : GoodBlocks 4 a.jblock
  hocLen : a.hoc.length = 4
  hoc : ∀ i, i < 4 → 2 ^ (a.hocIdx.getD i []).length ≤ (a.hoc.getD i []).length
    ∧ ∀ row ∈ a.hoc.getD i [], 2 ≤ row.length ∧ row.length ≤ 4
  smooth : a.smoothCoset < a.cosets.length
  mpDefault : GoodDefault a.mpDefault

theorem ambe_legal {rom : Rom} {a : AmbeRom} (h : AmbeRom.legal rom a = true) : GoodAmbe rom a := by
  simp only [AmbeRom.legal, Bool.and_eq_true, Bool.or_eq_true, decide_eq_true_eq, List.all_eq_true, List.mem_range,
    idxListOk_iff, mpDefaultOk_iff, harmonicsOk_iff, jblockOk_iff, cosetsOk_iff] at h
  obtain ⟨⟨⟨⟨⟨⟨⟨⟨⟨⟨⟨⟨⟨⟨⟨⟨⟨⟨⟨⟨⟨⟨⟨⟨⟨⟨⟨⟨⟨⟨⟨h1, h2⟩, h3⟩, h4⟩, h5⟩, h6⟩, h7⟩, h8⟩, h9⟩, h10⟩, h11⟩, h12⟩, h13⟩, h14⟩, h15⟩, h16⟩,
    h17⟩, h18⟩, h19⟩, h20⟩, h21⟩, h22⟩, h23⟩, h24⟩, h25⟩, h26⟩, h27⟩, h28⟩, h29⟩, h30⟩, h31⟩, h32⟩ := h
  exact ⟨h1, h2, ⟨h3, h4⟩, h5, h6, h7, h8, h9, h10, h11, h12, h13, h14, h15, h16, h17, h18, h19, h20, h21, h22, h23,
    h24, h25, h26, h27, h28, h29, h30, h31, h32⟩

/-- What `imbeLayoutOk` says. -/
structure GoodLayout (tableLen k : Nat) (f : ImbeLayout) : Prop where
  lists : ∀ l ∈ f.gainIdx :: (f.gainQ ++ f.vuv ++ f.hocQ), l.length ≤ 32 ∧ ∀ i ∈ l, i < 144
  gain : 2 ^ f.gainIdx.length ≤ tableLen
  gainQ : f.gainQ.length = 5
  vuv : f.vuv.length = k
  vuvOne : ∀ l ∈ f.vuv, l.length = 1

theorem imbeLayoutOk_iff {n k : Nat} {f : ImbeLayout} : imbeLayoutOk n k f = true ↔ GoodLayout n k f := by
  simp only [imbeLayoutOk, Bool.and_eq_true, decide_eq_true_eq, List.all_eq_true]
  exact ⟨fun ⟨⟨⟨⟨a, b⟩, c⟩, d⟩, e⟩ => ⟨a, b, c, d, e⟩, fun ⟨a, b, c, d, e⟩ => ⟨⟨⟨⟨a, b⟩, c⟩, d⟩, e⟩⟩

/-- What `imbeBandsOk` says. -/
structure GoodBands (m : ImbeRom) (r : Nat) : Prop where
  pos : 1 ≤ m.bandCount.getD r 0
  table : m.bandCount.getD r 0 ≤ m.vuvBand.length
  row : r + 9 ≤ (m.vuvBand.getD (m.bandCount.getD r 0 - 1) []).length
  band : ∀ b ∈ m.vuvBand.getD (m.bandCount.getD r 0 - 1) [], 1 ≤ b ∧ b ≤ m.bandCount.getD r 0

theorem imbeBandsOk_iff {m : ImbeRom} {r : Nat} : imbeBandsOk m r = true ↔ GoodBands m r := by
  simp only [imbeBandsOk, Bool.and_eq_true, decide_eq_true_eq, List.all_eq_true]
  exact ⟨fun ⟨⟨⟨a, b⟩, c⟩, d⟩ => ⟨a, b, c, d⟩, fun ⟨a, b, c, d⟩ => ⟨⟨⟨a, b⟩, c⟩, d⟩⟩

/-- What `ImbeRom.legal` says. -/
structure GoodImbe (rom : Rom) (m : ImbeRom) : Prop where
  ffLen : m.ff.length = 208
  ff : ∀ row ∈ m.ff, GoodRow row
  sentinel : GoodRow m.sentinel
  mapLen : m.cosetMap.length = 144
  mapInside : ∀ i ∈ m.cosetMap, i < 144
  mapNodup : m.cosetMap.Nodup
  cosets : GoodCosets rom 144 .code23 m.cosets
  later : laterCosetUses .code15 m.cosets = true
  w0Idx : GoodIdx 144 m.w0Idx
  w0Len : m.w0Idx.length = 8
  fieldsLen : m.fields.length = 48
  bandCountLen : m.bandCount.length = 48
  layout : ∀ r, r < 48 → GoodLayout m.gainTable.length (m.bandCount.getD r 0) (m.fields.getD r default)
  bands : ∀ r, r < 48 → GoodBands m r
  jblock : GoodBlocks 6 m.jblock
  smooth : m.smoothCoset < m.cosets.length
  mpDefault : GoodDefault m.mpDefault
  sentinelCount : m.sentinel.harmonicCount = m.mpDefault.fundamentalFrequency.harmonicCount

theorem imbe_legal {rom : Rom} {m : ImbeRom} (h : ImbeRom.legal rom m = true) : GoodImbe rom m := by
  simp only [ImbeRom.legal, Bool.and_eq_true, decide_eq_true_eq, List.all_eq_true, List.mem_range,
    idxListOk_iff, mpDefaultOk_iff, harmonicsOk_iff, jblockOk_iff, cosetsOk_iff, imbeLayoutOk_iff, imbeBandsOk_iff] at h
  obtain ⟨⟨⟨⟨⟨⟨⟨⟨⟨⟨⟨⟨⟨⟨⟨⟨h1, h2⟩, h3⟩, h4⟩, h5⟩, h6⟩, h7⟩, h8⟩, h9⟩, h10⟩, h11⟩, h12⟩, h13⟩, h14⟩, h15⟩, h16⟩, h17⟩ := h
  exact ⟨h1, h2, h3, h4, h5, h6, h7, h8, h9, h10, h11, h12, fun r hr => (h13 r hr).1, fun r hr => (h13 r hr).2, h14, h15, h16,
    h17⟩

/-- What `codeShapeOk` says. -/
structure GoodShape (n k : Nat) (c : BlockCode) : Prop where
  length : c.n = n
  data : c.k = k
  words : c.cw.length = 2 ^ k
  systematic : codeSystematic (n - k) 0 c.cw = true
  sentinel : c.sentinel < 32

theorem codeShapeOk_iff {n k : Nat} {c : BlockCode} : codeShapeOk n k c = true ↔ GoodShape n k c := by
  simp only [codeShapeOk, Bool.and_eq_true, decide_eq_true_eq]
  exact ⟨fun ⟨⟨⟨⟨a, b⟩, d⟩, e⟩, f⟩ => ⟨a, b, d, e, f⟩, fun ⟨a, b, d, e, f⟩ => ⟨⟨⟨⟨a, b⟩, d⟩, e⟩, f⟩⟩

theorem codeSystematic_getD {shift d : Nat} {ws : List Nat} (h : codeSystematic shift d ws = true) {i : Nat}
    (hi : i < ws.length) : ws.getD i 0 >>> shift = d + i := by
  induction ws generalizing d i with
  | nil => simp at hi
  | cons w ws ih =>
    simp only [codeSystematic, Bool.and_eq_true, decide_eq_true_eq] at h
    cases i with
    | zero => simpa using h.1
    | succ i =>
      have := ih h.2 (i := i) (by simpa using hi)
      simp only [List.getD_cons_succ]
      omega

/-- What `Rom.legal` says. -/
structure GoodRom (rom : Rom) : Prop where
  code24 : GoodShape 24 12 rom.code24
  code23 : GoodShape 23 12 rom.code23
  code15 : GoodShape 15 11 rom.code15
  ambe : GoodAmbe rom rom.ambe
  imbe : GoodImbe rom rom.imbe
  codes : allCodesUsed (rom.ambe.cosets ++ rom.imbe.cosets) = true

theorem rom_legal {rom : Rom} (h : rom.legal = true) : GoodRom rom := by
  simp only [Rom.legal, Bool.and_eq_true, codeShapeOk_iff] at h
  exact ⟨h.1.1.1.1.1, h.1.1.1.1.2, h.1.1.1.2, ambe_legal h.1.1.2, imbe_legal h.1.2, h.2⟩

/-- The parameter set a reset installs is in range. -/
theorem mpDefault_good {rom : Rom} (h : rom.legal = true) (c : Codec) : GoodDefault (rom.mpDefault c) := by
  cases c
  · exact (rom_legal h).ambe.mpDefault
  · exact (rom_legal h).imbe.mpDefault

/-- The cosets of either codec. -/
theorem cosets_good {rom : Rom} (h : rom.legal = true) (c : Codec) : ∃ first, GoodCosets rom (frameBits c) first (rom.cosets c) := by
  cases c
  · exact ⟨_, (rom_legal h).ambe.cosets⟩
  · exact ⟨_, (rom_legal h).imbe.cosets⟩

end Sys2Proof.Machine
end

