-- ==== Sys2Proof/Laws/FrameDecoder.lean ====
section
/-! SUPPORT. The loops of the Frame Decoder, each said once: gathering (R121), masking (R124), correcting (R125), reading
index lists (R134), and what `FF.LOOKUP` finds in legal tables (R129). -/

namespace Sys2Proof.Machine

/-- The loop of R121 inside its range. -/
theorem gather_ok {map : List Nat} {f : Frame} (h : ∀ i ∈ map, i < f.length) : ∀ n j : Nat, j + n ≤ map.length →
    ∃ g, gather map f n j = .ok g ∧ g.length = n
      ∧ ∀ k, k < n → g.getD k false = f.getD (map.getD (j + k) 0) false
  | 0, _, _ => ⟨[], rfl, rfl, by simp⟩
  | n + 1, j, hj => by
    have hm : map.getD j 0 < f.length := h _ (by
      rw [List.getD_eq_getElem _ _ (by omega : j < map.length)]; exact List.getElem_mem _)
    have hb : getBit f (map.getD j 0 : Nat) = .ok (f.getD (map.getD j 0) false) := by
      rw [getBit_ok (by omega), Int.toNat_natCast]
    obtain ⟨g, hg, hl, hk⟩ := gather_ok h n (j + 1) (by omega)
    refine ⟨f.getD (map.getD j 0) false :: g, ?_, by simp [hl], fun k hk' => ?_⟩
    · simp only [gather, readTable_lt (show j < map.length by omega) 0, hb, hg]
    · cases k with
      | zero => simp
      | succ k => rw [List.getD_cons_succ, hk k (by omega)]; congr 2; omega

/-- The loop of R121 gives one bit a position. -/
theorem gather_length {map : List Nat} {f g : Frame} : ∀ {n j : Nat}, gather map f n j = .ok g → g.length = n
  | 0, _, h => by cases h; rfl
  | n + 1, j, h => by
    rw [gather] at h
    split at h <;> [cases h; skip]
    split at h <;> [cases h; skip]
    split at h
    · cases h
    · next bs hb => cases h; simp [gather_length hb]

theorem lcg_iter_succ (k x : Nat) : (fun x => (173 * x + 13849) % 65536)^[k + 1] x = (fun x => (173 * x + 13849) % 65536)^[k] (lcgNext x).1 := rfl

/-- The mask of one coset (R124): the generator's bits from `p` on, nothing else. -/
theorem maskCoset_ok : ∀ (n seed : Nat) (g : Frame) (p : Nat), p + n ≤ g.length →
   ∃ seed' g', maskCoset n seed g p = .ok (seed', g') ∧ g'.length = g.length ∧ seed' = (fun x => (173 * x + 13849) % 65536)^[n] seed ∧
     ∀ q, g'.getD q false = if p ≤ q ∧ q < p + n then decide (32768 ≤ (fun x => (173 * x + 13849) % 65536)^[q - p + 1] seed) else g.getD q false
  | 0, seed, g, p, _ => ⟨seed, g, rfl, rfl, rfl, fun q => by rw [if_neg (by omega)]⟩
  | n+1, seed, g, p, h => by
    have hp : (0:Int) ≤ p ∧ (p:Int) < g.length := by omega
    obtain ⟨s', g', h1, h2, h3, h4⟩ := maskCoset_ok n (lcgNext seed).1 (g.set p (lcgNext seed).2) (p+1) (by simp; omega)
    refine ⟨s', g', ?_, by simpa using h2, ?_, ?_⟩
    · simp only [maskCoset, putBit_ok hp, Int.toNat_natCast]; exact h1
    · rw [lcg_iter_succ, h3]
    · intro q; rw [h4 q, set_getD _ _ _ _ (by omega)]
      by_cases hq : q = p
      · subst hq; simp [lcgNext]
      · simp only [hq, if_false]
        by_cases hr : p + 1 ≤ q ∧ q < p + 1 + n
        · rw [if_pos hr, if_pos (by omega)]
          have : q - p + 1 = (q - (p+1) + 1) + 1 := by omega
          rw [this, lcg_iter_succ (q - (p+1) + 1)]
        · rw [if_neg hr, if_neg (by omega)]

/-- The mask of a chain of cosets (R124): one stream through all of them. -/
theorem maskCosets_ok {rom : Rom} : ∀ (cs : List Coset) (off seed : Nat) (g : Frame), cosetChain rom off cs = true → off + (cs.map (·.n)).sum ≤ g.length →
   ∃ g', maskCosets cs seed g = .ok g' ∧ g'.length = g.length ∧
     ∀ q, g'.getD q false = if off ≤ q ∧ q < off + (cs.map (·.n)).sum then decide (32768 ≤ (fun x => (173 * x + 13849) % 65536)^[q - off + 1] seed) else g.getD q false
  | [], off, seed, g, _, _ => ⟨g, rfl, rfl, fun q => by rw [if_neg (by simp)]⟩
  | c :: cs, off, seed, g, hch, hl => by
    simp only [cosetChain, Bool.and_eq_true, decide_eq_true_eq] at hch
    simp only [List.map_cons, List.sum_cons] at hl ⊢
    obtain ⟨s', g', h1, h2, h3, h4⟩ := maskCoset_ok c.n seed g c.off (by omega)
    obtain ⟨g'', k1, k2, k3⟩ := maskCosets_ok cs (off + c.n) s' g' hch.2 (by omega)
    refine ⟨g'', by simp only [maskCosets, h1]; exact k1, by omega, fun q => ?_⟩
    rw [k3, h4, hch.1.1.1]
    by_cases hq : off + c.n ≤ q ∧ q < off + c.n + (cs.map (·.n)).sum
    · rw [if_pos hq, if_pos (by omega), h3, ← Function.iterate_add_apply]
      have : q - (off + c.n) + 1 + c.n = q - off + 1 := by omega
      rw [this]
    · rw [if_neg hq]
      by_cases hq2 : off ≤ q ∧ q < off + c.n
      · rw [if_pos hq2, if_pos (by omega)]
      · rw [if_neg hq2, if_neg (by omega)]

theorem chain_tail {rom : Rom} {c : Coset} {cs : List Coset} (h : cosetChain rom 0 (c :: cs) = true) : c.off = 0 ∧ cosetChain rom c.n cs = true := by
  simp only [cosetChain, Bool.and_eq_true, decide_eq_true_eq] at h
  exact ⟨h.1.1.1, by simpa using h.2⟩

/-- The loop of R125 over a chain: each coset is corrected as it stood, its count written, nothing else changed. -/
theorem correctCosets_ok {rom : Rom} : ∀ (cs : List Coset) (off i : Nat) (f0 f : Frame) (e : List (BitVec 8)), cosetChain rom off cs = true → off + (cs.map (·.n)).sum ≤ f.length → i + cs.length ≤ 7 → f0.length = f.length →
   (∀ p, off ≤ p → f.getD p false = f0.getD p false) →
   ∃ f' e', correctCosets rom cs i f e = .ok (f', e') ∧ f'.length = f.length ∧
     (∀ j, j < i ∨ i + cs.length ≤ j → j < 7 → e'.getD j 0 = e.getD j 0) ∧
     (∀ (j : Nat) (d : Coset), cs[j]? = some d →
            ∃ g count, eccCorrect (rom.code d.code) f0 d.off = .ok (g, count)
              ∧ e'.getD (i + j) 0 = BitVec.ofNat 8 count
              ∧ ∀ p, d.off ≤ p → p < d.off + d.n → f'.getD p false = g.getD p false) ∧
     ∀ p, p < off ∨ off + (cs.map (·.n)).sum ≤ p → f'.getD p false = f.getD p false
  | [], off, i, f0, f, e, _, _, _, _, _ => ⟨f, e, rfl, rfl, fun _ _ _ => rfl, by simp, fun _ _ => rfl⟩
  | c :: cs, off, i, f0, f, e, hch, hl, hi, h0, hag => by
    simp only [cosetChain, Bool.and_eq_true, decide_eq_true_eq] at hch
    simp only [List.map_cons, List.sum_cons, List.length_cons] at hl hi ⊢
    obtain ⟨⟨⟨c1, c2⟩, -⟩, c4⟩ := hch
    obtain ⟨g0, g, count, hg0, hg, hag0⟩ := eccCorrect_local (c := rom.code c.code) (f := f0) (f' := f) (o := c.off) (by omega) (by omega) (fun j hj => hag _ (by omega))
    obtain ⟨g', cnt', hg', gl, gout, -⟩ := eccCorrect_ok (c := rom.code c.code) (f := f) (o := c.off) (by omega)
    rw [hg] at hg'; injection hg' with hg'; injection hg' with e1 e2; subst e1 e2
    obtain ⟨f', e', k1, k2, k3, k4, k5⟩ := correctCosets_ok cs (off + c.n) (i+1) f0 g (setArr 7 0 e i (BitVec.ofNat 8 count)) c4 (by omega) (by omega) (by omega) (fun p hp => by rw [gout p (by omega)]; exact hag p (by omega))
    refine ⟨f', e', by simp only [correctCosets, hg]; exact k1, by omega, ?_, ?_, ?_⟩
    · intro j hj hj7; rw [k3 j (by omega) hj7, setArr_getD, if_pos hj7, if_neg (by omega)]
    · intro j d hd
      cases j with
      | zero =>
        simp at hd; subst hd
        refine ⟨g0, count, hg0, ?_, fun p hp1 hp2 => ?_⟩
        · rw [Nat.add_zero, k3 i (by omega) (by omega), setArr_getD, if_pos (by omega), if_pos rfl]
        · rw [k5 p (by omega)]
          have := hag0 (p - c.off) (by omega)
          rwa [show c.off + (p - c.off) = p by omega] at this
      | succ j =>
        obtain ⟨g2, cnt2, m1, m2, m3⟩ := k4 j d (by simpa using hd)
        exact ⟨g2, cnt2, m1, by rw [← m2]; congr 1; omega, m3⟩
    · intro p hp
      rw [k5 p (by omega), gout p (by omega)]

theorem extractRom_good {wf : Frame} {bits : Nat} {l : List Nat} (hg : GoodIdx bits l) (hlen : wf.length = bits) :
   ∃ v, extractRom wf l = .ok v ∧ v < 2 ^ l.length
      ∧ ∀ k, k < l.length → v.testBit (l.length - 1 - k) = wf.getD (l.getD k 0) false :=
  extractRom_ok hg.max (fun i hi => by rw [hlen]; exact hg.inside i hi)

theorem extractRom_lt {f : Frame} {l : List Nat} {v : Nat} (hm : l.length ≤ 32) (h : ∀ i ∈ l, i < f.length) (hv : extractRom f l = .ok v) : v < 2 ^ l.length := by
  obtain ⟨w, h1, h2, -⟩ := extractRom_ok hm h
  rw [hv] at h1; injection h1 with h1; rwa [h1]

/-- Several index lists (R134). -/
theorem extractAll_ok {f : Frame} : ∀ ls : List (List Nat), (∀ l ∈ ls, l.length ≤ 32 ∧ ∀ i ∈ l, i < f.length) →
   ∃ vs, extractAll f ls = .ok vs ∧ vs.length = ls.length ∧ ∀ i, i < ls.length → extractRom f (ls.getD i []) = .ok (vs.getD i 0)
  | [], _ => ⟨[], rfl, rfl, by simp⟩
  | l :: ls, h => by
    obtain ⟨v, hv, -⟩ := extractRom_ok (h l (by simp)).1 (h l (by simp)).2
    obtain ⟨vs, h1, h2, h3⟩ := extractAll_ok ls (fun l hl => h l (by simp [hl]))
    refine ⟨v :: vs, by simp only [extractAll, hv, h1], by simp [h2], fun i hi => ?_⟩
    cases i with
    | zero => simpa using hv
    | succ i => simpa using h3 i (by simpa using hi)

/-- As many values as lists (R134). -/
theorem extractAll_length {f : Frame} : ∀ {ls : List (List Nat)} {vs : List Nat}, extractAll f ls = .ok vs → vs.length = ls.length
  | [], _, h => by cases h; rfl
  | l :: ls, _, h => by
    rw [extractAll] at h
    split at h <;> [cases h; skip]
    split at h <;> [cases h; skip]
    next h2 => cases h; simp [extractAll_length h2]

/-- The classes of R68. -/
theorem ambeType_cases (v : Nat) (hv : v ≤ 127) : (ambeFrameType v = .voice ↔ v ≤ 119) ∧ (ambeFrameType v = .erasure ↔ 120 ≤ v ∧ v ≤ 123)
          ∧ (ambeFrameType v = .silence ↔ 124 ≤ v ∧ v ≤ 125) ∧ (ambeFrameType v = .tone ↔ 126 ≤ v) := by
  unfold ambeFrameType; split_ifs <;> simp <;> omega

/-- An entry of a decoded type has a legal harmonic count; an AMBE entry is never `INVALID`. -/
theorem ffFind_good {rom : Rom} (h : rom.legal = true) {c : Codec} {v : Int} {e : FFEntry MReal} (he : ffFind rom c v = .ok e) :
    (decodedType e.frameType → harmonicRange e.harmonicCount) ∧ (c = .ambe → e.frameType ≠ .invalid) := by
  have G := rom_legal h
  cases c with
  | ambe =>
    simp only [ffFind] at he
    split at he <;> [skip; cases he]
    next hv =>
    rw [except_map_ok] at he
    obtain ⟨row, hr, rfl⟩ := he
    have hlen : v.toNat < rom.ambe.ff.length := by rw [G.ambe.ffLen]; omega
    rw [readTable_lt hlen default] at hr
    injection hr with hr
    simp only [ffEntry]
    refine ⟨fun hd => ?_, fun _ => by unfold ambeFrameType; split_ifs <;> simp⟩
    rw [← hr]
    unfold ambeFrameType at hd
    split_ifs at hd with h1 h2 h3
    · exact G.ambe.ffVoice _ (by omega)
    · rcases hd with hd | hd <;> cases hd
    · have : v.toNat = 124 ∨ v.toNat = 125 := by omega
      rcases this with e | e <;> rw [e]
      · exact G.ambe.ffSilence.1
      · exact G.ambe.ffSilence.2
    · rcases hd with hd | hd <;> cases hd
  | imbe =>
    simp only [ffFind] at he
    refine ⟨fun hd => ?_, by simp⟩
    split at he
    · rw [except_map_ok] at he
      obtain ⟨row, hr, rfl⟩ := he
      exact G.imbe.ff _ (by rw [readTable_ok] at hr; exact List.mem_of_getElem? hr)
    · injection he with he; subst he; exact G.imbe.sentinel

/-- Under a legal ROM `FF.LOOKUP` of an index W0IDX can extract never raises. -/
theorem ffFind_total {rom : Rom} (h : rom.legal = true) (c : Codec) (v : Nat) (hv : c = .ambe → v ≤ 127) :
    ∃ e, ffFind rom c v = .ok e := by
  have G := rom_legal h
  cases c with
  | ambe =>
    have := hv rfl
    refine ⟨ffEntry (v:Int).toNat (ambeFrameType (v:Int).toNat) (rom.ambe.ff.getD (v:Int).toNat default), ?_⟩
    simp only [ffFind]; rw [if_pos (by omega), readTable_lt (by rw [G.ambe.ffLen]; omega) default]; rfl
  | imbe =>
    simp only [ffFind]
    split
    · refine ⟨ffEntry (v:Int).toNat .voice (rom.imbe.ff.getD (v:Int).toNat default), ?_⟩
      rw [readTable_lt (by rw [G.imbe.ffLen]; omega) default]; rfl
    · exact ⟨_, rfl⟩

theorem w0Idx_good {rom : Rom} (h : rom.legal = true) (c : Codec) : GoodIdx (frameBits c) (rom.w0Idx c) ∧ (c = .ambe → (rom.w0Idx c).length = 7) ∧ (c = .imbe → (rom.w0Idx c).length = 8) := by
  have G := rom_legal h
  cases c
  · exact ⟨G.ambe.w0Idx, fun _ => G.ambe.w0Len, by simp⟩
  · exact ⟨G.imbe.w0Idx, by simp, fun _ => G.imbe.w0Len⟩

/-- The three outcomes of R130 to R132. -/
theorem toneClassify_cases (tc : Bool) (table : FrameType) (high : Bool) :
   (toneClassify tc table high).1 = .erasure ∨ (toneClassify tc table high).1 = .tone ∨ (toneClassify tc table high).1 = table := by
  unfold toneClassify; split_ifs <;> simp

/-- A hex string whose digits are the bytes' nibbles gives the bytes (R72). -/
theorem hexBytes_of (bytes : List Byte) : ∀ chars : List Byte, chars.length = 2 * bytes.length → 
    (∀ k, k < bytes.length →
            hexDigit (chars.getD (2 * k) 0) = some ((bytes.getD k 0).toNat / 16)
            ∧ hexDigit (chars.getD (2 * k + 1) 0) = some ((bytes.getD k 0).toNat % 16)) → hexBytes chars = some bytes := by
  induction bytes with
  | nil => intro chars h _; simp at h; subst h; rfl
  | cons b bs ih =>
    intro chars h hk
    match chars, h with
    | [], h => simp at h
    | [_], h => simp at h; omega
    | hi :: lo :: rest, h =>
      have h0 := hk 0 (by simp)
      simp at h0
      have hr := ih rest (by simp at h; omega) (fun k hk' => by
        have := hk (k+1) (by simpa using hk')
        have e1 : 2 * (k+1) = 2*k+1+1 := by ring
        rw [e1] at this
        simpa using this)
      simp only [hexBytes, h0.1, h0.2, hr, Option.some.injEq, List.cons.injEq, and_true]
      apply BitVec.eq_of_toNat_eq
      simp; have := b.isLt; omega

end Sys2Proof.Machine
end

