-- ==== Sys2Proof/Laws/Parameters.lean ====
section
/-! SUPPORT. The loops of the Model Parameter Decoder and the noise generator, each said once. -/

namespace Sys2Proof.Machine

/-- A frame that does not repeat is no erasure, and no invalid IMBE frame (R145). -/
theorem repeatCheck_false {c : Codec} {ft : FrameType} {e0 eT : Nat} {r : MReal}
   (h : repeatCheck (N := numerics) c ft e0 eT r = false) : ft ≠ .erasure ∧ (c = .imbe → ft ≠ .invalid) := by
  simp only [repeatCheck, Bool.or_eq_false_iff, Bool.and_eq_false_iff, decide_eq_false_iff_not] at h
  exact ⟨h.1.1.1.1, fun hc => by rcases h.2 with h | h; exact absurd hc h; exact h⟩

/-- The voicing flags of R155 where every band exists. -/
theorem ambeVoicing_ok {row : List Bool} {w0 : MReal} : ∀ ls : List Nat, (∀ l ∈ ls, 0 ≤ bandIndex (N := numerics) w0 l ∧ bandIndex (N := numerics) w0 l < row.length) →
   ambeVoicing row w0 ls = .ok (ls.map (fun l => row.getD (bandIndex (N := numerics) w0 l).toNat false))
  | [], _ => rfl
  | l :: ls, h => by
    simp only [ambeVoicing, readBand, if_pos (h l (by simp)), ambeVoicing_ok ls (fun l hl => h l (by simp [hl]))]; rfl

/-- The first harmonic whose band lies outside the voicing vector raises `CodebookIndex` with that band (R155, R168). -/
theorem ambeVoicing_error {row : List Bool} {w0 : MReal} {l : Nat} (post : List Nat)
    (hl : ¬(0 ≤ bandIndex (N := numerics) w0 l ∧ bandIndex (N := numerics) w0 l < row.length)) : ∀ pre : List Nat,
    (∀ k ∈ pre, 0 ≤ bandIndex (N := numerics) w0 k ∧ bandIndex (N := numerics) w0 k < row.length) →
      ambeVoicing row w0 (pre ++ l :: post) = .error ⟨.codebookIndex, bandIndex (N := numerics) w0 l⟩
  | [], _ => by simp only [List.nil_append, ambeVoicing, readBand, if_neg hl]
  | k :: ks, h => by
    simp only [List.cons_append, ambeVoicing, readBand, if_pos (h k (by simp)),
      ambeVoicing_error post hl ks (fun j hj => h j (by simp [hj]))]

/-- The harmonics `1 .. lc` split at `l`. -/
theorem harmonics_split {lc l : Nat} (h1 : 1 ≤ l) (h2 : l ≤ lc) :
    ∃ pre post, harmonics lc = pre ++ l :: post ∧ ∀ k ∈ pre, 1 ≤ k ∧ k < l := by
  refine ⟨harmonics (l - 1), tab (lc - l) (fun i => l + 1 + i), ?_, fun k hk => ?_⟩
  · apply List.ext_getElem
    · simp [harmonics]; omega
    · intro i hi hi'
      simp only [harmonics, tab, List.getElem_map, List.getElem_range]
      by_cases hlt : i < l - 1
      · rw [List.getElem_append_left (by simpa using hlt)]; simp
      · rw [List.getElem_append_right (by simpa using hlt)]
        simp only [List.length_map, List.length_range]
        by_cases he : i = l - 1
        · subst he; simp; omega
        · obtain ⟨d, hd⟩ : ∃ d, i - (l - 1) = d + 1 := ⟨i - (l - 1) - 1, by omega⟩
          simp only [hd, List.getElem_cons_succ, List.getElem_map, List.getElem_range]; omega
  · simp only [harmonics, mem_tab] at hk
    obtain ⟨i, hi, rfl⟩ := hk
    omega

/-- The voicing flags of R156 where every band exists. -/
theorem imbeVoicing_ok {row vuv : List Nat} : ∀ ls : List Nat, (∀ l ∈ ls, 1 ≤ l ∧ l ≤ row.length) → (∀ b ∈ row, 1 ≤ b ∧ b ≤ vuv.length) →
   imbeVoicing row vuv ls = .ok (ls.map (fun l => decide (vuv.getD (row.getD (l-1) 0 - 1) 0 = 1)))
  | [], _, _ => rfl
  | l :: ls, h, hb => by
    have hl := h l (by simp)
    have h1 : readFrom 1 row l = .ok (row.getD (l-1) 0) := readFrom_lt hl.1 (by omega) 0
    have hm : row.getD (l-1) 0 ∈ row := by
      rw [List.getD_eq_getElem _ _ (by omega)]; exact List.getElem_mem _
    have h2 : readFrom 1 vuv (row.getD (l-1) 0) = .ok (vuv.getD (row.getD (l-1) 0 - 1) 0) := readFrom_lt (hb _ hm).1 (by have := hb _ hm; omega) 0
    simp only [imbeVoicing, h1, h2, imbeVoicing_ok ls (fun l hl => h l (by simp [hl])) hb]; rfl

theorem voicingArray_getD (lc : Nat) (vs : List Bool) (l : Nat) (h56 : lc ≤ 56) :
   (voicingArray lc vs).getD l false = (decide (1 ≤ l) && decide (l ≤ lc) && vs.getD (l - 1) false) := by
  unfold voicingArray
  rw [tab_getD]
  by_cases h : l < phaseLen
  · rw [if_pos h]
  · have : ¬ l ≤ lc := by simp only [phaseLen] at h; omega
    simp [this]

theorem harm_getD (lc : Nat) (f : Nat → Bool) (l : Nat) (h1 : 1 ≤ l) (h2 : l ≤ lc) : ((harmonics lc).map f).getD (l-1) false = f l := by
  simp [harmonics, tab, List.getD, show l - 1 < lc by omega]
  congr 1; omega

theorem jblock_good {rom : Rom} (h : rom.legal = true) (c : Codec) : GoodBlocks (njblock c) (rom.jblock c) := by
  cases c
  · exact (rom_legal h).ambe.jblock
  · exact (rom_legal h).imbe.jblock

/-- The coefficients of one block (R158). -/
theorem blockCoefs_ok (s : State) (i j : Nat) (h1 : 1 ≤ i) (hlen : s.codec = .ambe → i ≤ s.rom.ambe.hoc.length)
   (hh : s.codec = .ambe → 2 < j → s.work.fld.hocIdx.getD (i-1) 0 < (s.rom.ambe.hoc.getD (i-1) []).length) :
   ∃ c, blockCoefs s i j = .ok c ∧ c.length = j ∧
    (s.codec = .ambe → ∀ k, 1 ≤ k → k ≤ j → c.getD (k - 1) (.int 0)
              = if k ≤ 2 then Config.blockLead .ambe i k s.work.rg
                else (((s.rom.ambe.hoc.getD (i-1) []).getD (s.work.fld.hocIdx.getD (i-1) 0) []).getD (k - 3) (.int 0))) ∧
    (s.codec = .imbe → ∀ k, 1 ≤ k → k ≤ j → c.getD (k - 1) (.int 0)
              = if k ≤ leadLength .imbe i s.work.rg then Config.blockLead .imbe i k s.work.rg
                else Config.hocCoefImbe i k s.work.fld.hocQ s.work.ff.harmonicCount) := by
  have hc : s.codec = .ambe ∨ s.codec = .imbe := by cases s.codec <;> simp
  rcases hc with hc | hc
  · have hlen := hlen hc
    by_cases hj : j ≤ 2
    · refine ⟨tab j (fun k0 => romFns.blockLead s.codec i (k0+1) s.work.rg), by simp only [blockCoefs, hc, leadLength]; rw [if_pos hj], by simp, fun _ k h1 h2 => ?_, by simp [hc]⟩
      rw [tab_getD_lt _ (by omega), if_pos (by omega), hc, show k - 1 + 1 = k by omega]; rfl
    · have hh := hh hc (by omega)
      set entry := (s.rom.ambe.hoc.getD (i-1) []).getD (s.work.fld.hocIdx.getD (i-1) 0) [] with he
      refine ⟨tab j (fun k0 => if k0 + 1 ≤ 2 then romFns.blockLead s.codec i (k0+1) s.work.rg else ambeHocCoef entry (k0 + 1)), ?_, by simp, fun _ k h1 h2 => ?_, by simp [hc]⟩
      · simp only [blockCoefs, hc, leadLength]; rw [if_neg hj]
        simp only [except_bind_ok]
        exact ⟨_, readFrom_lt h1 (by omega) [], entry, readTable_lt hh [], rfl⟩
      · rw [tab_getD_lt _ (by omega), show k - 1 + 1 = k by omega, hc]
        by_cases hk : k ≤ 2
        · rw [if_pos hk, if_pos hk]; rfl
        · rw [if_neg hk, if_neg hk, ambeHocCoef, if_pos (by omega)]; rfl
  · refine ⟨tab j (fun k0 => if k0 + 1 ≤ leadLength .imbe i s.work.rg then romFns.blockLead s.codec i (k0+1) s.work.rg else romFns.hocCoefImbe i (k0+1) s.work.fld.hocQ s.work.ff.harmonicCount), by simp only [blockCoefs, hc], by simp, by simp [hc], fun _ k h1 h2 => ?_⟩
    rw [tab_getD_lt _ (by omega), show k - 1 + 1 = k by omega, hc]; rfl

/-- The coefficients of every block (R158). -/
theorem allCoefs_ok (s : State) : ∀ (js : List Nat) (i : Nat), 1 ≤ i → (s.codec = .ambe → i + js.length ≤ s.rom.ambe.hoc.length + 1) →
   (s.codec = .ambe → ∀ n, n < js.length → 2 < js.getD n 0 →
     s.work.fld.hocIdx.getD (i+n-1) 0 < (s.rom.ambe.hoc.getD (i+n-1) []).length) →
   ∃ cs, allCoefs s i js = .ok cs ∧ cs.map List.length = js ∧ ∀ n, n < js.length → ∃ c, blockCoefs s (i+n) (js.getD n 0) = .ok c ∧ cs.getD n [] = c
  | [], _, _, _, _ => ⟨[], rfl, rfl, by simp⟩
  | j :: js, i, h1, hl, hh => by
    obtain ⟨c, hc, hcl, -⟩ := blockCoefs_ok s i j h1 (fun h => by have := hl h; simp at this; omega) (fun h h2 => by simpa using hh h 0 (by simp) (by simpa using h2))
    obtain ⟨cs, k1, k2, k3⟩ := allCoefs_ok s js (i+1) (by omega) (fun h => by have := hl h; simp at this; omega) (fun h n hn h2 => by
      have := hh h (n+1) (by simpa using hn) (by simpa using h2)
      rwa [show i + (n+1) - 1 = i + 1 + n - 1 by omega] at this)
    refine ⟨c :: cs, by simp only [allCoefs, hc, k1], by simp [hcl, k2], fun n hn => ?_⟩
    cases n with
    | zero => exact ⟨c, by simpa using hc, by simp⟩
    | succ n =>
      obtain ⟨c', e1, e2⟩ := k3 n (by simpa using hn)
      exact ⟨c', by rw [← e1]; congr 1; omega, by simpa using e2⟩

/-! ### The sizes of the blocks (R17, R157, R160) -/

/-- A block has as many coefficients as it is long. -/
theorem blockCoefs_length {s : State} {i j : Nat} {c : List MReal} (h : blockCoefs s i j = .ok c) : c.length = j := by
  unfold blockCoefs at h
  simp only at h
  split at h
  · cases h; exact tab_length ..
  · split at h
    · cases h; exact tab_length ..
    · simp only [except_bind_ok] at h
      obtain ⟨_, -, _, -, h⟩ := h
      cases h; exact tab_length ..

theorem allCoefs_lengths {s : State} : ∀ {js : List Nat} {i : Nat} {cs : List (List MReal)}, allCoefs s i js = .ok cs →
    cs.map List.length = js
  | [], _, _, h => by cases h; rfl
  | j :: js, i, cs, h => by
    rw [allCoefs] at h
    split at h <;> [cases h; skip]
    next c hc =>
    split at h <;> [cases h; skip]
    next ds hd => cases h; simp only [List.map_cons, blockCoefs_length hc, allCoefs_lengths hd]

theorem idct_length (xs : List MReal) : (idct (N := numerics) xs).length = xs.length := tab_length ..

/-- What RESID writes: the register `J` holds the row in six bits, and the blocks are as long as it says. -/
theorem residStage_sizes {s t : State} (h : residStage s = .ok t) :
    ∃ row, readFrom 9 (s.rom.jblock s.codec) s.work.ff.harmonicCount = .ok row
      ∧ t.work.jlen = (row.take (njblock s.codec)).map (BitVec.ofNat 6)
      ∧ t.work.coef.map List.length = t.work.jlen.map (·.toNat)
      ∧ t.work.tres.length = blockTotal t.work.jlen := by
  simp only [residStage, except_bind_ok] at h
  obtain ⟨row, hr, cs, hc, h⟩ := h
  cases h
  have hl := allCoefs_lengths hc
  refine ⟨row, hr, rfl, hl, ?_⟩
  change ((cs.map (idct (N := numerics))).flatten).length = _
  rw [List.length_flatten, List.map_map, blockTotal, ← hl]
  exact congrArg _ (List.map_congr_left fun xs _ => idct_length xs)

/-- A row that RESID reads from a legal table has `NJBLOCK` lengths (R282). -/
theorem jblock_row_length {rom : Rom} (h : rom.legal = true) {c : Codec} {l : Nat} {row : List Nat}
    (hr : readFrom 9 (rom.jblock c) l = .ok row) : row.length = njblock c := by
  unfold readFrom at hr
  split at hr <;> [skip; cases hr]
  split at hr <;> [skip; cases hr]
  next hi =>
    cases hr
    have hlt := (List.getElem?_eq_some_iff.mp hi).1
    have hg := jblock_good h c
    have := (hg.row _ (hg.count ▸ hlt)).1
    rwa [List.getD_eq_getElem?_getD, hi] at this

/-- A length of a legal table fits the six bits of `J[i]` (R17, R282). -/
theorem jblock_row_toNat {blocks : Nat} {rows : List (List Nat)} (h : GoodBlocks blocks rows) {r : Nat} (hr : r < 48) :
    ((rows.getD r []).map (BitVec.ofNat 6)).map (·.toNat) = rows.getD r [] := by
  rw [List.map_map]
  conv_rhs => rw [← List.map_id (rows.getD r [])]
  refine List.map_congr_left fun j hj => ?_
  have := List.le_sum_of_mem hj
  rw [(h.row r hr).2.2] at this
  simp only [Function.comp_apply, BitVec.toNat_ofNat, id_eq]
  exact Nat.mod_eq_of_lt (by omega)

/-- An AMBE block longer than its lead whose index is beyond its codebook raises `CodebookIndex` with it (R158, R168). -/
theorem blockCoefs_error {s : State} {i j : Nat} (hc : s.codec = .ambe) (h1 : 1 ≤ i) (hlen : i ≤ s.rom.ambe.hoc.length)
    (hj : 2 < j) (hh : (s.rom.ambe.hoc.getD (i-1) []).length ≤ s.work.fld.hocIdx.getD (i-1) 0) :
    blockCoefs s i j = .error ⟨.codebookIndex, s.work.fld.hocIdx.getD (i-1) 0⟩ := by
  simp only [blockCoefs, hc, leadLength]
  rw [if_neg (by omega), readFrom_lt h1 (by omega) [], except_ok_bind, readTable_ge hh]; rfl

/-- The first such block is the one reported. -/
theorem allCoefs_error {s : State} (hc : s.codec = .ambe) : ∀ (js : List Nat) (i n : Nat), 1 ≤ i →
    i + js.length ≤ s.rom.ambe.hoc.length + 1 → n < js.length → 2 < js.getD n 0 →
    (s.rom.ambe.hoc.getD (i+n-1) []).length ≤ s.work.fld.hocIdx.getD (i+n-1) 0 →
    (∀ k, k < n → 2 < js.getD k 0 → s.work.fld.hocIdx.getD (i+k-1) 0 < (s.rom.ambe.hoc.getD (i+k-1) []).length) →
      allCoefs s i js = .error ⟨.codebookIndex, s.work.fld.hocIdx.getD (i+n-1) 0⟩
  | [], _, _, _, _, hn, _, _, _ => by simp at hn
  | j :: js, i, 0, h1, hl, _, hj, hb, _ => by
    simp only [List.length_cons] at hl
    rw [allCoefs, blockCoefs_error hc h1 (by omega) (by simpa using hj) (by simpa using hb)]; rfl
  | j :: js, i, n + 1, h1, hl, hn, hj, hb, hk => by
    simp only [List.length_cons] at hl hn
    obtain ⟨c, h, -⟩ := blockCoefs_ok s i j h1 (fun _ => by omega) (fun _ h2 => by simpa using hk 0 (by omega) (by simpa using h2))
    have he : i + (n + 1) - 1 = i + 1 + n - 1 := by omega
    rw [he] at hb ⊢
    have ih := allCoefs_error hc js (i + 1) n (by omega) (by omega) (by omega) (by simpa using hj) hb (fun k h3 h4 => by
      have := hk (k + 1) (by omega) (by simpa using h4)
      rwa [show i + (k + 1) - 1 = i + 1 + k - 1 by omega] at this)
    simp only [allCoefs, h, ih]

theorem enhance_ff (free : Nat → MReal) (pe : MReal) (w : List MReal) (p : ModelParams MReal) :
  (enhanceParams (N := numerics) free pe w p).cmp.fundamentalFrequency = p.fundamentalFrequency ∧
  (enhanceParams (N := numerics) free pe w p).cmp.repeatCount = p.repeatCount := by
  unfold enhanceParams; simp only; split <;> exact ⟨rfl, rfl⟩

/-- The noise register stays below 53125 (R200). -/
theorem noiseNext_le (r : Nat) : noiseNext r ≤ 53124 := Nat.le_of_lt_succ (Nat.mod_lt _ (by norm_num))

theorem noiseRun_length (k r : Nat) : (noiseRun k r).length = k := by
  induction k generalizing r with
  | zero => rfl
  | succ k ih => simp [noiseRun, ih]

theorem noiseRun_le (k r : Nat) : ∀ x ∈ noiseRun k r, x ≤ 53124 := by
  induction k generalizing r with
  | zero => simp [noiseRun]
  | succ k ih => 
    intro x hx; simp only [noiseRun, List.mem_cons] at hx
    rcases hx with hx | hx
    · rw [hx]; exact noiseNext_le _
    · exact ih _ _ hx

theorem noiseIter_le (k r : Nat) (h : r ≤ 53124) : noiseIter k r ≤ 53124 := by
  induction k generalizing r with
  | zero => simpa only [noiseIter] using h
  | succ k ih => simpa only [noiseIter] using ih _ (noiseNext_le r)

theorem noiseRun_getD : ∀ (k r i : Nat), i < k → (noiseRun k r).getD i 0 = (fun x => (171 * x + 11213) % 53125)^[i + 1] r
  | 0, _, _, h => by omega
  | k+1, r, 0, _ => rfl
  | k+1, r, i+1, h => by
    simp only [noiseRun, List.getD_cons_succ]
    rw [noiseRun_getD k _ i (by omega)]; rfl

theorem noiseIter_eq : ∀ (k r : Nat), noiseIter k r = (fun x => (171 * x + 11213) % 53125)^[k] r
  | 0, _ => rfl
  | k+1, r => by rw [noiseIter, noiseIter_eq]; rfl

end Sys2Proof.Machine
end

