-- ==== Sys2Proof/Laws/PerInstr.lean ====
section
/-! SUPPORT. The per-instruction family `HeadWord`: the words of an instruction begin with its command word (R60) or its
micro-op id (R75), a command word has its six high bits clear (R61), and an id lies in R75's ranges. -/

namespace Sys2Proof.Laws.HeadWord

/-- A word an instruction may begin with: a command word of R60, or an id of R75. -/
def LegalHead : CodeWord → Prop
  | .byte b => b.toNat < 4
  | .uop id => id.toNat ≤ 25 ∨ (32 ≤ id.toNat ∧ id.toNat ≤ 49)
  | _ => False

/-- The encoding of `i` begins with `i`'s own word, and that word is legal. -/
def Statement (i : Instr) : Prop := (encode i).head? = some i.headWord ∧ LegalHead i.headWord

theorem name : Statement .name := ⟨rfl, Nat.le_of_ble_eq_true rfl⟩
theorem reset : Statement .reset := ⟨rfl, Nat.le_of_ble_eq_true rfl⟩
theorem setgain (g : MReal) : Statement (.setgain g) := ⟨rfl, Nat.le_of_ble_eq_true rfl⟩
theorem decode (n : BitVec 16) (bytes : List Byte) : Statement (.decode n bytes) := ⟨rfl, Nat.le_of_ble_eq_true rfl⟩
theorem idle : Statement .idle := ⟨rfl, .inl (Nat.le_of_ble_eq_true rfl)⟩
theorem load : Statement .load := ⟨rfl, .inl (Nat.le_of_ble_eq_true rfl)⟩
theorem partition : Statement .partition := ⟨rfl, .inl (Nat.le_of_ble_eq_true rfl)⟩
theorem ecc0 : Statement .ecc0 := ⟨rfl, .inl (Nat.le_of_ble_eq_true rfl)⟩
theorem derand : Statement .derand := ⟨rfl, .inl (Nat.le_of_ble_eq_true rfl)⟩
theorem eccn : Statement .eccn := ⟨rfl, .inl (Nat.le_of_ble_eq_true rfl)⟩
theorem errsum : Statement .errsum := ⟨rfl, .inl (Nat.le_of_ble_eq_true rfl)⟩
theorem w0idx : Statement .w0idx := ⟨rfl, .inl (Nat.le_of_ble_eq_true rfl)⟩
theorem tonechk : Statement .tonechk := ⟨rfl, .inl (Nat.le_of_ble_eq_true rfl)⟩
theorem fields : Statement .fields := ⟨rfl, .inl (Nat.le_of_ble_eq_true rfl)⟩
theorem repeatchk : Statement .repeatchk := ⟨rfl, .inl (Nat.le_of_ble_eq_true rfl)⟩
theorem repeatFrame : Statement .repeatFrame := ⟨rfl, .inl (Nat.le_of_ble_eq_true rfl)⟩
theorem toneset : Statement .toneset := ⟨rfl, .inl (Nat.le_of_ble_eq_true rfl)⟩
theorem mpnew : Statement .mpnew := ⟨rfl, .inl (Nat.le_of_ble_eq_true rfl)⟩
theorem gain : Statement .gain := ⟨rfl, .inl (Nat.le_of_ble_eq_true rfl)⟩
theorem voicing : Statement .voicing := ⟨rfl, .inl (Nat.le_of_ble_eq_true rfl)⟩
theorem resid : Statement .resid := ⟨rfl, .inl (Nat.le_of_ble_eq_true rfl)⟩
theorem predict : Statement .predict := ⟨rfl, .inl (Nat.le_of_ble_eq_true rfl)⟩
theorem enhance : Statement .enhance := ⟨rfl, .inl (Nat.le_of_ble_eq_true rfl)⟩
theorem smooth : Statement .smooth := ⟨rfl, .inl (Nat.le_of_ble_eq_true rfl)⟩
theorem noise : Statement .noise := ⟨rfl, .inl (Nat.le_of_ble_eq_true rfl)⟩
theorem unvoiced : Statement .unvoiced := ⟨rfl, .inl (Nat.le_of_ble_eq_true rfl)⟩
theorem phase : Statement .phase := ⟨rfl, .inl (Nat.le_of_ble_eq_true rfl)⟩
theorem voiced : Statement .voiced := ⟨rfl, .inl (Nat.le_of_ble_eq_true rfl)⟩
theorem combine : Statement .combine := ⟨rfl, .inl (Nat.le_of_ble_eq_true rfl)⟩
theorem commit : Statement .commit := ⟨rfl, .inl (Nat.le_of_ble_eq_true rfl)⟩
theorem bfGet (f : FrameSel) (i : Int) : Statement (.bfGet f i) := ⟨rfl, .inr ⟨Nat.le_of_ble_eq_true rfl, Nat.le_of_ble_eq_true rfl⟩⟩
theorem bfSet (f : FrameSel) (i : Int) : Statement (.bfSet f i) := ⟨rfl, .inr ⟨Nat.le_of_ble_eq_true rfl, Nat.le_of_ble_eq_true rfl⟩⟩
theorem bfClr (f : FrameSel) (i : Int) : Statement (.bfClr f i) := ⟨rfl, .inr ⟨Nat.le_of_ble_eq_true rfl, Nat.le_of_ble_eq_true rfl⟩⟩
theorem bfExtract (f : FrameSel) (idx : List Int) : Statement (.bfExtract f idx) := ⟨rfl, .inr ⟨Nat.le_of_ble_eq_true rfl, Nat.le_of_ble_eq_true rfl⟩⟩
theorem bfXor (f g : FrameSel) : Statement (.bfXor f g) := ⟨rfl, .inr ⟨Nat.le_of_ble_eq_true rfl, Nat.le_of_ble_eq_true rfl⟩⟩
theorem bfRot (f : FrameSel) (a m c : Int) : Statement (.bfRot f a m c) := ⟨rfl, .inr ⟨Nat.le_of_ble_eq_true rfl, Nat.le_of_ble_eq_true rfl⟩⟩
theorem bfLoad (bytes : List Byte) : Statement (.bfLoad bytes) := ⟨rfl, .inr ⟨Nat.le_of_ble_eq_true rfl, Nat.le_of_ble_eq_true rfl⟩⟩
theorem bfLoadHex (chars : List Byte) : Statement (.bfLoadHex chars) := ⟨rfl, .inr ⟨Nat.le_of_ble_eq_true rfl, Nat.le_of_ble_eq_true rfl⟩⟩
theorem eccC24 (f : FrameSel) (o : Int) : Statement (.eccC24 f o) := ⟨rfl, .inr ⟨Nat.le_of_ble_eq_true rfl, Nat.le_of_ble_eq_true rfl⟩⟩
theorem eccC23 (f : FrameSel) (o : Int) : Statement (.eccC23 f o) := ⟨rfl, .inr ⟨Nat.le_of_ble_eq_true rfl, Nat.le_of_ble_eq_true rfl⟩⟩
theorem eccC15 (f : FrameSel) (o : Int) : Statement (.eccC15 f o) := ⟨rfl, .inr ⟨Nat.le_of_ble_eq_true rfl, Nat.le_of_ble_eq_true rfl⟩⟩
theorem idct (x1 : MReal) (xs : List MReal) : Statement (.idct x1 xs) := ⟨rfl, .inr ⟨Nat.le_of_ble_eq_true rfl, Nat.le_of_ble_eq_true rfl⟩⟩
theorem ffLookup (codec : Codec) (v : Int) : Statement (.ffLookup codec v) := ⟨rfl, .inr ⟨Nat.le_of_ble_eq_true rfl, Nat.le_of_ble_eq_true rfl⟩⟩
theorem lcgStep (seed : BitVec 16) : Statement (.lcgStep seed) := ⟨rfl, .inr ⟨Nat.le_of_ble_eq_true rfl, Nat.le_of_ble_eq_true rfl⟩⟩
theorem noiseStep : Statement .noiseStep := ⟨rfl, .inr ⟨Nat.le_of_ble_eq_true rfl, Nat.le_of_ble_eq_true rfl⟩⟩
theorem xformFwd : Statement .xformFwd := ⟨rfl, .inr ⟨Nat.le_of_ble_eq_true rfl, Nat.le_of_ble_eq_true rfl⟩⟩
theorem xformInv : Statement .xformInv := ⟨rfl, .inr ⟨Nat.le_of_ble_eq_true rfl, Nat.le_of_ble_eq_true rfl⟩⟩
theorem ws (n : Int) : Statement (.ws n) := ⟨rfl, .inr ⟨Nat.le_of_ble_eq_true rfl, Nat.le_of_ble_eq_true rfl⟩⟩

end Sys2Proof.Laws.HeadWord
end

