-- ==== Sys2Proof/Laws/Sizes.lean ====
section
/-! SUPPORT. The spaces keep their sizes (R40, R90): what each operation and each stage does to the sizes of the working
registers, said once. -/

namespace Sys2Proof.Machine

/-! ### Frames -/

theorem putBit_length {f g : Frame} {i : Int} {b : Bool} (h : putBit f i b = .ok g) : g.length = f.length := by
  unfold putBit at h; split at h <;> cases h; simp

theorem xorFrame_length {f g r : Frame} (h : xorFrame f g = .ok r) : r.length = f.length := by
  by_cases hl : f.length = g.length
  · obtain ⟨r', h1, h2, -⟩ := xorFrame_ok hl
    rw [h1] at h; cases h; exact h2
  · rw [xorFrame_error hl] at h; cases h

theorem maskCoset_length : ∀ {n seed seed' : Nat} {g g' : Frame} {p : Nat}, maskCoset n seed g p = .ok (seed', g') →
    g'.length = g.length
  | 0, _, _, _, _, _, h => by cases h; rfl
  | n + 1, _, _, _, _, _, h => by
    rw [maskCoset] at h
    split at h <;> [cases h; skip]
    next g1 h1 => rw [maskCoset_length h, putBit_length h1]

theorem maskCosets_length : ∀ {cs : List Coset} {seed : Nat} {g g' : Frame}, maskCosets cs seed g = .ok g' →
    g'.length = g.length
  | [], _, _, _, h => by cases h; rfl
  | c :: cs, _, _, _, h => by
    rw [maskCosets] at h
    split at h <;> [cases h; skip]
    next s1 g1 h1 => rw [maskCosets_length h, maskCoset_length h1]

theorem derandMask_length {rom : Rom} {c : Codec} {u0 : Nat} {g : Frame} (h : derandMask rom c u0 = .ok g) :
    g.length = frameBits c := by rw [maskCosets_length h, tab_length]

theorem correctCosets_length {rom : Rom} : ∀ {cs : List Coset} {i : Nat} {f f' : Frame} {e e' : List (BitVec 8)},
    correctCosets rom cs i f e = .ok (f', e') → f'.length = f.length ∧ (e.length = 7 → e'.length = 7)
  | [], _, _, _, _, _, h => by cases h; exact ⟨rfl, id⟩
  | c :: cs, _, _, _, _, _, h => by
    rw [correctCosets] at h
    split at h <;> [cases h; skip]
    next f1 n1 h1 =>
      have := correctCosets_length h
      exact ⟨by rw [this.1, eccCorrect_length h1], fun _ => this.2 (setArr_length ..)⟩

theorem payload_length (n : Nat) (bytes : List Byte) : (payload n bytes).length = n := tab_length ..

/-! ### Records -/

@[simp] theorem fit_length {α : Type} (n : Nat) (d : α) (xs : List α) : (fit n d xs).length = n := tab_length ..

theorem zeroFields_shape (c : Codec) (rom : Rom) : FieldsShape c rom zeroFields :=
  ⟨rfl, rfl, 0, by cases c <;> rfl, by cases c <;> rfl⟩

theorem sizedFields_shape (c : Codec) (rom : Rom) (l : Nat) (f : Fields) : FieldsShape c rom (sizedFields c rom l f) :=
  ⟨fit_length .., fit_length .., l, fit_length .., fit_length ..⟩

/-- The field record that FIELDS reads under a legal ROM. -/
theorem frameFields_shape {s : State} {fld : Fields} (hl : s.rom.legal = true) (h : frameFields s = .ok fld) :
    FieldsShape s.codec s.rom fld := by
  have G := rom_legal hl
  unfold frameFields at h
  split at h
  · next hc =>
    rw [hc]
    simp only [ambeFields, except_bind_ok] at h
    obtain ⟨_, -, _, -, _, -, _, -, hoc, hh, h⟩ := h
    cases h
    exact ⟨(extractAll_length hh).trans G.ambe.hocIdxLen, rfl, 0, rfl, rfl⟩
  · next hc =>
    rw [hc]
    simp only [imbeFields, except_bind_ok] at h
    obtain ⟨lay, hr, _, -, gq, hg, vuv, hv, hq, hh, h⟩ := h
    cases h
    obtain ⟨h9, hr⟩ := readFrom_ok.1 hr
    obtain ⟨hlt, hr⟩ := List.getElem?_eq_some_iff.1 hr
    have hlay : s.rom.imbe.fields.getD (s.work.ff.harmonicCount - 9) default = lay := by
      rw [← hr, List.getD_eq_getElem _ _ hlt]
    have L := G.imbe.layout _ (G.imbe.fieldsLen ▸ hlt)
    rw [hlay] at L
    exact ⟨rfl, (extractAll_length hg).trans L.gainQ, s.work.ff.harmonicCount,
      (extractAll_length hv).trans (L.vuv.trans (if_pos h9).symm),
      (extractAll_length hh).trans (by rw [hocQLen, if_pos h9, hlay])⟩

theorem sizedParams_shape (p : ModelParams MReal) : ParamsShape (sizedParams p) :=
  ⟨fit_length .., fit_length .., fit_length .., fit_length .., fit_length ..⟩

theorem predictParams_shape {F : RomFns MReal} {c : Codec} {prev p : ModelParams MReal} {t : List MReal} (h : ParamsShape p) :
    ParamsShape (predictParams (N := numerics) F c prev p t) :=
  ⟨h.voicing, tab_length .., tab_length .., h.enhanced, h.counts⟩

theorem enhanceParams_shape {free : Nat → MReal} {e : MReal} {w : List MReal} {p : ModelParams MReal} (h : ParamsShape p) :
    ParamsShape (enhanceParams (N := numerics) free e w p).cmp := by
  unfold enhanceParams
  simp only
  split <;> exact ⟨h.voicing, h.logs, h.amplitudes, tab_length .., h.counts⟩

theorem smoothParams_shape {F : RomFns MReal} {c : Codec} {eT k : Nat} {tm : MReal} {p : ModelParams MReal} (h : ParamsShape p) :
    ParamsShape (smoothParams (N := numerics) F c eT k tm p).cmp :=
  ⟨tab_length .., h.logs, h.amplitudes, tab_length .., h.counts⟩

/-! ### The working registers -/

/-- Two states with the same working registers, strap and ROM have them in the same sizes. -/
theorem WorkShape.congr {s t : State} (h : WorkShape s) (hw : t.work = s.work) (hc : t.codec = s.codec) (hr : t.rom = s.rom) :
    WorkShape t := by
  cases s; cases t; cases hw; cases hc; cases hr
  exact ⟨h.fb, h.wf, h.mask, h.counts, h.fields, h.cmp, h.gains, h.gainDct, h.blocks, h.coefs, h.residual, h.noise, h.spectrum, h.shaped, h.inverse, h.unvoiced, h.voiced, h.out, h.pv, h.po⟩

/-- `C[i]` has `J[i]` entries after a COMMIT or a halt too (R17). -/
theorem sizedWork_coefs (c : Codec) (rom : Rom) (w : Work) :
    (sizedWork c rom w).coef.map List.length = (sizedWork c rom w).jlen.map (·.toNat) := by
  simp only [sizedWork, fit, tab, List.map_map]
  exact List.map_congr_left fun i _ => by simp

/-- Any contents in spaces of their own size (R40): after a COMMIT or a halt. -/
theorem freeWork_shape {t : State} {k : Nat} (h : t.work = freeWork t.codec t.rom k) : WorkShape t := by
  constructor <;> rw [h] <;> first
    | exact fit_length ..
    | exact sizedParams_shape _
    | exact sizedWork_coefs ..
    | exact sizedFields_shape ..

theorem zeroWork_shape {t : State} {p : ModelParams MReal} (hp : ParamsShape p) (h : t.work = zeroWork t.codec p) :
    WorkShape t := by
  constructor <;> rw [h] <;> first
    | exact tab_length ..
    | exact hp
    | exact zeroFields_shape ..
    | cases t.codec <;> rfl

theorem raise_shape {s : State} (h : WorkShape s) (x : Raised) : WorkShape (s.raise x) := by
  by_cases hx : x.cause.halts = true
  · exact freeWork_shape (by rw [State.raise_work, if_pos hx]; rfl)
  · exact h.congr (by rw [State.raise_work, if_neg hx]) rfl rfl

theorem putFrame_shape {s : State} (h : WorkShape s) {sel : FrameSel} {f : Frame}
    (hf : f.length = (frameOf s.work sel).length) : WorkShape (s.withFrame sel f) := by
  cases sel
  · exact { h with fb := hf.trans h.fb }
  · exact { h with wf := hf.trans h.wf }
  · exact { h with mask := hf.trans h.mask }

theorem withRes_shape {s : State} (h : WorkShape s) (r : PrimResult) : WorkShape (s.withRes r) := { h with }

/-! ### Stages that may raise -/

theorem loadStage_shape {s t : State} (h : WorkShape s) (ht : loadStage s = .ok t) : WorkShape t := by
  obtain ⟨-, rfl⟩ := loadStage_ok ht
  exact { h with fb := (loadBits_length _).trans (by rw [payload_length]; rfl) }

theorem partitionStage_shape {s t : State} (h : WorkShape s) (ht : partitionStage s = .ok t) : WorkShape t := by
  simp only [partitionStage, except_bind_ok] at ht
  obtain ⟨wf, hw, ht⟩ := ht
  cases ht
  exact { h with wf := gather_length hw }

theorem ecc0Stage_shape {s t : State} (h : WorkShape s) (ht : ecc0Stage s = .ok t) : WorkShape t := by
  simp only [ecc0Stage, except_bind_ok] at ht
  obtain ⟨c, -, ⟨wf, count⟩, hw, u, -, ht⟩ := ht
  cases ht
  exact { h with wf := (eccCorrect_length hw).trans h.wf, counts := setArr_length .. }

theorem derandStage_shape {s t : State} (h : WorkShape s) (ht : derandStage s = .ok t) : WorkShape t := by
  simp only [derandStage, except_bind_ok] at ht
  obtain ⟨g, hg, wf, hw, ht⟩ := ht
  cases ht
  exact { h with wf := (xorFrame_length hw).trans h.wf, mask := derandMask_length hg }

theorem eccnStage_shape {s t : State} (h : WorkShape s) (ht : eccnStage s = .ok t) : WorkShape t := by
  simp only [eccnStage, except_bind_ok] at ht
  obtain ⟨⟨wf, e⟩, hw, ht⟩ := ht
  cases ht
  have := correctCosets_length hw
  exact { h with wf := this.1.trans h.wf, counts := this.2 h.counts }

theorem w0idxStage_shape {s t : State} (h : WorkShape s) (ht : w0idxStage s = .ok t) : WorkShape t := by
  obtain ⟨v, ff, -, -, rfl⟩ := w0idxStage_ok ht
  exact { h with }

theorem tonechkStage_shape {s t : State} (h : WorkShape s) (ht : tonechkStage s = .ok t) : WorkShape t := by
  cases hc : s.codec with
  | imbe => rw [tonechkStage_imbe hc] at ht; cases ht; exact { h with }
  | ambe => obtain ⟨v, tone, -, -, rfl⟩ := tonechkStage_ambe hc ht; exact { h with }

theorem fieldsStage_shape {s t : State} (h : WorkShape s) (hl : s.rom.legal = true) (ht : fieldsStage s = .ok t) :
    WorkShape t := by
  unfold fieldsStage at ht
  split at ht
  · cases ht; exact { h with }
  · rw [except_bind_ok] at ht
    obtain ⟨fld, hf, ht⟩ := ht
    cases ht
    exact { h with fields := frameFields_shape hl hf }

theorem gainStage_sizes {s t : State} (ht : gainStage s = .ok t) :
    t.work.gvec.length = gainLen s.codec ∧ t.work.rg.length = gainLen s.codec := by
  unfold gainStage at ht
  split at ht <;>
  · next hc =>
    simp only [except_bind_ok] at ht
    obtain ⟨_, -, ht⟩ := ht
    cases ht
    rw [hc]
    exact ⟨by simp [imbeGainVector, gainLen], by simp [idct, imbeGainVector, gainLen]⟩

theorem gainStage_shape {s t : State} (h : WorkShape s) (ht : gainStage s = .ok t) : WorkShape t := by
  obtain ⟨h1, h2⟩ := gainStage_sizes ht
  rw [gainStage_ok ht]; exact { h with cmp := { h.cmp with }, gains := h1, gainDct := h2 }

theorem voicingStage_shape {s t : State} (h : WorkShape s) (ht : voicingStage s = .ok t) : WorkShape t := by
  obtain ⟨vs, -, rfl⟩ := voicingStage_ok ht
  exact { h with cmp := { h.cmp with voicing := tab_length .. } }

theorem residStage_shape {s t : State} (h : WorkShape s) (hl : s.rom.legal = true) (ht : residStage s = .ok t) :
    WorkShape t := by
  obtain ⟨row, hr, hj, hc, hs⟩ := residStage_sizes ht
  rw [residStage_ok ht]
  exact { h with coefs := hc, residual := hs,
                 blocks := by rw [hj, List.length_map, List.length_take, jblock_row_length hl hr]; exact Nat.min_self _ }

/-! ### Stages that always answer -/

theorem errsumStage_shape {s : State} (h : WorkShape s) : WorkShape (errsumStage s) := { h with }

theorem repeatchkStage_shape {s : State} (h : WorkShape s) : WorkShape (repeatchkStage s) := { h with }

theorem repeatStage_shape {s : State} (h : WorkShape s) (hp : ParamsShape s.pmp)
    (hd : ParamsShape (s.rom.mpDefault s.codec)) : WorkShape (repeatStage s) := by
  unfold repeatStage
  split
  · exact { h with cmp := hd }
  · exact { h with cmp := { hp with } }

theorem tonesetStage_shape {s : State} (h : WorkShape s) (hd : ParamsShape s.rom.ambe.mpDefault) :
    WorkShape (tonesetStage s) := { h with cmp := { hd with counts := tab_length .. } }

theorem mpnewStage_shape {s : State} (h : WorkShape s) : WorkShape (mpnewStage s) :=
  { h with cmp := ⟨tab_length .., tab_length .., tab_length .., tab_length .., tab_length ..⟩ }

theorem predictStage_shape {s : State} (h : WorkShape s) : WorkShape (predictStage s) :=
  { h with cmp := predictParams_shape h.cmp }

theorem enhanceStage_shape {s : State} (h : WorkShape s) : WorkShape (enhanceStage s) :=
  { h with cmp := enhanceParams_shape h.cmp }

theorem smoothStage_shape {s : State} (h : WorkShape s) : WorkShape (smoothStage s) :=
  { h with cmp := smoothParams_shape h.cmp }

theorem noiseStage_shape {s : State} (h : WorkShape s) : WorkShape (noiseStage s) := { h with }

theorem unvoicedStage_shape {s : State} (h : WorkShape s) : WorkShape (unvoicedStage s) :=
  { h with noise := tab_length .., spectrum := tab_length .., shaped := tab_length .., inverse := tab_length ..,
           unvoiced := tab_length .. }

theorem phaseStage_shape {s : State} (h : WorkShape s) : WorkShape (phaseStage s) :=
  { h with pv := tab_length .., po := tab_length .. }

theorem voicedStage_shape {s : State} (h : WorkShape s) : WorkShape (voicedStage s) := { h with voiced := tab_length .. }

theorem combineStage_shape {s : State} (h : WorkShape s) : WorkShape (combineStage s) := { h with out := tab_length .. }

theorem commitStage_shape (s : State) : WorkShape (commitStage s) := freeWork_shape rfl

end Sys2Proof.Machine
end

