-- ==== Sys2Proof/Laws/Primitives.lean ====
section
/-! SUPPORT. What a primitive run on its own can write: the working registers, and for `NOISE.STEP` the noise register; or
it raises. -/

namespace Sys2Proof.Machine

/-- Everything the primitive of an id can do to the state; only id 46, `NOISE.STEP`, writes the noise register, and none
changes the size of a space. -/
inductive PrimitiveEffect (s : State) (id : BitVec 6) : State → Prop
  | work (w : Work) (hw : WorkShape s → WorkShape { s with work := w }) : PrimitiveEffect s id { s with work := w }
  | noise (h : id = 46) (w : Work) (hw : WorkShape s → WorkShape { s with work := w }) :
      PrimitiveEffect s id { s with work := w, ss := { s.ss with noiseReg := noiseNext s.ss.noiseReg } }
  | raised (x : Raised) : PrimitiveEffect s id (s.raise x)

theorem settle_effect {s t : State} {id : BitVec 6} {α : Type} {r : Except Raised α} {f : α → State}
    (hf : ∀ a, r = .ok a → ∃ w, f a = { s with work := w } ∧ (WorkShape s → WorkShape { s with work := w })) (h : settle s (r.map f) = .next t) : PrimitiveEffect s id t := by
  cases r with
  | error x => simp only [Except.map, settle_error] at h; injection h with h; exact h ▸ .raised x
  | ok a =>
    simp only [Except.map, settle_ok] at h; injection h with h
    obtain ⟨w, hw, hs⟩ := hf a rfl
    rw [← h, hw]; exact .work w hs

theorem ecc_effect {s t : State} {id : BitVec 6} {c : BlockCode} {sel : FrameSel} {o : Int}
    (h : settle s (eccPrimitive c sel o s) = .next t) : PrimitiveEffect s id t := by
  rcases settle_next h with h | ⟨x, -, rfl⟩
  · obtain ⟨f, n, hc, rfl⟩ := eccPrimitive_ok h
    exact .work _ fun hs => withRes_shape (putFrame_shape hs (eccCorrect_length hc)) _
  · exact .raised x

/-- A primitive id decodes to a primitive, whose meaning has a primitive's effect (R75 ids 32 to 49). -/
theorem primitive_next {s t : State} {id : BitVec 6} {ws rest : List CodeWord} {i : Instr} (hid : 32 ≤ id.toNat)
    (hd : decodeUop id ws = .ok i rest) (h : exec i s = .next t) : PrimitiveEffect s id t := by
  have res : ∀ {α : Type} {r : Except Raised α} {f : α → PrimResult},
      settle s (r.map fun a => s.withRes (f a)) = .next t → PrimitiveEffect s id t :=
    settle_effect fun a _ => ⟨_, rfl, fun hs => withRes_shape hs _⟩
  have frame : ∀ {sel : FrameSel} {r : Except Raised Frame},
      (∀ f, r = .ok f → f.length = (frameOf s.work sel).length) →
      settle s (r.map (s.withFrame sel)) = .next t → PrimitiveEffect s id t :=
    fun hl => settle_effect fun f hf => ⟨_, rfl, fun hs => putFrame_shape hs (hl f hf)⟩
  have now : ∀ {w : Work}, (WorkShape s → WorkShape { s with work := w }) →
      Host.Outcome.next (ρ := Refusal) (φ := Fault) { s with work := w } = .next t → PrimitiveEffect s id t := by
    intro w hw h; injection h with h; exact h ▸ .work w hw
  unfold decodeUop at hd
  split at hd <;> first
    | omega
    | (cases hd; done)
    | skip
  · obtain ⟨f, r, -, hd⟩ := andThen_ok hd; obtain ⟨a, r, -, hd⟩ := andThen_ok hd
    cases hd; exact res h
  · obtain ⟨f, r, -, hd⟩ := andThen_ok hd; obtain ⟨a, r, -, hd⟩ := andThen_ok hd
    cases hd; exact frame (fun _ => putBit_length) h
  · obtain ⟨f, r, -, hd⟩ := andThen_ok hd; obtain ⟨a, r, -, hd⟩ := andThen_ok hd
    cases hd; exact frame (fun _ => putBit_length) h
  · obtain ⟨f, r, -, hd⟩ := andThen_ok hd; obtain ⟨a, r, -, hd⟩ := andThen_ok hd
    cases hd; exact res h
  · obtain ⟨f, r, -, hd⟩ := andThen_ok hd; obtain ⟨a, r, -, hd⟩ := andThen_ok hd
    cases hd; exact frame (fun _ => xorFrame_length) h
  · obtain ⟨f, r, -, hd⟩ := andThen_ok hd; obtain ⟨a, r, -, hd⟩ := andThen_ok hd
    obtain ⟨m, r, -, hd⟩ := andThen_ok hd; obtain ⟨c, r, -, hd⟩ := andThen_ok hd
    cases hd; exact frame (fun _ => rotFrame_length) h
  · obtain ⟨bs, r, -, hd⟩ := andThen_ok hd
    cases hd; exact now (fun hs => withRes_shape hs _) h
  · obtain ⟨bs, r, -, hd⟩ := andThen_ok hd
    cases hd; exact res h
  · obtain ⟨f, r, -, hd⟩ := andThen_ok hd; obtain ⟨a, r, -, hd⟩ := andThen_ok hd
    cases hd; exact ecc_effect h
  · obtain ⟨f, r, -, hd⟩ := andThen_ok hd; obtain ⟨a, r, -, hd⟩ := andThen_ok hd
    cases hd; exact ecc_effect h
  · obtain ⟨f, r, -, hd⟩ := andThen_ok hd; obtain ⟨a, r, -, hd⟩ := andThen_ok hd
    cases hd; exact ecc_effect h
  · obtain ⟨f, r, -, hd⟩ := andThen_ok hd; obtain ⟨a, r, -, hd⟩ := andThen_ok hd
    cases hd; exact now (fun hs => withRes_shape hs _) h
  · obtain ⟨f, r, -, hd⟩ := andThen_ok hd; obtain ⟨a, r, -, hd⟩ := andThen_ok hd
    cases hd; exact res h
  · obtain ⟨f, r, -, hd⟩ := andThen_ok hd
    cases hd; exact now (fun hs => withRes_shape hs _) h
  · next he =>
    cases hd; injection h with h
    exact h ▸ .noise (BitVec.eq_of_toNat_eq he) _ fun hs => withRes_shape hs _
  · cases hd; exact now (w := { s.work with spec := xformForward (N := numerics) s.work.x }) (fun hs => { hs with spectrum := tab_length .. }) h
  · cases hd; exact now (w := { s.work with uw := xformInverse (N := numerics) s.work.uwShaped }) (fun hs => { hs with inverse := tab_length .. }) h
  · obtain ⟨f, r, -, hd⟩ := andThen_ok hd
    cases hd; exact now (fun hs => withRes_shape hs _) h

end Sys2Proof.Machine
end

