-- ==== Sys2Proof/Tests/Slice0.lean ====
section
/-! SUPPORT. Tests: the well-formedness checks refuse what they should, every constructor decodes from a written-out word,
vectors of spec/95_test_vectors.md one step at a time, and for each statement with hypotheses a state that meets them. -/

namespace Sys2Proof.Tests
open Sys2Proof.Machine

-- One test at a time: tests run side by side would each wait on a stack of their own for the longest kernel evaluation.
set_option Elab.async false

/-! ### Helpers -/

/-- An instance right after PORESET. -/
def ambe : State := State.powerOn .ambe resetRom
def imbe : State := State.powerOn .imbe resetRom

/-- The state of a next outcome; `ambe` where there is none. -/
def nextOf (o : Host.Outcome State Fault Refusal) : State :=
  match o with
  | .next t => t
  | _ => ambe

/-- An instance with words on its port. -/
def fed (s : State) (ws : List CodeWord) : State := { s with port := ws }

/-- An instance with working registers changed. -/
def worked (s : State) (f : Work → Work) : State := { s with work := f s.work }

/-- An AMBE instance whose raw frame is `f`. -/
def framed (f : Frame) : State := worked ambe (fun w => { w with fb := f })

/-- The frame of B1: bytes `95 4B`. -/
def b1 : State := framed (loadBits [0x95, 0x4B])

/-- A frame of `n` bits from a number, the first bit the most significant. -/
def frameNum (n v : Nat) : Frame := valueBits n v

/-! ### Well-formedness -/

theorem test_wf_payload : (.decode 2 [0] : Instr).wf = false ∧ (.decode 2 [0, 1] : Instr).wf = true := by decide
theorem test_wf_index_list : (.bfExtract .wf [] : Instr).wf = false ∧ (.bfExtract .wf [0] : Instr).wf = true := by decide
theorem test_wf_index_list_long (d : Int) : indexListOk (List.replicate 65537 d) = false := by
  rw [indexListOk, List.length_replicate]; rfl
theorem test_wf_count (b : Byte) : (.bfLoad (List.replicate 65536 b) : Instr).wf = false
    ∧ (.bfLoadHex (List.replicate 65536 b) : Instr).wf = false
    ∧ (.idct (.int 0) (List.replicate 65536 (.int 0)) : Instr).wf = false := by
  simp only [Instr.wf, countOk, List.length_replicate]; decide

/-! ### Decoding, each word written out from R60, R62, R75, R76 -/

theorem test_decode_commands :
    decode [.byte 0b00000000] = .ok .name []
    ∧ decode [.byte 0b00000001] = .ok .reset []
    ∧ decode [.byte 0b00000010, .real (.int 2)] = .ok (.setgain (.int 2)) []
    ∧ decode [.byte 0b00000011, .count 2, .byte 0x95, .byte 0x4B] = .ok (.decode 2 [0x95, 0x4B]) [] := ⟨rfl, rfl, rfl, rfl⟩

theorem test_decode_frame_decoder :
    decode [.uop 0b000000] = .ok .idle [] ∧ decode [.uop 0b000001] = .ok .load []
    ∧ decode [.uop 0b000010] = .ok .partition [] ∧ decode [.uop 0b000011] = .ok .ecc0 []
    ∧ decode [.uop 0b000100] = .ok .derand [] ∧ decode [.uop 0b000101] = .ok .eccn []
    ∧ decode [.uop 0b000110] = .ok .errsum [] ∧ decode [.uop 0b000111] = .ok .w0idx []
    ∧ decode [.uop 0b001000] = .ok .tonechk [] ∧ decode [.uop 0b001001] = .ok .fields [] :=
  ⟨rfl, rfl, rfl, rfl, rfl, rfl, rfl, rfl, rfl, rfl⟩

theorem test_decode_parameters :
    decode [.uop 0b001010] = .ok .repeatchk [] ∧ decode [.uop 0b001011] = .ok .repeatFrame []
    ∧ decode [.uop 0b001100] = .ok .toneset [] ∧ decode [.uop 0b001101] = .ok .mpnew []
    ∧ decode [.uop 0b001110] = .ok .gain [] ∧ decode [.uop 0b001111] = .ok .voicing []
    ∧ decode [.uop 0b010000] = .ok .resid [] ∧ decode [.uop 0b010001] = .ok .predict []
    ∧ decode [.uop 0b010010] = .ok .enhance [] ∧ decode [.uop 0b010011] = .ok .smooth [] :=
  ⟨rfl, rfl, rfl, rfl, rfl, rfl, rfl, rfl, rfl, rfl⟩

theorem test_decode_synthesizer :
    decode [.uop 0b010100] = .ok .noise [] ∧ decode [.uop 0b010101] = .ok .unvoiced []
    ∧ decode [.uop 0b010110] = .ok .phase [] ∧ decode [.uop 0b010111] = .ok .voiced []
    ∧ decode [.uop 0b011000] = .ok .combine [] ∧ decode [.uop 0b011001] = .ok .commit [] := ⟨rfl, rfl, rfl, rfl, rfl, rfl⟩

theorem test_decode_bit_frame :
    decode [.uop 0b100000, .byte 0, .int 3] = .ok (.bfGet .fb 3) []
    ∧ decode [.uop 0b100001, .byte 1, .int 4] = .ok (.bfSet .wf 4) []
    ∧ decode [.uop 0b100010, .byte 2, .int (-1)] = .ok (.bfClr .mask (-1)) []
    ∧ decode [.uop 0b100011, .byte 0, .count 1, .int 7, .int 6] = .ok (.bfExtract .fb [7, 6]) []
    ∧ decode [.uop 0b100100, .byte 1, .byte 2] = .ok (.bfXor .wf .mask) []
    ∧ decode [.uop 0b100101, .byte 0, .int 1, .int 5, .int 2] = .ok (.bfRot .fb 1 5 2) []
    ∧ decode [.uop 0b100110, .count 1, .byte 0x95] = .ok (.bfLoad [0x95]) []
    ∧ decode [.uop 0b100111, .count 2, .byte 0x39, .byte 0x35] = .ok (.bfLoadHex [0x39, 0x35]) [] :=
  ⟨rfl, rfl, rfl, rfl, rfl, rfl, rfl, rfl⟩

theorem test_decode_codes_and_numbers :
    decode [.uop 0b101000, .byte 1, .int 0] = .ok (.eccC24 .wf 0) []
    ∧ decode [.uop 0b101001, .byte 1, .int 24] = .ok (.eccC23 .wf 24) []
    ∧ decode [.uop 0b101010, .byte 1, .int 92] = .ok (.eccC15 .wf 92) []
    ∧ decode [.uop 0b101011, .real (.int 1), .count 1, .real (.int 0)] = .ok (.idct (.int 1) [.int 0]) []
    ∧ decode [.uop 0b101100, .byte 0, .int 128] = .ok (.ffLookup .ambe 128) []
    ∧ decode [.uop 0b101101, .count 4095] = .ok (.lcgStep 4095) []
    ∧ decode [.uop 0b101110] = .ok .noiseStep [] ∧ decode [.uop 0b101111] = .ok .xformFwd []
    ∧ decode [.uop 0b110000] = .ok .xformInv [] ∧ decode [.uop 0b110001, .int (-105)] = .ok (.ws (-105)) [] :=
  ⟨rfl, rfl, rfl, rfl, rfl, rfl, rfl, rfl, rfl, rfl⟩

/-- R61 and R75: what is no instruction. -/
theorem test_decode_rejects :
    decode [.byte 0b00000100, .byte 0] = .illegalCommand 4 [.byte 0]
    ∧ decode [.byte 0b11111111] = .illegalCommand 255 []
    ∧ decode [.uop 26] = .unusedMicroOp 26 ∧ decode [.uop 31] = .unusedMicroOp 31
    ∧ decode [.uop 50] = .unusedMicroOp 50 ∧ decode [.uop 63] = .unusedMicroOp 63 ∧ decode [] = .empty :=
  ⟨rfl, rfl, rfl, rfl, rfl, rfl, rfl⟩

/-! ### Vectors of spec/95_test_vectors.md, one step each -/

/-- B1, B2. -/
theorem test_bf_load : loadBits [0x95, 0x4B] = frameNum 16 0b1010100111010010
    ∧ loadBits [0x01] = frameNum 8 0b10000000 ∧ loadBits [0x80] = frameNum 8 0b00000001 := by decide

/-- B3, B4. -/
theorem test_bf_get : (nextOf (exec (.bfGet .fb 3) b1)).work.res = .bit false
    ∧ (nextOf (exec (.bfGet .fb 7) b1)).work.res = .bit true
    ∧ (nextOf (exec (.bfGet .fb 16) b1)).fault = 2 ∧ (nextOf (exec (.bfGet .fb 16) b1)).faultInfo = 16 := by decide +kernel

/-- B5, B6. -/
theorem test_bf_set : (nextOf (exec (.bfSet .fb 1) b1)).work.fb.take 8 = frameNum 8 0b11101001
    ∧ (nextOf (exec (.bfSet .fb 0) b1)).work.fb = b1.work.fb := by decide +kernel

/-- B7. -/
theorem test_bf_clr : (nextOf (exec (.bfClr .fb 0) b1)).work.fb.take 8 = frameNum 8 0b00101001 := by decide +kernel

/-- B8, B9, B10, B12. -/
theorem test_bf_extract : (nextOf (exec (.bfExtract .fb [0, 2, 4, 7]) b1)).work.res = .value 15
    ∧ (nextOf (exec (.bfExtract .fb [7, 6, 5, 4, 3, 2, 1, 0]) b1)).work.res = .value 0x95
    ∧ (nextOf (exec (.bfExtract .fb (List.replicate 33 0)) b1)).faultInfo = 33 := by decide +kernel

/-- B13. -/
theorem test_bf_xor :
    let s := worked ambe (fun w => { w with fb := frameNum 4 0b1010, wf := frameNum 4 0b0110 })
    (nextOf (exec (.bfXor .fb .wf) s)).work.fb = frameNum 4 0b1100
      ∧ (nextOf (exec (.bfXor .fb .wf) s)).work.wf = frameNum 4 0b0110 := by decide +kernel

/-- B15. -/
theorem test_bf_rot : (nextOf (exec (.bfRot .fb 0 5 2) (framed (frameNum 5 0b10011)))).work.fb = frameNum 5 0b01110 := by
  decide +kernel

/-- R97 and log entry 26: a range, a length, a count and a start outside what R97 asks, and what each reports. -/
theorem test_bf_rot_outside :
    ∀ x ∈ [((1 : Int), (72 : Int), (0 : Int), (72 : BitVec 16)), (73, 1, 0, 73), (0, -1, 5, -1), (0, 1, -2, -2), (-3, 1, 0, -3)],
      (nextOf (exec (.bfRot .fb x.1 x.2.1 x.2.2.1) ambe)).fault = 2
      ∧ (nextOf (exec (.bfRot .fb x.1 x.2.1 x.2.2.1) ambe)).faultInfo = x.2.2.2 := by decide +kernel

/-- The hex digits `954be6500310b00777` (B17). -/
def hexLower : List Byte :=
  [0x39, 0x35, 0x34, 0x62, 0x65, 0x36, 0x35, 0x30, 0x30, 0x33, 0x31, 0x30, 0x62, 0x30, 0x30, 0x37, 0x37, 0x37]

/-- B17, B18. -/
theorem test_bf_load_hex : (nextOf (exec (.bfLoadHex hexLower) ambe)).work.res
      = .frame (frameNum 72 0b101010011101001001100111000010101100000000001000000011011110000011101110)
    ∧ (nextOf (exec (.bfLoadHex (hexLower.take 17)) ambe)).fault = 1
    ∧ (nextOf (exec (.bfLoadHex (hexLower.take 17)) ambe)).faultInfo = 17 := by decide +kernel

/-- C2. -/
theorem test_ecc_c24 : let t := nextOf (exec (.eccC24 .fb 0) (framed (frameNum 24 0x2BC23D)))
    t.work.fb = frameNum 24 0xABC23C ∧ t.work.res = .value 2 := by decide +kernel

/-- C9. -/
theorem test_ecc_c23 : let t := nextOf (exec (.eccC23 .fb 1) (framed (true :: frameNum 23 0x041AD1)))
    t.work.fb = true :: frameNum 23 0x0C1ADD ∧ t.work.res = .value 3 := by decide +kernel

/-- C12. -/
theorem test_ecc_c15 : let t := nextOf (exec (.eccC15 .fb 0) (framed (frameNum 15 0b101101001011100)))
    t.work.fb = frameNum 15 0b101101001011101 ∧ t.work.res = .value 1 := by decide +kernel

/-- R43: an offset below 0, and one that leaves too few elements. -/
theorem test_ecc_outside : (nextOf (exec (.eccC24 .fb (-1)) ambe)).fault = 2
    ∧ (nextOf (exec (.eccC24 .fb (-1)) ambe)).faultInfo = 0xFFFF ∧ (nextOf (exec (.eccC15 .wf 58) ambe)).faultInfo = 72 := by
  decide +kernel

/-- R121, R307: a map entry outside the frame is reported at its own `j`, before the end of a map that is too short. -/
theorem test_partition_order :
    let s := { ambe with rom := { resetRom with ambe := { resetAmbeRom with cosetMap := [0, 99] } } }
    let u := { ambe with rom := { resetRom with ambe := { resetAmbeRom with cosetMap := [0, 71] } } }
    ((nextOf (exec .partition s)).fault = 2 ∧ (nextOf (exec .partition s)).faultInfo = 99)
      ∧ (nextOf (exec .partition u)).fault = 3 ∧ (nextOf (exec .partition u)).faultInfo = 2 := by decide +kernel

/-- R40, R90: a halt leaves the spaces their sizes. -/
theorem test_halt_keeps_sizes :
    let t := nextOf (exec (.bfGet .fb 72) ambe)
    t.work.fb.length = 72 ∧ t.work.e.length = 7 ∧ t.work.uw.length = 256 ∧ t.work.cmp.spectralAmplitudes.length = 57 := by
  decide +kernel

/-- R17: the registers hold their entries after reset. -/
theorem test_reset_sizes : ambe.work.gvec.length = 8 ∧ imbe.work.rg.length = 6
    ∧ ambe.work.jlen = [0, 0, 0, 0] ∧ imbe.work.jlen.length = 6
    ∧ ambe.work.fld.hocIdx = [0, 0, 0, 0] ∧ imbe.work.fld.gainQ = [0, 0, 0, 0, 0] := by decide +kernel

/-- R64, R122: a ROM whose one AMBE coset is the first, and one that uses no (15,11) code, are not legal. -/
theorem test_legal_codes : laterCosetUses .code23 [⟨0, 24, 12, .code24⟩] = false
    ∧ allCodesUsed [⟨0, 24, 12, .code24⟩, ⟨24, 23, 12, .code23⟩] = false := by decide

/-- R70, R71: the codes. -/
theorem test_codes : [FrameType.voice, .silence, .erasure, .tone, .invalid].map FrameType.code = [0, 1, 2, 3, 4]
    ∧ [ToneClass.discrete, .dtmf, .knox, .callProgress].map ToneClass.code = [0, 1, 2, 3] := by decide

/-- G3. -/
theorem test_lcg : (nextOf (exec (.lcgStep 4095) ambe)).work.res = .lcg 1388 false
    ∧ (nextOf (exec (.lcgStep 1388) ambe)).work.res = .lcg 57365 true := by decide +kernel

/-- S1. -/
theorem test_lookup_classes : ambeFrameType 119 = .voice ∧ ambeFrameType 120 = .erasure ∧ ambeFrameType 123 = .erasure
    ∧ ambeFrameType 124 = .silence ∧ ambeFrameType 125 = .silence ∧ ambeFrameType 126 = .tone := by decide
theorem test_lookup_outside : (nextOf (exec (.ffLookup .ambe 128) ambe)).fault = 4
    ∧ (nextOf (exec (.ffLookup .ambe (-1)) ambe)).faultInfo = 0xFFFF := by decide +kernel

/-- N1 begins (R200). -/
theorem test_noise_step : (nextOf (exec .noiseStep ambe)).work.res = .value 18100
    ∧ (nextOf (exec .noiseStep ambe)).ss.noiseReg = 18100 := by decide +kernel

theorem test_noise : (nextOf (exec .noise ambe)).ss.noiseBuf.getD 96 0 = 18100
    ∧ (nextOf (exec .noise ambe)).ss.noiseBuf.getD 97 0 = 25063 := by decide +kernel

/-- F1: coset 0 of `0F 00 ..` has no near codeword: the sentinel 4, and the data as received. -/
theorem test_ecc0 :
    let t := nextOf (exec .ecc0 (worked ambe (fun w => { w with wf := loadBits [0x0F, 0, 0, 0, 0, 0, 0, 0, 0] })))
    t.work.e.getD 0 0 = 4 ∧ t.work.u0 = 0xF00 ∧ t.stage = 4 := by decide +kernel

/-- G7: the mask of `u0 = 0xF00` over an AMBE frame. -/
theorem test_derand :
    let t := nextOf (exec .derand (worked ambe (fun w => { w with u0 := 0xF00 })))
    (t.work.wf.drop 24).take 23 = frameNum 23 0b00001000001101011010001 ∧ t.work.wf.take 24 = frameNum 24 0
      ∧ t.work.wf.drop 47 = frameNum 25 0 := by decide +kernel

/-- F1: coset 1 after the mask. -/
theorem test_eccn :
    let t := nextOf (exec .eccn (worked ambe (fun w => { w with
      wf := frameNum 24 0xF00000 ++ frameNum 23 0x041AD1 ++ frameNum 25 0 })))
    t.work.e.getD 1 0 = 3 ∧ (t.work.wf.drop 24).take 23 = frameNum 23 0x0C1ADD := by decide +kernel

theorem test_errsum :
    (nextOf (exec .errsum (worked ambe (fun w => { w with e := [4, 3, 9, 9, 9, 9, 9] })))).work.eT = 7 := by decide +kernel

/-- F1, F2: the index. -/
theorem test_w0idx :
    let t := nextOf (exec .w0idx (worked ambe (fun w => { w with wf := frameNum 24 0xF00000 ++ frameNum 48 0 })))
    t.work.w0Index = 120 ∧ t.work.frameType = .erasure ∧ t.stage = 8 := by decide +kernel

/-- The tone-check table (R130). -/
theorem test_tone_classify : toneClassify true .voice false = (.tone, false) ∧ toneClassify true .voice true = (.erasure, true)
    ∧ toneClassify true .silence true = (.tone, false) ∧ toneClassify false .tone false = (.erasure, true)
    ∧ toneClassify false .silence false = (.silence, false) := by decide

/-- F2: the tone's fields. -/
theorem test_tonechk :
    let t := nextOf (exec .tonechk (worked ambe (fun w => { w with
      wf := frameNum 24 0xFC0CD1 ++ frameNum 23 0b10000001000000000000000 ++ frameNum 7 0b1 ++ frameNum 18 0b101010100000000000,
      ff := { w.ff with frameType := .tone } })))
    t.work.frameType = .tone ∧ t.work.tone = { valid := true, id := 129, amplitude := 85, cls := .dtmf } := by decide +kernel

/-- F4: the gain index. -/
theorem test_fields :
    (nextOf (exec .fields (worked ambe (fun w => { w with wf := frameNum 48 0 ++ frameNum 24 0b111110000000000000000000 })))).work.fld.gainIdx
      = 31 := by decide +kernel

/-- M1, M2, M3, M4, M8's first terms (AMBE). -/
theorem test_repeatchk :
    let s := fun e0 eT ft => worked ambe (fun w => { w with e := [e0, 0, 0, 0, 0, 0, 0], eT := eT, frameType := ft })
    (nextOf (exec .repeatchk (s 2 6 .voice))).stage = 11 ∧ (nextOf (exec .repeatchk (s 1 9 .voice))).stage = 13
      ∧ (nextOf (exec .repeatchk (s 4 0 .silence))).stage = 11 ∧ (nextOf (exec .repeatchk (s 0 0 .erasure))).stage = 11
      ∧ (nextOf (exec .repeatchk (s 0 0 .tone))).stage = 12 := by decide +kernel

/-- M23. -/
theorem test_jblock : resetImbeRom.jblock.getD 0 [] = [1, 1, 1, 2, 2, 2] ∧ resetImbeRom.jblock.getD 47 [] = [9, 9, 9, 9, 10, 10] := by
  decide +kernel

/-- A command on a resting instance, a rejected one, and a halted instance (R245, R305, R246). -/
theorem test_step_illegal : let t := nextOf (step (fed ambe [.byte 0xFF, .byte 0]))
    t.fault = 6 ∧ t.faultInfo = 255 ∧ t.port = [.byte 0] := by decide +kernel
theorem test_step_gain_halted :
    (nextOf (step (fed { ambe with fault := 3 } [.byte 2, .real (.int 15)]))).gain = .int 1 := by decide +kernel
/-- R304: a value that is no number (an outcome of `NUM`, log entry 43) is rejected. -/
theorem test_gain_no_number (g : MReal) (h : Config.isNumber g = false) : (nextOf (exec (.setgain g) ambe)).fault = 5 := by
  have : gainOk (N := numerics) g = false := by
    show (Config.isNumber g && Config.lt (.int 0) g && Config.lt g (.int 16)) = false
    rw [h]; rfl
  show (nextOf (settle ambe (setgainCommand g { ambe with result := .none }))).fault = 5
  rw [setgainCommand, if_neg (by simp [this])]; rfl
/-- A micro-op whose operand words are not all there waits for them (log entry 20). -/
theorem test_step_waits : ∀ ws ∈ [[], [CodeWord.byte 0], [.int 3, .byte 0]],
    step { ambe with stage := 32, operands := ws } = .next { ambe with stage := 32, operands := ws } := by
  intro ws h
  simp only [List.mem_cons, List.not_mem_nil, or_false] at h
  rcases h with rfl | rfl | rfl <;> rfl
theorem test_step_decode : (nextOf (step (fed ambe [.byte 3, .count 1, .byte 7]))).stage = 1
    ∧ (nextOf (step (nextOf (step (fed ambe [.byte 3, .count 1, .byte 7]))))).fault = 1 := by decide +kernel

/-- What the host's table words decode to. -/
theorem test_table_words : decodeTableWord 8 0 = some .name ∧ decodeTableWord 8 3 = some (.decode 0 [])
    ∧ decodeTableWord 6 3 = some .ecc0 ∧ decodeTableWord 8 25 = some .commit ∧ decodeTableWord 8 26 = none := by decide

/-! ### Witnesses: for each statement with hypotheses, states and operands that meet all of them, clause by clause -/

theorem witness_DecodeOfEncode : (.bfExtract .wf [0, -1] : Instr).wf = true ∧ (.decode 0 [] : Instr).wf = true := by decide
theorem witness_DecodedWordsAreTheEncoding : decode [.uop 38, .count 0, .byte 1] = .ok (.bfLoad []) [.byte 1] := rfl

/-- R61: the two ends of the illegal words, and the legal word nearest to them. -/
theorem witness_IllegalCommand :
    (Accepting (fed ambe [.byte 4]) ∧ (fed ambe [.byte 4]).port = .byte 4 :: [] ∧ (4 : Byte).extractLsb' 2 6 ≠ 0)
    ∧ (Accepting (fed ambe [.byte 255, .byte 0]) ∧ (255 : Byte).extractLsb' 2 6 ≠ 0)
    ∧ (3 : Byte).extractLsb' 2 6 = 0 := ⟨⟨⟨rfl, rfl, rfl⟩, rfl, by decide⟩, ⟨⟨rfl, rfl, rfl⟩, by decide⟩, by decide⟩

/-- R75: at rest, the first and the last stage, the first and the last primitive. -/
theorem witness_StepRuns :
    decode (fed ambe [.byte 0]).fetch = .ok .name [] ∧ portBegins (fed ambe [.byte 0]).port = true
    ∧ decode ({ ambe with stage := 1 } : State).fetch = .ok .load [] ∧ decode ({ ambe with stage := 25 } : State).fetch = .ok .commit []
    ∧ decode ({ ambe with stage := 32, operands := [.byte 0, .int 3] } : State).fetch = .ok (.bfGet .fb 3) []
    ∧ decode ({ ambe with stage := 49, operands := [.int (-1)] } : State).fetch = .ok (.ws (-1)) []
    ∧ ambe.poresetRequest = false := ⟨rfl, rfl, rfl, rfl, rfl, rfl, rfl⟩
theorem witness_StepRuns_primitive (s : State) :
    ∃ t, exec (.ws (-1)) s = .next t := ⟨_, rfl⟩

theorem witness_RestingInstanceWaits :
    (ambe.poresetRequest = false ∧ ambe.stage = Stage.idle ∧ ambe.port = [])
    ∧ (fed ambe [.byte 2]).port = [.byte 2] ∧ (fed ambe [.byte 3]).port = [.byte 3]
    ∧ (fed ambe [.byte 3, .count 1]).port = .byte 3 :: .count 1 :: ([] : List Byte).map .byte
    ∧ ([] : List Byte).length < (1 : BitVec 16).toNat := ⟨⟨rfl, rfl, rfl⟩, rfl, rfl, rfl, by decide⟩

theorem witness_PoresetValues : ({ ambe with poresetRequest := true } : State).poresetRequest = true := rfl
theorem witness_ResetCommandValues : ambe.halted = false ∧ ambe.stage = Stage.idle := ⟨rfl, rfl⟩
theorem witness_ResetChangesNothingTwice :
    ∃ t, exec .reset { imbe with tone := { valid := true, id := 7, amplitude := 1, cls := .knox } } = .next t := ⟨_, rfl⟩

/-- R302, R309: every code on either side. -/
theorem witness_HaltedExecutesNothing :
    (∀ f : BitVec 3, (∃ t, step { ambe with fault := f } = .next t) ∧ ({ ambe with fault := f } : State).stage = Stage.idle
      ∧ ({ ambe with fault := f } : State).poresetRequest = false) := fun _ => ⟨⟨_, rfl⟩, rfl, rfl⟩

set_option maxRecDepth 100000 in
theorem resetRom_legal : resetRom.legal = true := by decide +kernel
theorem witness_PoresetMeetsTheInvariant : resetRom.legal = true := resetRom_legal

/-- An instance in a DECODE, a rejection on its latch: a state the invariant holds in that is no reset state. -/
def midDecode : State := { imbe with stage := 20, fault := 6 }
theorem witness_StepKeepsTheInvariant : Inv midDecode ∧ ∃ t, step midDecode = .next t := by
  have hd := mpDefault_good resetRom_legal .imbe
  have hp : ParamsInv (resetRom.mpDefault .imbe) := ⟨⟨hd.low, hd.high⟩, by rw [hd.repeats]; omega⟩
  refine ⟨⟨resetRom_legal, ⟨.inl (by decide), by decide, by decide⟩, ?_, ⟨.inl rfl, by decide, rfl, fun _ => rfl⟩, hp, hd.shape,
    zeroWork_shape hd.shape rfl, ?_⟩, _, rfl⟩
  · constructor <;> simp [midDecode, imbe, State.powerOn, resetSynth, phaseLen, xformLen, noiseSeed, mem_tab]
  · constructor <;> first | (intros; exact hp) | (intros; simp_all [midDecode])

theorem witness_StepKeepsStrapAndRom : ∃ t, step ambe = .next t := ⟨_, rfl⟩
/-- R306: a meaning that raises the cause and the info the latch already holds, one that raises nothing, and the step that
runs the first. -/
theorem witness_FaultsLeaveTheCarriedState :
    let s : State := { ambe with stage := 32, operands := [.byte 0, .int 72], fault := 2, faultInfo := 72 }
    raisedBy (.bfGet .fb 72) s = some ⟨.indexRange, 72⟩
      ∧ (raisedBy .commit s = none ∧ ∃ t, exec .commit s = .next t)
      ∧ (s.poresetRequest = false ∧ s.stage ≠ Stage.idle ∧ decode s.fetch = .ok (.bfGet .fb 72) []
          ∧ raisedBy (.bfGet .fb 72) (s.consume []) = some ⟨.indexRange, 72⟩)
      ∧ ∃ t, step s = .next t :=
  ⟨rfl, ⟨rfl, _, rfl⟩, ⟨rfl, by decide, rfl, rfl⟩, _, rfl⟩

/-- R308: the ends of every range of stages the clauses name. -/
theorem witness_OnlyNoiseAndCommit :
    ∀ id ∈ [1, 18, 20, 25, 46], ({ ambe with stage := id } : State).poresetRequest = false
      ∧ ({ ambe with stage := id } : State).stage ≠ Stage.idle ∧ ∃ t, step { ambe with stage := id } = .next t := by
  intro id h
  simp only [List.mem_cons, List.not_mem_nil, or_false] at h
  rcases h with rfl | rfl | rfl | rfl | rfl
  · exact ⟨rfl, by decide, by rw [step_load rfl rfl]; unfold execLoad; cases loadStage _ <;> exact ⟨_, rfl⟩⟩
  · exact ⟨rfl, by decide, _, rfl⟩
  · exact ⟨rfl, by decide, _, rfl⟩
  · exact ⟨rfl, by decide, _, rfl⟩
  · exact ⟨rfl, by decide, _, rfl⟩

theorem witness_SetgainTakesOnlyLegalGains : ambe.halted = false := rfl

theorem witness_NameAndDecodeComplete : ambe.halted = false ∧ imbe.halted = false := ⟨rfl, rfl⟩

/-- R301: one byte short of an AMBE frame; a string one digit short, and one with a character that is no digit. -/
theorem witness_WrongLengthIsRejected :
    (Accepting (fed ambe (.byte 3 :: .count 8 :: ((List.replicate 8 (0 : Byte)).map .byte ++ []))) ∧
      (List.replicate 8 (0 : Byte)).length = (8 : BitVec 16).toNat ∧ (8 : BitVec 16).toNat ≠ frameBytes .ambe)
    ∧ ¬((List.replicate 17 (0x30 : Byte)).length = 2 * frameBytes ambe.codec)
    ∧ ¬(∀ c ∈ List.replicate 18 (0x47 : Byte), isHexDigit c) := by
  refine ⟨⟨⟨rfl, rfl, rfl⟩, by decide, by decide⟩, by simp [ambe, State.powerOn, frameBytes], fun h => ?_⟩
  have := h 0x47 (by decide)
  simp [isHexDigit] at this

theorem witness_ImbeDecodeYieldsSamples :
    let s := fed imbe (.byte 3 :: .count 18 :: ((List.replicate 18 (0 : Byte)).map .byte ++ [.byte 0]))
    Accepting s ∧ s.codec = .imbe ∧ s.rom.legal = true ∧ (List.replicate 18 (0 : Byte)).length = 18 :=
  ⟨⟨rfl, rfl, rfl⟩, rfl, resetRom_legal, rfl⟩
theorem witness_AmbeDecodeEnds :
    let s := fed ambe (.byte 3 :: .count 9 :: ((List.replicate 9 (255 : Byte)).map .byte ++ []))
    Accepting s ∧ s.codec = .ambe ∧ s.rom.legal = true ∧ (List.replicate 9 (255 : Byte)).length = 9 :=
  ⟨⟨rfl, rfl, rfl⟩, rfl, resetRom_legal, rfl⟩

/-- Two instances that differ in the latch, `STATUS`, `TONE` and the working registers, with the same word waiting. -/
theorem witness_ResultsDependOnCarriedStateOnly :
    let s₁ := fed ambe [.byte 0]
    let s₂ := { worked (fed ambe [.byte 0]) (fun w => { w with u0 := 5, eT := 9 }) with
      fault := 1, status := { zeroStatus with muted := true }, tone := { resetTone with valid := true } }
    Accepting s₁ ∧ Accepting s₂ ∧ s₂.pmp = s₁.pmp ∧ s₂.ss = s₁.ss ∧ s₂.port = s₁.port ∧ ∃ t₁, steps 1 s₁ = .next t₁ :=
  ⟨⟨rfl, rfl, rfl⟩, ⟨rfl, rfl, rfl⟩, rfl, rfl, rfl, _, rfl⟩

/-- R90: both ends of a 72-bit frame, and one beyond each. -/
theorem witness_frame_index :
    (∀ i ∈ [(0 : Int), 71], 0 ≤ i ∧ i < (frameOf ambe.work .fb).length)
      ∧ ∀ i ∈ [(-1 : Int), 72], ¬(0 ≤ i ∧ i < (frameOf ambe.work .fb).length) := by decide
theorem witness_SetAndClear : ((.bfSet .fb 0 : Instr) = if true then .bfSet .fb 0 else .bfClr .fb 0)
    ∧ (.bfClr .wf 71 : Instr) = if false then .bfSet .wf 71 else .bfClr .wf 71 := ⟨rfl, rfl⟩

/-- R95: 1 and 32 indices, 33, and an index outside after one inside. -/
theorem witness_Extract :
    (∀ l ∈ [[71], List.replicate 32 (0 : Int)], 1 ≤ l.length ∧ l.length ≤ 32
        ∧ ∀ i ∈ l, 0 ≤ i ∧ i < (frameOf ambe.work .wf).length)
      ∧ 32 < (List.replicate 33 (0 : Int)).length
      ∧ [(71 : Int), 72] = [71] ++ 72 :: [] ∧ (∀ j ∈ [(71 : Int)], 0 ≤ j ∧ j < (frameOf ambe.work .wf).length)
      ∧ ¬((0 : Int) ≤ 72 ∧ 72 < (frameOf ambe.work .wf).length) := by decide

theorem witness_XorOfEqualFrames :
    (frameOf ambe.work .fb).length = (frameOf ambe.work .mask).length
      ∧ (∀ b ∈ frameOf ambe.work .mask, b = false)
      ∧ (frameOf ambe.work .fb).length ≠ (frameOf (worked ambe (fun w => { w with mask := [] })).work .mask).length := by
  decide

/-- R97: the whole frame and an empty range at its end; one bit too many, a length, a count and a start below 0. -/
theorem witness_Rotate :
    (0 + 72 ≤ (frameOf ambe.work .fb).length ∧ 72 + 0 ≤ (frameOf ambe.work .fb).length)
      ∧ ∀ x ∈ [((1 : Int), (72 : Int), (0 : Int)), (0, -1, 0), (0, 1, -1), (-1, 1, 0)],
          x.2.1 ≠ 0 ∧ ¬(0 < x.2.1 ∧ 0 ≤ x.2.2 ∧ 0 ≤ x.1 ∧ x.1 + x.2.1 ≤ (frameOf ambe.work .fb).length) := by decide

theorem witness_LoadAndLoadHexAgree :
    let bytes := List.replicate 9 (0x4A : Byte)
    let chars := [0x34, 0x41, 0x34, 0x61, 0x34, 0x41, 0x34, 0x61, 0x34, 0x41, 0x34, 0x61, 0x34, 0x41, 0x34, 0x61, 0x34, 0x41]
    bytes.length = frameBytes ambe.codec ∧ chars.length = 2 * frameBytes ambe.codec
      ∧ ∀ k, k < bytes.length → hexDigit (chars.getD (2 * k) 0) = some ((bytes.getD k 0).toNat / 16)
          ∧ hexDigit (chars.getD (2 * k + 1) 0) = some ((bytes.getD k 0).toNat % 16) := by decide

/-- The repetition code of three bits. -/
def smallCode : BlockCode := { n := 3, k := 1, cw := [0, 7], t := 1, sentinel := 2 }
theorem smallCode_distance : codeDistanceOk smallCode := by unfold codeDistanceOk; decide
theorem witness_NearCodewordIsUnique : codeDistanceOk smallCode ∧ (7 : Nat) ∈ smallCode.cw
    ∧ wordDist smallCode.n 5 7 ≤ smallCode.t := ⟨smallCode_distance, by decide, by decide⟩

/-- An instance whose codes are given, with the word `r` at the end of its raw frame. -/
def coded (c : BlockCode) (r : Nat) : State :=
  { framed (List.replicate 5 false ++ frameNum 3 r) with
    rom := { resetRom with code24 := c, code23 := c, code15 := c } }
/-- R106: a word one bit from a codeword, one with no near codeword, one that begins before the frame and one that runs over
its end. -/
theorem witness_Correctors :
    (∃ op : Int → Instr, ∀ o, op o = (match CodeName.code24 with
        | .code24 => .eccC24 .fb o
        | .code23 => .eccC23 .fb o
        | .code15 => .eccC15 .fb o))
      ∧ (∀ name, codeDistanceOk ((coded smallCode 5).rom.code name) ∧ ((coded smallCode 5).rom.code name).n = 3)
      ∧ (∀ j, j < 3 → (5 : Nat).testBit (3 - 1 - j) = (frameOf (coded smallCode 5).work .fb).getD (5 + j) false)
      ∧ 5 + 3 ≤ (frameOf (coded smallCode 5).work .fb).length
      ∧ (7 : Nat) ∈ smallCode.cw ∧ wordDist 3 5 7 ≤ smallCode.t
      ∧ codeDistanceOk { smallCode with t := 0 } ∧ (∀ w ∈ smallCode.cw, 0 < wordDist 3 5 w)
      ∧ ∀ o ∈ [(-1 : Int), 6], ¬(0 ≤ o ∧ o + 3 ≤ (frameOf (coded smallCode 5).work .fb).length) := by
  refine ⟨⟨_, fun _ => rfl⟩, fun n => ?_, by decide, by decide, by decide, by decide, by unfold codeDistanceOk; decide, by decide,
    by decide⟩
  cases n <;> exact ⟨smallCode_distance, rfl⟩

theorem witness_LoadFillsTheRawFrame :
    (worked ambe (fun w => { w with inCount := 9 })).work.inCount.toNat = frameBytes ambe.codec
      ∧ (worked imbe (fun w => { w with inCount := 18 })).work.inCount.toNat = frameBytes imbe.codec := ⟨rfl, rfl⟩
theorem witness_Partition :
    ((ambe.rom.cosetMap ambe.codec).Perm (List.range (frameBits ambe.codec)) ∧ ambe.work.fb.length = frameBits ambe.codec)
      ∧ (imbe.rom.cosetMap imbe.codec).Perm (List.range (frameBits imbe.codec)) ∧ imbe.work.fb.length = frameBits imbe.codec := by
  decide +kernel

/-- The coset lists of State.reset's ROM, and full frames (`ECC0`, `DERAND`, `ECCN`, `W0IDX`, `FIELDS`). -/
theorem witness_cosets :
    ambe.rom.cosets ambe.codec = ⟨0, 24, 12, .code24⟩ :: [⟨24, 23, 12, .code23⟩]
      ∧ 0 + (ambe.rom.code .code24).n ≤ ambe.work.wf.length ∧ 0 + 12 ≤ ambe.work.wf.length
      ∧ ambe.work.wf.length = frameBits ambe.codec ∧ imbe.work.wf.length = frameBits imbe.codec
      ∧ ambe.rom.legal = true ∧ imbe.rom.legal = true
      ∧ ∀ i ∈ [2, 6], [(⟨24, 23, 12, .code23⟩ : Coset)].length + 1 ≤ i ∧ i < 7 :=
  ⟨rfl, by decide +kernel, by decide +kernel, by decide +kernel, by decide +kernel, resetRom_legal, resetRom_legal, by decide⟩

/-- R68, R69: the ends of every range. -/
theorem witness_Lookup : ambe.rom.ambe.ff.length = 128 ∧ ambe.rom.imbe.ff.length = 208
    ∧ (∀ v ∈ [(0 : Int), 119, 120, 123, 124, 125, 126, 127], 0 ≤ v ∧ v ≤ 127)
    ∧ (∀ v ∈ [(-1 : Int), 128], ¬(0 ≤ v ∧ v ≤ 127)) ∧ (∀ v ∈ [(0 : Int), 207], 0 ≤ v ∧ v ≤ 207)
    ∧ ∀ v ∈ [(-1 : Int), 208], ¬(0 ≤ v ∧ v ≤ 207) := by
  refine ⟨by simp [ambe, State.powerOn, resetRom, resetAmbeRom, resetFfAmbe],
    by simp [ambe, State.powerOn, resetRom, resetImbeRom, resetFfImbe], by decide, by decide, by decide, by decide⟩

/-- R130: a frame whose pattern bits are `0x3F0`, and one whose are 0; each table type, either side of the threshold. -/
theorem witness_Tonechk :
    let f := frameNum 68 0xFC000000000000000 ++ frameNum 4 0
    (extractRom f resetRom.ambe.toneCheckIdx = .ok 0x3F0 ∧ f.length = 72 ∧ resetRom.ambe.toneCheckValue = 0x3F0
        ∧ resetRom.ambe.toneConflictErr = 6)
      ∧ extractRom ambe.work.wf resetRom.ambe.toneCheckIdx = .ok 0 ∧ ambe.work.wf.length = 72
      ∧ ambe.codec = .ambe ∧ imbe.codec = .imbe := by decide +kernel

/-- The three clauses of R134, the harmonic count at both ends of its range. -/
theorem witness_Fields :
    (worked ambe (fun w => { w with frameType := .tone })).work.frameType = .tone
      ∧ (worked imbe (fun w => { w with frameType := .invalid })).work.frameType = .invalid
      ∧ ambe.work.frameType ≠ .tone ∧ imbe.work.frameType ≠ .tone ∧ imbe.work.frameType ≠ .invalid
      ∧ ∀ l ∈ [9, 56], harmonicRange (worked imbe (fun w => { w with ff := { w.ff with harmonicCount := l } })).work.ff.harmonicCount := by
  refine ⟨rfl, rfl, by decide, by decide, by decide, fun l hl => ?_⟩
  simp only [List.mem_cons, List.not_mem_nil, or_false] at hl
  show harmonicRange l
  unfold harmonicRange; omega

theorem witness_RepeatCopiesOrMutes :
    4 ≤ ({ ambe with pmp := { ambe.pmp with repeatCount := 4 } } : State).pmp.repeatCount
      ∧ ({ ambe with pmp := { ambe.pmp with repeatCount := 3 } } : State).pmp.repeatCount < 4 := by decide
theorem witness_FiveRepeatsMute : ambe.pmp.repeatCount = 0 ∧ (ambe.rom.mpDefault ambe.codec).repeatCount = 0
    ∧ ∃ t u, exec .repeatFrame ambe = .next t ∧ exec .commit t = .next u := ⟨rfl, rfl, _, _, rfl, rfl⟩

/-- R152, R153: the ends of both gain tables. -/
theorem witness_Gain : ambe.codec = .ambe ∧ 31 < ambe.rom.ambe.dgain.length ∧ ambe.rom.ambe.dgain.length ≤ 32
    ∧ imbe.codec = .imbe ∧ 63 < imbe.rom.imbe.gainTable.length ∧ imbe.rom.imbe.gainTable.length ≤ 64 := by
  simp [ambe, imbe, State.powerOn, resetRom, resetAmbeRom, resetImbeRom]

theorem witness_InverseDct : 1 ≤ 1 ∧ 1 ≤ [(0 : ℝ)].length := by simp
/-- An AMBE instance whose ROM has one voicing vector, without a band. -/
def bandless : State :=
  { worked ambe (fun w => { w with ff := { w.ff with harmonicCount := 9 } }) with
    rom := { resetRom with ambe := { resetAmbeRom with vuv := [[]] } } }
/-- R155, R156. No band of an AMBE harmonic can be computed, the numerics being uninterpreted (log entry 1): the first state
has no harmonic, the second reads beyond the table, the third has no band in its vector. -/
theorem witness_Voicing :
    (∃ row, ambe.rom.ambe.vuv[ambe.work.fld.vuvIdx]? = some row ∧ ambe.codec = .ambe ∧ ambe.work.ff.harmonicCount = 0)
      ∧ (let s := worked ambe (fun w => { w with fld := { w.fld with vuvIdx := 32 } })
         s.codec = .ambe ∧ s.work.ff.harmonicCount ≤ 56 ∧ s.rom.ambe.vuv.length ≤ s.work.fld.vuvIdx)
      ∧ (bandless.codec = .ambe ∧ bandless.rom.ambe.vuv[bandless.work.fld.vuvIdx]? = some []
         ∧ 1 ≤ bandless.work.ff.harmonicCount ∧ bandless.work.ff.harmonicCount ≤ 56
         ∧ (∀ k, 1 ≤ k → k < 1 → 0 ≤ bandIndex (N := numerics) bandless.work.ff.frequency k)
         ∧ ¬(0 ≤ bandIndex (N := numerics) bandless.work.ff.frequency 1
             ∧ bandIndex (N := numerics) bandless.work.ff.frequency 1 < ([] : List Bool).length))
      ∧ (let s := worked imbe (fun w => { w with ff := { w.ff with harmonicCount := 56 }, fld := { w.fld with vuv := List.replicate 12 1 } })
         s.rom.legal = true ∧ 9 ≤ s.work.ff.harmonicCount ∧ s.work.ff.harmonicCount ≤ 56
         ∧ s.work.fld.vuv.length = s.rom.imbe.bandCount.getD (s.work.ff.harmonicCount - 9) 0) := by
  refine ⟨⟨tab 8 (Config.romVuv 0), rfl, rfl, rfl⟩, ⟨rfl, by decide, ?_⟩, ⟨rfl, rfl, by decide, by decide, by omega, ?_⟩,
    resetRom_legal, by decide, by decide, by decide +kernel⟩
  · show (tab 32 _).length ≤ 32
    simp
  · intro h; have := h.1; simp at h; omega
theorem witness_Voicing_band : (0 : ℝ) < Real.pi / 8 ∧ ((7 : ℕ) : ℝ) * (Real.pi / 8) < Real.pi
    ∧ ¬((8 : ℕ) : ℝ) * (Real.pi / 8) < Real.pi := by
  have := Real.pi_pos
  refine ⟨by positivity, ?_, ?_⟩ <;> push_cast <;> linarith

/-- R158, R168: the ends of the harmonic range; codebook indices inside, and one just beyond the second codebook. -/
theorem witness_Resid :
    (∀ l ∈ [9, 56], harmonicRange l)
      ∧ (∀ i, i < 4 → ambe.work.fld.hocIdx.getD i 0 < (ambe.rom.ambe.hoc.getD i []).length)
      ∧ (let s := worked ambe (fun w => { w with ff := { w.ff with harmonicCount := 56 }, fld := { w.fld with hocIdx := [31, 32] } })
         s.codec = .ambe ∧ s.rom.legal = true ∧ 2 < ((s.rom.ambe.jblock.getD (s.work.ff.harmonicCount - 9) []).getD 1 0)
           ∧ (s.rom.ambe.hoc.getD 1 []).length ≤ s.work.fld.hocIdx.getD 1 0
           ∧ ∀ k, k < 1 → s.work.fld.hocIdx.getD k 0 < (s.rom.ambe.hoc.getD k []).length) := by
  have hoc : ∀ i, i < 4 → (resetAmbeRom.hoc.getD i []).length = 32 := fun i hi => by
    change ((tab 4 (fun b => tab 32 (fun i => tab 4 (Config.romHoc b i)))).getD i []).length = 32
    rw [tab_getD_lt _ hi, tab_length]
  refine ⟨fun l hl => ?_, fun i hi => ?_, rfl, resetRom_legal, by decide +kernel, ?_, fun k hk => ?_⟩
  · simp only [List.mem_cons, List.not_mem_nil, or_false] at hl
    unfold harmonicRange; omega
  · change (tab 4 (fun _ => 0)).getD i 0 < (resetAmbeRom.hoc.getD i []).length
    rw [hoc i hi, tab_getD_lt _ hi]; decide
  · change (resetAmbeRom.hoc.getD 1 []).length ≤ 32
    rw [hoc 1 (by decide)]
  · have : k = 0 := by omega
    subst this
    change 31 < (resetAmbeRom.hoc.getD 0 []).length
    rw [hoc 0 (by decide)]; decide

theorem witness_Predict :
    (worked ambe (fun w => { w with cmp := { w.cmp with fundamentalFrequency := { w.cmp.fundamentalFrequency with harmonicCount := 56 } } })).work.cmp.fundamentalFrequency.harmonicCount
      ≤ 56 := by decide
/-- R23: the curve of any previous set, 0 at index 0 and clamped. -/
theorem witness_Interpolation (prev : ModelParams ℝ) : (1 : Nat) ≤ 1 ∧ (56 : Nat) ≤ 56 ∧ ∃ plog : Nat → ℝ, plog 0 = 0
    ∧ ∀ i, 1 ≤ i → plog i = prev.log2SpectralAmplitudes.getD (min i prev.fundamentalFrequency.harmonicCount) 0 :=
  ⟨le_refl _, le_refl _,
    fun i => if i = 0 then 0 else prev.log2SpectralAmplitudes.getD (min i prev.fundamentalFrequency.harmonicCount) 0, rfl,
    fun i h => if_neg (by omega)⟩

theorem replicate_getD {α : Type} {n i : Nat} (a d : α) (h : i < n) : (List.replicate n a).getD i d = a := by
  rw [List.getD_eq_getElem?_getD, List.getElem?_replicate, if_pos h]; rfl

/-- A parameter set over the reals with the harmonics 1 .. `lc`, all of amplitude `a`. -/
noncomputable def realParams (lc : Nat) (w0 a : ℝ) : ModelParams ℝ :=
  { defaultParams (N := realNumerics) .voice with
    fundamentalFrequency := { index := 0, frequency := w0, harmonicCount := lc, frameType := .voice }
    spectralAmplitudes := List.replicate 57 a }

/-- R182's denominator is 0 for an empty spectrum, and not 0 for one harmonic of amplitude 1 at `w0 = pi/2`. -/
theorem witness_Enhancement :
    ((realParams 56 1 0).fundamentalFrequency.harmonicCount ≤ 56
        ∧ ∑ l ∈ Finset.Icc 1 56, (realParams 56 1 0).spectralAmplitudes.getD l 0 ^ 2 = 0)
      ∧ (let m := fun l => (realParams 1 (Real.pi / 2) 1).spectralAmplitudes.getD l 0
         let rm0 := ∑ l ∈ Finset.Icc 1 1, m l ^ 2
         let rm1 := ∑ l ∈ Finset.Icc 1 1, m l ^ 2 * Real.cos (Real.pi / 2 * l)
         rm0 ≠ 0 ∧ Real.pi / 2 * rm0 * (rm0 ^ 2 - rm1 ^ 2) ≠ 0) := by
  refine ⟨⟨le_refl _, Finset.sum_eq_zero fun l hl => ?_⟩, ?_⟩
  · have := (Finset.mem_Icc.1 hl).2
    rw [realParams, replicate_getD _ _ (by omega)]; norm_num
  · have h1 : (realParams 1 (Real.pi / 2) 1).spectralAmplitudes.getD 1 0 = 1 := replicate_getD _ _ (by omega)
    simp only [Finset.Icc_self, Finset.sum_singleton, h1]
    simp [Real.pi_pos.ne']
theorem witness_Smoothing : (realParams 56 1 0).fundamentalFrequency.harmonicCount ≤ 56
    ∧ ∃ r, r = smoothParams (N := realNumerics) (defaultFns (N := realNumerics) (fun _ _ _ => 0) (fun _ _ => 0) (fun _ _ => 0)
        (fun _ _ _ _ => 0)) .ambe 7 0 0 (realParams 56 1 0) := ⟨le_refl _, _, rfl⟩

/-- R202: the last sample of the table, and the first beyond it on either side. -/
theorem witness_RealPrimitives : (105 : Int).natAbs < ambe.rom.window.length ∧ ambe.rom.window.length ≤ (106 : Int).natAbs
    ∧ ambe.rom.window.length ≤ (-106 : Int).natAbs := by
  rw [show ambe.rom.window.length = 106 from tab_length ..]; decide
theorem witness_TransformPair : (List.replicate 256 (1 : ℝ)).length = 256 ∧ (1 : Nat) ≤ 255 :=
  ⟨List.length_replicate, by decide⟩

/-- R206 at `w0 = pi/8`: the band of harmonic 1 holds the bins 8 .. 23, and a flat spectrum has energy there. -/
theorem witness_BandsAndBins :
    0 < Real.pi / 8 ∧ bandLo (N := realNumerics) (Real.pi / 8) 1 = 8 ∧ bandHi (N := realNumerics) (Real.pi / 8) 1 = 24
      ∧ ownsBin (N := realNumerics) (Real.pi / 8) 1 8 = true
      ∧ (∑ i ∈ Finset.Ico (8 : ℤ).toNat (24 : ℤ).toNat, (((List.replicate 256 ((1 : ℝ), (0 : ℝ))).getD i (0, 0)).1 ^ 2
          + ((List.replicate 256 ((1 : ℝ), (0 : ℝ))).getD i (0, 0)).2 ^ 2)) ≠ 0
      ∧ (realParams 1 (Real.pi / 8) 1).voicingDecisions.getD 1 false = false := by
  have hpi := Real.pi_pos.ne'
  have hlo : bandLo (N := realNumerics) (Real.pi / 8) 1 = 8 := by
    simp only [bandLo, real_ceil, real_mul, real_div, real_sub, real_ri, real_pi, Literal.half, real_rlit]
    rw [show ((256 : ℤ) : ℝ) / (((2 : ℤ) : ℝ) * Real.pi) * (((1 : ℕ) : ℤ) - ((5 : ℤ) : ℝ) / ((10 : ℕ) : ℝ)) * (Real.pi / 8) = ((8 : ℤ) : ℝ) by
      push_cast; field_simp; norm_num]
    exact Int.ceil_intCast 8
  have hhi : bandHi (N := realNumerics) (Real.pi / 8) 1 = 24 := by
    simp only [bandHi, real_ceil, real_mul, real_div, real_add, real_ri, real_pi, Literal.half, real_rlit]
    rw [show ((256 : ℤ) : ℝ) / (((2 : ℤ) : ℝ) * Real.pi) * (((1 : ℕ) : ℤ) + ((5 : ℤ) : ℝ) / ((10 : ℕ) : ℝ)) * (Real.pi / 8) = ((24 : ℤ) : ℝ) by
      push_cast; field_simp; norm_num]
    exact Int.ceil_intCast 24
  refine ⟨by positivity, hlo, hhi, by unfold ownsBin; rw [hlo, hhi]; rfl, ?_, rfl⟩
  · change (∑ i ∈ Finset.Ico 8 24, _) ≠ 0
    rw [Finset.sum_congr rfl (g := fun _ => (1 : ℝ)) fun i hi => ?_]
    · simp
    · have := (Finset.mem_Ico.1 hi).2
      rw [replicate_getD _ _ (by omega)]; norm_num

/-- R208: a voiced band with the same bins, the bins either side of it, which no band owns, and the two ends of the mirror; a
set whose amplitudes are all 0. -/
theorem witness_BandsAndBins_zero :
    let p := { realParams 1 (Real.pi / 8) 1 with voicingDecisions := [false, true] }
    (p.voicingDecisions.getD 1 false = true ∧ ownsBin (N := realNumerics) p.fundamentalFrequency.frequency 1 8 = true)
      ∧ (∀ m ∈ ([7, 24] : List Nat), m ≤ 128 ∧ ∀ l : Nat, 1 ≤ l → l ≤ p.fundamentalFrequency.harmonicCount →
          ¬(⌈256 / (2 * Real.pi) * ((l : ℝ) - 0.5) * p.fundamentalFrequency.frequency⌉ ≤ (m : ℤ)
            ∧ (m : ℤ) < ⌈256 / (2 * Real.pi) * ((l : ℝ) + 0.5) * p.fundamentalFrequency.frequency⌉))
      ∧ (∀ m ∈ ([129, 255] : List Nat), 129 ≤ m ∧ m ≤ 255)
      ∧ ∀ l, l ≤ p.fundamentalFrequency.harmonicCount → (realParams 1 (Real.pi / 8) 0).enhancedSpectralAmplitudes.getD l 0 = 0 := by
  have hpi := Real.pi_pos.ne'
  refine ⟨⟨rfl, witness_BandsAndBins.2.2.2.1⟩, fun m hm => ?_, by decide, fun l hl => ?_⟩
  · simp only [List.mem_cons, List.not_mem_nil, or_false] at hm
    refine ⟨by omega, fun l h1 h2 => ?_⟩
    have : l = 1 := by change l ≤ 1 at h2; omega
    subst this
    have hlo : ⌈256 / (2 * Real.pi) * (((1 : ℕ) : ℝ) - 0.5) * (Real.pi / 8)⌉ = 8 := by
      rw [show 256 / (2 * Real.pi) * (((1 : ℕ) : ℝ) - 0.5) * (Real.pi / 8) = ((8 : ℤ) : ℝ) by push_cast; field_simp; norm_num]
      exact Int.ceil_intCast 8
    have hhi : ⌈256 / (2 * Real.pi) * (((1 : ℕ) : ℝ) + 0.5) * (Real.pi / 8)⌉ = 24 := by
      rw [show 256 / (2 * Real.pi) * (((1 : ℕ) : ℝ) + 0.5) * (Real.pi / 8) = ((24 : ℤ) : ℝ) by push_cast; field_simp; norm_num]
      exact Int.ceil_intCast 24
    change ¬(⌈256 / (2 * Real.pi) * (((1 : ℕ) : ℝ) - 0.5) * (Real.pi / 8)⌉ ≤ (m : ℤ)
      ∧ (m : ℤ) < ⌈256 / (2 * Real.pi) * (((1 : ℕ) : ℝ) + 0.5) * (Real.pi / 8)⌉)
    rw [hlo, hhi]; omega
  · have h1 : l ≤ 1 := hl
    change (tab phaseLen fun _ => ri (N := realNumerics) 0).getD l 0 = 0
    rw [tab_getD_lt _ (by simp only [phaseLen]; omega), real_ri]; norm_num

/-- Every branch of R225 at its boundary: harmonic 8 and harmonic 7, a jump and none. -/
theorem witness_Oscillators :
    branchOf false false false 7 = .none ∧ branchOf true false false 7 = .fadeOut ∧ branchOf false true false 7 = .fadeIn
      ∧ branchOf true true false 8 = .twoCos ∧ branchOf true true true 7 = .twoCos ∧ branchOf true true false 7 = .smooth
      ∧ ∃ pv, pv = trackedPhases (N := realNumerics) (realParams 9 1 1) (realParams 9 1 1) (List.replicate 57 0) :=
  ⟨rfl, rfl, rfl, rfl, rfl, rfl, _, rfl⟩

theorem witness_OverlapAdd : ∃ ws : List ℝ, ws = defaultWindow (N := realNumerics) := ⟨_, rfl⟩

end Sys2Proof.Tests
end

section
/-! SUPPORT. What one step can do to the state, and the three statements of 10_state.md: a step runs the instruction decoded
(R12, R75), writes neither the strap nor the ROM (R13, R55, R265), and keeps the invariant of the machine. -/

namespace Sys2Proof.Machine

/-! ### What a step runs (R12, R75) -/

/-- The dispatch of what a step fetched, whichever of the two ways it fetched it. -/
theorem step_fetched {s : State} {i : Instr} {rest : List CodeWord} (hp : s.poresetRequest = false)
    (hb : s.stage = Stage.idle → portBegins s.port = true) (hd : decodeOver s.fetch = .ok i rest) :
    step s = runFetched exec s i (s.consume rest) := by
  by_cases hs : s.stage = Stage.idle
  · rw [step_idle hp hs, stepIdle, if_pos (hb hs), hd]
  · rw [step_stage hp hs, stepStage, hd]

theorem runFetched_stage {s s' : State} {i : Instr} (h : s.stage.toNat < 32) : runFetched exec s i s' = exec i s' :=
  if_neg (by simp [isPrimitiveStage, h])

theorem runFetched_primitive {s s' : State} {i : Instr} (h : 32 ≤ s.stage.toNat) :
    runFetched exec s i s' = endPrimitive (exec i s') := if_pos (by simp [isPrimitiveStage, h])

/-- Settles O5: the fetched instruction is dispatched, a primitive through `endPrimitive`. -/
theorem stepRunsTheDecodedInstruction : Obligations.StepRunsTheDecodedInstruction := by
  intro s i rest hp hb hd
  rw [step_fetched hp hb hd]
  refine ⟨runFetched_stage, fun h t ht => ?_⟩
  rw [runFetched_primitive h, ht]; rfl

/-! ### Everything a step can do -/

/-- What one step can do: a `PORESET` (R330), a wait (R245, R322), one of the commands at rest (R60, R61), the stage that
`STAGE` names, or a primitive, after which `STAGE` is `IDLE`. -/
inductive StepEffect (s : State) : State → Prop
  | poreset : StepEffect s s.poreset
  | wait : StepEffect s s
  | result (ws : List CodeWord) (r : CommandResult) : StepEffect s { s with port := ws, result := r }
  | rejected (ws : List CodeWord) (x : Raised) : StepEffect s (State.raise { s with port := ws } x)
  | reset (ws : List CodeWord) : StepEffect s (resetCommand { s with port := ws, result := .none })
  | gain (ws : List CodeWord) (g : MReal) (hg : gainOk (N := numerics) g = true ∨ g = s.gain) :
      StepEffect s { s with port := ws, result := .none, gain := g }
  | decode (ws : List CodeWord) (n : BitVec 16) (bytes : List Byte) (hrun : s.halted = false) :
      StepEffect s (decodeCommandBody n bytes { s with port := ws, result := .none })
  | stage (t : State) (hp : s.poresetRequest = false) (h1 : 1 ≤ s.stage.toNat) (h2 : s.stage.toNat ≤ 25)
      (h : step s = .next t) : StepEffect s t
  | primitive (ws : List CodeWord) (t : State) (h : PrimitiveEffect { s with operands := ws } s.stage t) :
      StepEffect s { t with stage := Stage.idle }

/-- A step at rest waits or takes one command. -/
theorem step_idle_effect {s t : State} (hp : s.poresetRequest = false) (hs : s.stage = Stage.idle)
    (h : step s = .next t) : StepEffect s t := by
  rcases step_idle_next hp hs h with rfl | ⟨ws, h | h | ⟨g, h⟩ | ⟨n, bytes, h⟩ | ⟨cmd, h⟩⟩
  · exact .wait
  · obtain ⟨r, rfl⟩ := name_next h
    exact .result ws r
  · rcases reset_next h with rfl | rfl
    · exact .result ws .none
    · exact .reset ws
  · rcases setgain_next h with ⟨g, rfl, hg⟩ | ⟨x, rfl⟩
    · exact .gain ws g hg
    · exact .rejected ws x
  · rcases decode_next h with rfl | ⟨hrun, rfl⟩
    · exact .result ws .none
    · exact .decode ws n bytes hrun
  · rcases illegal_next h with rfl | ⟨x, rfl⟩
    · exact .result ws .none
    · exact .rejected ws x

theorem step_effect {s t : State} (h : step s = .next t) : StepEffect s t := by
  by_cases hp : s.poresetRequest = true
  · rw [step_poreset hp] at h
    injection h with h
    exact h ▸ .poreset
  have hp : s.poresetRequest = false := by simpa using hp
  by_cases hs : s.stage = Stage.idle
  · exact step_idle_effect hp hs h
  rcases step_stage_next hp hs h with ⟨h1, h2⟩ | ⟨h32, -, i, ws, t', hd, he, rfl⟩ | ⟨-, -, rfl⟩
  · exact .stage t hp h1 h2 h
  · exact .primitive ws t' (primitive_next h32 hd he)
  · exact .wait

/-! ### The strap and the ROM -/

/-- The strap and the ROM agree. -/
def SameStrapAndRom (s t : State) : Prop := t.codec = s.codec ∧ t.rom = s.rom

theorem StageEffect.sameStrapAndRom {s t : State} (h : StageEffect s t) : SameStrapAndRom s t := by
  cases h <;> exact ⟨rfl, rfl⟩

theorem PrimitiveEffect.sameStrapAndRom {s t : State} {id : BitVec 6} (h : PrimitiveEffect s id t) :
    SameStrapAndRom s t := by
  cases h <;> exact ⟨rfl, rfl⟩

/-- Settles O13, by what a step can do. -/
theorem stepKeepsStrapAndRom : Obligations.StepKeepsStrapAndRom := by
  intro s t ht
  cases step_effect ht with
  | stage _ hp h1 h2 h => exact (stage_effect hp h1 h2 h).sameStrapAndRom
  | primitive _ u h => exact h.sameStrapAndRom
  | poreset | wait | result | rejected | reset | gain | decode => exact ⟨rfl, rfl⟩

/-! ### The invariant of a state whose carried registers are kept -/

/-- A step that keeps the carried registers keeps the invariant, if what it writes besides keeps its own parts of it. -/
theorem Inv.of_carried {s t : State} (h : Inv s) (hc : SameCarried s t) (hctl : ControlInv t) (hw : WorkShape t)
    (hp : PathInv t) : Inv t where
  rom := hc.rom ▸ h.rom
  control := hctl
  synth := hc.ss ▸ h.synth
  host := ⟨hc.gain ▸ h.host.gain, hc.status ▸ h.host.frameType, hc.status ▸ h.host.errors,
    hc.codec ▸ hc.tone ▸ h.host.imbeTone⟩
  pmp := hc.pmp ▸ h.pmp
  shape := hc.pmp ▸ h.shape
  work := hw
  path := hp

/-- Before `TONECHK` the working registers promise nothing about `CMP`. -/
theorem pathInv_of_le {s : State} (h : s.stage.toNat ≤ 7) : PathInv s := by
  constructor <;> intros <;> omega

/-- From `GAIN` on `CMP` is in its ranges. -/
theorem pathInv_of_cmp {s : State} (h : 14 ≤ s.stage.toNat) (hp : ParamsInv s.work.cmp) : PathInv s where
  entry := by omega
  tableType := by omega
  fromTable := by omega
  ambeType := by omega
  decoded := by omega
  cmp := fun _ _ => hp

theorem pathInv_idle {s : State} (h : s.stage = Stage.idle) : PathInv s := pathInv_of_le (by rw [h]; decide)

theorem controlInv_idle {s : State} (h : s.stage = Stage.idle) (hf : s.fault.toNat ≤ 6) : ControlInv s :=
  ⟨.inl (by rw [h]; decide), hf, fun _ => h⟩

/-- The invariant at rest, where the sequencer promises nothing about the working registers but their sizes. -/
theorem Inv.rest {s t : State} (h : Inv s) (hc : SameCarried s t) (hs : t.stage = Stage.idle) (hf : t.fault.toNat ≤ 6)
    (hw : WorkShape t) : Inv t := h.of_carried hc (controlInv_idle hs hf) hw (pathInv_idle hs)

/-- The words that wait, the result shown and the counters are no part of the invariant. -/
theorem Inv.of_registers {s t : State} (h : Inv s) (hc : SameCarried s t) (hs : t.stage = s.stage) (hf : t.fault = s.fault)
    (hw : t.work = s.work) : Inv t := by
  refine h.of_carried hc ⟨hs ▸ h.control.stage, hf ▸ h.control.fault, fun hh => ?_⟩ (h.work.congr hw hc.codec hc.rom)
    ⟨?_, ?_, ?_, ?_, ?_, ?_⟩
  · rw [hs]; exact h.control.halted (by rwa [State.halted, hf] at hh)
  · rw [hs, hw]; exact h.path.entry
  · rw [hs, hw]; exact h.path.tableType
  · rw [hs, hw]; exact h.path.fromTable
  · rw [hs, hw, hc.codec]; exact h.path.ambeType
  · rw [hs, hw]; exact h.path.decoded
  · rw [hs, hw]; exact h.path.cmp

theorem Inv.host_side {s : State} (h : Inv s) (ws : List CodeWord) (r : CommandResult) :
    Inv { s with port := ws, result := r } := h.of_registers ⟨rfl, rfl, rfl, rfl, rfl, rfl, rfl⟩ rfl rfl rfl

/-- An exception keeps the invariant (R306). -/
theorem Inv.raise {s : State} (h : Inv s) (x : Raised) : Inv (s.raise x) :=
  h.rest ⟨rfl, rfl, rfl, rfl, rfl, rfl, rfl⟩ rfl (code_range x).2 (raise_shape h.work x)

/-- Only at rest can the machine be halted (R246). -/
theorem Inv.running {s : State} (h : Inv s) (hs : 1 ≤ s.stage.toNat) : s.halted = false := by
  by_contra hh
  have h0 := h.control.halted (by simpa using hh)
  rw [h0] at hs
  exact absurd hs (by decide)

/-! ### The resets -/

theorem GoodDefault.paramsInv {p : ModelParams MReal} (h : GoodDefault p) : ParamsInv p :=
  ⟨⟨h.low, h.high⟩, by rw [h.repeats]; omega⟩

theorem resetSynth_inv : SynthInv resetSynth where
  phaseV := tab_length ..
  phaseO := tab_length ..
  prevUw := tab_length ..
  noiseBuf := tab_length ..
  noiseRange := fun x hx => by obtain ⟨_, -, rfl⟩ := mem_tab.1 hx; omega
  noiseReg := by decide

/-- The invariant holds after `PORESET` with a legal ROM (R331). -/
theorem powerOn_inv (c : Codec) {rom : Rom} (hl : rom.legal = true) : Inv (State.powerOn c rom) where
  rom := hl
  control := controlInv_idle rfl (Nat.zero_le 6)
  synth := resetSynth_inv
  host := ⟨.inl rfl, Nat.zero_le 4, tab_length .., fun _ => rfl⟩
  pmp := (mpDefault_good hl c).paramsInv
  shape := (mpDefault_good hl c).shape
  work := zeroWork_shape (mpDefault_good hl c).shape rfl
  path := pathInv_idle rfl

theorem poreset_inv {s : State} (hl : s.rom.legal = true) : Inv s.poreset :=
  (powerOn_inv s.codec hl).of_registers ⟨rfl, rfl, rfl, rfl, rfl, rfl, rfl⟩ rfl rfl rfl

theorem invalidTone_valid (k : Nat) : (invalidTone k).valid = false := rfl

/-- `RESET` keeps the invariant (R250). -/
theorem resetCommand_inv {s : State} (h : Inv s) : Inv (resetCommand s) where
  rom := h.rom
  control := { h.control with }
  synth := resetSynth_inv
  host :=
    { h.host with
      frameType := Nat.zero_le 4
      errors := tab_length ..
      imbeTone := fun _ => by
        rw [resetCommand_tone]
        split
        · exact invalidTone_valid _
        · next hv => simpa using hv }
  pmp := (mpDefault_good h.rom s.codec).paramsInv
  shape := (mpDefault_good h.rom s.codec).shape
  work := h.work.congr rfl rfl rfl
  path := { h.path with }

theorem gain_inv {s : State} {g : MReal} (h : Inv s) (hg : gainOk (N := numerics) g = true ∨ g = s.gain) :
    Inv { s with gain := g } :=
  { h with
    control := { h.control with }
    host := { h.host with gain := hg.elim .inr fun e => e ▸ h.host.gain }
    work := { h.work with }
    path := { h.path with } }

theorem decodeCommandBody_inv {s : State} (h : Inv s) (hrun : s.halted = false) (n : BitVec 16) (bytes : List Byte) :
    Inv (decodeCommandBody n bytes s) :=
  have hs : (decodeCommandBody n bytes s).stage.toNat = 1 := rfl
  h.of_carried ⟨rfl, rfl, rfl, rfl, rfl, rfl, rfl⟩
    ⟨.inl (by omega), h.control.fault, fun hh => by cases hrun.symm.trans hh⟩ { h.work with } (pathInv_of_le (by omega))

/-! ### The stages: what a step leaves of the path to `CMP` -/

/-- What the step of a stage leaves: a stage, spaces of their own size, and what the next stage counts on. -/
structure Arrived (t : State) : Prop where
  stage : t.stage.toNat ≤ 25
  work : WorkShape t
  path : PathInv t

theorem Arrived.early {t : State} (id : BitVec 6) (hs : t.stage = id) (h : id.toNat ≤ 7) (hw : WorkShape t) : Arrived t := by
  subst hs
  exact ⟨by omega, hw, pathInv_of_le h⟩

theorem Arrived.withCmp {t : State} (id : BitVec 6) (hs : t.stage = id) (h : 14 ≤ id.toNat ∧ id.toNat ≤ 25)
    (hp : ParamsInv t.work.cmp) (hw : WorkShape t) : Arrived t := by
  subst hs
  exact ⟨h.2, hw, pathInv_of_cmp h.1 hp⟩

/-- At the stages between `TONECHK` and `MPNEW` only the classification counts. -/
theorem Arrived.classified {t : State} (id : BitVec 6) (hs : t.stage = id) (h : 9 ≤ id.toNat ∧ id.toNat ≤ 12)
    (hentry : decodedType t.work.ff.frameType → harmonicRange t.work.ff.harmonicCount)
    (htable : decodedType t.work.frameType → t.work.frameType = t.work.ff.frameType)
    (hvalid : t.codec = .ambe → t.work.frameType ≠ .invalid) (hw : WorkShape t) : Arrived t := by
  subst hs
  exact ⟨by omega, hw, fun _ _ => hentry, by omega, fun _ _ => htable, fun hc _ _ => hvalid hc, by omega, by omega⟩

theorem settle_arrived {s t : State} {r : Except Raised State} (hw : WorkShape s) (hr : ∀ u, r = .ok u → Arrived u)
    (h : settle s r = .next t) : Arrived t := by
  rcases settle_next h with h | ⟨x, -, rfl⟩
  · exact hr t h
  · exact .early Stage.idle rfl (by decide) (raise_shape hw x)

/-- `TONECHK` makes no frame decoded: a type that is decoded after it is the table's (R130 to R132). -/
theorem decodedType_of_toneClassify {tc high : Bool} {table : FrameType}
    (h : decodedType (toneClassify tc table high).1) : (toneClassify tc table high).1 = table := by
  rcases toneClassify_cases tc table high with e | e | e
  · rw [e] at h; rcases h with h | h <;> cases h
  · rw [e] at h; rcases h with h | h <;> cases h
  · exact e

theorem toneClassify_ne_invalid {tc high : Bool} {table : FrameType} (h : table ≠ .invalid) :
    (toneClassify tc table high).1 ≠ .invalid := by
  rcases toneClassify_cases tc table high with e | e | e <;> rw [e]
  · simp
  · simp
  · exact h

/-- `W0IDX` leaves an entry that is in range where its type is decoded (R129). -/
theorem w0idxStage_arrived {s t : State} (h : Inv s) (ht : w0idxStage s = .ok t) : Arrived t := by
  have hw := w0idxStage_shape h.work ht
  obtain ⟨v, ff, -, hff, rfl⟩ := w0idxStage_ok ht
  obtain ⟨hrange, hvalid⟩ := ffFind_good h.rom hff
  have hst : (afterW0idx s.codec).toNat ≤ 9 := by cases s.codec <;> decide
  refine ⟨hst.trans (by omega), hw, fun _ _ => hrange, fun _ => rfl, fun _ _ _ => rfl, fun hc _ _ => hvalid hc,
    fun h13 => ?_, fun h14 => ?_⟩
  · exact absurd (h13 ▸ hst : (13 : Nat) ≤ 9) (by omega)
  · exact absurd (h14.trans hst) (by omega)

/-- `TONECHK` reclassifies the frame and leaves its table entry. -/
theorem tonechkStage_arrived {s t : State} (h : Inv s) (hs : s.stage.toNat = 8) (ht : tonechkStage s = .ok t) :
    Arrived t := by
  have hw := tonechkStage_shape h.work ht
  have hentry := h.path.entry (by omega) (by omega)
  cases hc : s.codec with
  | imbe =>
    rw [tonechkStage_imbe hc] at ht
    cases ht
    exact .classified Stage.fields rfl (by decide) hentry (h.path.fromTable (by omega) (by omega))
      (fun hc => h.path.ambeType hc (by omega) (by omega)) hw
  | ambe =>
    obtain ⟨v, tone, -, -, rfl⟩ := tonechkStage_ambe hc ht
    have htable : s.work.ff.frameType ≠ .invalid := h.path.tableType hs ▸ h.path.ambeType hc (by omega) (by omega)
    exact .classified Stage.fields rfl (by decide) hentry decodedType_of_toneClassify
      (fun _ => toneClassify_ne_invalid htable) hw

theorem fieldsStage_arrived {s t : State} (h : Inv s) (hs : s.stage.toNat = 9) (ht : fieldsStage s = .ok t) :
    Arrived t := by
  have hw := fieldsStage_shape h.work h.rom ht
  rw [fieldsStage_ok ht] at hw ⊢
  exact .classified Stage.repeatchk rfl (by decide) (h.path.entry (by omega) (by omega))
    (h.path.fromTable (by omega) (by omega)) (fun hc => h.path.ambeType hc (by omega) (by omega)) hw

theorem afterRepeatchk_range (rep : Bool) (ft : FrameType) :
    11 ≤ (afterRepeatchk rep ft).toNat ∧ (afterRepeatchk rep ft).toNat ≤ 13 := by
  unfold afterRepeatchk; split_ifs <;> decide

/-- `MPNEW` follows where the frame neither repeats nor is a tone (R145). -/
theorem afterRepeatchk_mpnew {rep : Bool} {ft : FrameType} (h : (afterRepeatchk rep ft).toNat = 13) :
    rep = false ∧ ft ≠ .tone := by
  unfold afterRepeatchk at h
  split_ifs at h with hrep htone
  · exact absurd h (by decide)
  · exact absurd h (by decide)
  · exact ⟨by simpa using hrep, htone⟩

/-- A frame that goes on to `MPNEW` is of a decoded type: `REPEATCHK` repeats an erasure and an invalid IMBE frame, an
AMBE frame is never invalid (R68, R145). -/
theorem repeatchkStage_decoded {s : State} (hvalid : s.codec = .ambe → s.work.frameType ≠ .invalid)
    (h : (repeatchkStage s).stage.toNat = 13) : decodedType s.work.frameType := by
  obtain ⟨hrep, htone⟩ := afterRepeatchk_mpnew h
  obtain ⟨herasure, hinvalid⟩ := repeatCheck_false hrep
  have hcodec : s.work.frameType ≠ .invalid := by
    cases hc : s.codec with
    | ambe => exact hvalid hc
    | imbe => exact hinvalid hc
  cases hft : s.work.frameType with
  | voice => exact .inl rfl
  | silence => exact .inr rfl
  | erasure => exact absurd hft herasure
  | tone => exact absurd hft htone
  | invalid => exact absurd hft hcodec

theorem repeatchkStage_arrived {s : State} (h : Inv s) (hs : s.stage.toNat = 10) : Arrived (repeatchkStage s) := by
  have hst : 11 ≤ (repeatchkStage s).stage.toNat ∧ (repeatchkStage s).stage.toNat ≤ 13 := afterRepeatchk_range ..
  have hvalid : s.codec = .ambe → s.work.frameType ≠ .invalid := fun hc => h.path.ambeType hc (by omega) (by omega)
  exact ⟨by omega, repeatchkStage_shape h.work, fun _ _ => h.path.entry (by omega) (by omega), by omega,
    fun _ _ => h.path.fromTable (by omega) (by omega), fun hc _ _ => hvalid hc, repeatchkStage_decoded hvalid, by omega⟩

/-- `REPEAT` counts no further than the four repeats after which it mutes (R146). -/
theorem repeatStage_cmp {s : State} (h : Inv s) : ParamsInv (repeatStage s).work.cmp := by
  unfold repeatStage
  split
  · exact (mpDefault_good h.rom s.codec).paramsInv
  · next hk => exact ⟨h.pmp.harmonics, Nat.not_le.1 hk⟩

theorem repeatStage_arrived {s : State} (h : Inv s) : Arrived (repeatStage s) :=
  .withCmp Stage.noise (repeatStage_stage s) (by decide) (repeatStage_cmp h)
    (repeatStage_shape h.work h.shape (mpDefault_good h.rom s.codec).shape)

theorem tonesetStage_arrived {s : State} (h : Inv s) : Arrived (tonesetStage s) :=
  have hd := mpDefault_good h.rom .ambe
  .withCmp Stage.noise rfl (by decide) ⟨hd.paramsInv.harmonics, Nat.zero_le 4⟩ (tonesetStage_shape h.work hd.shape)

/-- `MPNEW` starts `CMP` at the entry of a decoded frame (R149). -/
theorem mpnewStage_arrived {s : State} (h : Inv s) (hs : s.stage.toNat = 13) : Arrived (mpnewStage s) := by
  have hd := h.path.decoded hs
  have hff : decodedType s.work.ff.frameType := h.path.fromTable (by omega) (by omega) hd ▸ hd
  exact .withCmp Stage.gain rfl (by decide) ⟨h.path.entry (by omega) (by omega) hff, Nat.zero_le 4⟩ (mpnewStage_shape h.work)

theorem gainStage_arrived {s t : State} (h : Inv s) (hc : ParamsInv s.work.cmp) (ht : gainStage s = .ok t) : Arrived t := by
  have hw := gainStage_shape h.work ht
  rw [gainStage_ok ht] at hw ⊢
  exact .withCmp Stage.voicing rfl (by decide) ⟨hc.harmonics, hc.repeats⟩ hw

theorem voicingStage_arrived {s t : State} (h : Inv s) (hc : ParamsInv s.work.cmp) (ht : voicingStage s = .ok t) :
    Arrived t := by
  have hw := voicingStage_shape h.work ht
  obtain ⟨vs, -, rfl⟩ := voicingStage_ok ht
  exact .withCmp Stage.resid rfl (by decide) ⟨hc.harmonics, hc.repeats⟩ hw

theorem residStage_arrived {s t : State} (h : Inv s) (hc : ParamsInv s.work.cmp) (ht : residStage s = .ok t) :
    Arrived t := by
  have hw := residStage_shape h.work h.rom ht
  rw [residStage_ok ht] at hw ⊢
  exact .withCmp Stage.predict rfl (by decide) hc hw

theorem enhanceStage_cmp {s : State} (h : ParamsInv s.work.cmp) : ParamsInv (enhanceStage s).work.cmp := by
  obtain ⟨hff, hrep⟩ := enhance_ff (Config.freeWeight s.freeCtr) s.pmp.localEnergy s.work.weights s.work.cmp
  exact ⟨hff ▸ h.harmonics, hrep ▸ h.repeats⟩

/-- Every stage arrives: the stages 1 to 13 lead to `CMP`, the stages 14 to 24 keep its ranges, `COMMIT` ends. -/
theorem step_stage_arrived {s t : State} (h : Inv s) (hp : s.poresetRequest = false) (h1 : 1 ≤ s.stage.toNat)
    (h2 : s.stage.toNat ≤ 25) (ht : step s = .next t) : Arrived t := by
  have hcmp : 14 ≤ s.stage.toNat → ParamsInv s.work.cmp := fun h14 => h.path.cmp h14 h2
  rcases stage_ids h1 h2 with e | e | e | e | e | e | e | e | e | e | e | e | e | e | e | e | e | e | e | e | e | e | e | e | e
  · rw [step_load hp (stage_of e)] at ht
    refine settle_arrived h.work (fun u hu => ?_) ht
    exact .early Stage.partition (by rw [(loadStage_ok hu).2]) (by decide) (loadStage_shape h.work hu)
  · rw [step_partition hp (stage_of e)] at ht
    refine settle_arrived h.work (fun u hu => ?_) ht
    exact .early Stage.ecc0 (by rw [partitionStage_ok hu]) (by decide) (partitionStage_shape h.work hu)
  · rw [step_ecc0 hp (stage_of e)] at ht
    refine settle_arrived h.work (fun u hu => ?_) ht
    exact .early Stage.derand (by rw [ecc0Stage_ok hu]) (by decide) (ecc0Stage_shape h.work hu)
  · rw [step_derand hp (stage_of e)] at ht
    refine settle_arrived h.work (fun u hu => ?_) ht
    exact .early Stage.eccn (by rw [derandStage_ok hu]) (by decide) (derandStage_shape h.work hu)
  · rw [step_eccn hp (stage_of e)] at ht
    refine settle_arrived h.work (fun u hu => ?_) ht
    exact .early Stage.errsum (by rw [eccnStage_ok hu]) (by decide) (eccnStage_shape h.work hu)
  · rw [step_errsum hp (stage_of e)] at ht
    cases ht; exact .early Stage.w0idx rfl (by decide) (errsumStage_shape h.work)
  · rw [step_w0idx hp (stage_of e)] at ht
    exact settle_arrived h.work (fun u => w0idxStage_arrived h) ht
  · rw [step_tonechk hp (stage_of e)] at ht
    exact settle_arrived h.work (fun u => tonechkStage_arrived h e) ht
  · rw [step_fields hp (stage_of e)] at ht
    exact settle_arrived h.work (fun u => fieldsStage_arrived h e) ht
  · rw [step_repeatchk hp (stage_of e)] at ht
    cases ht; exact repeatchkStage_arrived h e
  · rw [step_repeatFrame hp (stage_of e)] at ht
    cases ht; exact repeatStage_arrived h
  · rw [step_toneset hp (stage_of e)] at ht
    cases ht; exact tonesetStage_arrived h
  · rw [step_mpnew hp (stage_of e)] at ht
    cases ht; exact mpnewStage_arrived h e
  · rw [step_gain hp (stage_of e)] at ht
    exact settle_arrived h.work (fun u => gainStage_arrived h (hcmp (by omega))) ht
  · rw [step_voicing hp (stage_of e)] at ht
    exact settle_arrived h.work (fun u => voicingStage_arrived h (hcmp (by omega))) ht
  · rw [step_resid hp (stage_of e)] at ht
    exact settle_arrived h.work (fun u => residStage_arrived h (hcmp (by omega))) ht
  · rw [step_predict hp (stage_of e)] at ht
    have hc := hcmp (by omega)
    cases ht; exact .withCmp Stage.enhance rfl (by decide) ⟨hc.harmonics, hc.repeats⟩ (predictStage_shape h.work)
  · rw [step_enhance hp (stage_of e)] at ht
    cases ht; exact .withCmp Stage.smooth rfl (by decide) (enhanceStage_cmp (hcmp (by omega))) (enhanceStage_shape h.work)
  · rw [step_smooth hp (stage_of e)] at ht
    have hc := hcmp (by omega)
    cases ht; exact .withCmp Stage.noise rfl (by decide) ⟨hc.harmonics, hc.repeats⟩ (smoothStage_shape h.work)
  · rw [step_noise hp (stage_of e)] at ht
    cases ht; exact .withCmp Stage.unvoiced rfl (by decide) (hcmp (by omega)) (noiseStage_shape h.work)
  · rw [step_unvoiced hp (stage_of e)] at ht
    cases ht; exact .withCmp Stage.phase rfl (by decide) (hcmp (by omega)) (unvoicedStage_shape h.work)
  · rw [step_phase hp (stage_of e)] at ht
    cases ht; exact .withCmp Stage.voiced rfl (by decide) (hcmp (by omega)) (phaseStage_shape h.work)
  · rw [step_voiced hp (stage_of e)] at ht
    cases ht; exact .withCmp Stage.combine rfl (by decide) (hcmp (by omega)) (voicedStage_shape h.work)
  · rw [step_combine hp (stage_of e)] at ht
    cases ht; exact .withCmp Stage.commit rfl (by decide) (hcmp (by omega)) (combineStage_shape h.work)
  · rw [step_commit hp (stage_of e)] at ht
    cases ht; exact .early Stage.idle rfl (by decide) (commitStage_shape s)

/-! ### The stages that write carried state -/

theorem rollNoise_length (buf : List Nat) (reg : Nat) : (rollNoise buf reg).length = 256 := by
  rw [rollNoise, List.length_append, tab_length, noiseRun_length]; rfl

theorem getD_le {xs : List Nat} {b : Nat} (h : ∀ x ∈ xs, x ≤ b) (i : Nat) : xs.getD i 0 ≤ b := by
  by_cases hi : i < xs.length
  · rw [List.getD_eq_getElem _ _ hi]; exact h _ (List.getElem_mem hi)
  · rw [List.getD_eq_default _ _ (by omega)]; exact Nat.zero_le b

theorem rollNoise_le {buf : List Nat} (h : ∀ x ∈ buf, x ≤ 53124) (reg : Nat) : ∀ x ∈ rollNoise buf reg, x ≤ 53124 := by
  intro x hx
  rcases List.mem_append.1 hx with hold | hnew
  · obtain ⟨i, -, rfl⟩ := mem_tab.1 hold
    exact getD_le h _
  · exact noiseRun_le _ _ x hnew

/-- `NOISE` keeps the buffer's length and the range of its values (R200, R201). -/
theorem noiseStage_synth {s : State} (h : SynthInv s.ss) : SynthInv (noiseStage s).ss :=
  { h with
    noiseBuf := rollNoise_length ..
    noiseRange := rollNoise_le h.noiseRange _
    noiseReg := noiseIter_le _ _ h.noiseReg }

theorem frameType_code_le (ft : FrameType) : ft.code.toNat ≤ 4 := by cases ft <;> decide

/-- With the strap at IMBE no tone is committed (R258, R259). -/
theorem toneOf_imbe {s : State} (h : s.codec = .imbe) : (toneOf s).valid = false := by
  rw [toneOf, if_neg (by simp [toneCommitted, h]), invalidTone_valid]

/-- `COMMIT` of a `CMP` in its ranges (R258). -/
theorem commitStage_inv {s : State} (h : Inv s) (hc : ParamsInv s.work.cmp) : Inv (commitStage s) where
  rom := h.rom
  control := controlInv_idle rfl h.control.fault
  synth := { h.synth with phaseV := tab_length .., phaseO := tab_length .., prevUw := tab_length .. }
  host := ⟨h.host.gain, frameType_code_le _, tab_length .., toneOf_imbe (s := s)⟩
  pmp := hc
  shape := h.work.cmp
  work := commitStage_shape s
  path := pathInv_idle rfl

/-- The step of a stage keeps the invariant: what it leaves of the path is `Arrived`, the rest is its effect. -/
theorem step_stage_inv {s t : State} (h : Inv s) (hp : s.poresetRequest = false) (h1 : 1 ≤ s.stage.toNat)
    (h2 : s.stage.toNat ≤ 25) (ht : step s = .next t) : Inv t := by
  have ha := step_stage_arrived h hp h1 h2 ht
  have hrun := h.running h1
  have hctl : t.fault = s.fault → ControlInv t := fun hf =>
    ⟨.inl ha.stage, hf ▸ h.control.fault, fun hh => by
      rw [State.halted, hf] at hh; cases hrun.symm.trans hh⟩
  cases stage_effect hp h1 h2 ht with
  | work => exact h.of_carried ⟨rfl, rfl, rfl, rfl, rfl, rfl, rfl⟩ (hctl rfl) ha.work ha.path
  | noise =>
    exact ⟨h.rom, hctl rfl, noiseStage_synth h.synth, { h.host with }, h.pmp, h.shape, ha.work, ha.path⟩
  | commit hs => exact commitStage_inv h (h.path.cmp (by rw [hs]; decide) h2)
  | raised _ x => exact h.raise x

/-! ### The primitives -/

theorem noiseNext_synth {ss : Synth} (h : SynthInv ss) : SynthInv { ss with noiseReg := noiseNext ss.noiseReg } :=
  ⟨h.phaseV, h.phaseO, h.prevUw, h.noiseBuf, h.noiseRange, noiseNext_le ss.noiseReg⟩

/-- A primitive keeps the invariant, once `STAGE` is `IDLE` again. -/
theorem PrimitiveEffect.inv {s t : State} {id : BitVec 6} (h : Inv s) (he : PrimitiveEffect s id t) :
    Inv { t with stage := Stage.idle } := by
  cases he with
  | work w hw =>
    exact h.rest ⟨rfl, rfl, rfl, rfl, rfl, rfl, rfl⟩ rfl h.control.fault ((hw h.work).congr rfl rfl rfl)
  | noise _ w hw =>
    exact
      { h with
        control := controlInv_idle rfl h.control.fault
        synth := noiseNext_synth h.synth
        host := { h.host with }
        work := (hw h.work).congr rfl rfl rfl
        path := pathInv_idle rfl }
  | raised x => exact h.raise x

/-- Settles O12, by what a step can do. -/
theorem stepKeepsTheInvariant : Obligations.StepKeepsTheInvariant := by
  intro s t h ht
  cases step_effect ht with
  | poreset => exact poreset_inv h.rom
  | wait => exact h
  | result ws r => exact h.host_side ws r
  | rejected ws x => exact (h.host_side ws s.result).raise x
  | reset ws => exact resetCommand_inv (h.host_side ws .none)
  | gain ws g hg => exact gain_inv (h.host_side ws .none) hg
  | decode ws n bytes hrun => exact decodeCommandBody_inv (h.host_side ws .none) hrun n bytes
  | stage _ hp h1 h2 => exact step_stage_inv h hp h1 h2 ht
  | primitive ws u he =>
    have hops : Inv { s with operands := ws } := h.of_registers ⟨rfl, rfl, rfl, rfl, rfl, rfl, rfl⟩ rfl rfl rfl
    exact he.inv hops

end Sys2Proof.Machine
end

section
/-! SUPPORT. The encoding (30_encoding.md): each operand reader of the decoder answers exactly what its writer in the encoder
wrote, and from that decoding and encoding are inverse to each other; then the command words that are no command. -/

namespace Sys2Proof

/-! ### The operand readers (R62; operand form: log entry 20) -/

section readers
variable {R : Type}

/-- A reader answers `a` exactly on the words `put a`, and only an `a` with `good a`. -/
structure Reads {α : Type} (get : List (CodeWord R) → Got R α) (put : α → List (CodeWord R)) (good : α → Prop) : Prop where
  get_put : ∀ a ws, good a → get (put a ++ ws) = .ok a ws
  of_ok : ∀ ws a r, get ws = .ok a r → good a ∧ ws = put a ++ r

theorem reads_count : Reads (R := R) getCount putCount fun _ => True :=
  ⟨fun _ _ _ => rfl, fun _ _ _ h => ⟨trivial, getCount_ok h⟩⟩

theorem reads_int : Reads (R := R) getInt putInt fun _ => True :=
  ⟨fun _ _ _ => rfl, fun _ _ _ h => ⟨trivial, getInt_ok h⟩⟩

theorem reads_real : Reads (R := R) getReal putReal fun _ => True :=
  ⟨fun _ _ _ => rfl, fun _ _ _ h => ⟨trivial, getReal_ok h⟩⟩

theorem reads_sel : Reads (R := R) getSel putSel fun _ => True :=
  ⟨fun f _ _ => by cases f <;> rfl, fun _ _ _ h => ⟨trivial, getSel_ok h⟩⟩

theorem reads_codec : Reads (R := R) getCodec putCodec fun _ => True :=
  ⟨fun c _ _ => by cases c <;> rfl, fun _ _ _ h => ⟨trivial, getCodec_ok h⟩⟩

/-- The payload of a DECODE, whose count has been read (R62). -/
theorem reads_payload (n : BitVec 16) :
    Reads (R := R) (getMany getByte n.toNat) (List.map .byte) fun bytes => payloadOk n bytes = true where
  get_put bytes ws h := by
    rw [← of_decide_eq_true h]
    exact getMany_map getByte .byte (fun _ _ => rfl) bytes ws
  of_ok ws bytes r h := by
    obtain ⟨hlen, hws⟩ := getMany_ok (fun _ _ _ => getByte_ok) _ _ _ _ h
    exact ⟨decide_eq_true hlen, hws⟩

/-- A counted list reads back where the written count does not overflow. -/
theorem getList_count_map {α : Type} (one : List (CodeWord R) → Got R α) (w : α → CodeWord R)
    (hone : ∀ a ws, one (w a :: ws) = .ok a ws) {extra : Nat} {xs : List α} (hlo : extra ≤ xs.length)
    (hhi : xs.length - extra < 65536) (ws : List (CodeWord R)) :
    getList one extra (.count (BitVec.ofNat 16 (xs.length - extra)) :: (xs.map w ++ ws)) = .ok xs ws := by
  have hn : (BitVec.ofNat 16 (xs.length - extra)).toNat + extra = xs.length := by
    rw [BitVec.toNat_ofNat, Nat.mod_eq_of_lt hhi]; omega
  simp only [getList, getCount, hn]
  exact getMany_map one w hone xs ws

theorem reads_bytes : Reads (R := R) getBytes putBytes fun bs => countOk bs.length = true where
  get_put bs ws h := getList_count_map getByte .byte (fun _ _ => rfl) (Nat.zero_le _) (of_decide_eq_true h) ws
  of_ok ws bs r h := by
    obtain ⟨hlen, hws⟩ := getBytes_ok h
    exact ⟨decide_eq_true hlen, hws⟩

theorem reads_reals : Reads (R := R) getReals putReals fun xs => countOk xs.length = true where
  get_put xs ws h := getList_count_map getReal .real (fun _ _ => rfl) (Nat.zero_le _) (of_decide_eq_true h) ws
  of_ok ws xs r h := by
    obtain ⟨hlen, hws⟩ := getReals_ok h
    exact ⟨decide_eq_true hlen, hws⟩

theorem indexListOk_iff {idx : List Int} : indexListOk idx = true ↔ 1 ≤ idx.length ∧ idx.length ≤ 65536 := by
  simp [indexListOk]

/-- The count of an index list is of the entries after the first (R95), so 65536 entries still fit. -/
theorem reads_idx : Reads (R := R) getIdx putIdx fun idx => indexListOk idx = true where
  get_put idx ws h := by
    obtain ⟨hlo, hhi⟩ := indexListOk_iff.1 h
    exact getList_count_map getInt .int (fun _ _ => rfl) hlo (by omega) ws
  of_ok ws idx r h := by
    obtain ⟨hlo, hhi, hws⟩ := getIdx_ok h
    exact ⟨indexListOk_iff.2 ⟨hlo, hhi⟩, hws⟩

/-- A decoder that reads an operand goes on with the operand that was written. -/
theorem Reads.andThen_put {α : Type} {get : List (CodeWord R) → Got R α} {put : α → List (CodeWord R)} {good : α → Prop}
    (hr : Reads get put good) {a : α} (ha : good a) (ws : List (CodeWord R)) (k : α → List (CodeWord R) → Decoded R) :
    (get (put a ++ ws)).andThen k = k a ws := by
  rw [hr.get_put a ws ha, Got.andThen]

end readers

/-! ### Decoding what was encoded -/

section roundTrip
variable {R : Type}

/-- Decoding the encoding of a well-formed instruction gives it back, over any type of reals. -/
theorem decodeOver_encode (i : Instr R) (rest : List (CodeWord R)) (hwf : i.wf = true) :
    decodeOver (encode i ++ rest) = .ok i rest := by
  cases i with
  | name | reset | setgain | idle | load | partition | ecc0 | derand | eccn | errsum | w0idx | tonechk | fields
  | repeatchk | repeatFrame | toneset | mpnew | gain | voicing | resid | predict | enhance | smooth | noise
  | unvoiced | phase | voiced | combine | commit | lcgStep | noiseStep | xformFwd | xformInv | ws => rfl
  | decode n => exact (reads_payload n).andThen_put hwf rest _
  | bfLoad | bfLoadHex => exact reads_bytes.andThen_put hwf rest _
  | idct => exact reads_reals.andThen_put hwf rest _
  | bfGet | bfSet | bfClr | bfRot | eccC24 | eccC23 | eccC15 =>
    simp only [encode, List.cons_append, List.append_assoc]
    exact reads_sel.andThen_put trivial _ _
  | bfXor =>
    simp only [encode, List.cons_append, List.append_assoc]
    exact (reads_sel.andThen_put trivial _ _).trans (reads_sel.andThen_put trivial rest _)
  | bfExtract =>
    simp only [encode, List.cons_append, List.append_assoc]
    exact (reads_sel.andThen_put trivial _ _).trans (reads_idx.andThen_put hwf rest _)
  | ffLookup =>
    simp only [encode, List.cons_append, List.append_assoc]
    exact reads_codec.andThen_put trivial _ _

/-! ### What decodes was encoded -/

/-- With the words `pre` read and the words `ws` left, the answer `d` is sound: where it is an instruction, `pre` and `ws` are
its encoding and the words after it. -/
def Sound (pre ws : List (CodeWord R)) (d : Decoded R) : Prop :=
  ∀ i rest, d = .ok i rest → i.wf = true ∧ pre ++ ws = encode i ++ rest

theorem Sound.done {i : Instr R} {pre ws : List (CodeWord R)} (hwf : i.wf = true) (hpre : pre = encode i) :
    Sound pre ws (.ok i ws) := by
  rintro _ _ ⟨⟩
  exact ⟨hwf, hpre ▸ rfl⟩

theorem Sound.rejected {pre ws : List (CodeWord R)} {d : Decoded R} (h : ∀ i rest, d ≠ .ok i rest) : Sound pre ws d :=
  fun i rest hd => absurd hd (h i rest)

/-- Reading an operand moves its words from those left to those read. -/
theorem Reads.sound {α : Type} {get : List (CodeWord R) → Got R α} {put : α → List (CodeWord R)} {good : α → Prop}
    (hr : Reads get put good) {pre ws : List (CodeWord R)} {k : α → List (CodeWord R) → Decoded R}
    (hk : ∀ a r, good a → Sound (pre ++ put a) r (k a r)) : Sound pre ws ((get ws).andThen k) := by
  intro i rest h
  obtain ⟨a, r, hget, hka⟩ := andThen_ok h
  obtain ⟨hgood, rfl⟩ := hr.of_ok _ _ _ hget
  rw [← List.append_assoc]
  exact hk a r hgood i rest hka

/-- One line a command word of R60. -/
theorem decodeCommand_sound (cmd : Byte) (ws : List (CodeWord R)) : Sound [.byte cmd] ws (decodeCommand cmd ws) := by
  have hcmd : [CodeWord.byte (R := R) cmd] = [.byte (BitVec.ofNat 8 cmd.toNat)] := by simp
  rw [hcmd]
  unfold decodeCommand
  generalize cmd.toNat = n
  split
  · exact .done rfl rfl
  · exact .done rfl rfl
  · exact reads_real.sound fun _ _ _ => .done rfl rfl
  · exact reads_count.sound fun n _ _ => (reads_payload n).sound fun _ _ hn => .done hn rfl
  · exact .rejected nofun

/-- One line an id of R75, or a run of ids whose operands are read alike. -/
theorem decodeUop_sound (id : BitVec 6) (ws : List (CodeWord R)) : Sound [.uop id] ws (decodeUop id ws) := by
  have hid : [CodeWord.uop (R := R) id] = [.uop (BitVec.ofNat 6 id.toNat)] := by simp
  rw [hid]
  unfold decodeUop
  generalize id.toNat = n
  split
  -- 0 to 25: `IDLE` and the stages
  iterate 26 exact .done rfl rfl
  -- 32 to 39: `BF.GET`, `BF.SET`, `BF.CLR`, `BF.EXTRACT`, `BF.XOR`, `BF.ROT`, `BF.LOAD`, `BF.LOADHEX`
  iterate 3 exact reads_sel.sound fun _ _ _ => reads_int.sound fun _ _ _ => .done rfl rfl
  · exact reads_sel.sound fun _ _ _ => reads_idx.sound fun _ _ hidx => .done hidx rfl
  · exact reads_sel.sound fun _ _ _ => reads_sel.sound fun _ _ _ => .done rfl rfl
  · exact reads_sel.sound fun _ _ _ => reads_int.sound fun _ _ _ => reads_int.sound fun _ _ _ =>
      reads_int.sound fun _ _ _ => .done rfl rfl
  iterate 2 exact reads_bytes.sound fun _ _ hlen => .done hlen rfl
  -- 40 to 42: the correctors
  iterate 3 exact reads_sel.sound fun _ _ _ => reads_int.sound fun _ _ _ => .done rfl rfl
  -- 43 to 45: `IDCT`, `FF.LOOKUP`, `LCG.STEP`
  · exact reads_real.sound fun _ _ _ => reads_reals.sound fun _ _ hlen => .done hlen rfl
  · exact reads_codec.sound fun _ _ _ => reads_int.sound fun _ _ _ => .done rfl rfl
  · exact reads_count.sound fun _ _ _ => .done rfl rfl
  -- 46 to 49: `NOISE.STEP`, `XFORM.FWD`, `XFORM.INV`, `WS`
  iterate 3 exact .done rfl rfl
  · exact reads_int.sound fun _ _ _ => .done rfl rfl
  -- 26 to 31 and 50 to 63
  · exact .rejected nofun

/-- What decodes is the encoding of a well-formed instruction and the words after it, over any type of reals. -/
theorem decodeOver_ok {ws : List (CodeWord R)} {i : Instr R} {rest : List (CodeWord R)} (h : decodeOver ws = .ok i rest) :
    i.wf = true ∧ ws = encode i ++ rest := by
  cases ws with
  | nil => cases h
  | cons w ws =>
    cases w with
    | byte cmd => exact decodeCommand_sound cmd ws i rest h
    | uop id => exact decodeUop_sound id ws i rest h
    | count | int | real => cases h

end roundTrip

/-- Settles O1, by what each operand reader makes of the words its writer wrote. -/
theorem decodeOfEncode : Obligations.DecodeOfEncode := decodeOver_encode

/-- Settles O2, by the words each operand reader consumes. -/
theorem decodedWordsAreTheEncoding : Obligations.DecodedWordsAreTheEncoding := fun _ _ _ h => decodeOver_ok h

/-! ### Illegal command words (R61, R305) -/

/-- `CMD[7:2] = 0` names the four command words of R60. -/
theorem highBits_eq_zero_iff (cmd : Byte) : cmd.extractLsb' 2 6 = 0 ↔ cmd.toNat < 4 := by
  have h64 : cmd.toNat / 4 < 64 := by have := cmd.isLt; omega
  rw [← BitVec.toNat_inj, BitVec.extractLsb'_toNat, Nat.shiftRight_eq_div_pow]
  simp [Nat.mod_eq_of_lt h64]

theorem decodeCommand_illegal {R : Type} {cmd : Byte} (ws : List (CodeWord R)) (h : cmd.extractLsb' 2 6 ≠ 0) :
    decodeCommand cmd ws = .illegalCommand cmd ws := by
  rw [Ne, highBits_eq_zero_iff] at h
  unfold decodeCommand
  split
  iterate 4 omega
  · rfl

theorem andThen_ne_illegal {R α : Type} {g : Got R α} {k : α → List (CodeWord R) → Decoded R} {c : Byte}
    {rest : List (CodeWord R)} (hk : ∀ a r, k a r ≠ .illegalCommand c rest) : g.andThen k ≠ .illegalCommand c rest := by
  cases g with
  | ok a r => exact hk a r
  | incomplete | mismatch => nofun

theorem decodeCommand_legal {R : Type} {cmd : Byte} (ws : List (CodeWord R)) (h : cmd.extractLsb' 2 6 = 0) (c : Byte)
    (rest : List (CodeWord R)) : decodeCommand cmd ws ≠ .illegalCommand c rest := by
  rw [highBits_eq_zero_iff] at h
  unfold decodeCommand
  generalize cmd.toNat = n at h
  match n, h with
  | 0, _ | 1, _ => nofun
  | 2, _ => exact andThen_ne_illegal nofun
  | 3, _ => exact andThen_ne_illegal fun _ _ => andThen_ne_illegal nofun

/-- Settles O3: an instruction's words are its encoding, which O1 decodes; the last two words begin no encoding. -/
theorem specWordsDecode : Obligations.SpecWordsDecode :=
  ⟨decodeOfEncode .name [] rfl, decodeOfEncode .reset [] rfl, decodeOfEncode (.setgain (.int 2)) [] rfl,
    decodeOfEncode (.decode 9 [0x95, 0x4B, 0xE6, 0x50, 0x03, 0x10, 0xB0, 0x07, 0x77]) [] rfl,
    decodeOfEncode .load [] rfl, decodeOfEncode .repeatchk [] rfl, decodeOfEncode .unvoiced [] rfl,
    decodeOfEncode .commit [] rfl, decodeOfEncode .noiseStep [] rfl, decodeCommand_illegal (cmd := 4) [] (by decide), rfl⟩

end Sys2Proof

namespace Sys2Proof.Machine

/-- Raising `IllegalCommand` while commands are accepted: a rejection, so no register but the latch (R305, R306). -/
theorem illegalCommand_accepting {s : State} (cmd : Byte) (hs : s.stage = Stage.idle) (hh : s.halted = false) :
    illegalCommand s cmd = .next { s with fault := 6, faultInfo := cmd.zeroExtend 16, result := .none } := by
  have hinfo : BitVec.ofInt 16 (cmd.toNat : Int) = cmd.zeroExtend 16 := by
    rw [BitVec.ofInt_natCast, BitVec.ofNat_toNat]
  rw [illegalCommand, command_running hh, settle, State.settled, State.raise]
  simp only [Cause.code, Cause.halts, hinfo, ← hs, Bool.false_eq_true, if_false]

/-- The step at rest that takes an illegal command word: it consumes that one word (R61). -/
theorem step_illegal {s : State} {cmd : Byte} {rest : List CodeWord} (hA : Accepting s) (hport : s.port = .byte cmd :: rest)
    (hcmd : cmd.extractLsb' 2 6 ≠ 0) : step s = illegalCommand { s with port := rest } cmd := by
  obtain ⟨hidle, -, hreq⟩ := hA
  have hfetch : decodeOver s.fetch = .illegalCommand cmd rest := by
    rw [State.fetch, if_pos hidle, hport, decodeOver, decodeCommand_illegal rest hcmd]
  rw [step_idle hreq hidle, stepIdle, if_pos (by rw [hport]; rfl), hfetch, ← State.consume_idle hidle]

/-- Settles O4, by the one outcome of an illegal command word and by the four words that are legal. -/
theorem illegalCommandChangesOnlyTheLatch : Obligations.IllegalCommandChangesOnlyTheLatch := by
  refine ⟨fun s cmd rest hA hport hcmd => ?_, fun cmd ws hcmd c rest => decodeCommand_legal ws hcmd c rest⟩
  rw [step_illegal hA hport hcmd]
  exact illegalCommand_accepting cmd hA.atRest hA.running

end Sys2Proof.Machine
end

section
/-! SUPPORT. The statements of 40_bitframe.md. A primitive of a bit frame answers what its frame operation answers (R90 to R98);
three answers are said once: a result latched, a frame written in place, an index outside (R90). -/

namespace Sys2Proof.Machine

/-! ### The primitives by their frame operations -/

theorem exec_bfGet (sel : FrameSel) (i : Int) (s : State) :
    exec (.bfGet sel i) s = settle s ((getBit (frameOf s.work sel) i).map fun b => s.withRes (.bit b)) := rfl

/-- `BF.SET` writes 1 and `BF.CLR` writes 0, through one operation (R93, R94). -/
theorem exec_bfSet_or_bfClr (b : Bool) (sel : FrameSel) (i : Int) (s : State) :
    exec (if b then .bfSet sel i else .bfClr sel i) s
      = settle s ((putBit (frameOf s.work sel) i b).map (s.withFrame sel)) := by
  cases b <;> rfl

theorem exec_bfExtract (sel : FrameSel) (idx : List Int) (s : State) :
    exec (.bfExtract sel idx) s = settle s ((extract (frameOf s.work sel) idx).map fun v => s.withRes (.value v)) := rfl

theorem exec_bfXor (f g : FrameSel) (s : State) :
    exec (.bfXor f g) s = settle s ((xorFrame (frameOf s.work f) (frameOf s.work g)).map (s.withFrame f)) := rfl

theorem exec_bfRot (sel : FrameSel) (a m c : Int) (s : State) :
    exec (.bfRot sel a m c) s = settle s ((rotFrame (frameOf s.work sel) a m c).map (s.withFrame sel)) := rfl

theorem exec_bfLoad (bytes : List Byte) (s : State) :
    exec (.bfLoad bytes) s = .next (s.withRes (.frame (loadBits bytes))) := rfl

theorem exec_bfLoadHex (chars : List Byte) (s : State) :
    exec (.bfLoadHex chars) s = settle s ((loadHex s.codec chars).map fun f => s.withRes (.frame f)) := rfl

/-! ### What they answer -/

section answers
variable {α : Type} {s : State}

theorem settle_map_ok {r : Except Raised α} {a : α} (h : r = .ok a) (f : α → State) : settle s (r.map f) = .next (f a) := by
  rw [h]; rfl

/-- An operation that raises `IndexRange` writes the latch and keeps the carried state (R90, R306). -/
theorem settle_map_indexRange {r : Except Raised α} {i : Int} (h : r = .error ⟨.indexRange, i⟩) (f : α → State) :
    ∃ t, settle s (r.map f) = .next t ∧ t.fault = 2 ∧ t.faultInfo = BitVec.ofInt 16 i ∧ SameCarried s t := by
  obtain ⟨t, ht, hfault, hinfo, -, -, hcarried, -⟩ := settle_raises (s := s) (r := r.map f) (by rw [h]; rfl)
  exact ⟨t, ht, hfault, hinfo, hcarried⟩

/-- A frame written in place: the frame named holds it, nothing else changes, and writing what stands there changes nothing. -/
theorem settle_withFrame {sel : FrameSel} {r : Except Raised Frame} {f : Frame} (h : r = .ok f) :
    ∃ t, settle s (r.map (s.withFrame sel)) = .next t
      ∧ t = { s with work := putFrame s.work sel (frameOf t.work sel) }
      ∧ frameOf t.work sel = f
      ∧ (∀ other, sel ≠ other → frameOf t.work other = frameOf s.work other)
      ∧ (f = frameOf s.work sel → t = s) := by
  refine ⟨s.withFrame sel f, settle_map_ok h _, by simp [State.withFrame], by simp, fun other hne => ?_, ?_⟩
  · exact frameOf_putFrame_ne _ hne _
  · rintro rfl
    simp [State.withFrame]

end answers

/-! ### One bit (R92 to R94) -/

/-- Settles O22, by the two answers of `getBit`. -/
theorem getReadsOneBit : Obligations.GetReadsOneBit := by
  intro s sel i
  rw [exec_bfGet]
  exact ⟨fun hi => settle_map_ok (getBit_ok hi) _, fun hi => settle_map_indexRange (getBit_error hi) _⟩

/-- Settles O23, for both instructions at once: they differ in the value written. -/
theorem setAndClearWriteOneBit : Obligations.SetAndClearWriteOneBit := by
  rintro s sel i b _ rfl
  rw [exec_bfSet_or_bfClr]
  refine ⟨fun hi => ?_, fun hi => settle_map_indexRange (putBit_error hi b) _⟩
  have hlt : i.toNat < (frameOf s.work sel).length := by omega
  obtain ⟨t, ht, hrest, hframe, -, hsame⟩ := settle_withFrame (s := s) (sel := sel) (putBit_ok hi b)
  have hbit := fun p => set_getD (frameOf s.work sel) i.toNat b p hlt
  refine ⟨t, ht, hrest, ?_, ?_, fun p hp => ?_, fun hb => hsame ?_⟩
  · rw [hframe, List.length_set]
  · rw [hframe, hbit, if_pos rfl]
  · rw [hframe, hbit, if_neg hp]
  · refine ext_getD List.length_set fun p => ?_
    rw [hbit]
    split_ifs with hp
    · rw [hp, hb]
    · rfl

/-! ### Fields (R95) -/

theorem extract_long {f : Frame} {idx : List Int} (h : 32 < idx.length) :
    extract f idx = .error ⟨.indexRange, idx.length⟩ := if_neg (Nat.not_le.2 h)

/-- The first index outside the frame is the one reported. -/
theorem extract_outside {f : Frame} {pre post : List Int} {i : Int} (hm : (pre ++ i :: post).length ≤ 32)
    (hpre : ∀ j ∈ pre, 0 ≤ j ∧ j < f.length) (hi : ¬(0 ≤ i ∧ i < f.length)) :
    extract f (pre ++ i :: post) = .error ⟨.indexRange, i⟩ :=
  (if_pos hm).trans (extractFrom_error i post hi pre 0 hpre)

/-- Settles O24, by the three answers of `extract`. -/
theorem extractAssemblesFirstBitHighest : Obligations.ExtractAssemblesFirstBitHighest := by
  intro s sel idx
  rw [exec_bfExtract]
  refine ⟨fun _ hm hin => ?_, fun hlong => ?_, ?_⟩
  · obtain ⟨v, hv, hlt, hbits⟩ := extract_ok hm hin
    exact ⟨v, settle_map_ok hv _, hlt, hbits⟩
  · obtain ⟨t, ht, hfault, hinfo, -⟩ := settle_map_indexRange (s := s) (extract_long (f := frameOf s.work sel) hlong) _
    exact ⟨t, ht, hfault, by rw [hinfo, BitVec.ofInt_natCast]⟩
  · rintro pre i post rfl hm hpre hi
    obtain ⟨t, ht, hfault, hinfo, -⟩ := settle_map_indexRange (s := s) (extract_outside hm hpre hi) _
    exact ⟨t, ht, hfault, hinfo⟩

/-! ### Two frames (R96) -/

/-- A frame is all zero where every read of it is. -/
theorem forall_mem_eq_false_iff {f : Frame} : (∀ b ∈ f, b = false) ↔ ∀ p, f.getD p false = false := by
  constructor
  · intro h p
    by_cases hp : p < f.length
    · rw [List.getD_eq_getElem _ _ hp]
      exact h _ (List.getElem_mem hp)
    · exact getD_ge (Nat.not_lt.1 hp)
  · intro h b hb
    obtain ⟨p, hp, rfl⟩ := List.getElem_of_mem hb
    rw [← List.getD_eq_getElem _ false hp, h]

/-- Settles O25, by the bits of `xorFrame`: its corner cases are `b xor 0 = b` and `b xor b = 0`. -/
theorem xorOfEqualFrames : Obligations.XorOfEqualFrames := by
  intro s f g
  rw [exec_bfXor]
  refine ⟨fun hlen => ?_, fun hlen => ?_⟩
  · obtain ⟨r, hr, hrlen, hbits⟩ := xorFrame_ok hlen
    obtain ⟨t, ht, hrest, hframe, hothers, hsame⟩ := settle_withFrame (s := s) (sel := f) hr
    refine ⟨t, ht, hrest, hframe ▸ hrlen, hframe ▸ hbits, hothers g, fun hzero => hsame ?_, ?_⟩
    · refine ext_getD hrlen fun p => ?_
      rw [hbits, forall_mem_eq_false_iff.1 hzero, Bool.xor_false]
    · rintro rfl
      rw [hframe, forall_mem_eq_false_iff]
      exact fun p => (hbits p).trans (Bool.xor_self _)
  · obtain ⟨t, ht, hfault, hinfo, hcarried⟩ := settle_map_indexRange (s := s) (xorFrame_error hlen) _
    exact ⟨t, ht, hfault, by rw [hinfo, BitVec.ofInt_natCast], hcarried⟩

/-! ### A sub-range (R97) -/

/-- What a rotation that is not one of R97's raises is always `IndexRange`; its info is the first operand at fault. -/
theorem rotFrame_indexRange {f : Frame} {a m c : Int} (hm : m ≠ 0) (h : ¬(0 < m ∧ 0 ≤ c ∧ 0 ≤ a ∧ a + m ≤ f.length)) :
    rotFrame f a m c
      = .error ⟨.indexRange, if m < 0 then m else if c < 0 then c else if a < 0 then a else max a f.length⟩ := by
  rw [rotFrame_error hm h]
  split_ifs <;> simp [rangeError, *]

/-- Settles O26, by the three answers of `rotFrame`. -/
theorem rotateTurnsASubRange : Obligations.RotateTurnsASubRange := by
  intro s sel
  simp only [exec_bfRot]
  refine ⟨fun a m c hrange => ?_, fun a c => ?_, fun a m c hm hbad => ?_⟩
  · obtain ⟨r, hr, hlen, hin, hout⟩ := rotFrame_ok c hrange
    obtain ⟨t, ht, hrest, rfl, -, -⟩ := settle_withFrame (s := s) (sel := sel) hr
    exact ⟨t, ht, hrest, hlen, hin, hout⟩
  · obtain ⟨t, ht, -, -, -, hsame⟩ := settle_withFrame (s := s) (sel := sel) (rotFrame_zero (frameOf s.work sel) a c)
    rw [ht, hsame rfl]
  · obtain ⟨t, ht, hfault, hinfo, hcarried⟩ := settle_map_indexRange (s := s) (rotFrame_indexRange hm hbad) _
    exact ⟨t, ht, hfault, hcarried, hinfo⟩

/-! ### Loading (R91, R98) -/

/-- A hex string whose digits are the nibbles of a whole frame's bytes loads what the bytes load. -/
theorem loadHex_ok {c : Codec} {bytes chars : List Byte} (hb : bytes.length = frameBytes c)
    (hc : chars.length = 2 * frameBytes c)
    (hdigits : ∀ k, k < bytes.length → hexDigit (chars.getD (2 * k) 0) = some ((bytes.getD k 0).toNat / 16)
      ∧ hexDigit (chars.getD (2 * k + 1) 0) = some ((bytes.getD k 0).toNat % 16)) :
    loadHex c chars = .ok (loadBits bytes) := by
  have hbytes : hexFrame (frameBytes c) chars = some bytes :=
    (if_pos hc).trans (hexBytes_of bytes chars (hb ▸ hc) hdigits)
  rw [loadHex, hbytes]

/-- Settles O27: both instructions latch `loadBits` of the bytes. -/
theorem loadAndLoadHexAgree : Obligations.LoadAndLoadHexAgree := by
  intro s bytes
  refine ⟨loadBits bytes, exec_bfLoad bytes s, loadBits_length bytes, loadBits_getD bytes, fun chars hb hc hdigits => ?_⟩
  rw [exec_bfLoadHex]
  exact settle_map_ok (loadHex_ok hb hc hdigits) _

end Sys2Proof.Machine
end

section
/-! SUPPORT. The statements of 41_ecc.md: a word has at most one near codeword (R106, R268), and the three correctors
(R108 to R110) are one operation on three codes. -/

namespace Sys2Proof.Machine

/-! ### The near codeword -/

/-- Settles O28, by the triangle inequality: two codewords within `t` of one word are at most `2t` apart. -/
theorem nearCodewordIsUnique : Obligations.NearCodewordIsUnique := by
  intro c r a b hcode ha hb hra hrb
  by_contra hne
  have hfar : 2 * c.t + 1 ≤ wordDist c.n a b := hcode a ha b hb hne
  have hnear := wordDist_triangle c.n a r b
  omega

/-! ### A correction, by the word the frame holds -/

section correction
variable {c : BlockCode} {f : Frame} {o r : Nat}

/-- Where a codeword is near, it is the one that replaces the word (R106). -/
theorem eccCorrect_near {w : Nat} (hcode : codeDistanceOk c) (hlen : o + c.n ≤ f.length)
    (hword : ∀ j, j < c.n → r.testBit (c.n - 1 - j) = f.getD (o + j) false)
    (hw : w ∈ c.cw) (hdist : wordDist c.n r w ≤ c.t) :
    ∃ g, eccCorrect c f o = .ok (g, wordDist c.n r w) ∧ g.length = f.length
      ∧ (∀ j, j < c.n → g.getD (o + j) false = w.testBit (c.n - 1 - j))
      ∧ ∀ p, p < o ∨ o + c.n ≤ p → g.getD p false = f.getD p false := by
  obtain ⟨g, count, hg, hglen, hout, ⟨v, hv, hvdist, -, hcount, hin⟩ | ⟨hfar, -⟩⟩ := eccCorrect_ok hlen
  · rw [wordDist_slice hlen hword] at hvdist hcount
    obtain rfl : v = w := nearCodewordIsUnique c r v w hcode hv hw hvdist hdist
    exact ⟨g, hcount ▸ hg, hglen, hin, hout⟩
  · have hwfar := hfar w hw
    rw [wordDist_slice hlen hword] at hwfar
    omega

/-- Where every codeword is far, the frame stays and the sentinel is the count (R106). -/
theorem eccCorrect_far (hlen : o + c.n ≤ f.length)
    (hword : ∀ j, j < c.n → r.testBit (c.n - 1 - j) = f.getD (o + j) false)
    (hfar : ∀ w ∈ c.cw, c.t < wordDist c.n r w) : eccCorrect c f o = .ok (f, c.sentinel) := by
  obtain ⟨g, count, hg, -, -, ⟨v, hv, hvdist, -⟩ | ⟨-, -, rfl, rfl⟩⟩ := eccCorrect_ok hlen
  · rw [wordDist_slice hlen hword] at hvdist
    exact absurd (hfar v hv) (Nat.not_lt.2 hvdist)
  · exact hg

end correction

/-! ### The three correctors -/

/-- What a corrector leaves: the frame it answers in place, its count in the latch. -/
def State.withCorrection (s : State) (sel : FrameSel) (answer : Frame × Nat) : State :=
  (s.withFrame sel answer.1).withRes (.value answer.2)

theorem eccPrimitive_eq (c : BlockCode) (sel : FrameSel) (o : Int) (s : State) :
    eccPrimitive c sel o s = (eccCorrect c (frameOf s.work sel) o).map (s.withCorrection sel) := by
  rw [eccPrimitive]
  cases eccCorrect c (frameOf s.work sel) o <;> rfl

/-- The correctors differ in the code alone, and none asks for the codec. -/
theorem exec_corrector {sel : FrameSel} {name : CodeName} {op : Int → Instr}
    (hop : ∀ o, op o = (match name with
      | .code24 => .eccC24 sel o
      | .code23 => .eccC23 sel o
      | .code15 => .eccC15 sel o)) (o : Int) (s : State) :
    exec (op o) s
      = settle s ((eccCorrect (s.rom.code name) (frameOf s.work sel) o).map (s.withCorrection sel)) := by
  rw [hop, ← eccPrimitive_eq]
  cases name <;> rfl

@[simp] theorem frameOf_withCorrection (s : State) (sel : FrameSel) (answer : Frame × Nat) :
    frameOf (s.withCorrection sel answer).work sel = answer.1 := by
  simp [State.withCorrection]

/-- A word with no near codeword leaves the count alone. -/
theorem withCorrection_frameOf (s : State) (sel : FrameSel) (n : Nat) :
    s.withCorrection sel (frameOf s.work sel, n) = s.withRes (.value n) := by
  simp [State.withCorrection, State.withFrame]

/-- Settles O29, for the three correctors at once: a near word, a far word, a codeword not inside the frame. -/
theorem correctorsRestoreTheNearCodeword : Obligations.CorrectorsRestoreTheNearCodeword := by
  intro s sel name op hop
  simp only [exec_corrector hop]
  refine ⟨fun o r hcode hlen hword => ⟨fun w hw hdist => ?_, fun hfar => ?_⟩, fun o hbad => ?_⟩
  · obtain ⟨g, hg, hrest⟩ := eccCorrect_near hcode hlen hword hw hdist
    refine ⟨_, settle_map_ok hg _, ?_, ?_⟩ <;> rw [frameOf_withCorrection]
    · rfl
    · exact hrest
  · rw [settle_map_ok (eccCorrect_far hlen hword hfar), withCorrection_frameOf]
  · obtain ⟨t, ht, hfault, hinfo, hcarried⟩ := settle_map_indexRange (s := s) (eccCorrect_error hbad) (s.withCorrection sel)
    exact ⟨t, ht, hfault, hcarried, hinfo⟩

end Sys2Proof.Machine
end

section
/-! SUPPORT. The statements of 42_frame_decoder.md, and of the two generators (R126, R200, R201). Each stage has one lemma
that says what it writes once its reads answer, and that lemma is all a proof knows of the stage. -/

namespace Sys2Proof.Machine

/-! ### What the stages and `FF.LOOKUP` run -/

theorem exec_partition (s : State) : exec .partition s = settle s (partitionStage s) := rfl
theorem exec_ecc0 (s : State) : exec .ecc0 s = settle s (ecc0Stage s) := rfl
theorem exec_derand (s : State) : exec .derand s = settle s (derandStage s) := rfl
theorem exec_eccn (s : State) : exec .eccn s = settle s (eccnStage s) := rfl
theorem exec_w0idx (s : State) : exec .w0idx s = settle s (w0idxStage s) := rfl
theorem exec_tonechk (s : State) : exec .tonechk s = settle s (tonechkStage s) := rfl
theorem exec_fields (s : State) : exec .fields s = settle s (fieldsStage s) := rfl

theorem exec_ffLookup (c : Codec) (v : Int) (s : State) :
    exec (.ffLookup c v) s = settle s ((ffFind s.rom c v).map fun e => s.withRes (.entry e)) := rfl

/-! ### Registers and runs of indices -/

/-- A field no longer than its register stands in it whole. -/
theorem toNat_register {v n w : Nat} (hv : v < 2 ^ n) (hn : n ≤ w) : (BitVec.ofNat w v).toNat = v := by
  rw [BitVec.toNat_ofNat]
  exact Nat.mod_eq_of_lt (hv.trans_le (Nat.pow_le_pow_right (by decide) hn))

/-- `BF.EXTRACT` of `n` consecutive bits (R95). -/
theorem extractRom_run {f : Frame} {o n : Nat} (hn : n ≤ 32) (h : o + n ≤ f.length) :
    ∃ v, extractRom f (idxRun o n) = .ok v ∧ v < 2 ^ n ∧ ∀ k, k < n → v.testBit (n - 1 - k) = f.getD (o + k) false := by
  have hlen : (idxRun o n).length = n := tab_length ..
  obtain ⟨v, hv, hlt, hbits⟩ := extractRom_ok (f := f) (idx := idxRun o n) (by omega) fun i hi => by
    obtain ⟨j, hj, rfl⟩ := mem_tab.1 hi
    omega
  rw [hlen] at hlt hbits
  exact ⟨v, hv, hlt, fun k hk => by rw [hbits k hk, idxRun, tab_getD_lt _ hk]⟩

/-! ### PARTITION (R121) -/

theorem exec_partition_ok {s : State} {wf : Frame}
    (h : gather (s.rom.cosetMap s.codec) s.work.fb (frameBits s.codec) 0 = .ok wf) :
    exec .partition s = .next { s with stage := Stage.ecc0, work := { s.work with wf := wf } } := by
  rw [exec_partition, partitionStage, h]
  rfl

theorem map_getD_range (f : Frame) : (List.range f.length).map (fun i => f.getD i false) = f :=
  (tab_eq_of (f := fun i => f.getD i false) rfl fun _ _ => rfl).symm

/-- The bits of a frame, read in the order of a permutation, are its bits in another order. -/
theorem map_getD_perm {map : List Nat} {f : Frame} (h : map.Perm (List.range f.length)) :
    (map.map fun i => f.getD i false).Perm f := by
  have hmap := h.map fun i => f.getD i false
  rwa [map_getD_range] at hmap

/-- Settles O31: the working frame is the raw frame read in the order of the map. -/
theorem partitionPermutesTheFrame : Obligations.PartitionPermutesTheFrame := by
  intro s hperm hfb
  have hmaplen : (s.rom.cosetMap s.codec).length = frameBits s.codec := by rw [hperm.length_eq, List.length_range]
  have hinside : ∀ i ∈ s.rom.cosetMap s.codec, i < s.work.fb.length := fun i hi => by
    rw [hfb]
    exact List.mem_range.1 (hperm.mem_iff.1 hi)
  obtain ⟨wf, hwf, hlen, hbits⟩ := gather_ok hinside (frameBits s.codec) 0 (by omega)
  simp only [Nat.zero_add] at hbits
  have hread : wf = (s.rom.cosetMap s.codec).map fun i => s.work.fb.getD i false := by
    refine List.ext_getElem (by rw [hlen, List.length_map, hmaplen]) fun j hj hj' => ?_
    have hjmap : j < (s.rom.cosetMap s.codec).length := by omega
    have hbit := hbits j (by omega)
    rw [List.getD_eq_getElem _ _ hj, List.getD_eq_getElem _ _ hjmap] at hbit
    rw [hbit, List.getElem_map]
  refine ⟨_, exec_partition_ok hwf, rfl, hlen, hbits, ?_⟩
  rw [hread]
  exact map_getD_perm (hfb ▸ hperm)

/-! ### ECC0 (R123) -/

theorem exec_ecc0_ok {s : State} {c : Coset} {wf : Frame} {count u : Nat}
    (hc : readTable (s.rom.cosets s.codec) 0 = .ok c)
    (hecc : eccCorrect (s.rom.code c.code) s.work.wf c.off = .ok (wf, count))
    (hu : extractRom wf (idxRun c.off 12) = .ok u) :
    exec .ecc0 s = .next { s with stage := Stage.derand, work := { s.work with
      wf := wf, e := setArr 7 0 s.work.e 0 (BitVec.ofNat 8 count), u0 := BitVec.ofNat 12 u } } := by
  rw [exec_ecc0]
  simp only [ecc0Stage, hc, except_ok_bind, hecc, hu]
  rfl

/-- Settles O32: the count is written to element 0 alone, and `u0` is read from the frame the corrector leaves. -/
theorem ecc0CorrectsAndReadsCosetZero : Obligations.Ecc0CorrectsAndReadsCosetZero := by
  intro s c cs hcs hcode hu
  have hc : readTable (s.rom.cosets s.codec) 0 = .ok c := by rw [hcs]; rfl
  obtain ⟨wf, count, hecc, hlen, -, -⟩ := eccCorrect_ok hcode
  obtain ⟨u, hext, hlt, hbits⟩ := extractRom_run (f := wf) (o := c.off) (n := 12) (by decide) (by omega)
  refine ⟨_, count, exec_ecc0_ok hc hecc hext, hecc, rfl, ?_, fun i h1 h7 => ?_, fun k hk => ?_⟩
  · rw [setArr_getD, if_pos (by decide), if_pos rfl]
  · rw [setArr_getD, if_pos h7, if_neg (by omega)]
  · rw [toNat_register hlt (le_refl 12)]
    exact hbits k hk

/-! ### The cosets of a legal ROM (R122) -/

/-- The later cosets stand one after another behind coset 0, inside the frame; there are at most six. -/
theorem later_cosets {rom : Rom} {codec : Codec} {c : Coset} {cs : List Coset} (hl : rom.legal = true)
    (hcs : rom.cosets codec = c :: cs) :
    cosetChain rom c.n cs = true ∧ c.n + (cs.map (·.n)).sum ≤ frameBits codec ∧ cs.length ≤ 6 := by
  obtain ⟨first, hgood⟩ := cosets_good hl codec
  rw [hcs] at hgood
  have htotal := hgood.total
  have hmax := hgood.max
  rw [List.map_cons, List.sum_cons] at htotal
  rw [List.length_cons] at hmax
  exact ⟨(chain_tail hgood.chain).2, htotal, by omega⟩

/-! ### DERAND (R124) -/

theorem exec_derand_ok {s : State} {mask wf : Frame} (hmask : derandMask s.rom s.codec s.work.u0.toNat = .ok mask)
    (hwf : xorFrame s.work.wf mask = .ok wf) :
    exec .derand s = .next { s with stage := Stage.eccn, work := { s.work with wf := wf, mask := mask } } := by
  rw [exec_derand]
  simp only [derandStage, hmask, except_ok_bind, hwf]
  rfl

/-- The mask frame: one run of the generator (R126) over the later cosets, 0 elsewhere. -/
theorem derandMask_ok {rom : Rom} {codec : Codec} {c : Coset} {cs : List Coset} (hl : rom.legal = true)
    (hcs : rom.cosets codec = c :: cs) (u0 : Nat) :
    ∃ mask, derandMask rom codec u0 = .ok mask ∧ mask.length = frameBits codec
      ∧ ∀ p, p < frameBits codec → mask.getD p false = decide (c.n ≤ p ∧ p < c.n + (cs.map (·.n)).sum
          ∧ 32768 ≤ (fun x => (173 * x + 13849) % 65536)^[p - c.n + 1] ((rom.seedScale * u0) % 65536)) := by
  obtain ⟨hchain, htotal, -⟩ := later_cosets hl hcs
  obtain ⟨mask, hmask, hlen, hbits⟩ := maskCosets_ok cs c.n ((rom.seedScale * u0) % 65536)
    (tab (frameBits codec) fun _ => false) hchain (by rwa [tab_length])
  refine ⟨mask, by rw [derandMask, hcs]; exact hmask, by rw [hlen, tab_length], fun p hp => ?_⟩
  rw [hbits, tab_getD_lt _ hp]
  split_ifs with hlater
  · exact decide_eq_decide.2 ⟨fun h => ⟨hlater.1, hlater.2, h⟩, fun ⟨_, _, h⟩ => h⟩
  · exact (decide_eq_false fun h => hlater ⟨h.1, h.2.1⟩).symm

/-- Settles O33: the frame is xored with the mask of the later cosets. -/
theorem derandMasksTheLaterCosets : Obligations.DerandMasksTheLaterCosets := by
  intro s c cs hl hcs hlen
  obtain ⟨mask, hmask, hmlen, hmbits⟩ := derandMask_ok hl hcs s.work.u0.toNat
  obtain ⟨wf, hwf, hwflen, hbits⟩ := xorFrame_ok (hlen.trans hmlen.symm)
  refine ⟨_, exec_derand_ok hmask hwf, rfl, hwflen.trans hlen, fun p hp => ?_⟩
  rw [← hmbits p hp]
  exact hbits p

/-! ### ECCN (R125) -/

theorem exec_eccn_ok {s : State} {wf : Frame} {e : List (BitVec 8)}
    (h : correctCosets s.rom (s.rom.cosets s.codec).tail 1 s.work.wf s.work.e = .ok (wf, e)) :
    exec .eccn s = .next { s with stage := Stage.errsum, work := { s.work with wf := wf, e := e } } := by
  rw [exec_eccn, eccnStage, h]
  rfl

/-- Settles O34, by the loop over the chain of later cosets. -/
theorem eccnCorrectsTheLaterCosets : Obligations.EccnCorrectsTheLaterCosets := by
  intro s c cs hl hcs hlen
  obtain ⟨hchain, htotal, hmax⟩ := later_cosets hl hcs
  obtain ⟨wf, e, hloop, hwflen, hcounts, hcosets, hrest⟩ := correctCosets_ok cs c.n 1 s.work.wf s.work.wf s.work.e hchain
    (by omega) (by omega) rfl fun _ _ => rfl
  have htail : (s.rom.cosets s.codec).tail = cs := by rw [hcs]; rfl
  refine ⟨_, exec_eccn_ok (htail ▸ hloop), rfl, hwflen.trans hlen, hcounts 0 (by omega) (by decide),
    fun i hi => hcounts i (by omega), fun i d hd => ?_, hrest⟩
  rw [Nat.add_comm i 1]
  exact hcosets i d hd

/-! ### ERRSUM (R127) -/

theorem errorAt_lt {s : State} {i : Nat} (h : i < (s.rom.cosets s.codec).length) : s.errorAt i = s.work.e.getD i 0 := if_pos h

theorem errorAt_ge {s : State} {i : Nat} (h : (s.rom.cosets s.codec).length ≤ i) : s.errorAt i = 0 := if_neg (Nat.not_lt.2 h)

/-- Settles O35: each count of the sum is its element of `e`. -/
theorem errsumAddsTheCounts : Obligations.ErrsumAddsTheCounts := by
  intro s
  refine ⟨errsumStage s, rfl, rfl, ?_, fun i => errorAt_ge⟩
  have hsum : ((List.range s.ncoset).map fun i => (s.errorAt i).toNat).sum
      = ∑ i ∈ Finset.range (s.rom.cosets s.codec).length, (s.work.e.getD i 0).toNat := by
    rw [← List.toFinset_range, List.sum_toFinset _ List.nodup_range]
    exact congrArg List.sum (List.map_congr_left fun i hi => by rw [errorAt_lt (List.mem_range.1 hi)])
  change (BitVec.ofNat 8 _).toNat = _
  rw [BitVec.toNat_ofNat, hsum]

/-! ### FF.LOOKUP (R129) -/

section lookup
variable {rom : Rom} {v : Int}

theorem ffFind_ambe_ok (hlen : rom.ambe.ff.length = 128) (hv : 0 ≤ v ∧ v ≤ 127) :
    ffFind rom .ambe v = .ok (ffEntry v.toNat (ambeFrameType v.toNat) (rom.ambe.ff.getD v.toNat default)) := by
  rw [ffFind, if_pos hv, readTable_lt (by omega) default]
  rfl

theorem ffFind_ambe_error (hv : ¬(0 ≤ v ∧ v ≤ 127)) : ffFind rom .ambe v = .error ⟨.frameTypeRange, v⟩ := if_neg hv

theorem ffFind_imbe_ok (hlen : rom.imbe.ff.length = 208) (hv : 0 ≤ v ∧ v ≤ 207) :
    ffFind rom .imbe v = .ok (ffEntry v.toNat .voice (rom.imbe.ff.getD v.toNat default)) := by
  rw [ffFind, if_pos hv, readTable_lt (by omega) default]
  rfl

theorem ffFind_imbe_sentinel (hv : ¬(0 ≤ v ∧ v ≤ 207)) :
    ffFind rom .imbe v = .ok (ffEntry rom.imbe.sentinelIndex .invalid rom.imbe.sentinel) := if_neg hv

end lookup

/-- Settles O36, by the four answers of `FF.LOOKUP`. -/
theorem lookupClassifiesTheIndex : Obligations.LookupClassifiesTheIndex := by
  intro s v
  simp only [exec_ffLookup]
  refine ⟨fun hlen => ⟨fun hv => ?_, fun hv => ?_⟩, fun hlen => ?_⟩
  · obtain ⟨hvoice, herasure, hsilence, htone⟩ := ambeType_cases v.toNat (by omega)
    exact ⟨_, settle_map_ok (ffFind_ambe_ok hlen hv) _, rfl, rfl, rfl, hvoice.trans (by omega), herasure.trans (by omega),
      hsilence.trans (by omega), htone.trans (by omega)⟩
  · obtain ⟨t, ht, hfault, hinfo, -, -, hcarried, -⟩ := settle_raises (s := s)
      (r := (ffFind s.rom .ambe v).map fun e => s.withRes (.entry e)) (by rw [ffFind_ambe_error hv]; rfl)
    exact ⟨t, ht, hfault, hinfo, hcarried⟩
  · by_cases hv : 0 ≤ v ∧ v ≤ 207
    · exact ⟨_, settle_map_ok (ffFind_imbe_ok hlen hv) _, fun _ => ⟨rfl, rfl, rfl, rfl⟩, fun h => absurd hv h⟩
    · exact ⟨_, settle_map_ok (ffFind_imbe_sentinel hv) _, fun h => absurd h hv, fun _ => ⟨rfl, rfl, rfl⟩⟩

/-! ### W0IDX (R128) -/

theorem exec_w0idx_ok {s : State} {v : Nat} {ff : FFEntry MReal} (hv : extractRom s.work.wf (s.rom.w0Idx s.codec) = .ok v)
    (hff : ffFind s.rom s.codec v = .ok ff) :
    exec .w0idx s = .next { s with stage := afterW0idx s.codec, work := { s.work with
      w0Index := BitVec.ofNat 8 v, ff := ff, frameType := ff.frameType } } := by
  rw [exec_w0idx]
  simp only [w0idxStage, hv, except_ok_bind, hff]
  rfl

/-- Settles O37: a legal `W0_IDX` lists 7 bits or 8, so that the index is one of the table's and fits its register. -/
theorem w0idxLooksTheIndexUp : Obligations.W0idxLooksTheIndexUp := by
  intro s hl hlen
  obtain ⟨hgood, hambe, himbe⟩ := w0Idx_good hl s.codec
  obtain ⟨v, hv, hlt, hbits⟩ := extractRom_good hgood hlen
  have h127 (hc : s.codec = .ambe) : v ≤ 127 := by rw [hambe hc] at hlt; omega
  have h255 (hc : s.codec = .imbe) : v ≤ 255 := by rw [himbe hc] at hlt; omega
  have hfits : (s.rom.w0Idx s.codec).length ≤ 8 := by
    cases hc : s.codec with
    | ambe => rw [← hc, hambe hc]; decide
    | imbe => rw [← hc, himbe hc]
  obtain ⟨ff, hff⟩ := ffFind_total hl s.codec v h127
  exact ⟨_, v, exec_w0idx_ok hv hff, rfl, fun hc => ⟨congrArg afterW0idx hc, h127 hc⟩,
    fun hc => ⟨congrArg afterW0idx hc, h255 hc⟩, toNat_register hlt hfits, hbits, settle_map_ok hff _, rfl⟩

/-! ### TONECHK (R130 to R133) -/

theorem exec_tonechk_ambe {s : State} {v : Nat} {tone : Tone} {r : FrameType × Bool} (hc : s.codec = .ambe)
    (hv : extractRom s.work.wf s.rom.ambe.toneCheckIdx = .ok v)
    (hr : r = toneClassify (decide (v = s.rom.ambe.toneCheckValue)) s.work.ff.frameType
      (decide (s.rom.ambe.toneConflictErr ≤ s.work.eT.toNat)))
    (htone : toneFor s r.1 = .ok tone) :
    exec .tonechk s = .next { s with stage := Stage.fields, toneCtr := s.toneCtr + 1, work := { s.work with
      frameType := r.1, forcedErasure := r.2, tone := tone } } := by
  subst hr
  rw [exec_tonechk, tonechkStage]
  simp only [hc, hv, except_ok_bind, htone]
  rfl

section classify
variable {table : FrameType} {conflict : Prop} [Decidable conflict]

/-- A frame that shows the tone pattern: an erasure where the table says voice and the errors are many, else a tone. -/
theorem toneClassify_pattern : toneClassify true table (decide conflict)
    = if table = .voice ∧ conflict then (.erasure, true) else (.tone, false) := by
  simp only [toneClassify, decide_eq_true_eq, if_true]

/-- A frame without the pattern: an erasure where the table says tone, else of the table's type. -/
theorem toneClassify_noPattern : toneClassify false table (decide conflict)
    = if table = .tone then (.erasure, true) else (table, false) := rfl

/-- The classification of R130 to R132, outcome by outcome. -/
theorem toneClassify_spec {pattern : Prop} [Decidable pattern] {r : FrameType × Bool}
    (hr : r = toneClassify (decide pattern) table (decide conflict)) :
    (pattern → (table = .voice ∧ conflict → r = (.erasure, true)) ∧ (¬(table = .voice ∧ conflict) → r = (.tone, false)))
      ∧ (¬pattern → (table = .tone → r = (.erasure, true)) ∧ (table ≠ .tone → r = (table, false))) := by
  refine ⟨fun hp => ?_, fun hp => ?_⟩
  · rw [decide_eq_true hp, toneClassify_pattern] at hr
    exact ⟨fun h => hr.trans (if_pos h), fun h => hr.trans (if_neg h)⟩
  · rw [decide_eq_false hp, toneClassify_noPattern] at hr
    exact ⟨fun h => hr.trans (if_pos h), fun h => hr.trans (if_neg h)⟩

end classify

/-- What R133 says of a tone read from a frame. -/
structure ReadsTone (a : AmbeRom) (wf : Frame) (tone : Tone) : Prop where
  valid : tone.valid = true
  id : ∀ k, k < 8 → tone.id.toNat.testBit (7 - k) = wf.getD (a.toneIdIdx.getD k 0) false
  amplitude : ∀ k, k < 7 → tone.amplitude.toNat.testBit (6 - k) = wf.getD (a.toneAmpIdx.getD k 0) false
  cls : tone.cls = a.toneClass.getD tone.id.toNat .discrete

theorem toneRead_ok {rom : Rom} {a : AmbeRom} {wf : Frame} (hgood : GoodAmbe rom a) (hlen : wf.length = 72) :
    ∃ tone, toneRead a wf = .ok tone ∧ ReadsTone a wf tone := by
  obtain ⟨id, hid, hidlt, hidbits⟩ := extractRom_good hgood.toneIdIdx hlen
  obtain ⟨amp, hamp, hamplt, hampbits⟩ := extractRom_good hgood.toneAmpIdx hlen
  rw [hgood.toneIdLen] at hidlt hidbits
  rw [hgood.toneAmpLen] at hamplt hampbits
  refine ⟨_, by simp only [toneRead, hid, hamp, except_ok_bind]; rfl, rfl, fun k hk => ?_, fun k hk => ?_, rfl⟩
  · rw [toNat_register hidlt (le_refl 8)]
    exact hidbits k hk
  · rw [toNat_register hamplt (le_refl 7)]
    exact hampbits k hk

/-- Under a legal ROM TONECHK never raises: a tone frame gets its metadata, any other an invalid tone. -/
theorem toneFor_ok {s : State} (hl : s.rom.legal = true) (hlen : s.work.wf.length = 72) (ft : FrameType) :
    ∃ tone, toneFor s ft = .ok tone ∧ (ft ≠ .tone → tone.valid = false)
      ∧ (ft = .tone → ReadsTone s.rom.ambe s.work.wf tone) := by
  by_cases hft : ft = .tone
  · obtain ⟨tone, htone, hreads⟩ := toneRead_ok (rom_legal hl).ambe hlen
    exact ⟨tone, (if_pos hft).trans htone, fun h => absurd hft h, fun _ => hreads⟩
  · exact ⟨invalidTone s.toneCtr, if_neg hft, fun _ => rfl, fun h => absurd h hft⟩

/-- Settles O38: the classification by its two tables, the metadata by the type it gives. -/
theorem tonechkClassifies : Obligations.TonechkClassifies := by
  refine ⟨fun s v hc hl hlen hv => ?_, fun s hc => ?_⟩
  · obtain ⟨r, hr⟩ : ∃ r, r = toneClassify (decide (v = s.rom.ambe.toneCheckValue)) s.work.ff.frameType
      (decide (s.rom.ambe.toneConflictErr ≤ s.work.eT.toNat)) := ⟨_, rfl⟩
    obtain ⟨tone, htone, hother, htoneFrame⟩ := toneFor_ok hl hlen r.1
    obtain ⟨hpattern, hnone⟩ := toneClassify_spec hr
    have hboth {ft : FrameType} {forced : Bool} (h : r = (ft, forced)) : r.1 = ft ∧ r.2 = forced := Prod.ext_iff.1 h
    refine ⟨_, exec_tonechk_ambe hc hv hr htone, rfl,
      fun hp => ⟨fun h => hboth ((hpattern hp).1 h), fun h => hboth ((hpattern hp).2 h)⟩,
      fun hp => ⟨fun h => hboth ((hnone hp).1 h), fun h => hboth ((hnone hp).2 h)⟩, hother, fun hft => ?_⟩
    · obtain ⟨hvalid, hid, hamp, hcls⟩ := htoneFrame hft
      exact ⟨hvalid, hid, hamp, hcls⟩
  · rw [exec_tonechk, tonechkStage_imbe hc]
    rfl

/-! ### FIELDS (R134) -/

theorem exec_fields_skips {s : State} (h : s.work.frameType = .tone ∨ (s.codec = .imbe ∧ s.work.frameType = .invalid)) :
    exec .fields s = .next { s with stage := Stage.repeatchk } := by
  rw [exec_fields, fieldsStage, if_pos h]
  rfl

theorem exec_fields_ok {s : State} {fld : Fields}
    (h : ¬(s.work.frameType = .tone ∨ (s.codec = .imbe ∧ s.work.frameType = .invalid))) (hfld : frameFields s = .ok fld) :
    exec .fields s = .next { s with stage := Stage.repeatchk, work := { s.work with fld := fld } } := by
  rw [exec_fields, fieldsStage, if_neg h, hfld]
  rfl

/-- The AMBE field record (R134): every field is the value of its index list. -/
theorem ambeFields_ok {rom : Rom} {a : AmbeRom} {wf : Frame} (hgood : GoodAmbe rom a) (hlen : wf.length = 72) :
    ∃ fld, ambeFields a wf = .ok fld ∧ extractRom wf a.vuvIdx = .ok fld.vuvIdx ∧ extractRom wf a.gainIdx = .ok fld.gainIdx
      ∧ extractRom wf a.prba1Idx = .ok fld.prba1Idx ∧ extractRom wf a.prba2Idx = .ok fld.prba2Idx
      ∧ ∀ i, i < 4 → extractRom wf (a.hocIdx.getD i []) = .ok (fld.hocIdx.getD i 0) := by
  obtain ⟨vuv, hvuv, -⟩ := extractRom_good hgood.vuvIdx hlen
  obtain ⟨gain, hgain, -⟩ := extractRom_good hgood.gainIdx hlen
  obtain ⟨prba1, hprba1, -⟩ := extractRom_good hgood.prba1Idx hlen
  obtain ⟨prba2, hprba2, -⟩ := extractRom_good hgood.prba2Idx hlen
  obtain ⟨hoc, hhoc, -, hhocs⟩ := extractAll_ok (f := wf) a.hocIdx fun l hlist => by
    obtain ⟨hidx, -⟩ := hgood.hocIdx l hlist
    exact ⟨hidx.max, hlen ▸ hidx.inside⟩
  rw [hgood.hocIdxLen] at hhocs
  exact ⟨_, by simp only [ambeFields, hvuv, hgain, hprba1, hprba2, hhoc, except_ok_bind]; rfl, hvuv, hgain, hprba1, hprba2,
    hhocs⟩

/-- The IMBE field record (R134, R275): every component is the value of its index list in the layout of the harmonic count. -/
theorem imbeFields_ok {rom : Rom} {m : ImbeRom} {wf : Frame} {l : Nat} (hgood : GoodImbe rom m) (hlen : wf.length = 144)
    (hl : harmonicRange l) :
    ∃ fld lay, imbeFields m l wf = .ok fld ∧ m.fields[l - 9]? = some lay ∧ extractRom wf lay.gainIdx = .ok fld.gainIdx
      ∧ (∀ i, i < lay.gainQ.length → extractRom wf (lay.gainQ.getD i []) = .ok (fld.gainQ.getD i 0))
      ∧ (∀ i, i < lay.vuv.length → extractRom wf (lay.vuv.getD i []) = .ok (fld.vuv.getD i 0))
      ∧ ∀ i, i < lay.hocQ.length → extractRom wf (lay.hocQ.getD i []) = .ok (fld.hocQ.getD i 0) := by
  obtain ⟨h9, h56⟩ := hl
  have hrow : readFrom 9 m.fields l = .ok (m.fields.getD (l - 9) default) :=
    readFrom_lt h9 (by rw [hgood.fieldsLen]; omega) _
  have hlists := (hgood.layout (l - 9) (by omega)).lists
  generalize m.fields.getD (l - 9) default = lay at hrow hlists
  rw [← hlen] at hlists
  obtain ⟨gain, hgain, -⟩ := extractRom_ok (hlists lay.gainIdx (by simp)).1 (hlists lay.gainIdx (by simp)).2
  obtain ⟨gainQ, hgainQ, -, hgainQs⟩ := extractAll_ok (f := wf) lay.gainQ fun q hq => hlists q (by simp [hq])
  obtain ⟨vuv, hvuv, -, hvuvs⟩ := extractAll_ok (f := wf) lay.vuv fun q hq => hlists q (by simp [hq])
  obtain ⟨hocQ, hhocQ, -, hhocQs⟩ := extractAll_ok (f := wf) lay.hocQ fun q hq => hlists q (by simp [hq])
  exact ⟨_, lay, by simp only [imbeFields, hrow, hgain, hgainQ, hvuv, hhocQ, except_ok_bind]; rfl, (readFrom_ok.1 hrow).2,
    hgain, hgainQs, hvuvs, hhocQs⟩

/-- Settles O39, by the field record of each codec. -/
theorem fieldsReadsTheIndexLists : Obligations.FieldsReadsTheIndexLists := by
  intro s hl hlen
  refine ⟨exec_fields_skips, fun htone hc => ?_, fun htone hinvalid hc hrange => ?_⟩
  · rw [hc] at hlen
    obtain ⟨fld, hfld, hlists⟩ := ambeFields_ok (rom_legal hl).ambe hlen
    refine ⟨_, exec_fields_ok ?_ (fld := fld) ?_, rfl, hlists⟩
    · simp [htone, hc]
    · rw [frameFields, hc]
      exact hfld
  · rw [hc] at hlen
    obtain ⟨fld, lay, hfld, hlists⟩ := imbeFields_ok (rom_legal hl).imbe hlen hrange
    refine ⟨_, lay, exec_fields_ok ?_ (fld := fld) ?_, rfl, hlists⟩
    · simp [htone, hinvalid]
    · rw [frameFields, hc]
      exact hfld

/-! ### The generators (R126, R200, R201) -/

/-- The bit `LCG.STEP` returns says that the next seed lies in the upper half (R126). -/
theorem lcgNext_bit_iff (seed : Nat) : (lcgNext seed).2 = true ↔ 32768 ≤ (lcgNext seed).1 := by
  simp only [lcgNext, decide_eq_true_eq]

/-- It is bit 15 of the next seed. -/
theorem lcgNext_testBit (seed : Nat) : (lcgNext seed).2 = (lcgNext seed).1.testBit 15 := by
  have hlt : (lcgNext seed).1 < 65536 := Nat.mod_lt _ (by decide)
  rw [Bool.eq_iff_iff, lcgNext_bit_iff, Nat.testBit_eq_decide_div_mod_eq, decide_eq_true_eq]
  omega

/-- The oldest 96 places of the buffer take the newest 96 samples (R201). -/
theorem rollNoise_old (buf : List Nat) (reg : Nat) {i : Nat} (h : i < 96) :
    (rollNoise buf reg).getD i 0 = buf.getD (i + 160) 0 := by
  rw [rollNoise, List.getD_append _ _ _ _ (by rwa [tab_length]), tab_getD_lt _ h]

/-- The other 160 take the samples that follow the register (R201). -/
theorem rollNoise_new (buf : List Nat) (reg : Nat) {i : Nat} (h96 : 96 ≤ i) (h : i < 256) :
    (rollNoise buf reg).getD i 0 = (fun x => (171 * x + 11213) % 53125)^[i - 95] reg := by
  rw [rollNoise, List.getD_append_right _ _ _ _ (by rwa [tab_length]), tab_length,
    noiseRun_getD _ _ _ (by simp only [nsamp]; omega), show i - 96 + 1 = i - 95 by omega]

/-- Settles O53: each generator by its step, the buffer by its two parts. -/
theorem generatorsAdvance : Obligations.GeneratorsAdvance := by
  refine ⟨fun s seed => ?_, fun s => ⟨_, _, rfl, rfl, rfl⟩, fun s => ?_, by decide⟩
  · exact ⟨_, _, rfl, rfl, lcgNext_bit_iff _, lcgNext_testBit _⟩
  · exact ⟨noiseStage s, rfl, rfl, rollNoise_length .., fun _ => rollNoise_old _ _, fun _ => rollNoise_new _ _,
      noiseIter_eq _ _⟩

end Sys2Proof.Machine
end

section
/-! SUPPORT. The statements of 43_model_params.md, and of the primitives over `Real` (R159, R202, R205, R209). A stage that
reads a table has one lemma for what it writes once its reads answer; every read beyond a table ends in one lemma
(`settle_codebookIndex`). -/

namespace Sys2Proof.Machine

/-! ### What the stages run -/

theorem exec_gain (s : State) : exec .gain s = settle s (gainStage s) := rfl
theorem exec_voicing (s : State) : exec .voicing s = settle s (voicingStage s) := rfl
theorem exec_resid (s : State) : exec .resid s = settle s (residStage s) := rfl

/-- A stage that reads beyond a table halts with `CodebookIndex` and the index, and keeps the carried state (R168, R306). -/
theorem settle_codebookIndex {s : State} {r : Except Raised State} {i : Int} (h : r = .error ⟨.codebookIndex, i⟩) :
    ∃ t, settle s r = .next t ∧ t.fault = 3 ∧ t.faultInfo = BitVec.ofInt 16 i ∧ t.stage = Stage.idle
      ∧ SameCarried s t := by
  obtain ⟨t, ht, hfault, hinfo, hstage, -, hcarried, -⟩ := settle_raises (s := s) h
  exact ⟨t, ht, hfault, hinfo, hstage, hcarried⟩

/-! ### IDCT (R159) -/

theorem real_half : Literal.half (N := realNumerics) = 1 / 2 := by
  unfold Literal.half
  rw [real_rlit]
  norm_num

/-- Entry `j` of the transform, over the reals, as a sum from 0 on. -/
theorem real_idct_getD (xs : List ℝ) {j : ℕ} (hj : j < xs.length) :
    (idct (N := realNumerics) xs).getD j 0
      = ∑ k ∈ Finset.range xs.length, (if k = 0 then (1 : ℝ) else 2) * xs.getD k 0
          * Real.cos (Real.pi * k * ((j : ℝ) + 1 - 1 / 2) / xs.length) := by
  unfold idct
  rw [tab_getD_lt _ hj, real_sum0]
  simp only [real_mul, real_sub, real_div, real_cos, real_pi, real_ri, real_rd, real_half, Int.cast_natCast, Int.cast_one,
    Int.cast_ofNat, Int.cast_add]

theorem real_idct_length (xs : List ℝ) : (idct (N := realNumerics) xs).length = xs.length := tab_length ..

/-- A sum over `1 .. n` is the sum from 0 on, shifted by one. -/
theorem sum_Icc_one (n : ℕ) (f : ℕ → ℝ) : ∑ k ∈ Finset.Icc 1 n, f k = ∑ k ∈ Finset.range n, f (k + 1) := by
  rw [← real_sum1, ← real_sum0]
  rfl

/-- Settles O45: the sum is the model's, its index shifted by one; the transform of one value is the case `n = 1` of it. -/
theorem inverseDctOverTheReals : Obligations.InverseDctOverTheReals := by
  refine ⟨fun xs j h1 hj => ?_, real_idct_length, fun x => ?_⟩
  · rw [real_idct_getD xs (by omega), sum_Icc_one]
    refine Finset.sum_congr rfl fun k _ => ?_
    simp only [Nat.add_eq_right, Nat.add_sub_cancel, Nat.cast_add, Nat.cast_one, add_sub_cancel_right, Nat.cast_sub h1,
      sub_add_cancel]
  · obtain ⟨y, hy⟩ := List.length_eq_one_iff.1 (real_idct_length [x])
    have hentry := real_idct_getD [x] (j := 0) Nat.zero_lt_one
    rw [hy] at hentry ⊢
    simpa using hentry

/-! ### VOICING (R155, R156) -/

theorem mem_harmonics {lc l : Nat} : l ∈ harmonics lc ↔ 1 ≤ l ∧ l ≤ lc := by
  rw [harmonics, mem_tab]
  exact ⟨fun ⟨i, hi, he⟩ => by omega, fun ⟨h1, h2⟩ => ⟨l - 1, by omega, by omega⟩⟩

/-- The voicing array holds the flag of each harmonic. -/
theorem voicingArray_harmonic {lc l : Nat} (f : Nat → Bool) (h56 : lc ≤ 56) (h1 : 1 ≤ l) (h2 : l ≤ lc) :
    (voicingArray lc ((harmonics lc).map f)).getD l false = f l := by
  rw [voicingArray_getD _ _ _ h56, harm_getD _ _ _ h1 h2, decide_eq_true h1, decide_eq_true h2]
  rfl

/-- The voicing array is false where there is no harmonic. -/
theorem voicingArray_elsewhere {lc l : Nat} (vs : List Bool) (h56 : lc ≤ 56) (h : l = 0 ∨ lc < l) :
    (voicingArray lc vs).getD l false = false := by
  rw [voicingArray_getD _ _ _ h56]
  rcases h with h | h
  · rw [decide_eq_false (by omega : ¬1 ≤ l)]
    rfl
  · rw [decide_eq_false (by omega : ¬l ≤ lc), Bool.and_false]
    rfl

theorem exec_voicing_ok {s : State} {vs : List Bool} (h : voicingFlags s = .ok vs) :
    exec .voicing s = .next { s with stage := Stage.resid, work := { s.work with
      cmp := { s.work.cmp with voicingDecisions := voicingArray s.work.ff.harmonicCount vs } } } := by
  rw [exec_voicing, voicingStage, h]
  rfl

theorem exec_voicing_raises {s : State} {i : Int} (h : voicingFlags s = .error ⟨.codebookIndex, i⟩) :
    ∃ t, exec .voicing s = .next t ∧ t.fault = 3 ∧ t.faultInfo = BitVec.ofInt 16 i ∧ t.stage = Stage.idle
      ∧ SameCarried s t :=
  settle_codebookIndex (by rw [voicingStage, h]; rfl)

section ambe
variable {s : State} (hc : s.codec = .ambe)
include hc

/-- The AMBE flags where every band is inside the row: the row's, or none voiced for a silence frame with the override. -/
theorem voicingFlags_ambe_ok {row : List Bool} (hrow : s.rom.ambe.vuv[s.work.fld.vuvIdx]? = some row)
    (hbands : ∀ l, 1 ≤ l → l ≤ s.work.ff.harmonicCount →
      0 ≤ bandIndex (N := numerics) s.work.ff.frequency l ∧ bandIndex (N := numerics) s.work.ff.frequency l < row.length) :
    voicingFlags s = .ok ((harmonics s.work.ff.harmonicCount).map fun l =>
      row.getD (bandIndex (N := numerics) s.work.ff.frequency l).toNat false
        && !(decide (s.work.frameType = .silence) && s.rom.ambe.silenceForceUnvoiced)) := by
  have hflags := ambeVoicing_ok (harmonics s.work.ff.harmonicCount) fun l hl =>
    hbands l (mem_harmonics.1 hl).1 (mem_harmonics.1 hl).2
  simp only [voicingFlags, hc, readTable_ok.2 hrow, except_ok_bind, hflags]
  by_cases hforce : s.work.frameType = .silence ∧ s.rom.ambe.silenceForceUnvoiced = true
  · simp [hforce]
  · rw [if_neg hforce]
    have hkeep : (decide (s.work.frameType = .silence) && s.rom.ambe.silenceForceUnvoiced) = false := by
      simpa using hforce
    simp only [hkeep, Bool.not_false, Bool.and_true]

theorem voicingFlags_ambe_index (hidx : s.rom.ambe.vuv.length ≤ s.work.fld.vuvIdx) :
    voicingFlags s = .error ⟨.codebookIndex, s.work.fld.vuvIdx⟩ := by
  simp only [voicingFlags, hc, readTable_ge hidx, except_error_bind]

/-- The first harmonic whose band is outside the row is the one reported. -/
theorem voicingFlags_ambe_band {row : List Bool} {l : Nat} (hrow : s.rom.ambe.vuv[s.work.fld.vuvIdx]? = some row)
    (h1 : 1 ≤ l) (h2 : l ≤ s.work.ff.harmonicCount)
    (hbefore : ∀ k, 1 ≤ k → k < l →
      0 ≤ bandIndex (N := numerics) s.work.ff.frequency k ∧ bandIndex (N := numerics) s.work.ff.frequency k < row.length)
    (hl : ¬(0 ≤ bandIndex (N := numerics) s.work.ff.frequency l
      ∧ bandIndex (N := numerics) s.work.ff.frequency l < row.length)) :
    voicingFlags s = .error ⟨.codebookIndex, bandIndex (N := numerics) s.work.ff.frequency l⟩ := by
  obtain ⟨pre, post, hsplit, hpre⟩ := harmonics_split h1 h2
  have hraise := ambeVoicing_error post hl pre fun k hk => hbefore k (hpre k hk).1 (hpre k hk).2
  simp only [voicingFlags, hc, readTable_ok.2 hrow, except_ok_bind, hsplit, hraise, except_error_bind]

end ambe

/-- The IMBE flags under a legal ROM: every harmonic has a band, every band a field (R281). -/
theorem voicingFlags_imbe_ok {s : State} (hc : s.codec = .imbe) (hl : s.rom.legal = true)
    (hrange : harmonicRange s.work.ff.harmonicCount)
    (hfields : s.work.fld.vuv.length = s.rom.imbe.bandCount.getD (s.work.ff.harmonicCount - 9) 0) :
    ∃ row, s.rom.imbe.vuvBand[s.rom.imbe.bandCount.getD (s.work.ff.harmonicCount - 9) 0 - 1]? = some row
      ∧ voicingFlags s = .ok ((harmonics s.work.ff.harmonicCount).map fun l =>
          decide (s.work.fld.vuv.getD (row.getD (l - 1) 0 - 1) 0 = 1)) := by
  obtain ⟨h9, h56⟩ := hrange
  have hgood := (rom_legal hl).imbe
  have hcount := readFrom_lt (t := s.rom.imbe.bandCount) h9 (by rw [hgood.bandCountLen]; omega) 0
  obtain ⟨hpos, htable, hrow, hband⟩ := hgood.bands (s.work.ff.harmonicCount - 9) (by omega)
  generalize s.rom.imbe.bandCount.getD (s.work.ff.harmonicCount - 9) 0 = k at hfields hcount hpos htable hrow hband ⊢
  have hread := readFrom_lt (t := s.rom.imbe.vuvBand) hpos (by omega) []
  generalize s.rom.imbe.vuvBand.getD (k - 1) [] = row at hrow hband hread
  have hflags := imbeVoicing_ok (row := row) (vuv := s.work.fld.vuv) (harmonics s.work.ff.harmonicCount)
    (fun l hl => ⟨(mem_harmonics.1 hl).1, by have := (mem_harmonics.1 hl).2; omega⟩) (hfields ▸ hband)
  refine ⟨row, (readFrom_ok.1 hread).2, ?_⟩
  simp only [voicingFlags, hc, hcount, except_ok_bind, hread, hflags]

/-- The band of a harmonic, over the reals (R155). -/
theorem real_bandIndex (w0 : ℝ) (l : ℕ) : bandIndex (N := realNumerics) w0 l = ⌊(l : ℝ) * w0 * 16 / (2 * Real.pi)⌋ := by
  simp only [bandIndex, real_floor, real_div, real_mul, real_ri, real_pi, Int.cast_natCast, Int.cast_ofNat]

/-- There are eight bands below half the sample rate (R266, R280). -/
theorem real_bandIndex_lt (w0 : ℝ) (l : ℕ) : bandIndex (N := realNumerics) w0 l < 8 ↔ (l : ℝ) * w0 < Real.pi := by
  have hpi := Real.pi_pos
  rw [real_bandIndex, Int.floor_lt, div_lt_iff₀ (by positivity)]
  push_cast
  constructor <;> intro h <;> linarith

/-- Settles O46, by the flags the stage reads: all of them, or the first read that fails. -/
theorem voicingFollowsTheBands : Obligations.VoicingFollowsTheBands := by
  refine ⟨fun s h56 => ⟨fun row hc hrow hbands => ?_, fun hc hidx => ?_, fun row l hc hrow h1 h2 hbefore hl => ?_,
    fun hc hl h9 hfields => ?_⟩, fun w0 l hw => ?_⟩
  · exact ⟨_, exec_voicing_ok (voicingFlags_ambe_ok hc hrow hbands), rfl, tab_length ..,
      fun l h1 h2 => voicingArray_harmonic _ h56 h1 h2, fun l => voicingArray_elsewhere _ h56⟩
  · obtain ⟨t, ht, hfault, hinfo, hrest⟩ := exec_voicing_raises (voicingFlags_ambe_index hc hidx)
    exact ⟨t, ht, hfault, by rw [hinfo, BitVec.ofInt_natCast], hrest⟩
  · exact exec_voicing_raises (voicingFlags_ambe_band hc hrow h1 h2 hbefore hl)
  · obtain ⟨row, hrow, hflags⟩ := voicingFlags_imbe_ok hc hl ⟨h9, h56⟩ hfields
    exact ⟨_, row, exec_voicing_ok hflags, rfl, hrow, fun l h1 h2 => voicingArray_harmonic _ h56 h1 h2,
      fun l => voicingArray_elsewhere _ h56⟩
  · refine ⟨real_bandIndex w0 l, ?_, real_bandIndex_lt w0 l, real_belowHalfRate⟩
    rw [real_bandIndex, Int.floor_nonneg]
    positivity

/-! ### RESID (R157, R158, R160) -/

/-- The row of block lengths the stage reads. -/
def blockRow (s : State) : List Nat := (s.rom.jblock s.codec).getD (s.work.ff.harmonicCount - 9) []

theorem blockRow_ambe {s : State} (hc : s.codec = .ambe) :
    blockRow s = s.rom.ambe.jblock.getD (s.work.ff.harmonicCount - 9) [] := by
  rw [blockRow, hc]
  rfl

section legal
variable {s : State} (hl : s.rom.legal = true) (hrange : harmonicRange s.work.ff.harmonicCount)
include hl hrange

/-- A legal ROM's row (R282): `NJBLOCK` positive lengths, which add up to the harmonic count. -/
theorem blockRow_good : (blockRow s).length = njblock s.codec ∧ (∀ j ∈ blockRow s, 1 ≤ j)
    ∧ (blockRow s).sum = s.work.ff.harmonicCount := by
  obtain ⟨h9, h56⟩ := hrange
  obtain ⟨hlen, hpos, hsum⟩ := (jblock_good hl s.codec).row (s.work.ff.harmonicCount - 9) (by omega)
  exact ⟨hlen, hpos, by rw [blockRow, hsum]; omega⟩

/-- The lengths fit the six bits of `J` (R17). -/
theorem blockRow_toNat : ((blockRow s).map (BitVec.ofNat 6)).map (·.toNat) = blockRow s :=
  jblock_row_toNat (jblock_good hl s.codec) (by have := hrange.2; omega)

/-- The stage under a legal ROM: what it does past the reads of the coefficients. -/
theorem residStage_legal : residStage s = (do
    let cs ← allCoefs s 1 (blockRow s)
    .ok { s with stage := Stage.predict, work := { s.work with
      jlen := (blockRow s).map (BitVec.ofNat 6), coef := cs, tres := (cs.map (idct (N := numerics))).flatten } }) := by
  obtain ⟨h9, h56⟩ := hrange
  have hread : readFrom 9 (s.rom.jblock s.codec) s.work.ff.harmonicCount = .ok (blockRow s) :=
    readFrom_lt h9 (by rw [(jblock_good hl s.codec).count]; omega) _
  have htake : (blockRow s).take (njblock s.codec) = blockRow s :=
    List.take_of_length_le (blockRow_good hl ⟨h9, h56⟩).1.le
  simp only [residStage, hread, except_ok_bind, htake, blockRow_toNat hl ⟨h9, h56⟩]


/-- The coefficients of every block, where each codebook read has the entry asked for (R158). -/
theorem allCoefs_legal (hbooks : s.codec = .ambe → ∀ i, i < 4 → 2 < (blockRow s).getD i 0 →
      s.work.fld.hocIdx.getD i 0 < (s.rom.ambe.hoc.getD i []).length) :
    ∃ cs, allCoefs s 1 (blockRow s) = .ok cs ∧ ∀ i, i < njblock s.codec →
      (s.codec = .ambe → ∀ k, 1 ≤ k → k ≤ (blockRow s).getD i 0 → (cs.getD i []).getD (k - 1) (.int 0)
          = if k ≤ 2 then Config.blockLead .ambe (i + 1) k s.work.rg
            else (((s.rom.ambe.hoc.getD i []).getD (s.work.fld.hocIdx.getD i 0) []).getD (k - 3) (.int 0)))
      ∧ (s.codec = .imbe → ∀ k, 1 ≤ k → k ≤ (blockRow s).getD i 0 → (cs.getD i []).getD (k - 1) (.int 0)
          = if k ≤ leadLength .imbe (i + 1) s.work.rg then Config.blockLead .imbe (i + 1) k s.work.rg
            else Config.hocCoefImbe (i + 1) k s.work.fld.hocQ s.work.ff.harmonicCount) := by
  obtain ⟨hlen, -⟩ := blockRow_good hl hrange
  have hhoc := (rom_legal hl).ambe.hocLen
  have hfour (hc : s.codec = .ambe) : njblock s.codec = 4 := by rw [hc]; rfl
  obtain ⟨cs, hcs, -, hblocks⟩ := allCoefs_ok s (blockRow s) 1 le_rfl (fun hc => by have := hfour hc; omega)
    fun hc n hn h2 => by
      rw [Nat.add_sub_cancel_left]
      exact hbooks hc n (by have := hfour hc; omega) h2
  refine ⟨cs, hcs, fun i hi => ?_⟩
  obtain ⟨c, hblock, hget⟩ := hblocks i (by omega)
  obtain ⟨c', hblock', -, hcoefs⟩ := blockCoefs_ok s (1 + i) ((blockRow s).getD i 0) (by omega)
    (fun hc => by have := hfour hc; omega) fun hc h2 => by
      rw [Nat.add_sub_cancel_left]
      exact hbooks hc i (by have := hfour hc; omega) h2
  obtain rfl : c = c' := Except.ok.inj (hblock.symm.trans hblock')
  rw [Nat.add_sub_cancel_left, Nat.add_comm 1 i] at hcoefs
  rw [hget]
  exact hcoefs

/-- The first block whose index is beyond its codebook is the one reported (R168). -/
theorem residStage_error (hc : s.codec = .ambe) {i : Nat} (hi : i < 4) (hlong : 2 < (blockRow s).getD i 0)
    (hbeyond : (s.rom.ambe.hoc.getD i []).length ≤ s.work.fld.hocIdx.getD i 0)
    (hbefore : ∀ k, k < i → 2 < (blockRow s).getD k 0 → s.work.fld.hocIdx.getD k 0 < (s.rom.ambe.hoc.getD k []).length) :
    residStage s = .error ⟨.codebookIndex, s.work.fld.hocIdx.getD i 0⟩ := by
  have hlen : (blockRow s).length = 4 := by
    rw [(blockRow_good hl hrange).1, hc]
    rfl
  have hhoc := (rom_legal hl).ambe.hocLen
  have hraise := allCoefs_error hc (blockRow s) 1 i le_rfl (by omega) (by omega) hlong
    (by rwa [Nat.add_sub_cancel_left]) fun k hk h2 => by
      rw [Nat.add_sub_cancel_left]
      exact hbefore k hk h2
  rw [residStage_legal hl hrange, hraise, Nat.add_sub_cancel_left]
  rfl

theorem exec_resid_ok {cs : List (List MReal)} (h : allCoefs s 1 (blockRow s) = .ok cs) :
    exec .resid s = .next { s with stage := Stage.predict, work := { s.work with
      jlen := (blockRow s).map (BitVec.ofNat 6), coef := cs, tres := (cs.map (idct (N := numerics))).flatten } } := by
  rw [exec_resid, residStage_legal hl hrange, h]
  rfl

end legal

/-- The residual has as many values as the blocks have coefficients (R160). -/
theorem length_flatten_idct (cs : List (List MReal)) :
    (cs.map (idct (N := numerics))).flatten.length = (cs.map List.length).sum := by
  rw [List.length_flatten, List.map_map]
  exact congrArg List.sum (List.map_congr_left fun xs _ => idct_length xs)

/-- Settles O47, by the coefficients of every block, or by the first block that cannot be read. -/
theorem residPartitionsTheHarmonics : Obligations.ResidPartitionsTheHarmonics := by
  intro s hl hrange
  refine ⟨fun i hc hi hlong hbeyond hbefore => ?_, fun hbooks => ?_⟩
  · rw [← blockRow_ambe hc] at hlong hbefore
    obtain ⟨t, ht, hfault, hinfo, hrest⟩ :=
      settle_codebookIndex (residStage_error hl hrange hc hi hlong hbeyond hbefore)
    exact ⟨t, ht, hfault, by rw [hinfo, BitVec.ofInt_natCast], hrest⟩
  · obtain ⟨hlen, hpos, hsum⟩ := blockRow_good hl hrange
    obtain ⟨cs, hcs, hcoefs⟩ := allCoefs_legal hl hrange fun hc => blockRow_ambe hc ▸ hbooks hc
    have hjlen := blockRow_toNat hl hrange
    have hsizes := allCoefs_lengths hcs
    have hat (i : Nat) : (((blockRow s).map (BitVec.ofNat 6)).getD i 0).toNat = (blockRow s).getD i 0 := by
      conv_rhs => rw [← hjlen]
      exact (List.getD_map _ 0 _).symm
    refine ⟨_, exec_resid_ok hl hrange hcs, rfl, hjlen, by rw [List.length_map, hlen], by rw [hjlen, hsum], fun j hj => ?_,
      by rw [hsizes, hjlen], rfl, by rw [length_flatten_idct, hsizes, hsum], fun hc i k hi h1 hk => ?_,
      fun hc i k hi h1 hk => ?_⟩
    · exact hpos _ (hjlen ▸ List.mem_map_of_mem hj)
    · exact (hcoefs i (by rw [hc]; exact hi)).1 hc k h1 (by rwa [hat] at hk)
    · exact (hcoefs i (by rw [hc]; exact hi)).2 hc k h1 (by rwa [hat] at hk)

/-! ### PREDICT (R161 to R167) -/

/-- The previous curve as R23 reads it. -/
theorem real_log2At {prev : ModelParams ℝ} {plog : ℕ → ℝ} (h0 : plog 0 = 0)
    (hplog : ∀ i, 1 ≤ i → plog i = prev.log2SpectralAmplitudes.getD (min i prev.fundamentalFrequency.harmonicCount) 0)
    (i : ℕ) : log2At (N := realNumerics) prev i = plog i := by
  unfold log2At
  split
  · next hi => rw [hi, h0, real_ri, Int.cast_zero]
  · next hi => rw [real_rd, hplog i (by omega)]; rfl

theorem real_interpolatedMean (prev : ModelParams ℝ) (lc : ℕ) : interpolatedMean (N := realNumerics) prev lc
    = (∑ i ∈ Finset.Icc 1 lc, interpolated (N := realNumerics) prev lc i) / lc := by
  unfold interpolatedMean
  rw [real_sum1, real_mul, real_div, real_ri, real_ri, Int.cast_one, Int.cast_natCast, one_div_mul_eq_div]

/-- Settles O49: quotient and remainder of `Lp l` by `Lc` are the floor and the fraction of the scaled position. -/
theorem interpolationOverTheReals : Obligations.InterpolationOverTheReals := by
  intro prev plog lc l _ _ _ h0 hplog
  refine ⟨?_, real_interpolatedMean prev lc⟩
  have hposition : (prev.fundamentalFrequency.harmonicCount : ℝ) / lc * l
      = ((prev.fundamentalFrequency.harmonicCount * l : ℕ) : ℝ) / lc := by
    rw [Nat.cast_mul, div_mul_eq_mul_div]
  rw [hposition, Nat.floor_div_eq_div, Int.fract_div_natCast_eq_div_natCast_mod]
  simp only [interpolated, real_add, real_mul, real_sub, real_div, real_ri, real_log2At h0 hplog, Int.cast_one,
    Int.cast_natCast, lOf]

/-- The two amplitudes `PREDICT` writes at a harmonic. -/
theorem predictStage_harmonic {s : State} {l : Nat} (h56 : lOf s.work.cmp ≤ 56) (h1 : 1 ≤ l) (h2 : l ≤ lOf s.work.cmp) :
    (predictStage s).work.cmp.log2SpectralAmplitudes.getD l (.int 0)
        = log2Amplitude (N := numerics) romFns s.codec s.pmp s.work.cmp.gain (lOf s.work.cmp) s.work.tres l
      ∧ (predictStage s).work.cmp.spectralAmplitudes.getD l (.int 0)
        = linearAmplitude (N := numerics) romFns s.codec (w0Of s.work.cmp) (s.work.cmp.voicingDecisions.getD l false)
            ((predictStage s).work.cmp.log2SpectralAmplitudes.getD l (.int 0)) := by
  have h57 : l < phaseLen := Nat.lt_succ_of_le (h2.trans h56)
  constructor
  · simp only [predictStage, predictParams]
    rw [tab_getD_lt _ h57, if_pos ⟨h1, h2⟩]
  · simp only [predictStage, predictParams]
    rw [tab_getD_lt _ h57, if_pos ⟨h1, h2⟩]
    rfl

/-- A voiced amplitude is the exponential alone, an unvoiced one is attenuated (R166, R167, R287). -/
theorem linearAmplitude_voiced (c : Codec) (w0 x : MReal) :
    linearAmplitude (N := numerics) romFns c w0 true x = Config.exp (Config.mul Config.ln2 x) := rfl

theorem linearAmplitude_unvoiced (c : Codec) (w0 x : MReal) :
    linearAmplitude (N := numerics) romFns c w0 false x = Config.mul (Config.exp (Config.mul Config.ln2 x))
      (if Config.le (.int 0) (Config.uvAtten c w0) then Config.uvAtten c w0 else .int 0) := rfl

/-- Settles O48, by the two amplitudes at a harmonic; index 0 is none. -/
theorem predictFillsTheSpectrum : Obligations.PredictFillsTheSpectrum := by
  intro s h56
  refine ⟨predictStage s, rfl, rfl, fun l h1 h2 => ?_, rfl, rfl⟩
  obtain ⟨hlog, hlinear⟩ := predictStage_harmonic h56 h1 h2
  refine ⟨hlog, fun hvoiced => ?_, fun hunvoiced => ?_⟩
  · rw [hlinear, hvoiced, linearAmplitude_voiced]
  · rw [hlinear, hunvoiced, linearAmplitude_unvoiced]
    rfl

/-! ### REPEATCHK (R145) -/

/-- The repeat check in any numerics: R145's five terms. -/
theorem repeatCheck_iff {R : Type} [N : Num R] {c : Codec} {ft : FrameType} {e0 eT : Nat} {rate : R} :
    repeatCheck c ft e0 eT rate = true ↔
      ft = .erasure ∨ 4 ≤ e0 ∨ (c = .ambe ∧ 2 ≤ e0 ∧ 6 ≤ eT)
        ∨ (c = .imbe ∧ Num.le (Literal.repeatBase + Literal.repeatSlope * rate) (ri eT) = true)
        ∨ (c = .imbe ∧ ft = .invalid) := by
  simp only [repeatCheck, Bool.or_eq_true, Bool.and_eq_true, decide_eq_true_eq, or_assoc, and_assoc]

/-- Settles O40: the five terms are the same in the machine's numbers and over the reals. -/
theorem repeatCheckAsWritten : Obligations.RepeatCheckAsWritten := by
  refine ⟨fun s => ⟨repeatchkStage s, rfl, rfl, ?_, fun hrep => ?_, fun hrep htone => ?_,
    fun hrep htone => ?_⟩, fun c ft e0 eT rate => ?_⟩
  · exact repeatCheck_iff (N := numerics) (c := s.codec)
  · exact if_pos hrep
  · exact (if_neg (Bool.eq_false_iff.1 hrep)).trans (if_pos htone)
  · exact (if_neg (Bool.eq_false_iff.1 hrep)).trans (if_neg htone)
  · rw [repeatCheck_iff (N := realNumerics)]
    simp only [Literal.repeatBase, Literal.repeatSlope, real_le, real_add, real_mul, real_ri, Int.cast_ofNat,
      Int.cast_natCast]

/-! ### REPEAT (R146, R147) -/

theorem repeatStage_mutes {s : State} (h : 4 ≤ s.pmp.repeatCount) : repeatStage s = { s with
    stage := Stage.noise, work := { s.work with cmp := s.rom.mpDefault s.codec, muted := true } } := if_pos h

theorem repeatStage_copies {s : State} (h : s.pmp.repeatCount < 4) : repeatStage s = { s with
    stage := Stage.noise,
    work := { s.work with cmp := { s.pmp with repeatCount := s.pmp.repeatCount + 1 }, muted := false } } :=
  if_neg (Nat.not_le.2 h)

/-- Settles O41, by the two branches of `REPEAT`. -/
theorem repeatCopiesOrMutes : Obligations.RepeatCopiesOrMutes := by
  intro s
  refine ⟨repeatStage s, rfl, ?_⟩
  rcases Nat.lt_or_ge s.pmp.repeatCount 4 with h | h
  · rw [repeatStage_copies h]
    exact ⟨rfl, fun h4 => absurd h (Nat.not_lt.2 h4), fun _ => ⟨rfl, rfl⟩⟩
  · rw [repeatStage_mutes h]
    exact ⟨rfl, fun _ => ⟨rfl, rfl⟩, fun h4 => absurd h4 (Nat.not_lt.2 h)⟩

section frames
variable {s : State}

/-- A repeated frame counts one repeat more, up to four. -/
theorem afterRepeat_counts (h : s.pmp.repeatCount < 4) :
    (afterRepeat s).pmp.repeatCount = s.pmp.repeatCount + 1 := by
  rw [afterRepeat, commitStage_pmp, repeatStage_copies h]

/-- The frame after four repeats leaves the default set. -/
theorem afterRepeat_mutes (h : 4 ≤ s.pmp.repeatCount) : (afterRepeat s).pmp = s.rom.mpDefault s.codec := by
  rw [afterRepeat, commitStage_pmp, repeatStage_mutes h]

theorem afterRepeats_succ (k : Nat) : afterRepeats (k + 1) s = afterRepeat (afterRepeats k s) := by
  induction k generalizing s with
  | zero => rfl
  | succ k ih => exact ih

/-- Repeated frames write neither the ROM nor the strap. -/
theorem afterRepeats_sameStrapAndRom (k : Nat) : SameStrapAndRom s (afterRepeats k s) := by
  induction k with
  | zero => exact ⟨rfl, rfl⟩
  | succ k ih =>
    obtain ⟨hcodec, hrom⟩ := ih
    rw [afterRepeats_succ]
    exact ⟨by rw [afterRepeat, commitStage_codec, repeatStage_codec, hcodec],
      by rw [afterRepeat, commitStage_rom, repeatStage_rom, hrom]⟩

/-- From no repeat on, `k` repeated frames count `k`, up to four. -/
theorem afterRepeats_counts (h0 : s.pmp.repeatCount = 0) {k : Nat} (hk : k ≤ 4) :
    (afterRepeats k s).pmp.repeatCount = k := by
  induction k with
  | zero => exact h0
  | succ k ih =>
    have hcount := ih (by omega)
    rw [afterRepeats_succ, afterRepeat_counts (by omega), hcount]

/-- The fifth leaves the default set. -/
theorem afterRepeats_five (h0 : s.pmp.repeatCount = 0) : (afterRepeats 5 s).pmp = s.rom.mpDefault s.codec := by
  obtain ⟨hcodec, hrom⟩ := afterRepeats_sameStrapAndRom (s := s) 4
  rw [afterRepeats_succ, afterRepeat_mutes (afterRepeats_counts h0 le_rfl).ge, hrom, hcodec]

end frames

/-- Settles O42: the count goes up to four and starts again at the default set's. -/
theorem fiveRepeatsMute : Obligations.FiveRepeatsMute := by
  refine ⟨fun s t u ht hu => ?_, fun s h0 hdefault => ?_⟩
  · cases ht
    cases hu
    rfl
  · have hfive := afterRepeats_five h0
    have hzero : (afterRepeats 5 s).pmp.repeatCount = 0 := by rw [hfive, hdefault]
    refine ⟨afterRepeats_counts h0 (by decide), afterRepeats_counts h0 (by decide), afterRepeats_counts h0 (by decide),
      afterRepeats_counts h0 le_rfl, hfive, hzero, ?_⟩
    rw [afterRepeats_succ, afterRepeat_counts (by omega), hzero]

/-! ### TONESET and MPNEW (R148 to R150) -/

theorem errorCounts_getD (s : State) {i : Nat} (h : i < 7) : s.errorCounts.getD i 0 = s.errorAt i := by
  rw [State.errorCounts, tab_getD_lt _ h]

/-- The set that MPNEW makes (R149). -/
theorem mpnewStage_cmp_eq (s : State) : (mpnewStage s).work.cmp = { s.pmp with
    fundamentalFrequency := s.work.ff, frameType := s.work.frameType, repeatCount := 0,
    errorCountTotal := s.work.eT, errorCount := s.errorCounts,
    voicingDecisions := List.replicate 57 false,
    log2SpectralAmplitudes := List.replicate 57 (.int 0),
    spectralAmplitudes := List.replicate 57 (.int 0),
    enhancedSpectralAmplitudes := List.replicate 57 (.int 0),
    errorRate := errorRateNext (N := numerics) s.codec s.pmp.errorRate s.work.eT.toNat } := by
  simp only [mpnewStage, tab_const]
  rfl

/-- Settles O43, by the sets the two stages make; the codecs differ in the weight of the error rate alone. -/
theorem newParametersComplete : Obligations.NewParametersComplete := by
  intro s
  refine ⟨⟨tonesetStage s, rfl, rfl, rfl, fun i => errorCounts_getD s⟩,
    ⟨mpnewStage s, rfl, rfl, ?_, fun i => errorCounts_getD s⟩⟩
  rw [mpnewStage_cmp_eq]
  cases s.codec <;> rfl

/-! ### GAIN (R152, R153) -/

theorem exec_gain_ambe {s : State} {diff : MReal} (hc : s.codec = .ambe)
    (hdiff : readTable s.rom.ambe.dgain s.work.fld.gainIdx = .ok diff) :
    exec .gain s = .next { s with stage := Stage.voicing, work := { s.work with
      gvec := tab 8 fun m => Config.prbaVector s.work.fld.prba1Idx s.work.fld.prba2Idx (m + 1)
      rg := idct (N := numerics) (tab 8 fun m => Config.prbaVector s.work.fld.prba1Idx s.work.fld.prba2Idx (m + 1))
      cmp := { s.work.cmp with gain := ambeGain (N := numerics) diff s.pmp.gain } } } := by
  simp only [exec_gain, gainStage, hc, hdiff, except_ok_bind]
  rfl

theorem exec_gain_imbe {s : State} {first : MReal} (hc : s.codec = .imbe)
    (hfirst : readTable s.rom.imbe.gainTable s.work.fld.gainIdx = .ok first) :
    exec .gain s = .next { s with stage := Stage.voicing, work := { s.work with
      gvec := imbeGainVector first s.work.ff.harmonicCount s.work.fld.gainQ
      rg := idct (N := numerics) (imbeGainVector first s.work.ff.harmonicCount s.work.fld.gainQ)
      cmp := { s.work.cmp with gain := first } } } := by
  simp only [exec_gain, gainStage, hc, hfirst, except_ok_bind]
  rfl

/-- An index beyond the gain table of the codec raises (R168). -/
theorem gainStage_error {s : State} (h : (s.codec = .ambe ∧ s.rom.ambe.dgain.length ≤ s.work.fld.gainIdx)
      ∨ (s.codec = .imbe ∧ s.rom.imbe.gainTable.length ≤ s.work.fld.gainIdx)) :
    gainStage s = .error ⟨.codebookIndex, s.work.fld.gainIdx⟩ := by
  rcases h with ⟨hc, hidx⟩ | ⟨hc, hidx⟩ <;> simp only [gainStage, hc, readTable_ge hidx, except_error_bind]

/-- The AMBE gain vector (R153). -/
theorem ambeGainVector_getD (i1 i2 : Nat) {m : Nat} (h : m < 8) :
    (tab 8 fun m => Config.prbaVector i1 i2 (m + 1)).getD m (.int 0) = Config.prbaVector i1 i2 (m + 1) := by
  rw [tab_getD_lt _ h]

/-- The entries 2 to 6 of the IMBE gain vector (R152). -/
theorem imbeGainVector_getD (first : MReal) (lc : Nat) (q : List Nat) {m : Nat} (h2 : 2 ≤ m) (h6 : m ≤ 6) :
    (imbeGainVector first lc q).getD (m - 1) (.int 0) = Config.imbeGainDeq m lc (q.getD (m - 2) 0) := by
  obtain ⟨n, rfl⟩ : ∃ n, m = n + 2 := ⟨m - 2, by omega⟩
  rw [imbeGainVector, show n + 2 - 1 = n + 1 by omega, List.getD_cons_succ, tab_getD_lt _ (by omega), Nat.add_sub_cancel]
  rfl

/-- Settles O44, by what the stage writes for either codec. -/
theorem gainReadsTheTable : Obligations.GainReadsTheTable := by
  intro s
  refine ⟨fun hc hidx => ?_, fun hc hidx => ?_, fun h => ?_⟩
  · exact ⟨_, exec_gain_ambe hc (readTable_lt hidx (.int 0)), rfl, rfl, tab_length ..,
      fun m hm => ambeGainVector_getD _ _ hm, rfl⟩
  · exact ⟨_, exec_gain_imbe hc (readTable_lt hidx (.int 0)), rfl, rfl, rfl, rfl,
      fun m h2 h6 => imbeGainVector_getD _ _ _ h2 h6, rfl⟩
  · obtain ⟨t, ht, hfault, hinfo, hrest⟩ := settle_codebookIndex (gainStage_error h)
    exact ⟨t, ht, hfault, by rw [hinfo, BitVec.ofInt_natCast], hrest⟩

/-! ### The primitives over `Real` (R159, R202, R205, R209) -/

/-- The window depends on the distance from its centre alone (R202). -/
theorem windowAt_neg (table : List MReal) (n : Int) :
    windowAt (N := numerics) table (-n) = windowAt (N := numerics) table n := by
  unfold windowAt
  rw [Int.natAbs_neg]

theorem windowAt_beyond {table : List MReal} {n : Int} (h : table.length ≤ n.natAbs) :
    windowAt (N := numerics) table n = .int 0 := List.getD_eq_default _ _ h

theorem exec_ws (n : Int) (s : State) :
    exec (.ws n) s = .next (s.withRes (.real (windowAt (N := numerics) s.rom.window n))) := rfl

/-- Settles O55, by the one outcome of each of the four primitives. -/
theorem realPrimitivesComplete : Obligations.RealPrimitivesComplete := by
  intro s
  refine ⟨fun x1 xs => ⟨_, rfl, rfl, idct_length (x1 :: xs)⟩, fun n => ?_, ⟨_, rfl, rfl, rfl, tab_length ..⟩,
    ⟨_, rfl, rfl, rfl, tab_length ..⟩⟩
  refine ⟨windowAt (N := numerics) s.rom.window n, exec_ws n s, ?_, rfl, windowAt_beyond⟩
  rw [exec_ws, windowAt_neg]

end Sys2Proof.Machine
end

section
/-! SUPPORT. The statements of 44_enhance_smooth.md. `ENHANCE` has one lemma for each side of the test on `RM0`, in any
numerics; over the reals its energy is kept because the shaping makes no amplitude 0 that was not 0 before. -/

namespace Sys2Proof.Machine

/-! ### Amplitude arrays -/

section generic
variable {R : Type} [N : Num R]

/-- The elements `1 .. lc` of an amplitude array, where the array has them all. -/
theorem amplitudeArray_getD {lc l : Nat} (h56 : lc ≤ 56) (h1 : 1 ≤ l) (hl : l ≤ lc) (e : Nat → R) (d : R) :
    (amplitudeArray lc e).getD l d = e l := by
  rw [amplitudeArray, tab_getD_lt (n := phaseLen) _ (Nat.lt_succ_of_le (hl.trans h56)), if_pos ⟨h1, hl⟩]

theorem amplitudeArray_zero_getD (lc l : Nat) : (amplitudeArray lc fun _ => (ri 0 : R)).getD l (ri 0) = ri 0 := by
  rw [amplitudeArray, tab_getD, ite_self, ite_self]

/-! ### ENHANCE (R180 to R185) in any numerics -/

/-- `RM0` of the amplitudes of a parameter set (R181). -/
def rm0Of (p : ModelParams R) : R := moment0 (lOf p) (rd p.spectralAmplitudes)

/-- `RM1` of the amplitudes of a parameter set (R181). -/
def rm1Of (p : ModelParams R) : R := moment1 (w0Of p) (lOf p) (rd p.spectralAmplitudes)

/-- `W[l]` for a parameter set (R182). -/
def weightOf (free : Nat → R) (p : ModelParams R) (l : Nat) : R :=
  weightAt free (w0Of p) (rm0Of p) (rm1Of p) (rd p.spectralAmplitudes) l

/-- The amplitude at harmonic `l` after the shaping and before the renormalisation (R183). -/
def shapedOf (free : Nat → R) (p : ModelParams R) (l : Nat) : R :=
  shapeAt (lOf p) l (rd p.spectralAmplitudes l) (weightOf free p l)

variable {free : Nat → R} {prevEnergy : R} {old : List R} {p : ModelParams R}

/-- `ENHANCE` on an empty spectrum stops after step 1: the amplitudes are 0 (R181). -/
theorem enhanceParams_empty (h : Num.eq (rm0Of p) (ri 0) = true) :
    enhanceParams free prevEnergy old p
      = { rm0 := rm0Of p, rm1 := rm1Of p, weights := old,
          cmp := { p with enhancedSpectralAmplitudes := amplitudeArray (lOf p) fun _ => ri 0 } } :=
  if_pos h

/-- `ENHANCE` on any other spectrum runs all five steps (R181 to R185). -/
theorem enhanceParams_nonempty (h : Num.eq (rm0Of p) (ri 0) = false) :
    enhanceParams free prevEnergy old p
      = { rm0 := rm0Of p, rm1 := rm1Of p, weights := tab (lOf p) fun i => weightOf free p (i + 1),
          cmp := { p with
            enhancedSpectralAmplitudes := amplitudeArray (lOf p) fun l =>
              shapedOf free p l * renormFactor (rm0Of p) (lOf p) (shapedOf free p)
            localEnergy := localEnergyNext prevEnergy (rm0Of p) } } :=
  if_neg (Bool.eq_false_iff.1 h)

theorem enhanceParams_rm0 : (enhanceParams free prevEnergy old p).rm0 = rm0Of p := by
  cases h : Num.eq (rm0Of p) (ri 0)
  · rw [enhanceParams_nonempty h]
  · rw [enhanceParams_empty h]

theorem enhanceParams_rm1 : (enhanceParams free prevEnergy old p).rm1 = rm1Of p := by
  cases h : Num.eq (rm0Of p) (ri 0)
  · rw [enhanceParams_nonempty h]
  · rw [enhanceParams_empty h]

/-- `ENHANCE` changes two fields of the parameter set (R180). -/
theorem enhanceParams_frame (r : Enhanced R) (hr : r = enhanceParams free prevEnergy old p) :
    r.cmp = { p with
      enhancedSpectralAmplitudes := r.cmp.enhancedSpectralAmplitudes, localEnergy := r.cmp.localEnergy } := by
  subst hr
  cases h : Num.eq (rm0Of p) (ri 0)
  · rw [enhanceParams_nonempty h]
  · rw [enhanceParams_empty h]

/-- `localEnergy` stays where the spectrum is empty, and is R185's value elsewhere. -/
theorem enhanceParams_localEnergy : (enhanceParams free prevEnergy old p).cmp.localEnergy
    = if Num.eq (rm0Of p) (ri 0) then p.localEnergy else localEnergyNext prevEnergy (rm0Of p) := by
  cases h : Num.eq (rm0Of p) (ri 0)
  · rw [enhanceParams_nonempty h, if_neg Bool.false_ne_true]
  · rw [enhanceParams_empty h, if_pos rfl]

theorem enhanceParams_empty_amplitude (h : Num.eq (rm0Of p) (ri 0) = true) (l : Nat) :
    (enhanceParams free prevEnergy old p).cmp.enhancedSpectralAmplitudes.getD l (ri 0) = ri 0 := by
  rw [enhanceParams_empty h, amplitudeArray_zero_getD]

/-- `W` holds the weights at the harmonics (R182). -/
theorem enhanceParams_weight (h : Num.eq (rm0Of p) (ri 0) = false) {l : Nat} (h1 : 1 ≤ l) (hl : l ≤ lOf p) (d : R) :
    (enhanceParams free prevEnergy old p).weights.getD (l - 1) d = weightOf free p l := by
  rw [enhanceParams_nonempty h, tab_getD_lt _ (by omega), Nat.sub_add_cancel h1]

/-- The amplitude at a harmonic is the shaped one, renormalised (R183, R184). -/
theorem enhanceParams_amplitude (h : Num.eq (rm0Of p) (ri 0) = false) (h56 : lOf p ≤ 56) {l : Nat} (h1 : 1 ≤ l)
    (hl : l ≤ lOf p) (d : R) :
    (enhanceParams free prevEnergy old p).cmp.enhancedSpectralAmplitudes.getD l d
      = shapedOf free p l * renormFactor (rm0Of p) (lOf p) (shapedOf free p) := by
  rw [enhanceParams_nonempty h, amplitudeArray_getD h56 h1 hl]

/-! ### SMOOTH (R187 to R192) in any numerics -/

variable {F : RomFns R} {c : Codec} {eT coset : Nat} {prevTm : R}

/-- A voicing decision after `SMOOTH`: the one before, or forced where the amplitude exceeds `VM` (R189). -/
theorem smoothParams_voicing {l : Nat} (h57 : l < 57) :
    (smoothParams F c eT coset prevTm p).cmp.voicingDecisions.getD l false
      = (p.voicingDecisions.getD l false || (decide (1 ≤ l) && decide (l ≤ lOf p)
          && exceeds (rd p.enhancedSpectralAmplitudes l) (smoothParams F c eT coset prevTm p).vm)) := by
  simp only [smoothParams]
  rw [tab_getD_lt (n := phaseLen) _ h57]

/-- An amplitude after `SMOOTH` (R191). -/
theorem smoothParams_amplitude (h56 : lOf p ≤ 56) {l : Nat} (h1 : 1 ≤ l) (hl : l ≤ lOf p) (d : R) :
    (smoothParams F c eT coset prevTm p).cmp.enhancedSpectralAmplitudes.getD l d
      = boundAmplitude (smoothParams F c eT coset prevTm p).am (smoothParams F c eT coset prevTm p).tm
          (rd p.enhancedSpectralAmplitudes l) :=
  amplitudeArray_getD h56 h1 hl _ d

end generic

/-! ### ENHANCE over the reals (R181 to R186) -/

theorem real_moment0 (lc : ℕ) (m : ℕ → ℝ) : moment0 (N := realNumerics) lc m = ∑ l ∈ Finset.Icc 1 lc, m l ^ 2 := by
  simp only [moment0, real_sum1, real_mul, sq]

theorem real_moment1 (w0 : ℝ) (lc : ℕ) (m : ℕ → ℝ) :
    moment1 (N := realNumerics) w0 lc m = ∑ l ∈ Finset.Icc 1 lc, m l ^ 2 * Real.cos (w0 * l) := by
  simp only [moment1, real_sum1, real_mul, real_cos, real_ri, Int.cast_natCast, sq]

theorem real_weightDenominator (w0 rm0 rm1 : ℝ) :
    weightDenominator (N := realNumerics) w0 rm0 rm1 = w0 * rm0 * (rm0 ^ 2 - rm1 ^ 2) := by
  simp only [weightDenominator, real_mul, real_sub, sq]

theorem real_weightNumerator (w0 rm0 rm1 : ℝ) (l : ℕ) : weightNumerator (N := realNumerics) w0 rm0 rm1 l
    = Real.pi * 0.96 * (rm0 ^ 2 + rm1 ^ 2 - 2 * rm0 * rm1 * Real.cos (w0 * l)) := by
  simp only [weightNumerator, Literal.weightFactor, real_mul, real_sub, real_add, real_cos, real_pi, real_ri, real_rlit,
    Int.cast_natCast, sq]
  norm_num

/-- The weight at a denominator that is not 0 (R182). -/
theorem real_weightAt (free : ℕ → ℝ) {w0 rm0 rm1 : ℝ} (m : ℕ → ℝ) (l : ℕ) (h : w0 * rm0 * (rm0 ^ 2 - rm1 ^ 2) ≠ 0) :
    weightAt (N := realNumerics) free w0 rm0 rm1 m l
      = Real.sqrt (m l) * ((Real.pi * 0.96 * (rm0 ^ 2 + rm1 ^ 2 - 2 * rm0 * rm1 * Real.cos (w0 * l)))
          / (w0 * rm0 * (rm0 ^ 2 - rm1 ^ 2))) ^ (0.25 : ℝ) := by
  have hpower : Literal.weightPower (N := realNumerics) = 0.25 := (real_rlit 25 100).trans (by norm_num)
  have hdenominator : ¬Num.eq (self := realNumerics) (weightDenominator (N := realNumerics) w0 rm0 rm1)
      (ri (N := realNumerics) 0) = true := by
    rwa [real_eq, real_weightDenominator, real_ri, Int.cast_zero]
  unfold weightAt
  rw [if_neg hdenominator, real_mul, real_sqrt, real_pow, real_div, real_weightNumerator,
    real_weightDenominator, hpower]

theorem real_shapeAt (lc l : ℕ) (amp w : ℝ) : shapeAt (N := realNumerics) lc l amp w
    = if 8 * l ≤ lc then amp else if 1.2 < w then amp * 1.2 else if w < 0.5 then amp * 0.5 else amp * w := by
  have hhigh : Literal.shapeHigh (N := realNumerics) = 1.2 := (real_rlit 12 10).trans (by norm_num)
  have hlow : Literal.shapeLow (N := realNumerics) = 0.5 := (real_rlit 5 10).trans (by norm_num)
  simp only [shapeAt, hhigh, hlow, real_lt, real_mul]

/-- Every factor of the shaping is at least one half, so no amplitude is lost (R183). -/
theorem real_shapeAt_ne_zero {lc l : ℕ} {amp w : ℝ} (h : amp ≠ 0) : shapeAt (N := realNumerics) lc l amp w ≠ 0 := by
  rw [real_shapeAt]
  split_ifs with hfirst hhigh hlow
  · exact h
  · exact mul_ne_zero h (by norm_num)
  · exact mul_ne_zero h (by norm_num)
  · have hw : 0 < w := lt_of_lt_of_le (by norm_num) (not_lt.1 hlow)
    exact mul_ne_zero h hw.ne'

theorem real_renormFactor (rm0 : ℝ) (lc : ℕ) (e : ℕ → ℝ) :
    renormFactor (N := realNumerics) rm0 lc e = Real.sqrt (rm0 / ∑ i ∈ Finset.Icc 1 lc, e i ^ 2) := by
  simp only [renormFactor, real_sqrt, real_div, real_sum1, real_mul, sq]

theorem real_localEnergyNext (prevEnergy rm0 : ℝ) :
    localEnergyNext (N := realNumerics) prevEnergy rm0 = max 10000 (0.95 * prevEnergy + 0.05 * rm0) := by
  simp only [localEnergyNext, Literal.energyFloor, Literal.energyKeep, Literal.energyNew, real_maxR, real_add, real_mul,
    real_ri, real_rlit]
  norm_num

/-- Amplitudes scaled by the root of the quotient of two energies have the energy of the numerator (R184, R186). -/
theorem sum_sq_renormalised {s : Finset ℕ} {e : ℕ → ℝ} {energy : ℝ} (hnonneg : 0 ≤ energy) (hsum : ∑ i ∈ s, e i ^ 2 ≠ 0) :
    ∑ l ∈ s, (e l * Real.sqrt (energy / ∑ i ∈ s, e i ^ 2)) ^ 2 = energy := by
  have hquotient : 0 ≤ energy / ∑ i ∈ s, e i ^ 2 := div_nonneg hnonneg (Finset.sum_nonneg fun i _ => sq_nonneg (e i))
  simp only [mul_pow, Real.sq_sqrt hquotient, ← Finset.sum_mul]
  exact mul_div_cancel₀ energy hsum

theorem real_rm0Of (p : ModelParams ℝ) :
    rm0Of (N := realNumerics) p = ∑ l ∈ Finset.Icc 1 (lOf p), p.spectralAmplitudes.getD l 0 ^ 2 := by
  simp only [rm0Of, real_moment0, real_rd]

theorem real_rm1Of (p : ModelParams ℝ) : rm1Of (N := realNumerics) p
    = ∑ l ∈ Finset.Icc 1 (lOf p), p.spectralAmplitudes.getD l 0 ^ 2 * Real.cos (w0Of p * l) := by
  simp only [rm1Of, real_moment1, real_rd]

theorem real_rm0Of_nonneg (p : ModelParams ℝ) : 0 ≤ rm0Of (N := realNumerics) p := by
  rw [real_rm0Of]
  exact Finset.sum_nonneg fun l _ => sq_nonneg _

/-- A spectrum with energy has energy after the shaping too, whatever the weights are. -/
theorem real_shapedOf_energy {free : ℕ → ℝ} {p : ModelParams ℝ} (h : rm0Of (N := realNumerics) p ≠ 0) :
    ∑ i ∈ Finset.Icc 1 (lOf p), shapedOf (N := realNumerics) free p i ^ 2 ≠ 0 := by
  rw [real_rm0Of] at h
  obtain ⟨l, hl, hamp⟩ := Finset.exists_ne_zero_of_sum_ne_zero h
  have hshaped : shapedOf (N := realNumerics) free p l ≠ 0 :=
    real_shapeAt_ne_zero (by rw [real_rd]; exact ne_zero_pow two_ne_zero hamp)
  exact (Finset.sum_pos' (fun i _ => sq_nonneg _) ⟨l, hl, sq_pos_of_ne_zero hshaped⟩).ne'

theorem real_rm0Of_test_zero {p : ModelParams ℝ} (h : rm0Of (N := realNumerics) p = 0) :
    Num.eq (self := realNumerics) (rm0Of (N := realNumerics) p) (ri (N := realNumerics) 0) = true :=
  real_eq.2 (by rw [h, real_ri, Int.cast_zero])

theorem real_rm0Of_test_ne {p : ModelParams ℝ} (h : rm0Of (N := realNumerics) p ≠ 0) :
    Num.eq (self := realNumerics) (rm0Of (N := realNumerics) p) (ri (N := realNumerics) 0) = false :=
  Bool.eq_false_iff.2 fun htest => h (by rw [real_eq.1 htest, real_ri, Int.cast_zero])

section nonempty
variable {p : ModelParams ℝ} (free : ℕ → ℝ) (prevEnergy : ℝ) (old : List ℝ)

theorem real_shapedOf (p : ModelParams ℝ) (l : ℕ) : shapedOf (N := realNumerics) free p l
    = shapeAt (N := realNumerics) (lOf p) l (p.spectralAmplitudes.getD l 0) (weightOf (N := realNumerics) free p l) := by
  unfold shapedOf
  rw [real_rd]

theorem real_enhanceParams_amplitude (hne : rm0Of (N := realNumerics) p ≠ 0) (h56 : lOf p ≤ 56) {l : ℕ}
    (hmem : l ∈ Finset.Icc 1 (lOf p)) :
    (enhanceParams (N := realNumerics) free prevEnergy old p).cmp.enhancedSpectralAmplitudes.getD l 0
      = shapedOf (N := realNumerics) free p l * Real.sqrt (rm0Of (N := realNumerics) p
          / ∑ i ∈ Finset.Icc 1 (lOf p), shapedOf (N := realNumerics) free p i ^ 2) := by
  obtain ⟨h1, hl⟩ := Finset.mem_Icc.1 hmem
  rw [enhanceParams_amplitude (N := realNumerics) (real_rm0Of_test_ne hne) h56 h1 hl, real_mul, real_renormFactor]

/-- The Enhancer keeps the energy (R186). -/
theorem real_enhanceParams_energy (hne : rm0Of (N := realNumerics) p ≠ 0) (h56 : lOf p ≤ 56) :
    ∑ l ∈ Finset.Icc 1 (lOf p),
        (enhanceParams (N := realNumerics) free prevEnergy old p).cmp.enhancedSpectralAmplitudes.getD l 0 ^ 2
      = rm0Of (N := realNumerics) p := by
  rw [Finset.sum_congr rfl fun l hmem => by rw [real_enhanceParams_amplitude free prevEnergy old hne h56 hmem]]
  exact sum_sq_renormalised (real_rm0Of_nonneg p) (real_shapedOf_energy hne)

end nonempty

/-- Settles O51, by the two sides of the test on `RM0`. -/
theorem enhancementOverTheReals : Obligations.EnhancementOverTheReals := by
  intro free prevEnergy old p r lc w0 m w e hr hlc h56 hw0 hm hw he
  subst hr hlc hw0
  rw [enhanceParams_rm0 (N := realNumerics), enhanceParams_rm1 (N := realNumerics)]
  refine ⟨?_, ?_, fun hempty => ⟨fun l => ?_, ?_⟩, fun hne => ?_⟩
  · simp only [hm]
    exact real_rm0Of p
  · simp only [hm]
    exact real_rm1Of p
  · rw [← Int.cast_zero (R := ℝ)]
    exact enhanceParams_empty_amplitude (N := realNumerics) (real_rm0Of_test_zero hempty) l
  · rw [enhanceParams_localEnergy (N := realNumerics), if_pos (real_rm0Of_test_zero hempty)]
  · have htest := real_rm0Of_test_ne hne
    have hweight : ∀ l, 1 ≤ l → l ≤ lOf p → w l = weightOf (N := realNumerics) free p l := fun l h1 hl =>
      (hw l).trans (enhanceParams_weight (N := realNumerics) htest h1 hl 0)
    have hshaped : ∀ l ∈ Finset.Icc 1 (lOf p), e l = shapedOf (N := realNumerics) free p l := fun l hmem => by
      obtain ⟨h1, hl⟩ := Finset.mem_Icc.1 hmem
      rw [he, hm, hweight l h1 hl, real_shapedOf, real_shapeAt]
      rfl
    refine ⟨fun l h1 hl hden => ?_, fun l h1 hl => ?_, ?_, real_enhanceParams_energy free prevEnergy old hne h56⟩
    · rw [hweight l h1 hl, hm, ← real_rd]
      exact real_weightAt free _ l hden
    · have hmem : l ∈ Finset.Icc 1 (lOf p) := Finset.mem_Icc.2 ⟨h1, hl⟩
      rw [real_enhanceParams_amplitude free prevEnergy old hne h56 hmem, hshaped l hmem]
      exact congrArg (fun energy => _ * Real.sqrt (_ / energy)) (Finset.sum_congr rfl fun i hi => by rw [hshaped i hi])
    · rw [enhanceParams_localEnergy (N := realNumerics), htest, if_neg Bool.false_ne_true, real_localEnergyNext]

/-! ### SMOOTH over the reals (R188 to R192) -/

theorem real_rateLow : Literal.rateLow (N := realNumerics) = 0.005 := (real_rlit 5 1000).trans (by norm_num)

theorem real_voicingThreshold (rate : ℝ) (eT coset : ℕ) (energy : ℝ) :
    voicingThreshold (N := realNumerics) rate eT coset energy
      = if rate ≤ 0.005 ∧ eT ≤ 4 then none
        else if rate ≤ 0.0125 ∧ coset = 0 then some (45.255 * energy ^ (0.375 : ℝ) / Real.exp (277.26 * rate))
        else some (1.414 * energy ^ (0.375 : ℝ)) := by
  have hmid : Literal.rateMid (N := realNumerics) = 0.0125 := (real_rlit 125 10000).trans (by norm_num)
  have hscale : Literal.thresholdMid (N := realNumerics) = 45.255 := (real_rlit 45255 1000).trans (by norm_num)
  have hpower : Literal.thresholdPower (N := realNumerics) = 0.375 := (real_rlit 375 1000).trans (by norm_num)
  have hdecay : Literal.thresholdDecay (N := realNumerics) = 277.26 := (real_rlit 27726 100).trans (by norm_num)
  have hhigh : Literal.thresholdHigh (N := realNumerics) = 1.414 := (real_rlit 1414 1000).trans (by norm_num)
  simp only [voicingThreshold, Bool.and_eq_true, decide_eq_true_eq, real_le, real_rateLow, hmid, hscale, hpower, hdecay,
    hhigh, real_mul, real_div, real_pow, real_exp]

theorem real_exceeds (amp : ℝ) (vm : Option ℝ) :
    exceeds (N := realNumerics) amp vm = true ↔ ∃ v, vm = some v ∧ v < amp := by
  cases vm with
  | none => exact ⟨fun h => absurd h Bool.false_ne_true, fun ⟨_, h, _⟩ => nomatch h⟩
  | some v => exact real_lt.trans ⟨fun h => ⟨v, rfl, h⟩, fun ⟨_, rfl, h⟩ => h⟩

theorem real_amplitudeCeiling (F : RomFns ℝ) (c : Codec) (rate : ℝ) (eT : ℕ) (prevTm : ℝ) :
    amplitudeCeiling (N := realNumerics) F c rate eT prevTm
      = if rate ≤ 0.005 ∧ eT ≤ 6 then 20480
        else match c with
          | .imbe => 6000 - 300 * (eT : ℝ) + prevTm
          | .ambe => F.tmElseAmbe eT prevTm := by
  simp only [amplitudeCeiling, Bool.and_eq_true, decide_eq_true_eq, real_le, real_rateLow, Literal.ceilingClean,
    Literal.ceilingBase, Literal.ceilingSlope, real_ri, real_mul, real_sub, real_add]
  cases c <;> norm_num

theorem real_boundAmplitude (am tm amp : ℝ) :
    boundAmplitude (N := realNumerics) am tm amp = if tm < am then amp * (tm / am) else amp := by
  simp only [boundAmplitude, real_lt, real_mul, real_div]

/-- Settles O52, by each rule of the stage in turn; the bounded sum is `AM` times `Tm / AM`. -/
theorem smoothingOverTheReals : Obligations.SmoothingOverTheReals := by
  intro F c eT coset prevTm p r lc e hr hlc h56 he
  subst hlc
  have hrd : ∀ l, rd (N := realNumerics) p.enhancedSpectralAmplitudes l = e l := fun l => (real_rd _ l).trans (he l).symm
  have ham : r.am = ∑ l ∈ Finset.Icc 1 (lOf p), e l := by
    subst hr
    simp only [← hrd]
    exact real_sum1 _ _
  have hamp : ∀ l, 1 ≤ l → l ≤ lOf p →
      r.cmp.enhancedSpectralAmplitudes.getD l 0 = if r.tm < r.am then e l * (r.tm / r.am) else e l := fun l h1 hl => by
    subst hr
    rw [smoothParams_amplitude (N := realNumerics) h56 h1 hl, real_boundAmplitude, hrd]
  refine ⟨?_, fun l h1 hl => ?_, ?_, ham, hamp, fun hbound hne => ?_, ?_⟩
  · rw [hr]
    exact real_voicingThreshold ..
  · rw [hr, smoothParams_voicing (N := realNumerics) (Nat.lt_succ_of_le (hl.trans h56)), hrd, Bool.or_eq_true,
      Bool.and_eq_true, real_exceeds]
    exact or_congr_right (and_iff_right (by simp only [h1, hl, lOf, decide_true, Bool.and_self]))
  · rw [hr]
    exact real_amplitudeCeiling ..
  · calc ∑ l ∈ Finset.Icc 1 (lOf p), r.cmp.enhancedSpectralAmplitudes.getD l 0
        = ∑ l ∈ Finset.Icc 1 (lOf p), e l * (r.tm / r.am) := Finset.sum_congr rfl fun l hmem => by
          obtain ⟨h1, hl⟩ := Finset.mem_Icc.1 hmem
          rw [hamp l h1 hl, if_pos hbound]
      _ = r.am * (r.tm / r.am) := by rw [← Finset.sum_mul, ham]
      _ = r.tm := mul_div_cancel₀ r.tm hne
  · rw [hr]
    rfl

/-! ### The two stages (R180, R187) -/

theorem exec_enhance (s : State) : exec .enhance s = .next (enhanceStage s) := rfl
theorem exec_smooth (s : State) : exec .smooth s = .next (smoothStage s) := rfl

/-- Settles O50: the stages write what the two rules on `CMP` give. -/
theorem enhanceAndSmoothComplete : Obligations.EnhanceAndSmoothComplete := by
  intro s
  refine ⟨⟨enhanceStage s, _, exec_enhance s, rfl, rfl, enhanceParams_frame (N := numerics) _ rfl, ?_, ?_⟩,
    smoothStage s, _, exec_smooth s, rfl, rfl, rfl, fun l h57 hvoiced => ?_⟩
  · rw [enhanceParams_rm0 (N := numerics)]
    exact enhanceParams_localEnergy (N := numerics)
  · rw [enhanceParams_rm0 (N := numerics)]
    cases h : Config.eq (rm0Of (N := numerics) s.work.cmp) (.int 0) with
    | false => exact .inl rfl
    | true => exact .inr (enhanceParams_empty_amplitude (N := numerics) h)
  · rw [smoothParams_voicing (N := numerics) h57, hvoiced, Bool.true_or]

end Sys2Proof.Machine
end

section
/-! SUPPORT. The statements of 45_synth_unvoiced.md. Over the reals the transform's pair turns on the orthogonality of its
columns, the shaping on bands that abut, the overlap-add on the two ends of the default window. -/

namespace Sys2Proof.Machine

/-! ### The transform over the reals (R205, R209) -/

theorem real_binAt (u : List (ℝ × ℝ)) (m : ℕ) : binAt (N := realNumerics) u m = u.getD m (0, 0) := by
  simp only [binAt, real_ri, Int.cast_zero]

theorem real_conj (z : ℝ × ℝ) : conj (N := realNumerics) z = (z.1, -z.2) := by
  simp only [conj, real_ri, Int.cast_zero, zero_sub]

theorem real_xformAngle (m i : ℕ) :
    xformAngle (N := realNumerics) m i = 2 * Real.pi * m * ((i : ℝ) - 128) / 256 := by
  simp only [xformAngle, real_mul, real_div, real_ri, real_pi, Int.cast_sub, Int.cast_natCast, Int.cast_ofNat]

/-- Bin `m` of the spectrum is the sum that R205 prints, its two parts apart. -/
theorem real_xformForward_binAt (x : List ℝ) {m : ℕ} (hm : m < 256) :
    binAt (N := realNumerics) (xformForward (N := realNumerics) x) m
      = (∑ i ∈ Finset.range 256, x.getD i 0 * Real.cos (xformAngle (N := realNumerics) m i),
         - ∑ i ∈ Finset.range 256, x.getD i 0 * Real.sin (xformAngle (N := realNumerics) m i)) := by
  unfold xformForward
  rw [real_binAt, tab_getD_lt (n := xformLen) _ hm, real_sum0, real_sum0, ← Finset.sum_neg_distrib]
  simp only [real_rd, real_mul, real_cos, real_sin, real_ri, Int.cast_zero, zero_sub]
  rfl

/-- Sample `i` of the inverse transform (R209). -/
theorem real_xformInverse_getD (u : List (ℝ × ℝ)) {i : ℕ} (hi : i < 256) :
    (xformInverse (N := realNumerics) u).getD i 0
      = 1 / 256 * ∑ m ∈ Finset.range 256,
          ((binAt (N := realNumerics) u m).1 * Real.cos (xformAngle (N := realNumerics) m i)
            - (binAt (N := realNumerics) u m).2 * Real.sin (xformAngle (N := realNumerics) m i)) := by
  unfold xformInverse
  rw [tab_getD_lt (n := xformLen) _ hi, real_sum0]
  simp only [real_mul, real_div, real_sub, real_cos, real_sin, real_ri, Int.cast_one, Int.cast_ofNat]
  rfl

/-- The angle of bin `256 - m` is that of bin `m` turned round, but for whole turns. -/
theorem real_xformAngle_mirror {m : ℕ} (hm : m ≤ 256) (i : ℕ) : xformAngle (N := realNumerics) (256 - m) i
    = ((i : ℤ) - 128 : ℤ) * (2 * Real.pi) - xformAngle (N := realNumerics) m i := by
  rw [real_xformAngle, real_xformAngle]
  push_cast [Nat.cast_sub hm]
  ring

/-- The cosines of the multiples of a proper part of the circle cancel: they are the real parts of the powers of a root of
unity that is not 1. -/
theorem sum_cos_multiples {n : ℕ} (hn : n ≠ 0) {k : ℤ} (hk : ¬(n : ℤ) ∣ k) :
    ∑ m ∈ Finset.range n, Real.cos (2 * Real.pi * m * k / n) = 0 := by
  have hroot := Complex.isPrimitiveRoot_exp n hn
  generalize hz : Complex.exp (2 * Real.pi * Complex.I / n) ^ k = z
  have hne : z ≠ 1 := fun h => hk ((hroot.zpow_eq_one_iff_dvd k).1 (hz.trans h))
  have hpow : z ^ n = 1 := by rw [← hz, ← zpow_natCast, zpow_comm, zpow_natCast, hroot.pow_eq_one, one_zpow]
  have hre : ∀ m : ℕ, Real.cos (2 * Real.pi * m * k / n) = (z ^ m).re := fun m => by
    rw [← hz, ← Complex.exp_int_mul, ← Complex.exp_nat_mul, ← Complex.exp_ofReal_mul_I_re]
    congr 2
    push_cast
    ring
  calc ∑ m ∈ Finset.range n, Real.cos (2 * Real.pi * m * k / n)
      = (∑ m ∈ Finset.range n, z ^ m).re := by rw [Complex.re_sum]; exact Finset.sum_congr rfl fun m _ => hre m
    _ = 0 := by rw [geom_sum_eq hne, hpow, sub_self, zero_div, Complex.zero_re]

/-- The columns of the transform are orthogonal. -/
theorem real_sum_cos_xformAngle_sub {i j : ℕ} (hi : i < 256) (hj : j < 256) :
    ∑ m ∈ Finset.range 256, Real.cos (xformAngle (N := realNumerics) m j - xformAngle (N := realNumerics) m i)
      = if j = i then 256 else 0 := by
  have hangle : ∀ m : ℕ, xformAngle (N := realNumerics) m j - xformAngle (N := realNumerics) m i
      = 2 * Real.pi * m * (((j : ℤ) - i : ℤ) : ℝ) / (256 : ℕ) := fun m => by
    rw [real_xformAngle, real_xformAngle]
    push_cast
    ring
  simp only [hangle]
  split
  · next h => simp [h]
  · next h => exact sum_cos_multiples (by decide) (by omega)

/-- A bin of the spectrum, taken back by the inverse transform, gives each sample the cosine of the difference of angles. -/
theorem real_xformForward_term (x : List ℝ) (i : ℕ) {m : ℕ} (hm : m < 256) :
    (binAt (N := realNumerics) (xformForward (N := realNumerics) x) m).1 * Real.cos (xformAngle (N := realNumerics) m i)
        - (binAt (N := realNumerics) (xformForward (N := realNumerics) x) m).2 * Real.sin (xformAngle (N := realNumerics) m i)
      = ∑ j ∈ Finset.range 256,
          x.getD j 0 * Real.cos (xformAngle (N := realNumerics) m j - xformAngle (N := realNumerics) m i) := by
  rw [real_xformForward_binAt x hm, neg_mul, sub_neg_eq_add, Finset.sum_mul, Finset.sum_mul, ← Finset.sum_add_distrib]
  exact Finset.sum_congr rfl fun j _ => by rw [Real.cos_sub]; ring

/-- The inverse transform of the transform, sample by sample: the two sums in the other order, and orthogonality. -/
theorem real_xformInverse_xformForward_getD (x : List ℝ) {i : ℕ} (hi : i < 256) :
    (xformInverse (N := realNumerics) (xformForward (N := realNumerics) x)).getD i 0 = x.getD i 0 := by
  calc (xformInverse (N := realNumerics) (xformForward (N := realNumerics) x)).getD i 0
      = 1 / 256 * ∑ m ∈ Finset.range 256, ∑ j ∈ Finset.range 256,
          x.getD j 0 * Real.cos (xformAngle (N := realNumerics) m j - xformAngle (N := realNumerics) m i) := by
        rw [real_xformInverse_getD _ hi]
        exact congrArg _ (Finset.sum_congr rfl fun m hm => real_xformForward_term x i (Finset.mem_range.1 hm))
    _ = 1 / 256 * ∑ j ∈ Finset.range 256, x.getD j 0 * if j = i then 256 else 0 := by
        rw [Finset.sum_comm]
        exact congrArg _ (Finset.sum_congr rfl fun j hj => by
          rw [← Finset.mul_sum, real_sum_cos_xformAngle_sub hi (Finset.mem_range.1 hj)])
    _ = x.getD i 0 := by
        simp only [mul_ite, mul_zero, Finset.sum_ite_eq', Finset.mem_range, hi, if_true]
        ring

/-- Settles O57: the mirror by the angle of bin `256 - m`, the inverse by the orthogonality of the columns. -/
theorem transformPairOverTheReals : Obligations.TransformPairOverTheReals := by
  intro x hx
  refine ⟨fun m hm => ?_, fun m h1 h255 => ?_, ?_⟩
  · simp only [real_xformForward_binAt x hm, real_xformAngle]
  · rw [real_conj, real_xformForward_binAt x (by omega : 256 - m < 256), real_xformForward_binAt x (by omega : m < 256)]
    simp only [real_xformAngle_mirror (by omega : m ≤ 256), Real.cos_int_mul_two_pi_sub, Real.sin_int_mul_two_pi_sub,
      mul_neg, Finset.sum_neg_distrib]
  · refine List.ext_getElem ((tab_length ..).trans hx.symm) fun i hi hix => ?_
    rw [List.getElem_eq_getD 0, List.getElem_eq_getD 0, real_xformInverse_xformForward_getD x (hx ▸ hix)]


/-! ### The bands over the reals (R206) -/

theorem ownsBin_iff {R : Type} [N : Num R] {w0 : R} {l m : Nat} :
    ownsBin w0 l m = true ↔ bandLo w0 l ≤ m ∧ (m : Int) < bandHi w0 l := by
  rw [ownsBin, Bool.and_eq_true, decide_eq_true_iff, decide_eq_true_iff]

theorem real_bandLo (w0 : ℝ) (l : ℕ) :
    bandLo (N := realNumerics) w0 l = ⌈256 / (2 * Real.pi) * ((l : ℝ) - 0.5) * w0⌉ := by
  simp only [bandLo, real_ceil, real_mul, real_div, real_sub, real_ri, real_pi, real_half, Int.cast_natCast, Int.cast_ofNat]
  norm_num

theorem real_bandHi (w0 : ℝ) (l : ℕ) :
    bandHi (N := realNumerics) w0 l = ⌈256 / (2 * Real.pi) * ((l : ℝ) + 0.5) * w0⌉ := by
  simp only [bandHi, real_ceil, real_mul, real_div, real_add, real_ri, real_pi, real_half, Int.cast_natCast, Int.cast_ofNat]
  norm_num

/-- The bands abut. -/
theorem real_bandHi_eq_bandLo_succ (w0 : ℝ) (l : ℕ) :
    bandHi (N := realNumerics) w0 l = bandLo (N := realNumerics) w0 (l + 1) := by
  rw [real_bandHi, real_bandLo]
  push_cast
  norm_num [add_sub_assoc]

theorem real_bandLo_mono {w0 : ℝ} (hw : 0 < w0) : Monotone (bandLo (N := realNumerics) w0) := fun l l' hl => by
  rw [real_bandLo, real_bandLo]
  have hcast : (l : ℝ) ≤ l' := Nat.cast_le.2 hl
  gcongr

/-- Bin 0 belongs to no band. -/
theorem real_one_le_bandLo {w0 : ℝ} (hw : 0 < w0) {l : ℕ} (h1 : 1 ≤ l) : 1 ≤ bandLo (N := realNumerics) w0 l := by
  refine le_trans ?_ (real_bandLo_mono hw h1)
  rw [real_bandLo, Int.one_le_ceil_iff]
  have hpi := Real.pi_pos
  norm_num
  positivity

/-- A band that begins above band `l` begins where `l` has ended, so it owns none of its bins. -/
theorem real_ownsBin_unique {w0 : ℝ} (hw : 0 < w0) {l l' m : ℕ} (h : ownsBin (N := realNumerics) w0 l m = true)
    (h' : ownsBin (N := realNumerics) w0 l' m = true) : l = l' := by
  have hnot : ∀ {a b : ℕ}, ownsBin (N := realNumerics) w0 a m = true → ownsBin (N := realNumerics) w0 b m = true → ¬a < b :=
    fun {a b} ha hb hab => by
      obtain ⟨-, hhi⟩ := (ownsBin_iff (N := realNumerics)).1 ha
      obtain ⟨hlo, -⟩ := (ownsBin_iff (N := realNumerics)).1 hb
      have habut := real_bandHi_eq_bandLo_succ w0 a
      have hle := real_bandLo_mono hw (show a + 1 ≤ b from hab)
      omega
  exact le_antisymm (not_lt.1 (hnot h' h)) (not_lt.1 (hnot h h'))

/-! ### The energy and the scale of a band (R207) -/

theorem real_normSq (z : ℝ × ℝ) : normSq (N := realNumerics) z = z.1 ^ 2 + z.2 ^ 2 := by
  simp only [normSq, real_add, real_mul, sq]

theorem real_bandEnergy (u : List (ℝ × ℝ)) (w0 : ℝ) (l : ℕ) : bandEnergy (N := realNumerics) u w0 l
    = (∑ i ∈ Finset.range (bandHi (N := realNumerics) w0 l - bandLo (N := realNumerics) w0 l).toNat,
          normSq (N := realNumerics) (binAt (N := realNumerics) u (bandLo (N := realNumerics) w0 l + i).toNat))
        / ((bandHi (N := realNumerics) w0 l - bandLo (N := realNumerics) w0 l).toNat : ℝ) := by
  simp only [bandEnergy, real_sum0, real_div, real_ri, Int.cast_natCast]

/-- The energy of a band that begins at bin 0 or above and is not empty, as R207 prints it. -/
theorem real_bandEnergy_eq {w0 : ℝ} {l : ℕ} (u : List (ℝ × ℝ)) (h0 : 0 ≤ bandLo (N := realNumerics) w0 l)
    (hlt : bandLo (N := realNumerics) w0 l < bandHi (N := realNumerics) w0 l) :
    bandEnergy (N := realNumerics) u w0 l
      = (∑ i ∈ Finset.Ico (bandLo (N := realNumerics) w0 l).toNat (bandHi (N := realNumerics) w0 l).toNat,
          ((u.getD i (0, 0)).1 ^ 2 + (u.getD i (0, 0)).2 ^ 2))
        / ((bandHi (N := realNumerics) w0 l - bandLo (N := realNumerics) w0 l : ℤ) : ℝ) := by
  rw [real_bandEnergy, Finset.sum_Ico_eq_sum_range]
  generalize bandLo (N := realNumerics) w0 l = lo at *
  generalize bandHi (N := realNumerics) w0 l = hi at *
  lift lo to ℕ using h0
  lift hi to ℕ using (by omega)
  rw [← Int.cast_natCast (hi - lo : ℤ).toNat, Int.toNat_of_nonneg (by omega),
    show ((hi : ℤ) - lo).toNat = (hi : ℤ).toNat - (lo : ℤ).toNat by omega]
  simp only [real_normSq, real_binAt, ← Nat.cast_add, Int.toNat_natCast]

theorem real_bandScale (free : ℕ → ℝ) (gammaW : ℝ) (u : List (ℝ × ℝ)) (w0 amp : ℝ) (l : ℕ) :
    bandScale (N := realNumerics) free gammaW u w0 amp l
      = if bandEnergy (N := realNumerics) u w0 l = 0 then free l
        else gammaW * amp / Real.sqrt (bandEnergy (N := realNumerics) u w0 l) := by
  simp only [bandScale, real_eq, real_mul, real_div, real_sqrt, real_ri, Int.cast_zero]

/-- A bin of a band of no energy is 0 itself. -/
theorem real_binAt_eq_zero {u : List (ℝ × ℝ)} {w0 : ℝ} {l m : ℕ} (howns : ownsBin (N := realNumerics) w0 l m = true)
    (henergy : bandEnergy (N := realNumerics) u w0 l = 0) : binAt (N := realNumerics) u m = (0, 0) := by
  obtain ⟨hlo, hhi⟩ := (ownsBin_iff (N := realNumerics)).1 howns
  rw [real_bandEnergy, div_eq_zero_iff, Nat.cast_eq_zero, or_iff_left (by omega),
    Finset.sum_eq_zero_iff_of_nonneg fun i _ => by rw [real_normSq]; positivity] at henergy
  have hbin := henergy (m - bandLo (N := realNumerics) w0 l).toNat (Finset.mem_range.2 (by omega))
  rw [show (bandLo (N := realNumerics) w0 l + ((m - bandLo (N := realNumerics) w0 l).toNat : ℤ)).toNat = m by omega,
    real_normSq, add_eq_zero_iff_of_nonneg (sq_nonneg _) (sq_nonneg _), sq_eq_zero_iff, sq_eq_zero_iff] at hbin
  exact Prod.ext hbin.1 hbin.2

/-! ### The shaped bins (R208) -/

/-- What the shaping makes of a bin of band `l`. -/
def scaledBin {R : Type} [N : Num R] (free : Nat → R) (gammaW : R) (p : ModelParams R) (u : List (R × R)) (l m : Nat) : R × R :=
  (bandScale free gammaW u (w0Of p) (enhancedAt p l) l * (binAt u m).1,
   bandScale free gammaW u (w0Of p) (enhancedAt p l) l * (binAt u m).2)

section generic
variable {R : Type} [N : Num R] {free : Nat → R} {gammaW : R} {p : ModelParams R} {u : List (R × R)} {l m : Nat}

/-- A shaped bin is that of a band which owns it, or 0 where none does. -/
theorem shapedBin_cases (free : Nat → R) (gammaW : R) (p : ModelParams R) (u : List (R × R)) (m : Nat) :
    (∃ l, 1 ≤ l ∧ l ≤ lOf p ∧ ownsBin (w0Of p) l m = true
        ∧ shapedBin free gammaW p u m = if voicedAt p l then (ri 0, ri 0) else scaledBin free gammaW p u l m)
      ∨ ((∀ l, 1 ≤ l → l ≤ lOf p → ownsBin (w0Of p) l m ≠ true) ∧ shapedBin free gammaW p u m = (ri 0, ri 0)) := by
  unfold shapedBin
  cases hfind : (tab (lOf p) fun i => i + 1).find? (fun l => ownsBin (w0Of p) l m) with
  | some l =>
    obtain ⟨h1, hl⟩ := mem_harmonics.1 (List.mem_of_find?_eq_some hfind)
    exact .inl ⟨l, h1, hl, List.find?_some (p := fun l => ownsBin (w0Of p) l m) hfind, rfl⟩
  | none => exact .inr ⟨fun l h1 hl => List.find?_eq_none.1 hfind l (mem_harmonics.2 ⟨h1, hl⟩), rfl⟩

theorem shapeSpectrum_low (h : m ≤ 128) :
    binAt (shapeSpectrum free gammaW p u) m = shapedBin free gammaW p u m := by
  rw [binAt, shapeSpectrum, tab_getD_lt (n := xformLen) _ (show m < 256 by omega), if_pos h]

theorem shapeSpectrum_high (h : 129 ≤ m) (h255 : m ≤ 255) :
    binAt (shapeSpectrum free gammaW p u) m = conj (shapedBin free gammaW p u (256 - m)) := by
  rw [binAt, shapeSpectrum, tab_getD_lt (n := xformLen) _ (show m < 256 by omega), if_neg (by omega)]

theorem shapeSpectrum_beyond (h : 256 ≤ m) : binAt (shapeSpectrum free gammaW p u) m = (ri 0, ri 0) := by
  rw [binAt, shapeSpectrum, tab_getD, if_neg (show ¬m < xformLen from Nat.not_lt.2 h)]

end generic

section shaping
variable {free : ℕ → ℝ} {gammaW : ℝ} {p : ModelParams ℝ} {u : List (ℝ × ℝ)} {l m : ℕ}

theorem real_zeroBin : (ri (N := realNumerics) 0, ri (N := realNumerics) 0) = ((0, 0) : ℝ × ℝ) := by
  rw [real_ri, Int.cast_zero]

theorem voicedAt_harmonic (hl : l ≤ lOf p) : voicedAt p l = p.voicingDecisions.getD l false := by
  rw [voicedAt, decide_eq_true hl, Bool.true_and]

/-- At a frequency above 0 the band that owns a bin decides what it becomes. -/
theorem real_shapedBin_owned (hw : 0 < w0Of p) (h1 : 1 ≤ l) (hl : l ≤ lOf p)
    (howns : ownsBin (N := realNumerics) (w0Of p) l m = true) :
    shapedBin (N := realNumerics) free gammaW p u m
      = if p.voicingDecisions.getD l false then (0, 0) else scaledBin (N := realNumerics) free gammaW p u l m := by
  rcases shapedBin_cases (N := realNumerics) free gammaW p u m with ⟨l', -, hl', howns', heq⟩ | ⟨hnone, -⟩
  · obtain rfl := real_ownsBin_unique hw howns' howns
    rw [heq, voicedAt_harmonic hl, real_zeroBin]
  · exact absurd howns (hnone l h1 hl)

/-- A bin that no band owns becomes 0. -/
theorem real_shapedBin_unowned (hnone : ∀ l, 1 ≤ l → l ≤ lOf p → ownsBin (N := realNumerics) (w0Of p) l m ≠ true) :
    shapedBin (N := realNumerics) free gammaW p u m = (0, 0) := by
  rcases shapedBin_cases (N := realNumerics) free gammaW p u m with ⟨l, h1, hl, howns, -⟩ | ⟨-, heq⟩
  · exact absurd howns (hnone l h1 hl)
  · rw [heq, real_zeroBin]

/-- A bin of a band of amplitude 0 is scaled to 0; where the scale is a free value the bin was 0 before. -/
theorem real_scaledBin_zero (howns : ownsBin (N := realNumerics) (w0Of p) l m = true) (hl : l ≤ lOf p)
    (hamp : p.enhancedSpectralAmplitudes.getD l 0 = 0) : scaledBin (N := realNumerics) free gammaW p u l m = (0, 0) := by
  unfold scaledBin
  by_cases henergy : bandEnergy (N := realNumerics) u (w0Of p) l = 0
  · simp only [real_binAt_eq_zero howns henergy, mul_zero]
  · simp only [real_bandScale, if_neg henergy, enhancedAt, if_pos hl, real_rd, hamp, mul_zero, zero_div, zero_mul]

theorem real_shapedBin_silent (hamp : ∀ l, l ≤ lOf p → p.enhancedSpectralAmplitudes.getD l 0 = 0) (m : ℕ) :
    shapedBin (N := realNumerics) free gammaW p u m = (0, 0) := by
  rcases shapedBin_cases (N := realNumerics) free gammaW p u m with ⟨l, -, hl, howns, heq⟩ | ⟨-, heq⟩
  · rw [heq, real_scaledBin_zero howns hl (hamp l hl), real_zeroBin, ite_self]
  · rw [heq, real_zeroBin]

/-- A set whose amplitudes are all 0 shapes every bin to 0. -/
theorem real_shapeSpectrum_silent (hamp : ∀ l, l ≤ lOf p → p.enhancedSpectralAmplitudes.getD l 0 = 0) (m : ℕ) :
    binAt (N := realNumerics) (shapeSpectrum (N := realNumerics) free gammaW p u) m = (0, 0) := by
  rcases Nat.lt_or_ge m 129 with hlow | hhigh
  · rw [shapeSpectrum_low (N := realNumerics) (by omega), real_shapedBin_silent hamp]
  · rcases Nat.lt_or_ge m 256 with h256 | h256
    · rw [shapeSpectrum_high (N := realNumerics) hhigh (by omega), real_shapedBin_silent hamp, real_conj, neg_zero]
    · rw [shapeSpectrum_beyond (N := realNumerics) h256, real_zeroBin]

/-- A bin of an unvoiced band that has energy, as R207 and R208 print it. -/
theorem real_scaledBin_energy (hl : l ≤ lOf p) (henergy : bandEnergy (N := realNumerics) u (w0Of p) l ≠ 0) :
    scaledBin (N := realNumerics) free gammaW p u l m
      = (gammaW * p.enhancedSpectralAmplitudes.getD l 0 / Real.sqrt (bandEnergy (N := realNumerics) u (w0Of p) l)
            * (u.getD m (0, 0)).1,
         gammaW * p.enhancedSpectralAmplitudes.getD l 0 / Real.sqrt (bandEnergy (N := realNumerics) u (w0Of p) l)
            * (u.getD m (0, 0)).2) := by
  simp only [scaledBin, real_bandScale, if_neg henergy, enhancedAt, if_pos hl, real_rd, real_binAt, real_mul]

end shaping

/-- Settles O58, by the band that owns the bin, if any does. -/
theorem bandsAndBinsOverTheReals : Obligations.BandsAndBinsOverTheReals := by
  refine ⟨fun w0 l => ⟨real_bandHi_eq_bandLo_succ w0 l, real_bandLo w0 l⟩,
    fun w0 hw => ⟨real_one_le_bandLo hw le_rfl, fun l l' m => real_ownsBin_unique hw⟩,
    fun free gammaW p u l m hw h1 hl h128 howns hunvoiced hsum => ?_,
    fun free gammaW p u m => ⟨fun l hw h1 hl h128 howns hvoiced => ?_, fun h128 hnone => ?_, fun h129 h255 => ?_⟩,
    fun free gammaW p u hamp m => real_shapeSpectrum_silent hamp m⟩
  · obtain ⟨hlo, hhi⟩ := (ownsBin_iff (N := realNumerics)).1 howns
    have hlt := hlo.trans_lt hhi
    have henergy := real_bandEnergy_eq u (zero_le_one.trans (real_one_le_bandLo hw h1)) hlt
    have hne : bandEnergy (N := realNumerics) u p.fundamentalFrequency.frequency l ≠ 0 :=
      henergy ▸ div_ne_zero hsum (Int.cast_ne_zero.2 (sub_pos.2 hlt).ne')
    rw [shapeSpectrum_low (N := realNumerics) h128, real_shapedBin_owned hw h1 hl howns, hunvoiced,
      if_neg Bool.false_ne_true, real_scaledBin_energy hl hne, w0Of, henergy]
  · rw [shapeSpectrum_low (N := realNumerics) h128, real_shapedBin_owned hw h1 hl howns, hvoiced, if_pos rfl]
  · rw [shapeSpectrum_low (N := realNumerics) h128]
    refine real_shapedBin_unowned fun l h1 hl howns => hnone l h1 hl ?_
    rwa [ownsBin_iff (N := realNumerics), real_bandLo, real_bandHi] at howns
  · rw [shapeSpectrum_high (N := realNumerics) h129 h255, shapeSpectrum_low (N := realNumerics) (by omega), real_conj]


/-! ### The overlap-add over the reals (R202, R210) -/

/-- The default window with its closed ramp: at distance 105 the ramp has reached 0. -/
theorem real_window_closedRamp (n : ℤ) : windowAt (N := realNumerics) (defaultWindow (N := realNumerics)) n
    = if n.natAbs ≤ 55 then 1 else if n.natAbs ≤ 105 then (105 - (n.natAbs : ℝ)) / 50 else 0 := by
  rw [real_window]
  rcases eq_or_ne n.natAbs 105 with h | h
  · norm_num [h]
  · simp only [lt_iff_le_and_ne, ne_eq, h, not_false_eq_true, and_true]

/-- Up to 55 the previous buffer alone has weight. -/
theorem real_window_early {n : ℕ} (h : n ≤ 55) :
    windowAt (N := realNumerics) (defaultWindow (N := realNumerics)) n = 1
      ∧ windowAt (N := realNumerics) (defaultWindow (N := realNumerics)) ((n : ℤ) - 160) = 0 := by
  rw [real_window, real_window, if_pos (by omega), if_neg (by omega), if_neg (by omega)]
  exact ⟨rfl, rfl⟩

/-- From 56 to 104 both buffers are on their ramps. -/
theorem real_window_ramps {n : ℕ} (h56 : 56 ≤ n) (h105 : n < 105) :
    windowAt (N := realNumerics) (defaultWindow (N := realNumerics)) n = (105 - (n : ℝ)) / 50
      ∧ windowAt (N := realNumerics) (defaultWindow (N := realNumerics)) ((n : ℤ) - 160) = ((n : ℝ) - 55) / 50 := by
  rw [real_window, real_window, if_neg (by omega), if_pos (by omega), if_neg (by omega), if_pos (by omega),
    show ((n : ℤ) - 160).natAbs = 160 - n by omega, Nat.cast_sub (by omega : n ≤ 160), Int.natAbs_natCast]
  exact ⟨rfl, by push_cast; ring⟩

/-- From 105 on the current buffer alone has weight. -/
theorem real_window_late {n : ℕ} (h105 : 105 ≤ n) (h160 : n < 160) :
    windowAt (N := realNumerics) (defaultWindow (N := realNumerics)) n = 0
      ∧ windowAt (N := realNumerics) (defaultWindow (N := realNumerics)) ((n : ℤ) - 160) = 1 := by
  rw [real_window, real_window, if_neg (by omega), if_neg (by omega), if_pos (by omega)]
  exact ⟨rfl, rfl⟩

/-- The weights of the two buffers at a sample of the frame add up to 1. -/
theorem real_window_add {n : ℕ} (h160 : n < 160) :
    windowAt (N := realNumerics) (defaultWindow (N := realNumerics)) n
      + windowAt (N := realNumerics) (defaultWindow (N := realNumerics)) ((n : ℤ) - 160) = 1 := by
  rcases Nat.lt_or_ge n 56 with h56 | h56
  · obtain ⟨ha, hb⟩ := real_window_early (Nat.le_of_lt_succ h56)
    rw [ha, hb, add_zero]
  · rcases Nat.lt_or_ge n 105 with h105 | h105
    · obtain ⟨ha, hb⟩ := real_window_ramps h56 h105
      rw [ha, hb]
      ring
    · obtain ⟨ha, hb⟩ := real_window_late h105 h160
      rw [ha, hb, zero_add]

/-- Two weights that add up to 1 are not both 0. -/
theorem sum_sq_ne_zero_of_add_eq_one {a b : ℝ} (h : a + b = 1) : a ^ 2 + b ^ 2 ≠ 0 := fun h0 => by
  nlinarith [sq_nonneg (a - b)]

/-- A sample of the overlap-add by the weights at it (R210). -/
theorem real_overlapAdd {ws : List ℝ} {n : ℕ} {a b : ℝ} (ha : windowAt (N := realNumerics) ws n = a)
    (hb : windowAt (N := realNumerics) ws ((n : ℤ) - 160) = b) (prevUw uw : List ℝ) :
    overlapAdd (N := realNumerics) ws prevUw uw n
      = (a * (if n + 128 ≤ 255 then prevUw.getD (n + 128) 0 else 0) + b * (if 32 ≤ n then uw.getD (n - 32) 0 else 0))
        / (a ^ 2 + b ^ 2) := by
  simp only [overlapAdd, ha, hb, real_add, real_mul, real_div, real_rd, real_ri, Int.cast_zero, sq]

/-- Settles O59, by the weights at each end of the frame and on the ramps between. -/
theorem overlapAddOverTheReals : Obligations.OverlapAddOverTheReals := by
  rintro ws rfl
  refine ⟨fun n h160 => ⟨real_window_add h160, sum_sq_ne_zero_of_add_eq_one (real_window_add h160)⟩,
    real_window_closedRamp, fun prevUw uw n => ⟨fun h55 => ?_, fun h105 h160 => ?_, fun h56 h105 => ?_⟩⟩
  · obtain ⟨ha, hb⟩ := real_window_early h55
    rw [real_overlapAdd ha hb, if_pos (by omega)]
    norm_num
  · obtain ⟨ha, hb⟩ := real_window_late h105 h160
    rw [real_overlapAdd ha hb, if_pos (by omega : 32 ≤ n)]
    norm_num
  · obtain ⟨ha, hb⟩ := real_window_ramps h56 h105
    rw [real_overlapAdd ha hb, if_pos (by omega), if_pos (by omega)]

/-! ### The stages in the machine's numbers (R203 to R240) -/

theorem exec_unvoiced (s : State) : exec .unvoiced s = .next (unvoicedStage s) := rfl
theorem exec_phase (s : State) : exec .phase s = .next (phaseStage s) := rfl
theorem exec_voiced (s : State) : exec .voiced s = .next (voicedStage s) := rfl
theorem exec_combine (s : State) : exec .combine s = .next (combineStage s) := rfl

/-- A sample of the windowed noise (R204). -/
theorem windowNoise_getD {R : Type} [N : Num R] (ws : List R) (buf : List Nat) {i : Nat} (h : i < 256) (d : R) :
    (windowNoise ws buf).getD i d = ri (buf.getD i 0 : Nat) * windowAt ws ((i : Int) - 128) := by
  rw [windowNoise, tab_getD_lt (n := xformLen) _ h]

theorem windowNoise_length {R : Type} [N : Num R] (ws : List R) (buf : List Nat) : (windowNoise ws buf).length = 256 :=
  tab_length ..

section unvoiced
variable {R : Type} (s : State R) (P : OpenParams R)

theorem unvoicedStage_x :
    (unvoicedStage s P).work.x = windowNoise (N := P.toNum) s.rom.window s.ss.noiseBuf := by simp only [unvoicedStage]

theorem unvoicedStage_spec :
    (unvoicedStage s P).work.spec = xformForward (N := P.toNum) (unvoicedStage s P).work.x := by simp only [unvoicedStage]

theorem unvoicedStage_uwShaped : (unvoicedStage s P).work.uwShaped = shapeSpectrum (N := P.toNum) (P.freeScale s.freeCtr)
    s.rom.gammaW s.work.cmp (unvoicedStage s P).work.spec := by simp only [unvoicedStage]

theorem unvoicedStage_uw :
    (unvoicedStage s P).work.uw = xformInverse (N := P.toNum) (unvoicedStage s P).work.uwShaped := by
  simp only [unvoicedStage]

end unvoiced

/-- Settles O54, by the one outcome of each stage and the entries of the arrays it writes. -/
theorem synthesisStagesComplete : Obligations.SynthesisStagesComplete := by
  intro s
  refine ⟨⟨unvoicedStage s, exec_unvoiced s, rfl, ?_, ?_, fun i hi => ?_, ?_, ?_, ?_, ?_, fun n hn => ?_⟩,
    ⟨phaseStage s, exec_phase s, rfl, rfl, rfl, rfl⟩,
    ⟨voicedStage s, exec_voiced s, rfl, tab_length .., fun n hn => ?_⟩,
    ⟨combineStage s, exec_combine s, rfl, tab_length .., fun n hn => ?_⟩⟩
  · exact unvoicedStage_x s openParams
  · rw [unvoicedStage_x]
    exact windowNoise_length (N := numerics) _ _
  · rw [unvoicedStage_x, windowNoise_getD (N := numerics) _ _ hi]
    rfl
  · exact unvoicedStage_spec s openParams
  · exact unvoicedStage_uwShaped s openParams
  · exact unvoicedStage_uw s openParams
  · rw [unvoicedStage_suv]
    exact tab_length ..
  · rw [unvoicedStage_suv, tab_getD_lt (n := nsamp) _ hn]
  · rw [voicedStage_sv, tab_getD_lt (n := nsamp) _ hn]
  · rw [combineStage_out, tab_getD_lt (n := nsamp) _ hn]
    rfl

end Sys2Proof.Machine
end

section
/-! SUPPORT. The statement of 46_synth_voiced.md. Over the reals a harmonic's contribution has one equation for each branch of
R225, and the smooth branch's phases meet because the correction takes whole turns off the phase difference. -/

namespace Sys2Proof.Machine

/-! ### The contributions, branch by branch (R225, R227 to R231) -/

theorem voicedAt_iff {R : Type} {p : ModelParams R} {l : Nat} :
    voicedAt p l = true ↔ l ≤ lOf p ∧ p.voicingDecisions.getD l false = true := by
  rw [voicedAt, Bool.and_eq_true, decide_eq_true_iff]

section branches
variable {R : Type} [N : Num R] (ws : List R) (ratio : R) (prev cmp : ModelParams R) (phaseO po : List R) (l n : Nat)

/-- The five branches a harmonic can take, each with its condition and its contribution. -/
theorem contribution_cases :
    (¬voicedAt prev l = true ∧ ¬voicedAt cmp l = true ∧ contribution ws ratio prev cmp phaseO po l n = ri 0)
    ∨ (voicedAt prev l = true ∧ ¬voicedAt cmp l = true ∧ contribution ws ratio prev cmp phaseO po l n
        = fadeOut ws (enhancedAt prev l) (w0Of prev) (rd phaseO l) l n)
    ∨ (¬voicedAt prev l = true ∧ voicedAt cmp l = true ∧ contribution ws ratio prev cmp phaseO po l n
        = fadeIn ws (enhancedAt cmp l) (w0Of cmp) (rd po l) l n)
    ∨ (voicedAt prev l = true ∧ voicedAt cmp l = true
        ∧ (8 ≤ l ∨ pitchJump ratio (w0Of prev) (w0Of cmp) = true) ∧ contribution ws ratio prev cmp phaseO po l n
        = fadeOut ws (enhancedAt prev l) (w0Of prev) (rd phaseO l) l n
          + fadeIn ws (enhancedAt cmp l) (w0Of cmp) (rd po l) l n)
    ∨ (voicedAt prev l = true ∧ voicedAt cmp l = true
        ∧ ¬(8 ≤ l ∨ pitchJump ratio (w0Of prev) (w0Of cmp) = true) ∧ contribution ws ratio prev cmp phaseO po l n
        = smoothAmplitude (enhancedAt prev l) (enhancedAt cmp l) n
          * Num.cos (smoothTheta (w0Of prev) (w0Of cmp) (rd phaseO l) (rd po l) l n)) := by
  unfold contribution
  cases voicedAt prev l <;> cases voicedAt cmp l
  case false.false => exact .inl ⟨Bool.false_ne_true, Bool.false_ne_true, rfl⟩
  case true.false => exact .inr (.inl ⟨rfl, Bool.false_ne_true, rfl⟩)
  case false.true => exact .inr (.inr (.inl ⟨Bool.false_ne_true, rfl, rfl⟩))
  case true.true =>
    by_cases h : 8 ≤ l ∨ pitchJump ratio (w0Of prev) (w0Of cmp) = true
    · exact .inr (.inr (.inr (.inl ⟨rfl, rfl, h, by simp only [branchOf, if_pos h]⟩)))
    · exact .inr (.inr (.inr (.inr ⟨rfl, rfl, h, by simp only [branchOf, if_neg h]⟩)))

end branches

/-! ### The operations of the oscillators over the reals -/

theorem real_enhancedAt (p : ModelParams ℝ) (l : ℕ) :
    enhancedAt (N := realNumerics) p l = if l ≤ lOf p then p.enhancedSpectralAmplitudes.getD l 0 else 0 := by
  simp only [enhancedAt, real_rd, real_ri, Int.cast_zero]

theorem real_pitchJump {ratio w0p w0c : ℝ} :
    pitchJump (N := realNumerics) ratio w0p w0c = true ↔ ratio * w0c ≤ |w0c - w0p| := by
  unfold pitchJump
  rw [real_le, real_absR]

theorem real_fadeOut (ws : List ℝ) (mp w0p phase : ℝ) (l n : ℕ) : fadeOut (N := realNumerics) ws mp w0p phase l n
    = windowAt (N := realNumerics) ws n * mp * Real.cos (w0p * n * l + phase) := by
  simp only [fadeOut, real_mul, real_add, real_cos, real_ri, Int.cast_natCast]

theorem real_fadeIn (ws : List ℝ) (mc w0c phase : ℝ) (l n : ℕ) : fadeIn (N := realNumerics) ws mc w0c phase l n
    = windowAt (N := realNumerics) ws ((n : ℤ) - 160) * mc * Real.cos (w0c * ((n : ℝ) - 160) * l + phase) := by
  simp only [fadeIn, real_mul, real_add, real_cos, real_ri, Int.cast_natCast, Int.cast_sub, Int.cast_ofNat]

theorem real_smoothAmplitude (mp mc : ℝ) (n : ℕ) :
    smoothAmplitude (N := realNumerics) mp mc n = mp + (n : ℝ) / 160 * (mc - mp) := by
  simp only [smoothAmplitude, real_mul, real_add, real_sub, real_div, real_ri, Int.cast_natCast, Int.cast_ofNat]

theorem real_voicedSample (ws : List ℝ) (ratio : ℝ) (prev cmp : ModelParams ℝ) (phaseO po : List ℝ) (n : ℕ) :
    voicedSample (N := realNumerics) ws ratio prev cmp phaseO po n
      = 2 * ∑ l ∈ Finset.Icc 1 (lMax prev cmp), contribution (N := realNumerics) ws ratio prev cmp phaseO po l n := by
  unfold voicedSample
  rw [real_sum1, real_mul, real_ri, Int.cast_ofNat]

/-! ### The phase of the smooth branch (R231) -/

theorem real_phaseDifference (w0p w0c phaseO po : ℝ) (l : ℕ) :
    phaseDifference (N := realNumerics) w0p w0c phaseO po l = po - phaseO - (w0p + w0c) * l * 80 := by
  simp only [phaseDifference, real_mul, real_add, real_sub, real_ri, Int.cast_natCast, Int.cast_ofNat]

/-- Over a frame the correction makes up the phase difference less the whole turns nearest to it. -/
theorem real_phaseCorrection_frame (dphi : ℝ) : 160 * phaseCorrection (N := realNumerics) dphi
    = dphi - ⌊(dphi + Real.pi) / (2 * Real.pi)⌋ * (2 * Real.pi) := by
  simp only [phaseCorrection, real_mul, real_add, real_sub, real_div, real_pi, real_floor, real_ri, Int.cast_one,
    Int.cast_ofNat]
  ring

/-- What the correction makes up over a frame is within half a turn. -/
theorem real_phaseCorrection_bounds (dphi : ℝ) : -Real.pi ≤ 160 * phaseCorrection (N := realNumerics) dphi
    ∧ 160 * phaseCorrection (N := realNumerics) dphi < Real.pi := by
  have hlow := Int.sub_floor_div_mul_nonneg (dphi + Real.pi) Real.two_pi_pos
  have hhigh := Int.sub_floor_div_mul_lt (dphi + Real.pi) Real.two_pi_pos
  rw [real_phaseCorrection_frame]
  constructor <;> linarith

theorem real_smoothTheta (w0p w0c phaseO po : ℝ) (l n : ℕ) : smoothTheta (N := realNumerics) w0p w0c phaseO po l n
    = phaseO + (w0p * l + phaseCorrection (N := realNumerics)
          (phaseDifference (N := realNumerics) w0p w0c phaseO po l)) * n
        + (w0c - w0p) * l * (n : ℝ) ^ 2 / 320 := by
  simp only [smoothTheta, real_mul, real_add, real_sub, real_div, real_ri, Int.cast_natCast, Int.cast_ofNat,
    Nat.cast_mul, Int.cast_mul, sq]

/-- The smooth phase begins at the previous frame's. -/
theorem real_smoothTheta_start (w0p w0c phaseO po : ℝ) (l : ℕ) :
    smoothTheta (N := realNumerics) w0p w0c phaseO po l 0 = phaseO := by
  rw [real_smoothTheta]
  push_cast
  ring

/-- The smooth phase ends at the current frame's, less the whole turns that the correction leaves out. -/
theorem real_smoothTheta_end (w0p w0c phaseO po : ℝ) (l : ℕ) :
    smoothTheta (N := realNumerics) w0p w0c phaseO po l 160
      = po + 2 * Real.pi
        * (-⌊(phaseDifference (N := realNumerics) w0p w0c phaseO po l + Real.pi) / (2 * Real.pi)⌋ : ℤ) := by
  have hframe := real_phaseCorrection_frame (phaseDifference (N := realNumerics) w0p w0c phaseO po l)
  have hdiff := real_phaseDifference w0p w0c phaseO po l
  rw [real_smoothTheta]
  push_cast
  linarith

/-! ### The phase tracker (R221, R222) -/

theorem harmonics_nodup (lc : Nat) : (harmonics lc).Nodup :=
  List.nodup_range.map fun _ _ h => Nat.succ.inj h

/-- `Luv` counts the harmonics of the current frame whose voicing decision is false. -/
theorem unvoicedCount_eq_card (cmp : ModelParams ℝ) : unvoicedCount cmp
    = ((Finset.Icc 1 (lOf cmp)).filter fun i => cmp.voicingDecisions.getD i false = false).card := by
  change ((harmonics (lOf cmp)).filter fun l => !voicedAt cmp l).length = _
  rw [← List.toFinset_card_of_nodup ((harmonics_nodup _).filter _)]
  congr 1
  ext l
  rw [List.mem_toFinset, List.mem_filter, mem_harmonics, Finset.mem_filter, Finset.mem_Icc]
  refine and_congr_right fun ⟨_, hl⟩ => ?_
  rw [voicedAt_harmonic hl, Bool.not_eq_true']

section tracker
variable {R : Type} [N : Num R] {draw : Nat → R} {prev cmp : ModelParams R} {phaseV phaseO pv : List R} {l : Nat}

theorem trackedPhases_getD (h1 : 1 ≤ l) (h56 : l ≤ 56) (hl : l ≤ lMax prev cmp) (d : R) :
    (trackedPhases prev cmp phaseV).getD l d = trackedPhase prev cmp phaseV l := by
  rw [trackedPhases, tab_getD_lt (n := phaseLen) _ (Nat.lt_succ_of_le h56), if_pos ⟨h1, hl⟩]

theorem trackedPhases_above (h56 : l ≤ 56) (hl : lMax prev cmp < l) (d : R) :
    (trackedPhases prev cmp phaseV).getD l d = rd phaseV l := by
  rw [trackedPhases, tab_getD_lt (n := phaseLen) _ (Nat.lt_succ_of_le h56), if_neg fun h => hl.not_ge h.2]

theorem oscillatorPhases_getD (h1 : 1 ≤ l) (h56 : l ≤ 56) (hl : l ≤ lMax prev cmp) (d : R) :
    (oscillatorPhases draw prev cmp pv phaseO).getD l d = oscillatorPhase draw cmp pv l := by
  rw [oscillatorPhases, tab_getD_lt (n := phaseLen) _ (Nat.lt_succ_of_le h56), if_pos ⟨h1, hl⟩]

theorem oscillatorPhases_above (h56 : l ≤ 56) (hl : lMax prev cmp < l) (d : R) :
    (oscillatorPhases draw prev cmp pv phaseO).getD l d = rd phaseO l := by
  rw [oscillatorPhases, tab_getD_lt (n := phaseLen) _ (Nat.lt_succ_of_le h56), if_neg fun h => hl.not_ge h.2]

end tracker

theorem real_trackedPhase (prev cmp : ModelParams ℝ) (phaseV : List ℝ) (l : ℕ) :
    trackedPhase (N := realNumerics) prev cmp phaseV l = phaseV.getD l 0 + (w0Of prev + w0Of cmp) * 80 * l := by
  simp only [trackedPhase, real_rd, real_add, real_mul, real_ri, Int.cast_natCast, Int.cast_ofNat]

theorem real_oscillatorPhase (draw : ℕ → ℝ) (cmp : ModelParams ℝ) (pv : List ℝ) (l : ℕ) :
    oscillatorPhase (N := realNumerics) draw cmp pv l
      = if l ≤ lOf cmp / 4 then pv.getD l 0
        else pv.getD l 0 + (unvoicedCount cmp : ℝ) / (lOf cmp : ℝ) * draw (l - lOf cmp / 4 - 1) := by
  simp only [oscillatorPhase, quarterThreshold, real_rd, real_add, real_mul, real_div, real_ri, Int.cast_natCast]

/-- Settles O60: each contribution by the branch its harmonic takes, the smooth phase by its two ends, the phase arrays by
their entries. -/
theorem oscillatorsOverTheReals : Obligations.OscillatorsOverTheReals := by
  refine ⟨?_, fun w0p w0c phaseO po l => ⟨real_smoothTheta_start .., ⟨_, real_smoothTheta_end ..⟩, _, ?_, ?_,
    real_smoothTheta w0p w0c phaseO po l⟩, ?_⟩
  · rintro ws ratio prev cmp phaseO po n _ _ mp mc vp vc jump s rfl rfl hmp hmc hvp hvc hjump hs
    rw [real_voicedSample]
    refine congrArg _ (Finset.sum_congr rfl fun l _ => ?_)
    have hprev : voicedAt prev l = true ↔ vp l := voicedAt_iff.trans (hvp l).symm
    have hcmp : voicedAt cmp l = true ↔ vc l := voicedAt_iff.trans (hvc l).symm
    have hpitch : pitchJump (N := realNumerics) ratio (w0Of prev) (w0Of cmp) = true ↔ jump :=
      real_pitchJump.trans hjump.symm
    have hampPrev : enhancedAt (N := realNumerics) prev l = mp l := (real_enhancedAt prev l).trans (hmp l).symm
    have hampCmp : enhancedAt (N := realNumerics) cmp l = mc l := (real_enhancedAt cmp l).trans (hmc l).symm
    have hcases := contribution_cases (N := realNumerics) ws ratio prev cmp phaseO po l n
    simp only [hprev, hcmp, hpitch, hampPrev, hampCmp, real_fadeOut, real_fadeIn, real_smoothAmplitude, real_add, real_mul,
      real_cos, real_rd, real_ri, Int.cast_zero] at hcases
    obtain ⟨hnone, hout, hin, htwo, hsmooth⟩ := hs l
    obtain ⟨hp, hc, heq⟩ | ⟨hp, hc, heq⟩ | ⟨hp, hc, heq⟩ | ⟨hp, hc, hj, heq⟩ | ⟨hp, hc, hj, heq⟩ := hcases
    · exact heq.trans (hnone ⟨hp, hc⟩).symm
    · exact heq.trans (hout ⟨hp, hc⟩).symm
    · exact heq.trans (hin ⟨hp, hc⟩).symm
    · exact heq.trans (htwo ⟨hp, hc, hj⟩).symm
    · obtain ⟨h8, hsteady⟩ := not_or.1 hj
      exact heq.trans (hsmooth ⟨hp, hc, not_le.1 h8, hsteady⟩).symm
  · exact (real_phaseCorrection_bounds _).1
  · exact (real_phaseCorrection_bounds _).2
  · rintro draw prev cmp phaseV phaseO _ l rfl h1 h56
    refine ⟨fun hl => ⟨?_, ?_⟩, fun hl => ⟨?_, ?_⟩⟩
    · rw [trackedPhases_getD (N := realNumerics) h1 h56 hl, real_trackedPhase]
      rfl
    · rw [oscillatorPhases_getD (N := realNumerics) h1 h56 hl, real_oscillatorPhase, unvoicedCount_eq_card]
      rfl
    · rw [trackedPhases_above (N := realNumerics) h56 hl, real_rd]
    · rw [oscillatorPhases_above (N := realNumerics) h56 hl, real_rd]

end Sys2Proof.Machine
end

section
/-! SUPPORT. The host commands (47_host_commands.md): each of the four on a machine that is halted and on one that is not, the
frame that LOAD fills and what COMMIT persists and shows. -/

namespace Sys2Proof.Machine

/-! ### The four commands -/

/-- The four host commands (R60). -/
def IsCommand (i : Instr) : Prop := i = .name ∨ i = .reset ∨ (∃ g, i = .setgain g) ∨ ∃ n bytes, i = .decode n bytes

theorem exec_command {i : Instr} (hi : IsCommand i) : ∃ body, ∀ s, exec i s = command s body := by
  obtain rfl | rfl | ⟨g, rfl⟩ | ⟨n, bytes, rfl⟩ := hi
  · exact ⟨_, exec_name⟩
  · exact ⟨_, exec_reset⟩
  · exact ⟨_, exec_setgain g⟩
  · exact ⟨_, exec_decode n bytes⟩

/-- A halted machine executes none of the four (R246). -/
theorem exec_command_halted {s : State} {i : Instr} (hi : IsCommand i) (hh : s.halted = true) :
    exec i s = .next { s with result := .none } := by
  obtain ⟨body, hbody⟩ := exec_command hi
  rw [hbody, command_halted hh]

section running
variable {s : State} (hh : s.halted = false)
include hh

theorem exec_name_running : exec .name s = .next { s with result := .name (s.rom.nameStr s.codec) } := by
  rw [exec_name, command_running hh]
  rfl

theorem exec_reset_running : exec .reset s = .next (resetCommand { s with result := .none }) := by
  rw [exec_reset, command_running hh]
  rfl

theorem exec_decode_running (n : BitVec 16) (bytes : List Byte) :
    exec (.decode n bytes) s = .next (decodeCommandBody n bytes { s with result := .none }) := by
  rw [exec_decode, command_running hh]
  rfl

end running

/-- Settles O17, by what the two commands do on a machine that is not halted. -/
theorem nameAndDecodeComplete : Obligations.NameAndDecodeComplete :=
  fun _ hh => ⟨exec_name_running hh, fun n bytes => ⟨_, exec_decode_running hh n bytes, rfl⟩⟩

/-! ### RESET (R250) -/

/-- After `RESET` no `TONE` is valid. -/
theorem resetCommand_tone_valid (s : State) : (resetCommand s).tone.valid = false := by
  rw [resetCommand_tone]
  split
  · exact invalidTone_valid _
  · next hv => simpa using hv

/-- `RESET` keeps an invalid `TONE` with its payload (log entry 14). -/
theorem resetCommand_of_invalidTone {s : State} (h : s.tone.valid = false) : resetCommand s = { s with
    pmp := s.rom.mpDefault s.codec, ss := resetSynth, status := zeroStatus } := by
  simp [resetCommand, h]

theorem resetCommand_idem (s : State) : resetCommand (resetCommand s) = resetCommand s := by
  rw [resetCommand_of_invalidTone (resetCommand_tone_valid s)]
  rfl

theorem exec_reset_again {s : State} (hh : s.halted = false) (hr : s.result = .none) :
    exec .reset (resetCommand s) = .next (resetCommand s) := by
  have hshown : { resetCommand s with result := .none } = resetCommand s := by
    rw [← hr]
    rfl
  have hrunning : (resetCommand s).halted = false := hh
  rw [exec_reset_running hrunning, hshown, resetCommand_idem]

/-- Settles O9: power-on has an invalid `TONE` and the reset values, and so does a first `RESET`; a halted machine executes
neither `RESET`. -/
theorem resetChangesNothingTwice : Obligations.ResetChangesNothingTwice := by
  refine ⟨fun c rom => ?_, fun s t h => ?_⟩
  · rw [exec_reset_running rfl, resetCommand_of_invalidTone rfl]
    rfl
  · rw [exec_reset] at h
    rcases command_next h with ⟨hh, rfl⟩ | ⟨hh, h | ⟨x, hx, -⟩⟩
    · exact exec_command_halted (.inr (.inl rfl)) hh
    · cases h
      exact exec_reset_again hh rfl
    · cases hx

/-! ### The halt (R246, R309) -/

/-- A halted machine at rest may take a word, and shows no result for it (log entries 18 and 36). -/
theorem step_halted {s t : State} (hh : s.halted = true) (hp : s.poresetRequest = false) (hs : s.stage = Stage.idle)
    (h : step s = .next t) : t = s ∨ ∃ ws, t = { s with port := ws, result := .none } := by
  have taken {ws : List CodeWord} {i : Instr} (hi : IsCommand i) (he : exec i { s with port := ws } = .next t) :
      ∃ ws, t = { s with port := ws, result := .none } := by
    rw [exec_command_halted (s := { s with port := ws }) hi hh] at he
    exact ⟨ws, (Host.Outcome.next.inj he).symm⟩
  rcases step_idle_next hp hs h with rfl | ⟨ws, h | h | ⟨g, h⟩ | ⟨n, bytes, h⟩ | ⟨cmd, h⟩⟩
  · exact .inl rfl
  · exact .inr (taken (.inl rfl) h)
  · exact .inr (taken (.inr (.inl rfl)) h)
  · exact .inr (taken (.inr (.inr (.inl ⟨g, rfl⟩))) h)
  · exact .inr (taken (.inr (.inr (.inr ⟨n, bytes, rfl⟩))) h)
  · rw [illegalCommand, command_halted (s := { s with port := ws }) hh] at h
    exact .inr ⟨ws, (Host.Outcome.next.inj h).symm⟩

/-- Settles O10: a halted machine answers every command the same way. -/
theorem haltedExecutesNothing : Obligations.HaltedExecutesNothing := by
  refine ⟨fun s hfault => ?_, fun s hfault => ?_⟩
  · have hh : s.halted = true := halted_iff.2 hfault
    refine ⟨exec_command_halted (.inl rfl) hh, exec_command_halted (.inr (.inl rfl)) hh,
      fun g => exec_command_halted (.inr (.inr (.inl ⟨g, rfl⟩))) hh,
      fun n bytes => exec_command_halted (.inr (.inr (.inr ⟨n, bytes, rfl⟩))) hh, fun hs hp t h => ?_⟩
    rcases step_halted hh hp hs h with rfl | ⟨ws, rfl⟩ <;> rfl
  · rcases hfault with h | h | h | h <;> rw [State.halted, h] <;> rfl

/-! ### LOAD (R254) -/

theorem exec_load (s : State) : exec .load s = settle s (loadStage s) := rfl

theorem exec_load_ok {s : State} (h : s.work.inCount.toNat = frameBytes s.codec) :
    exec .load s = .next { s with stage := Stage.partition, work := { s.work with
      fb := loadBits (payload (frameBytes s.codec) s.work.inBytes) } } := by
  rw [exec_load, loadStage, if_pos h]
  rfl

theorem payload_getD {n k : Nat} (bytes : List Byte) (hk : k < n) : (payload n bytes).getD k 0 = bytes.getD k 0 :=
  tab_getD_lt _ hk 0

theorem loadBits_payload_length (c : Codec) (bytes : List Byte) :
    (loadBits (payload (frameBytes c) bytes)).length = frameBits c := by
  rw [loadBits_length, payload_length, frameBits]

/-- Settles O30, by the bits of the payload's bytes. -/
theorem loadFillsTheRawFrame : Obligations.LoadFillsTheRawFrame := by
  intro s h
  refine ⟨_, exec_load_ok h, rfl, loadBits_payload_length .., fun k j hk hj => ?_⟩
  rw [← payload_getD s.work.inBytes hk]
  exact loadBits_getD _ k j (by rwa [payload_length]) hj

/-! ### COMMIT (R258) -/

theorem exec_commit (s : State) : exec .commit s = .next (commitStage s) := rfl

section commit
variable (s : State)

theorem commitStage_phaseV {l : Nat} (h1 : 1 ≤ l) (h56 : l ≤ 56) (d : MReal) :
    (commitStage s).ss.phaseV.getD l d = s.work.pv.getD l (.int 0) := by
  change (tab phaseLen fun l => if l = 0 then _ else rd (N := numerics) s.work.pv l).getD l d = _
  rw [tab_getD_lt _ (show l < phaseLen from Nat.lt_succ_of_le h56), if_neg (Nat.ne_of_gt h1)]
  rfl

theorem commitStage_phaseO {l : Nat} (h1 : 1 ≤ l) (h56 : l ≤ 56) (d : MReal) :
    (commitStage s).ss.phaseO.getD l d = s.work.po.getD l (.int 0) := by
  change (tab phaseLen fun l => if l = 0 then _ else rd (N := numerics) s.work.po l).getD l d = _
  rw [tab_getD_lt _ (show l < phaseLen from Nat.lt_succ_of_le h56), if_neg (Nat.ne_of_gt h1)]
  rfl

theorem commitStage_prevUw {i : Nat} (h : i < 256) (d : MReal) :
    (commitStage s).ss.prevUw.getD i d = s.work.uw.getD i (.int 0) := tab_getD_lt _ h d

/-- `STATUS.muted` is the working value on the repeat path alone (R146, log entry 31). -/
theorem statusOf_muted : (s.work.repeatFlag = true → (statusOf s).muted = s.work.muted)
    ∧ (s.work.repeatFlag = false → (statusOf s).muted = false) := by
  constructor <;> intro h <;> simp [statusOf, h]

/-- `STATUS.forcedErasure` is the working value on an AMBE machine alone (R130, log entry 31). -/
theorem statusOf_forcedErasure : (s.codec = .ambe → (statusOf s).forcedErasure = s.work.forcedErasure)
    ∧ (s.codec = .imbe → (statusOf s).forcedErasure = false) := by
  constructor <;> intro h <;> simp [statusOf, h]

theorem toneCommitted_iff : toneCommitted s = true ↔
    s.codec = .ambe ∧ s.work.repeatFlag = false ∧ s.work.frameType = .tone ∧ s.work.tone.valid = true := by
  simp only [toneCommitted, Bool.and_eq_true, decide_eq_true_eq, Bool.not_eq_true', and_assoc]

theorem toneOf_valid_iff : (toneOf s).valid = true ↔ toneCommitted s = true := by
  rw [toneOf]
  split
  · next h => exact iff_of_true ((toneCommitted_iff s).1 h).2.2.2 h
  · next h => exact iff_of_false (by rw [invalidTone_valid]; simp) h

/-- Where `TONE` is valid after COMMIT it is the tone that TONECHK read. -/
theorem toneOf_of_valid (h : (toneOf s).valid = true) : toneOf s = s.work.tone :=
  if_pos ((toneOf_valid_iff s).1 h)

end commit

/-- Settles O56, register by register. -/
theorem commitPersists : Obligations.CommitPersists := by
  intro s
  obtain ⟨hmuted, hclear⟩ := statusOf_muted s
  obtain ⟨hambe, himbe⟩ := statusOf_forcedErasure s
  have hcode {ft : FrameType} (h : s.work.frameType = ft) : (commitStage s).status.frameType = ft.code :=
    congrArg FrameType.code h
  exact ⟨commitStage s, exec_commit s, rfl, rfl,
    fun l h1 h56 => ⟨commitStage_phaseV s h1 h56 _, commitStage_phaseO s h1 h56 _⟩,
    fun i hi => commitStage_prevUw s hi _, rfl, rfl, hcode, hcode, hcode, hcode, hcode, rfl, hmuted, hclear, hambe, himbe,
    rfl, rfl, tab_length .., fun i => errorCounts_getD s, rfl, rfl, (toneOf_valid_iff s).trans (toneCommitted_iff s),
    toneOf_of_valid s⟩

end Sys2Proof.Machine
end

section
/-! SUPPORT. A whole DECODE under a legal ROM (R255, R303, R350): what each stage before NOISE counts on and leaves, how runs of
stages compose, and the two ways a frame can go. -/

namespace Sys2Proof.Machine

/-! ### Runs of stages -/

/-- What every stage before `NOISE` keeps of the machine. -/
structure Keeps (s t : State) : Prop where
  request : t.poresetRequest = s.poresetRequest
  port : t.port = s.port
  latch : SameLatch s t
  carried : SameCarried s t

theorem Keeps.trans {s t u : State} (h : Keeps s t) (h' : Keeps t u) : Keeps s u where
  request := h'.request.trans h.request
  port := h'.port.trans h.port
  latch := ⟨h'.latch.fault.trans h.latch.fault, h'.latch.info.trans h.latch.info⟩
  carried :=
    { pmp := h'.carried.pmp.trans h.carried.pmp
      ss := h'.carried.ss.trans h.carried.ss
      gain := h'.carried.gain.trans h.carried.gain
      codec := h'.carried.codec.trans h.carried.codec
      status := h'.carried.status.trans h.carried.status
      tone := h'.carried.tone.trans h.carried.tone
      rom := h'.carried.rom.trans h.carried.rom }

/-- A DECODE under a legal ROM stands at a stage. -/
structure At (id : BitVec 6) (u : State) : Prop where
  stage : u.stage = id
  noPoreset : u.poresetRequest = false
  legal : u.rom.legal = true

/-- In `k` steps a DECODE comes from `u` to the stage `id`, where it is in the state `v`. -/
structure Run (k : Nat) (u : State) (id : BitVec 6) (v : State) : Prop where
  steps : steps k u = .next v
  keeps : Keeps u v
  stage : v.stage = id

theorem Run.arrives {k : Nat} {u v : State} {id id' : BitVec 6} (r : Run k u id' v) (h : At id u) : At id' v :=
  ⟨r.stage, r.keeps.request.trans h.noPoreset, by rw [r.keeps.carried.rom]; exact h.legal⟩

theorem Run.trans {j k : Nat} {u v w : State} {id id' : BitVec 6} (r : Run k u id v) (r' : Run j v id' w) :
    Run (k + j) u id' w :=
  ⟨steps_trans r.steps r'.steps, r.keeps.trans r'.keeps, r'.stage⟩

/-- The step of a stage that writes the working registers and the counters alone. -/
theorem Run.one {u : State} {id : BitVec 6} {w : Work} {fc tc dc : Nat}
    (h : step u = .next { u with stage := id, work := w, freeCtr := fc, toneCtr := tc, drawCtr := dc }) :
    Run 1 u id { u with stage := id, work := w, freeCtr := fc, toneCtr := tc, drawCtr := dc } :=
  ⟨steps_one h, ⟨rfl, rfl, ⟨rfl, rfl⟩, ⟨rfl, rfl, rfl, rfl, rfl, rfl, rfl⟩⟩, rfl⟩

/-! ### LOAD to ERRSUM: the working frame keeps its size -/

section stages
variable {u : State}

theorem load_runs (h : At Stage.load u) (hcount : u.work.inCount.toNat = frameBytes u.codec) :
    ∃ v, Run 1 u Stage.partition v ∧ v.work.fb.length = frameBits v.codec :=
  ⟨_, .one ((step_load h.noPoreset h.stage).trans (exec_load_ok hcount)), loadBits_payload_length ..⟩

/-- The map of a legal ROM has a place of the raw frame for each of the working frame (R270). -/
theorem cosetMap_good {rom : Rom} (hl : rom.legal = true) (c : Codec) :
    (rom.cosetMap c).length = frameBits c ∧ ∀ i ∈ rom.cosetMap c, i < frameBits c := by
  cases c
  · exact ⟨(rom_legal hl).ambe.mapLen, (rom_legal hl).ambe.mapInside⟩
  · exact ⟨(rom_legal hl).imbe.mapLen, (rom_legal hl).imbe.mapInside⟩

theorem partition_runs (h : At Stage.partition u) (hfb : u.work.fb.length = frameBits u.codec) :
    ∃ v, Run 1 u Stage.ecc0 v ∧ v.work.wf.length = frameBits v.codec := by
  obtain ⟨hlen, hinside⟩ := cosetMap_good h.legal u.codec
  obtain ⟨wf, hwf, hwflen, -⟩ := gather_ok (hfb ▸ hinside) (frameBits u.codec) 0 (by omega)
  exact ⟨_, .one ((step_partition h.noPoreset h.stage).trans (exec_partition_ok hwf)), hwflen⟩

/-- A legal ROM has a coset 0, which begins the frame and lies inside it (R122). -/
theorem cosets_legal {rom : Rom} (hl : rom.legal = true) (codec : Codec) :
    ∃ c cs, rom.cosets codec = c :: cs ∧ c.off = 0 ∧ (rom.code c.code).n ≤ frameBits codec := by
  obtain ⟨first, hgood⟩ := cosets_good hl codec
  cases hcs : rom.cosets codec with
  | nil =>
    have hpos := hgood.pos
    rw [hcs] at hpos
    exact absurd hpos (by decide)
  | cons c cs =>
    have hchain := hgood.chain
    rw [hcs] at hchain
    obtain ⟨hn, -, -⟩ := cosetChain_mem hchain List.mem_cons_self
    obtain ⟨-, hfits, -⟩ := later_cosets hl hcs
    exact ⟨c, cs, rfl, (chain_tail hchain).1, by omega⟩

theorem ecc0_runs (h : At Stage.ecc0 u) (hwf : u.work.wf.length = frameBits u.codec) :
    ∃ v, Run 1 u Stage.derand v ∧ v.work.wf.length = frameBits v.codec := by
  obtain ⟨c, cs, hcs, hoff, hfits⟩ := cosets_legal h.legal u.codec
  have h12 : 12 ≤ frameBits u.codec := by cases u.codec <;> decide
  have hread : readTable (u.rom.cosets u.codec) 0 = .ok c := by rw [hcs]; rfl
  obtain ⟨wf, count, hecc, hlen, -, -⟩ := eccCorrect_ok (c := u.rom.code c.code) (f := u.work.wf) (o := c.off) (by omega)
  obtain ⟨v, hv, -, -⟩ := extractRom_run (f := wf) (o := c.off) (n := 12) (by decide) (by omega)
  exact ⟨_, .one ((step_ecc0 h.noPoreset h.stage).trans (exec_ecc0_ok hread hecc hv)), hlen.trans hwf⟩

theorem derand_runs (h : At Stage.derand u) (hwf : u.work.wf.length = frameBits u.codec) :
    ∃ v, Run 1 u Stage.eccn v ∧ v.work.wf.length = frameBits v.codec := by
  obtain ⟨c, cs, hcs, -, -⟩ := cosets_legal h.legal u.codec
  obtain ⟨mask, hmask, hmlen, -⟩ := derandMask_ok h.legal hcs u.work.u0.toNat
  obtain ⟨wf, hxor, hlen, -⟩ := xorFrame_ok (hwf.trans hmlen.symm)
  exact ⟨_, .one ((step_derand h.noPoreset h.stage).trans (exec_derand_ok hmask hxor)), hlen.trans hwf⟩

theorem eccn_runs (h : At Stage.eccn u) (hwf : u.work.wf.length = frameBits u.codec) :
    ∃ v, Run 1 u Stage.errsum v ∧ v.work.wf.length = frameBits v.codec := by
  obtain ⟨c, cs, hcs, -, -⟩ := cosets_legal h.legal u.codec
  obtain ⟨hchain, htotal, hmax⟩ := later_cosets h.legal hcs
  obtain ⟨wf, e, hloop, hlen, -, -, -⟩ := correctCosets_ok cs c.n 1 u.work.wf u.work.wf u.work.e hchain
    (by omega) (by omega) rfl fun _ _ => rfl
  have htail : (u.rom.cosets u.codec).tail = cs := by rw [hcs]; rfl
  exact ⟨_, .one ((step_eccn h.noPoreset h.stage).trans (exec_eccn_ok (htail ▸ hloop))), hlen.trans hwf⟩

theorem errsum_runs (h : At Stage.errsum u) : ∃ v, Run 1 u Stage.w0idx v ∧ v.work.wf = u.work.wf :=
  ⟨_, .one (step_errsum h.noPoreset h.stage), rfl⟩

/-- From `LOAD` of a payload of the right length to `W0IDX`. -/
theorem frame_runs (h : At Stage.load u) (hcount : u.work.inCount.toNat = frameBytes u.codec) :
    ∃ v, Run 6 u Stage.w0idx v ∧ v.work.wf.length = frameBits v.codec := by
  obtain ⟨u₂, r₂, hfb⟩ := load_runs h hcount
  obtain ⟨u₃, r₃, hwf⟩ := partition_runs (r₂.arrives h) hfb
  have r₃ := r₂.trans r₃
  obtain ⟨u₄, r₄, hwf⟩ := ecc0_runs (r₃.arrives h) hwf
  have r₄ := r₃.trans r₄
  obtain ⟨u₅, r₅, hwf⟩ := derand_runs (r₄.arrives h) hwf
  have r₅ := r₄.trans r₅
  obtain ⟨u₆, r₆, hwf⟩ := eccn_runs (r₅.arrives h) hwf
  have r₆ := r₅.trans r₆
  obtain ⟨u₇, r₇, hsame⟩ := errsum_runs (r₆.arrives h)
  exact ⟨u₇, r₆.trans r₇, by rw [hsame, hwf, r₇.keeps.carried.codec]⟩

/-! ### W0IDX to FIELDS: the classification -/

/-- What the frame's type promises: a decoded type has an entry of a legal harmonic count, an AMBE frame is never invalid, an
IMBE frame is voice or invalid (R68, R69, R129). -/
structure Classified (u : State) : Prop where
  wf : u.work.wf.length = frameBits u.codec
  entry : decodedType u.work.frameType → harmonicRange u.work.ff.harmonicCount
  ambe : u.codec = .ambe → u.work.frameType ≠ .invalid
  imbe : u.codec = .imbe → u.work.frameType = .voice ∨ u.work.frameType = .invalid

/-- Every IMBE entry is voice or invalid (R69, R129). -/
theorem ffFind_imbe_type {rom : Rom} (hl : rom.legal = true) {v : Int} {e : FFEntry MReal} (he : ffFind rom .imbe v = .ok e) :
    e.frameType = .voice ∨ e.frameType = .invalid := by
  by_cases hv : 0 ≤ v ∧ v ≤ 207
  · cases (ffFind_imbe_ok (rom_legal hl).imbe.ffLen hv).symm.trans he
    exact .inl rfl
  · cases (ffFind_imbe_sentinel hv).symm.trans he
    exact .inr rfl

theorem w0idx_runs (h : At Stage.w0idx u) (hwf : u.work.wf.length = frameBits u.codec) :
    ∃ v, Run 1 u (afterW0idx u.codec) v ∧ Classified v ∧ v.work.frameType = v.work.ff.frameType := by
  obtain ⟨hgood, hambe, -⟩ := w0Idx_good h.legal u.codec
  obtain ⟨i, hi, hlt, -⟩ := extractRom_good hgood hwf
  obtain ⟨ff, hff⟩ := ffFind_total h.legal u.codec i fun hc => by
    rw [hambe hc] at hlt
    omega
  obtain ⟨hentry, hvalid⟩ := ffFind_good h.legal hff
  refine ⟨_, .one ((step_w0idx h.noPoreset h.stage).trans (exec_w0idx_ok hi hff)),
    ⟨hwf, hentry, hvalid, fun hc => ?_⟩, rfl⟩
  exact ffFind_imbe_type h.legal (v := i) (hc ▸ hff)

theorem tonechk_runs (h : At Stage.tonechk u) (hc : u.codec = .ambe) (hu : Classified u)
    (htype : u.work.frameType = u.work.ff.frameType) : ∃ v, Run 1 u Stage.fields v ∧ Classified v := by
  have hwf : u.work.wf.length = 72 := by
    rw [hu.wf, hc]
    rfl
  obtain ⟨check, hcheck, -⟩ := extractRom_good (rom_legal h.legal).ambe.toneCheckIdx hwf
  obtain ⟨tone, htone, -⟩ := toneFor_ok h.legal hwf (toneClassify (decide (check = u.rom.ambe.toneCheckValue))
    u.work.ff.frameType (decide (u.rom.ambe.toneConflictErr ≤ u.work.eT.toNat))).1
  have hvalid := hu.ambe hc
  have hentry := hu.entry
  rw [htype] at hvalid hentry
  refine ⟨_, .one ((step_tonechk h.noPoreset h.stage).trans (exec_tonechk_ambe hc hcheck rfl htone)),
    ⟨hu.wf, fun hd => ?_, fun _ => toneClassify_ne_invalid hvalid, fun himbe => ?_⟩⟩
  · have hd : decodedType (toneClassify _ _ _).1 := hd
    exact hentry (decodedType_of_toneClassify hd ▸ hd)
  · cases hc.symm.trans himbe

/-- The stages that classify the frame: one on an IMBE machine, two on an AMBE machine (R255). -/
def classifySteps : Codec → Nat
  | .ambe => 2
  | .imbe => 1

theorem classify_runs (h : At Stage.w0idx u) (hwf : u.work.wf.length = frameBits u.codec) :
    ∃ v, Run (classifySteps u.codec) u Stage.fields v ∧ Classified v := by
  obtain ⟨v, r, hv, htype⟩ := w0idx_runs h hwf
  cases hc : u.codec with
  | imbe =>
    rw [hc] at r
    exact ⟨v, r, hv⟩
  | ambe =>
    rw [hc] at r
    obtain ⟨w, r', hw⟩ := tonechk_runs (r.arrives h) (r.keeps.carried.codec.trans hc) hv htype
    exact ⟨w, r.trans r', hw⟩

/-- The fields name entries of the tables that `GAIN`, `VOICING` and `RESID` read. -/
structure FieldsFit (u : State) : Prop where
  gainAmbe : u.codec = .ambe → u.work.fld.gainIdx < u.rom.ambe.dgain.length
  gainImbe : u.codec = .imbe → u.work.fld.gainIdx < u.rom.imbe.gainTable.length
  vuvAmbe : u.codec = .ambe → ∃ row, u.rom.ambe.vuv[u.work.fld.vuvIdx]? = some row ∧ row.length = 8
  vuvImbe : u.codec = .imbe →
    u.work.fld.vuv.length = u.rom.imbe.bandCount.getD (u.work.ff.harmonicCount - 9) 0
  hocAmbe : u.codec = .ambe → ∀ i, i < 4 → u.work.fld.hocIdx.getD i 0 < (u.rom.ambe.hoc.getD i []).length

/-- An index that a list of a legal ROM assembles lies inside a table with an entry for each value of the list. -/
theorem extractRom_inside {wf : Frame} {bits v n : Nat} {l : List Nat} (hg : GoodIdx bits l) (hlen : wf.length = bits)
    (htable : 2 ^ l.length ≤ n) (hv : extractRom wf l = .ok v) : v < n :=
  (extractRom_lt hg.max (hlen ▸ hg.inside) hv).trans_le htable

theorem frameFields_ambe {u : State} (hl : u.rom.legal = true) (hc : u.codec = .ambe) (hwf : u.work.wf.length = 72) :
    ∃ fld, frameFields u = .ok fld ∧ FieldsFit { u with work := { u.work with fld := fld } } := by
  have hgood := (rom_legal hl).ambe
  obtain ⟨fld, hfld, hvuv, hgain, -, -, hhoc⟩ := ambeFields_ok hgood hwf
  have himbe {p : Prop} (h : u.codec = .imbe) : p := by cases hc.symm.trans h
  have hidx : fld.vuvIdx < u.rom.ambe.vuv.length := extractRom_inside hgood.vuvIdx hwf hgood.vuv hvuv
  refine ⟨fld, by rw [frameFields, hc]; exact hfld, fun _ => extractRom_inside hgood.gainIdx hwf hgood.dgain hgain, himbe,
    fun _ => ⟨_, List.getElem?_eq_getElem hidx, hgood.vuvRow _ (List.getElem_mem hidx)⟩, himbe, fun _ i hi => ?_⟩
  have hmem : u.rom.ambe.hocIdx.getD i [] ∈ u.rom.ambe.hocIdx := by
    rw [List.getD_eq_getElem _ _ (by rw [hgood.hocIdxLen]; exact hi)]
    exact List.getElem_mem _
  exact extractRom_inside (hgood.hocIdx _ hmem).1 hwf (hgood.hoc i hi).1 (hhoc i hi)

/-- Under a legal ROM an IMBE layout has a gain index inside `GAIN_IMBE` and a field for each band (R275, R281). -/
theorem imbeFields_fit {rom : Rom} {m : ImbeRom} {wf : Frame} {l : Nat} {fld : Fields} (hgood : GoodImbe rom m)
    (hwf : wf.length = 144) (h : imbeFields m l wf = .ok fld) :
    fld.gainIdx < m.gainTable.length ∧ fld.vuv.length = m.bandCount.getD (l - 9) 0 := by
  simp only [imbeFields, except_bind_ok] at h
  obtain ⟨lay, hlay, gain, hgain, _, -, vuv, hvuv, _, -, h⟩ := h
  cases h
  obtain ⟨-, hlay⟩ := readFrom_ok.1 hlay
  obtain ⟨hlt, hlay⟩ := List.getElem?_eq_some_iff.1 hlay
  have hlayout := hgood.layout (l - 9) (hgood.fieldsLen ▸ hlt)
  rw [List.getD_eq_getElem _ _ hlt, hlay] at hlayout
  obtain ⟨hmax, hinside⟩ := hlayout.lists lay.gainIdx List.mem_cons_self
  exact ⟨(extractRom_lt hmax (hwf ▸ hinside) hgain).trans_le hlayout.gain, (extractAll_length hvuv).trans hlayout.vuv⟩

theorem frameFields_imbe {u : State} (hl : u.rom.legal = true) (hc : u.codec = .imbe) (hwf : u.work.wf.length = 144)
    (hrange : harmonicRange u.work.ff.harmonicCount) :
    ∃ fld, frameFields u = .ok fld ∧ FieldsFit { u with work := { u.work with fld := fld } } := by
  have hgood := (rom_legal hl).imbe
  obtain ⟨fld, -, hfld, -⟩ := imbeFields_ok hgood hwf hrange
  obtain ⟨hgain, hvuv⟩ := imbeFields_fit hgood hwf hfld
  have hambe {p : Prop} (h : u.codec = .ambe) : p := by cases hc.symm.trans h
  exact ⟨fld, by rw [frameFields, hc]; exact hfld, hambe, fun _ => hgain, hambe, fun _ => hvuv, hambe⟩

/-- A frame whose fields are read under a legal ROM has fields that fit. -/
theorem frameFields_fit (hl : u.rom.legal = true) (hu : Classified u)
    (hread : ¬(u.work.frameType = .tone ∨ (u.codec = .imbe ∧ u.work.frameType = .invalid))) :
    ∃ fld, frameFields u = .ok fld ∧ FieldsFit { u with work := { u.work with fld := fld } } := by
  have hwf := hu.wf
  obtain hc | hc : u.codec = .ambe ∨ u.codec = .imbe := by cases u.codec <;> simp
  · rw [hc] at hwf
    exact frameFields_ambe hl hc hwf
  · rw [hc] at hwf
    have hvoice := (hu.imbe hc).resolve_right fun hinvalid => hread (.inr ⟨hc, hinvalid⟩)
    exact frameFields_imbe hl hc hwf (hu.entry (.inl hvoice))

theorem fields_runs (h : At Stage.fields u) (hu : Classified u) :
    ∃ v, Run 1 u Stage.repeatchk v ∧ Classified v ∧ (decodedType v.work.frameType → FieldsFit v) := by
  have hstep := step_fields h.noPoreset h.stage
  by_cases hskip : u.work.frameType = .tone ∨ (u.codec = .imbe ∧ u.work.frameType = .invalid)
  · refine ⟨_, .one (hstep.trans (exec_fields_skips hskip)), { hu with }, fun hd => ?_⟩
    rcases hskip with ht | ⟨-, ht⟩ <;> rcases hd with hd | hd <;> cases ht.symm.trans hd
  · obtain ⟨fld, hfld, hfit⟩ := frameFields_fit h.legal hu hskip
    exact ⟨_, .one (hstep.trans (exec_fields_ok hskip hfld)), { hu with }, fun _ => { hfit with }⟩

/-! ### REPEATCHK to SMOOTH: the three paths (R256) -/

theorem repeatFrame_runs (h : At Stage.repeatFrame u) : ∃ v, Run 1 u Stage.noise v := by
  have hstep := step_repeatFrame h.noPoreset h.stage
  rcases Nat.lt_or_ge u.pmp.repeatCount 4 with hcount | hcount
  · exact ⟨_, .one (hstep.trans (congrArg _ (repeatStage_copies hcount)))⟩
  · exact ⟨_, .one (hstep.trans (congrArg _ (repeatStage_mutes hcount)))⟩

theorem toneset_runs (h : At Stage.toneset u) : ∃ v, Run 1 u Stage.noise v :=
  ⟨_, .one (step_toneset h.noPoreset h.stage)⟩

/-- What a frame that is decoded brings to `GAIN`, `VOICING` and `RESID`. -/
structure Decodable (u : State) : Prop where
  range : harmonicRange u.work.ff.harmonicCount
  fields : FieldsFit u

/-- `REPEATCHK` sends a frame to `REPEAT`, to `TONESET`, or to `MPNEW` with all that a decoded frame needs. -/
theorem repeatchk_runs (h : At Stage.repeatchk u) (hu : Classified u) (hfit : decodedType u.work.frameType → FieldsFit u) :
    ∃ v, Run 1 u Stage.repeatFrame v ∨ Run 1 u Stage.toneset v ∨ (Run 1 u Stage.mpnew v ∧ Decodable v) := by
  have hstep : step u = .next (repeatchkStage u) := step_repeatchk h.noPoreset h.stage
  have hrun {id : BitVec 6} (hid : (repeatchkStage u).stage = id) : Run 1 u id (repeatchkStage u) :=
    ⟨steps_one hstep, ⟨rfl, rfl, ⟨rfl, rfl⟩, ⟨rfl, rfl, rfl, rfl, rfl, rfl, rfl⟩⟩, hid⟩
  have hrange : 11 ≤ (repeatchkStage u).stage.toNat ∧ (repeatchkStage u).stage.toNat ≤ 13 := afterRepeatchk_range ..
  refine ⟨repeatchkStage u, ?_⟩
  obtain hid | hid | hid : (repeatchkStage u).stage.toNat = 11 ∨ (repeatchkStage u).stage.toNat = 12
      ∨ (repeatchkStage u).stage.toNat = 13 := by omega
  · exact .inl (hrun (stage_of hid))
  · exact .inr (.inl (hrun (stage_of hid)))
  · have hd := repeatchkStage_decoded hu.ambe hid
    exact .inr (.inr ⟨hrun (stage_of hid), hu.entry hd, { hfit hd with }⟩)

theorem mpnew_runs (h : At Stage.mpnew u) (hu : Decodable u) : ∃ v, Run 1 u Stage.gain v ∧ Decodable v :=
  ⟨_, .one (step_mpnew h.noPoreset h.stage), hu.range, { hu.fields with }⟩

theorem gain_runs (h : At Stage.gain u) (hu : Decodable u) : ∃ v, Run 1 u Stage.voicing v ∧ Decodable v := by
  have hstep := step_gain h.noPoreset h.stage
  cases hc : u.codec with
  | ambe =>
    have hread := readTable_lt (hu.fields.gainAmbe hc) (.int 0)
    exact ⟨_, .one (hstep.trans (exec_gain_ambe hc hread)), hu.range, { hu.fields with }⟩
  | imbe =>
    have hread := readTable_lt (hu.fields.gainImbe hc) (.int 0)
    exact ⟨_, .one (hstep.trans (exec_gain_imbe hc hread)), hu.range, { hu.fields with }⟩

theorem voicing_runs (h : At Stage.voicing u) (hu : Decodable u) {vs : List Bool} (hvs : voicingFlags u = .ok vs) :
    ∃ v, Run 1 u Stage.resid v ∧ Decodable v :=
  ⟨_, .one ((step_voicing h.noPoreset h.stage).trans (exec_voicing_ok hvs)), hu.range, { hu.fields with }⟩

theorem resid_runs (h : At Stage.resid u) (hu : Decodable u) : ∃ v, Run 1 u Stage.predict v := by
  obtain ⟨cs, hcs, -⟩ := allCoefs_legal h.legal hu.range fun hc i hi _ => hu.fields.hocAmbe hc i hi
  exact ⟨_, .one ((step_resid h.noPoreset h.stage).trans (exec_resid_ok h.legal hu.range hcs))⟩

/-- From `VOICING`, where its flags can be read, to `NOISE`. -/
theorem spectrum_runs (h : At Stage.voicing u) (hu : Decodable u) {vs : List Bool} (hvs : voicingFlags u = .ok vs) :
    ∃ v, Run 5 u Stage.noise v := by
  obtain ⟨u₁, r₁, hu₁⟩ := voicing_runs h hu hvs
  obtain ⟨u₂, r₂⟩ := resid_runs (r₁.arrives h) hu₁
  have h₂ := (r₁.trans r₂).arrives h
  have r₃ : Run 1 u₂ Stage.enhance (predictStage u₂) := .one (step_predict h₂.noPoreset h₂.stage)
  have h₃ := r₃.arrives h₂
  have r₄ : Run 1 (predictStage u₂) Stage.smooth (enhanceStage (predictStage u₂)) :=
    .one (step_enhance h₃.noPoreset h₃.stage)
  have h₄ := r₄.arrives h₃
  have r₅ : Run 1 _ Stage.noise (smoothStage (enhanceStage (predictStage u₂))) := .one (step_smooth h₄.noPoreset h₄.stage)
  exact ⟨_, (r₁.trans r₂).trans (r₃.trans (r₄.trans r₅))⟩

/-- A frame before `REPEATCHK` comes to `NOISE` in two steps, or to `VOICING` in three. -/
theorem decide_runs (h : At Stage.repeatchk u) (hu : Classified u) (hfit : decodedType u.work.frameType → FieldsFit u) :
    (∃ v, Run 2 u Stage.noise v) ∨ ∃ v, Run 3 u Stage.voicing v ∧ Decodable v := by
  obtain ⟨u₁, r | r | ⟨r, hu₁⟩⟩ := repeatchk_runs h hu hfit
  · obtain ⟨v, r'⟩ := repeatFrame_runs (r.arrives h)
    exact .inl ⟨v, r.trans r'⟩
  · obtain ⟨v, r'⟩ := toneset_runs (r.arrives h)
    exact .inl ⟨v, r.trans r'⟩
  · obtain ⟨u₂, r₂, hu₂⟩ := mpnew_runs (r.arrives h) hu₁
    have r₂ := r.trans r₂
    obtain ⟨v, r₃, hv⟩ := gain_runs (r₂.arrives h) hu₂
    exact .inr ⟨v, r₂.trans r₃, hv⟩

end stages

/-! ### From the DECODE command to the samples -/

/-- After `k` steps the machine is at rest, with the words `ws` waiting, its latch and gain as before, and shows 160 samples. -/
def EndsWithSamples (k : Nat) (s : State) (ws : List CodeWord) : Prop :=
  ∃ t xs, steps k s = .next t ∧ t.stage = Stage.idle ∧ t.port = ws ∧ SameLatch s t ∧ t.gain = s.gain
    ∧ t.result = .samples xs ∧ xs.length = 160

/-- From `NOISE` on every frame ends with samples (R256, R257). -/
theorem Run.samples {k : Nat} {u v : State} (h : u.poresetRequest = false) (r : Run k u Stage.noise v) :
    EndsWithSamples (k + 6) u u.port := by
  have hlast := stepsOver_synthesis (P := openParams) (r.keeps.request.trans h) r.stage
  rw [← steps_eq_stepsOver] at hlast
  exact ⟨_, _, steps_trans r.steps hlast, rfl, r.keeps.port, ⟨r.keeps.latch.fault, r.keeps.latch.info⟩, r.keeps.carried.gain,
    rfl, tab_length ..⟩

/-- The step that takes the DECODE comes first. -/
theorem EndsWithSamples.after {k : Nat} {s u : State} {ws : List CodeWord} (h : EndsWithSamples k u ws)
    (hstep : step s = .next u) (hlatch : SameLatch s u) (hgain : u.gain = s.gain) : EndsWithSamples (k + 1) s ws := by
  obtain ⟨t, xs, hsteps, hstage, hport, ⟨hfault, hinfo⟩, hg, hres, hlen⟩ := h
  exact ⟨t, xs, steps_succ hstep hsteps, hstage, hport, ⟨hfault.trans hlatch.fault, hinfo.trans hlatch.info⟩,
    hg.trans hgain, hres, hlen⟩

/-- The machine right after it has taken the DECODE. -/
def taken (s : State) (n : BitVec 16) (bytes : List Byte) (rest : List CodeWord) : State :=
  decodeCommandBody n bytes { s with result := .none, port := rest }

section decode
variable {s : State} {n : BitVec 16} {bytes : List Byte} {rest : List CodeWord} (hA : Accepting s)
  (hl : s.rom.legal = true) (hbytes : bytes.length = n.toNat) (hn : n.toNat = frameBytes s.codec)
  (hport : s.port = .byte 3 :: .count n :: (bytes.map .byte ++ rest))

include hA hl in
theorem taken_load : At Stage.load (taken s n bytes rest) := ⟨rfl, hA.noPoreset, hl⟩

include hA hbytes hport in
theorem step_taken : step s = .next (taken s n bytes rest) := by
  obtain ⟨u, hstep, rfl⟩ := step_decode s n bytes rest hA hbytes hport
  exact hstep

include hA hl hn in
/-- The steps a DECODE takes from `LOAD` to `NOISE` where it copies, mutes or is a tone, or else to `VOICING`. -/
theorem taken_runs :
    (∃ v, Run (classifySteps s.codec + 9) (taken s n bytes rest) Stage.noise v)
      ∨ ∃ v, Run (classifySteps s.codec + 10) (taken s n bytes rest) Stage.voicing v ∧ Decodable v := by
  have h := taken_load (n := n) (bytes := bytes) (rest := rest) hA hl
  obtain ⟨u₁, r₁, hwf⟩ := frame_runs h hn
  obtain ⟨u₂, r₂, hu₂⟩ := classify_runs (r₁.arrives h) hwf
  rw [r₁.keeps.carried.codec] at r₂
  have r₂ := r₁.trans r₂
  obtain ⟨u₃, r₃, hu₃, hfit⟩ := fields_runs (r₂.arrives h) hu₂
  have r₃ := r₂.trans r₃
  have hcount (k : Nat) : 6 + classifySteps s.codec + 1 + k = classifySteps s.codec + (7 + k) := by omega
  rcases decide_runs (r₃.arrives h) hu₃ hfit with ⟨v, r⟩ | ⟨v, r, hv⟩
  · exact .inl ⟨v, hcount 2 ▸ r₃.trans r⟩
  · exact .inr ⟨v, hcount 3 ▸ r₃.trans r, hv⟩

include hA hbytes hport in
theorem Run.taken_samples {k : Nat} {v : State} (r : Run k (taken s n bytes rest) Stage.noise v) :
    EndsWithSamples (k + 7) s rest := by
  have hend : EndsWithSamples (k + 6) (taken s n bytes rest) rest := r.samples hA.noPoreset
  exact hend.after (step_taken hA hbytes hport) ⟨rfl, rfl⟩ rfl

end decode

/-- Settles O19: no stage of an IMBE frame raises, since every band of a legal ROM exists. -/
theorem imbeDecodeYieldsSamples : Obligations.ImbeDecodeYieldsSamples := by
  intro s bytes rest hA hc hl hlen hport
  have hn : (18 : BitVec 16).toNat = frameBytes s.codec := by
    rw [hc]
    rfl
  suffices h : EndsWithSamples 17 s rest ∨ EndsWithSamples 23 s rest by
    rcases h with ⟨t, xs, h⟩ | ⟨t, xs, h⟩
    · exact ⟨17, t, xs, .inl rfl, h⟩
    · exact ⟨23, t, xs, .inr rfl, h⟩
  rcases taken_runs (bytes := bytes) (rest := rest) hA hl hn with ⟨v, r⟩ | ⟨v, r, hv⟩ <;> rw [hc] at r
  · exact .inl (r.taken_samples hA hlen hport)
  · have hat := r.arrives (taken_load hA hl)
    have himbe := r.keeps.carried.codec.trans hc
    obtain ⟨_, -, hvs⟩ := voicingFlags_imbe_ok himbe hat.legal hv.range (hv.fields.vuvImbe himbe)
    obtain ⟨w, r'⟩ := spectrum_runs hat hv hvs
    exact .inr ((r.trans r').taken_samples hA hlen hport)

/-! ### An AMBE frame: the bands of the harmonics -/

/-- The harmonic `l` of the frame has a band of the voicing vector (R155, R280). -/
def BandInside (u : State) (l : Nat) : Prop :=
  0 ≤ bandIndex (N := numerics) u.work.ff.frequency l ∧ bandIndex (N := numerics) u.work.ff.frequency l < 8

/-- Either every harmonic has a band, or there is a first one that has none. -/
theorem bands_inside_or_first_outside (u : State) : (∀ l, 1 ≤ l → l ≤ u.work.ff.harmonicCount → BandInside u l)
    ∨ ∃ l, 1 ≤ l ∧ l ≤ u.work.ff.harmonicCount ∧ ¬BandInside u l ∧ ∀ k, 1 ≤ k → k < l → BandInside u k := by
  classical
  by_cases h : ∃ l, 1 ≤ l ∧ l ≤ u.work.ff.harmonicCount ∧ ¬BandInside u l
  · obtain ⟨h1, hle, hout⟩ := Nat.find_spec h
    refine .inr ⟨Nat.find h, h1, hle, hout, fun k hk hlt => ?_⟩
    by_contra hk'
    exact Nat.find_min h hlt ⟨hk, hlt.le.trans hle, hk'⟩
  · push Not at h
    exact .inl h

/-- The halt of VOICING (R155, R168, R306). -/
theorem step_voicing_raises {u : State} {x : Raised} (h : At Stage.voicing u) (hvs : voicingFlags u = .error x) :
    step u = .next (u.raise x) := by
  rw [step_voicing h.noPoreset h.stage, execVoicing, voicingStage, hvs]
  rfl

/-- Settles O20: an AMBE frame raises in `VOICING` alone, at the first harmonic whose band is not one of the eight. -/
theorem ambeDecodeEnds : Obligations.AmbeDecodeEnds := by
  intro s bytes rest hA hc hl hlen hport
  have hn : (9 : BitVec 16).toNat = frameBytes s.codec := by
    rw [hc]
    rfl
  have hsamples : EndsWithSamples 18 s rest ∨ EndsWithSamples 24 s rest →
      ∃ k t xs, (k = 18 ∨ k = 24) ∧ steps k s = .next t ∧ t.stage = Stage.idle ∧ t.port = rest ∧ SameLatch s t
        ∧ t.gain = s.gain ∧ t.result = .samples xs ∧ xs.length = 160 := by
    rintro (⟨t, xs, h⟩ | ⟨t, xs, h⟩)
    · exact ⟨18, t, xs, .inl rfl, h⟩
    · exact ⟨24, t, xs, .inr rfl, h⟩
  rcases taken_runs (bytes := bytes) (rest := rest) hA hl hn with ⟨v, r⟩ | ⟨v, r, hv⟩ <;> rw [hc] at r
  · exact .inl (hsamples (.inl (r.taken_samples hA hlen hport)))
  · have hat := r.arrives (taken_load hA hl)
    have hambe := r.keeps.carried.codec.trans hc
    obtain ⟨row, hrow, hrowlen⟩ := hv.fields.vuvAmbe hambe
    rcases bands_inside_or_first_outside v with hbands | ⟨l, h1, hle, hout, hbefore⟩
    · obtain ⟨w, r'⟩ := spectrum_runs hat hv (voicingFlags_ambe_ok hambe hrow (by rwa [hrowlen]))
      exact .inl (hsamples (.inr ((r.trans r').taken_samples hA hlen hport)))
    · have hraise := voicingFlags_ambe_band hambe hrow h1 hle (by rwa [hrowlen]) (by rwa [hrowlen])
      have hstep := step_taken hA hlen hport
      have hcarried := r.keeps.carried
      exact .inr ⟨v, _, steps_succ hstep r.steps,
        steps_succ hstep (steps_trans r.steps (steps_one (step_voicing_raises hat hraise))), r.stage,
        ⟨l, h1, hle, hout, hbefore, rfl⟩, rfl, r.keeps.port, rfl, rfl,
        ⟨hcarried.pmp, hcarried.ss, hcarried.gain, hcarried.codec, hcarried.status, hcarried.tone, hcarried.rom⟩⟩

end Sys2Proof.Machine
end

section
/-! SUPPORT. Two runs side by side (R257, R52, R333): what two machines share at every step, which working registers the next
stages still read, and that each step keeps both. -/

namespace Sys2Proof.Machine

/-! ### What the two machines share -/

/-- The two machines agree on all that outlives a command and that a result can depend on. Their fault latches, `STATUS`, `TONE`
and working registers may differ; only whether they are halted must not. -/
structure Shared (s₁ s₂ : State) : Prop where
  noPoreset₁ : s₁.poresetRequest = false
  noPoreset₂ : s₂.poresetRequest = false
  halted : s₂.halted = s₁.halted
  stage : s₂.stage = s₁.stage
  codec : s₂.codec = s₁.codec
  rom : s₂.rom = s₁.rom
  gain : s₂.gain = s₁.gain
  pmp : s₂.pmp = s₁.pmp
  ss : s₂.ss = s₁.ss
  port : s₂.port = s₁.port
  result : s₂.result = s₁.result
  drawCtr : s₂.drawCtr = s₁.drawCtr
  freeCtr : s₂.freeCtr = s₁.freeCtr

/-- The error counts agree, as the stages read them (R127). -/
structure SameErrors (s₁ s₂ : State) : Prop where
  total : s₂.work.eT = s₁.work.eT
  count : s₂.errorAt = s₁.errorAt

/-- The error counts and the frame's classification agree. -/
structure SameClass (s₁ s₂ : State) : Prop extends SameErrors s₁ s₂ where
  ff : s₂.work.ff = s₁.work.ff
  frameType : s₂.work.frameType = s₁.work.frameType

/-- `FIELDS` reads nothing of such a frame (R134). -/
def SkipsFields (s : State) : Prop := s.work.frameType = .tone ∨ (s.codec = .imbe ∧ s.work.frameType = .invalid)

/-- The working registers that a stage or one after it reads before it is written agree. -/
inductive Live (s₁ s₂ : State) : BitVec 6 → Prop
  | idle : Live s₁ s₂ Stage.idle
  | load (inCount : s₂.work.inCount = s₁.work.inCount) (inBytes : s₂.work.inBytes = s₁.work.inBytes) : Live s₁ s₂ Stage.load
  | partition (fb : s₂.work.fb = s₁.work.fb) : Live s₁ s₂ Stage.partition
  | ecc0 (wf : s₂.work.wf = s₁.work.wf) : Live s₁ s₂ Stage.ecc0
  | derand (wf : s₂.work.wf = s₁.work.wf) (count0 : s₂.work.e.getD 0 0 = s₁.work.e.getD 0 0)
      (u0 : s₂.work.u0 = s₁.work.u0) : Live s₁ s₂ Stage.derand
  | eccn (wf : s₂.work.wf = s₁.work.wf) (count0 : s₂.work.e.getD 0 0 = s₁.work.e.getD 0 0) : Live s₁ s₂ Stage.eccn
  | errsum (wf : s₂.work.wf = s₁.work.wf) (count : s₂.errorAt = s₁.errorAt) : Live s₁ s₂ Stage.errsum
  | w0idx (wf : s₂.work.wf = s₁.work.wf) (err : SameErrors s₁ s₂) : Live s₁ s₂ Stage.w0idx
  | tonechk (wf : s₂.work.wf = s₁.work.wf) (cls : SameClass s₁ s₂) : Live s₁ s₂ Stage.tonechk
  | fields (wf : s₂.work.wf = s₁.work.wf) (cls : SameClass s₁ s₂) : Live s₁ s₂ Stage.fields
  | repeatchk (cls : SameClass s₁ s₂) (fld : ¬SkipsFields s₁ → s₂.work.fld = s₁.work.fld) : Live s₁ s₂ Stage.repeatchk
  | repeatFrame : Live s₁ s₂ Stage.repeatFrame
  | toneset (err : SameErrors s₁ s₂) : Live s₁ s₂ Stage.toneset
  | mpnew (cls : SameClass s₁ s₂) (fld : s₂.work.fld = s₁.work.fld) : Live s₁ s₂ Stage.mpnew
  | gain (cls : SameClass s₁ s₂) (fld : s₂.work.fld = s₁.work.fld) (cmp : s₂.work.cmp = s₁.work.cmp) : Live s₁ s₂ Stage.gain
  | voicing (cls : SameClass s₁ s₂) (fld : s₂.work.fld = s₁.work.fld) (cmp : s₂.work.cmp = s₁.work.cmp)
      (rg : s₂.work.rg = s₁.work.rg) : Live s₁ s₂ Stage.voicing
  | resid (cls : SameClass s₁ s₂) (fld : s₂.work.fld = s₁.work.fld) (cmp : s₂.work.cmp = s₁.work.cmp)
      (rg : s₂.work.rg = s₁.work.rg) : Live s₁ s₂ Stage.resid
  | predict (err : SameErrors s₁ s₂) (cmp : s₂.work.cmp = s₁.work.cmp) (tres : s₂.work.tres = s₁.work.tres) :
      Live s₁ s₂ Stage.predict
  | enhance (err : SameErrors s₁ s₂) (cmp : s₂.work.cmp = s₁.work.cmp) : Live s₁ s₂ Stage.enhance
  | smooth (err : SameErrors s₁ s₂) (cmp : s₂.work.cmp = s₁.work.cmp) : Live s₁ s₂ Stage.smooth
  | noise (cmp : s₂.work.cmp = s₁.work.cmp) : Live s₁ s₂ Stage.noise
  | unvoiced (cmp : s₂.work.cmp = s₁.work.cmp) : Live s₁ s₂ Stage.unvoiced
  | phase (cmp : s₂.work.cmp = s₁.work.cmp) (uw : s₂.work.uw = s₁.work.uw) (suv : s₂.work.suv = s₁.work.suv) :
      Live s₁ s₂ Stage.phase
  | voiced (cmp : s₂.work.cmp = s₁.work.cmp) (uw : s₂.work.uw = s₁.work.uw) (suv : s₂.work.suv = s₁.work.suv)
      (pv : s₂.work.pv = s₁.work.pv) (po : s₂.work.po = s₁.work.po) : Live s₁ s₂ Stage.voiced
  | combine (cmp : s₂.work.cmp = s₁.work.cmp) (uw : s₂.work.uw = s₁.work.uw) (suv : s₂.work.suv = s₁.work.suv)
      (pv : s₂.work.pv = s₁.work.pv) (po : s₂.work.po = s₁.work.po) (sv : s₂.work.sv = s₁.work.sv) : Live s₁ s₂ Stage.combine
  | commit (cmp : s₂.work.cmp = s₁.work.cmp) (uw : s₂.work.uw = s₁.work.uw) (pv : s₂.work.pv = s₁.work.pv)
      (po : s₂.work.po = s₁.work.po) (out : s₂.work.out = s₁.work.out) : Live s₁ s₂ Stage.commit

/-- The two machines will show the same results. -/
structure Alike (s₁ s₂ : State) : Prop where
  shared : Shared s₁ s₂
  live : Live s₁ s₂ s₁.stage

/-! ### Answers that agree -/

/-- Two answers raise the same exception, or give values that are related. -/
inductive Agree {α : Type} (rel : α → α → Prop) : Except Raised α → Except Raised α → Prop
  | ok {a b : α} (h : rel a b) : Agree rel (.ok a) (.ok b)
  | error (x : Raised) : Agree rel (.error x) (.error x)

theorem Agree.bind {α β : Type} {rel : α → α → Prop} {rel' : β → β → Prop} {x y : Except Raised α}
    {f g : α → Except Raised β} (h : Agree rel x y) (hfg : ∀ a b, rel a b → Agree rel' (f a) (g b)) :
    Agree rel' (x >>= f) (y >>= g) := by
  cases h with
  | ok h => exact hfg _ _ h
  | error x => exact .error x

theorem Agree.of_eq {α : Type} {x y : Except Raised α} (h : y = x) : Agree (fun a b => b = a) x y := by
  subst h
  cases y with
  | ok a => exact .ok rfl
  | error x => exact .error x

/-- Both read the same, and go on alike with what they read. -/
theorem Agree.bind_same {α β : Type} {rel : β → β → Prop} {x y : Except Raised α} {f g : α → Except Raised β} (h : y = x)
    (hfg : ∀ a, Agree rel (f a) (g a)) : Agree rel (x >>= f) (y >>= g) :=
  (Agree.of_eq h).bind fun a _ hb => hb ▸ hfg a

/-- Two steps answer alike. -/
inductive StepsAlike : Host.Outcome State Fault Refusal → Host.Outcome State Fault Refusal → Prop
  | next {t₁ t₂ : State} (h : Alike t₁ t₂) : StepsAlike (.next t₁) (.next t₂)
  | fault (f : Fault) : StepsAlike (.fault f) (.fault f)

/-- Two frames with their error counts: the frames agree, and the counts of the first `n` cosets. -/
def SameCounts (n : Nat) (a b : Frame × List (BitVec 8)) : Prop := b.1 = a.1 ∧ ∀ j, j < n → b.2.getD j 0 = a.2.getD j 0

theorem afterW0idx_cases (c : Codec) : afterW0idx c = Stage.tonechk ∨ afterW0idx c = Stage.fields := by
  cases c <;> simp [afterW0idx]

section stages
variable {s₁ s₂ : State} (h : Shared s₁ s₂)
include h

/-- The same exception leaves both alike (R306): both halt or neither does. -/
theorem Shared.raise (x : Raised) : Alike (s₁.raise x) (s₂.raise x) where
  shared :=
    { h with
      stage := rfl
      result := rfl
      halted := rfl
      freeCtr := by
        change (if x.cause.halts then s₂.freeCtr + 1 else s₂.freeCtr) = if x.cause.halts then s₁.freeCtr + 1 else s₁.freeCtr
        rw [h.freeCtr] }
  live := .idle

theorem Shared.settle {r₁ r₂ : Except Raised State} (hr : Agree Alike r₁ r₂) : StepsAlike (settle s₁ r₁) (settle s₂ r₂) := by
  cases hr with
  | ok ht => exact .next ht
  | error x => exact .next (h.raise x)

/-! ### LOAD to ERRSUM -/

theorem loadStage_agree (hcount : s₂.work.inCount = s₁.work.inCount) (hbytes : s₂.work.inBytes = s₁.work.inBytes) :
    Agree Alike (loadStage s₁) (loadStage s₂) := by
  unfold loadStage
  by_cases hlen : s₁.work.inCount.toNat = frameBytes s₁.codec
  · rw [if_pos hlen, if_pos (by rw [hcount, h.codec, hlen])]
    refine .ok ⟨{ h with stage := rfl }, .partition ?_⟩
    change loadBits _ = loadBits _
    rw [h.codec, hbytes]
  · rw [if_neg hlen, if_neg (by rwa [hcount, h.codec]), hcount]
    exact .error _

theorem partitionStage_agree (hfb : s₂.work.fb = s₁.work.fb) : Agree Alike (partitionStage s₁) (partitionStage s₂) :=
  .bind_same (by rw [h.rom, h.codec, hfb]) fun _ => .ok ⟨{ h with stage := rfl }, .ecc0 rfl⟩

theorem ecc0Stage_agree (hwf : s₂.work.wf = s₁.work.wf) : Agree Alike (ecc0Stage s₁) (ecc0Stage s₂) :=
  .bind_same (by rw [h.rom, h.codec]) fun _ => .bind_same (by rw [h.rom, hwf]) fun _ => .bind_same rfl fun _ =>
    .ok ⟨{ h with stage := rfl }, .derand rfl (by simp only [setArr_getD]; rfl) rfl⟩

theorem derandStage_agree (hwf : s₂.work.wf = s₁.work.wf) (hcount0 : s₂.work.e.getD 0 0 = s₁.work.e.getD 0 0)
    (hu0 : s₂.work.u0 = s₁.work.u0) : Agree Alike (derandStage s₁) (derandStage s₂) :=
  .bind_same (by rw [h.rom, h.codec, hu0]) fun _ => .bind_same (by rw [hwf]) fun _ =>
    .ok ⟨{ h with stage := rfl }, .eccn rfl hcount0⟩

omit h in
/-- The loop of R125 writes the counts from `i` on; where those below `i` agree, all do afterwards. -/
theorem correctCosets_agree (rom : Rom) : ∀ (cs : List Coset) (i : Nat) (f : Frame) (e₁ e₂ : List (BitVec 8)),
    (∀ j, j < i → e₂.getD j 0 = e₁.getD j 0) →
      Agree (SameCounts (i + cs.length)) (correctCosets rom cs i f e₁) (correctCosets rom cs i f e₂)
  | [], _, _, _, _, he => .ok ⟨rfl, he⟩
  | c :: cs, i, f, e₁, e₂, he => by
    simp only [correctCosets]
    cases eccCorrect (rom.code c.code) f c.off with
    | error x => exact .error x
    | ok r =>
      have he' (j : Nat) (hj : j < i + 1) : (setArr 7 0 e₂ i (BitVec.ofNat 8 r.2)).getD j 0
          = (setArr 7 0 e₁ i (BitVec.ofNat 8 r.2)).getD j 0 := by
        simp only [setArr_getD]
        by_cases hji : j = i
        · simp only [hji, if_true]
        · simp only [hji, he j (by omega)]
      have hrest := correctCosets_agree rom cs (i + 1) r.1 _ _ he'
      rwa [Nat.add_right_comm, Nat.add_assoc] at hrest

omit h in
theorem errorAt_agree (hn : s₂.ncoset = s₁.ncoset)
    (he : ∀ i, i < s₁.ncoset → s₂.work.e.getD i 0 = s₁.work.e.getD i 0) : s₂.errorAt = s₁.errorAt := by
  funext i
  unfold State.errorAt
  rw [hn]
  split
  · next hi => exact he i hi
  · rfl

theorem Shared.ncoset : s₂.ncoset = s₁.ncoset := by rw [State.ncoset, State.ncoset, h.rom, h.codec]

theorem eccnStage_agree (hwf : s₂.work.wf = s₁.work.wf) (hcount0 : s₂.work.e.getD 0 0 = s₁.work.e.getD 0 0) :
    Agree Alike (eccnStage s₁) (eccnStage s₂) := by
  refine .bind (rel := SameCounts (1 + (s₁.rom.cosets s₁.codec).tail.length)) ?_ fun a b ⟨hwf', he⟩ =>
    .ok ⟨{ h with stage := rfl }, .errsum hwf' (errorAt_agree h.ncoset fun i hi => he i ?_)⟩
  · rw [h.rom, h.codec, hwf]
    refine correctCosets_agree _ _ _ _ _ _ fun j hj => ?_
    obtain rfl : j = 0 := by omega
    exact hcount0
  · have hi : i < (s₁.rom.cosets s₁.codec).length := hi
    rw [List.length_tail]
    omega

theorem errsumStage_alike (hwf : s₂.work.wf = s₁.work.wf) (hcount : s₂.errorAt = s₁.errorAt) :
    Alike (errsumStage s₁) (errsumStage s₂) := by
  have htotal : (errsumStage s₂).work.eT = (errsumStage s₁).work.eT := by
    unfold errsumStage
    rw [h.ncoset, hcount]
  exact ⟨{ h with stage := rfl }, .w0idx hwf ⟨htotal, hcount⟩⟩

/-! ### W0IDX to FIELDS -/

theorem w0idxStage_agree (hwf : s₂.work.wf = s₁.work.wf) (he : SameErrors s₁ s₂) :
    Agree Alike (w0idxStage s₁) (w0idxStage s₂) := by
  refine .bind_same (by rw [hwf, h.rom, h.codec]) fun _ => .bind_same (by rw [h.rom, h.codec]) fun ff =>
    .ok ⟨{ h with stage := congrArg afterW0idx h.codec }, ?_⟩
  change Live _ _ (afterW0idx s₁.codec)
  rcases afterW0idx_cases s₁.codec with hid | hid <;> rw [hid]
  · exact .tonechk hwf ⟨⟨he.total, he.count⟩, rfl, rfl⟩
  · exact .fields hwf ⟨⟨he.total, he.count⟩, rfl, rfl⟩

/-- The payload of an invalid `TONE` may differ, the exceptions do not (R133). -/
theorem toneFor_agree (hwf : s₂.work.wf = s₁.work.wf) {ft₁ ft₂ : FrameType} (hft : ft₂ = ft₁) :
    Agree (fun _ _ => True) (toneFor s₁ ft₁) (toneFor s₂ ft₂) := by
  subst hft
  unfold toneFor
  split
  · rw [h.rom, hwf]
    cases toneRead s₁.rom.ambe s₁.work.wf with
    | ok tone => exact .ok trivial
    | error x => exact .error x
  · exact .ok trivial

theorem Shared.codec_eq {c₁ c₂ : Codec} (hc₁ : s₁.codec = c₁) (hc₂ : s₂.codec = c₂) : c₂ = c₁ :=
  (hc₂.symm.trans h.codec).trans hc₁

theorem tonechkStage_agree (hwf : s₂.work.wf = s₁.work.wf) (hcls : SameClass s₁ s₂) :
    Agree Alike (tonechkStage s₁) (tonechkStage s₂) := by
  have hverdict (v : Nat) : toneClassify (decide (v = s₂.rom.ambe.toneCheckValue)) s₂.work.ff.frameType
      (decide (s₂.rom.ambe.toneConflictErr ≤ s₂.work.eT.toNat)) = toneClassify (decide (v = s₁.rom.ambe.toneCheckValue))
      s₁.work.ff.frameType (decide (s₁.rom.ambe.toneConflictErr ≤ s₁.work.eT.toNat)) := by
    rw [h.rom, hcls.ff, hcls.total]
  unfold tonechkStage
  split <;> rename_i hc <;> split <;> rename_i hc'
  · exact .ok ⟨{ h with stage := rfl }, .fields hwf { hcls with }⟩
  · cases h.codec_eq hc hc'
  · cases h.codec_eq hc hc'
  · refine .bind_same (by rw [hwf, h.rom]) fun v => (toneFor_agree h hwf (congrArg Prod.fst (hverdict v))).bind fun _ _ _ => ?_
    exact .ok ⟨{ h with stage := rfl }, .fields hwf { hcls with frameType := congrArg Prod.fst (hverdict v) }⟩

omit h in
theorem fieldsStage_skips {s : State} (hs : SkipsFields s) : fieldsStage s = .ok { s with stage := Stage.repeatchk } :=
  if_pos hs

omit h in
theorem fieldsStage_reads {s : State} (hs : ¬SkipsFields s) : fieldsStage s =
    frameFields s >>= fun fld => .ok { s with stage := Stage.repeatchk, work := { s.work with fld := fld } } := if_neg hs

theorem fieldsStage_agree (hwf : s₂.work.wf = s₁.work.wf) (hcls : SameClass s₁ s₂) :
    Agree Alike (fieldsStage s₁) (fieldsStage s₂) := by
  have hskips : SkipsFields s₂ = SkipsFields s₁ := by rw [SkipsFields, SkipsFields, hcls.frameType, h.codec]
  by_cases hskip : SkipsFields s₁
  · rw [fieldsStage_skips hskip, fieldsStage_skips (hskips ▸ hskip)]
    exact .ok ⟨{ h with stage := rfl }, .repeatchk { hcls with } fun hread => absurd hskip hread⟩
  · have hfields : frameFields s₂ = frameFields s₁ := by
      rw [frameFields, frameFields, h.codec, h.rom, hwf, hcls.ff]
    rw [fieldsStage_reads hskip, fieldsStage_reads (hskips ▸ hskip)]
    exact .bind_same hfields fun _ => .ok ⟨{ h with stage := rfl }, .repeatchk { hcls with } fun _ => rfl⟩

/-! ### REPEATCHK to SMOOTH -/

omit h in
theorem errorCounts_agree (hcount : s₂.errorAt = s₁.errorAt) : s₂.errorCounts = s₁.errorCounts := by
  rw [State.errorCounts, State.errorCounts, hcount]

theorem repeatNow_agree (hcls : SameClass s₁ s₂) : s₂.repeatNow = s₁.repeatNow := by
  rw [State.repeatNow, State.repeatNow, h.codec, hcls.frameType, hcls.count, hcls.total, h.pmp]

omit h in
/-- A frame that is neither a tone nor repeated has had its fields read (R134, R145). -/
theorem not_skipsFields {s : State} (hrep : s.repeatNow = false) (ht : s.work.frameType ≠ .tone) : ¬SkipsFields s := by
  rintro (htone | ⟨hc, hinvalid⟩)
  · exact ht htone
  · exact (repeatCheck_false hrep).2 hc hinvalid

theorem repeatchkStage_alike (hcls : SameClass s₁ s₂) (hfld : ¬SkipsFields s₁ → s₂.work.fld = s₁.work.fld) :
    Alike (repeatchkStage s₁) (repeatchkStage s₂) := by
  have hstage : (repeatchkStage s₂).stage = (repeatchkStage s₁).stage := by
    rw [repeatchkStage, repeatchkStage, repeatNow_agree h hcls, hcls.frameType]
  refine ⟨{ h with stage := hstage }, ?_⟩
  change Live _ _ (afterRepeatchk s₁.repeatNow s₁.work.frameType)
  cases hrep : s₁.repeatNow with
  | true => exact .repeatFrame
  | false =>
    by_cases ht : s₁.work.frameType = .tone
    · rw [ht]
      exact .toneset ⟨hcls.total, hcls.count⟩
    · rw [afterRepeatchk, if_neg (by decide), if_neg ht]
      exact .mpnew { hcls with } (hfld (not_skipsFields hrep ht))

theorem repeatStage_alike : Alike (repeatStage s₁) (repeatStage s₂) := by
  unfold repeatStage
  by_cases hcount : muteRepeats ≤ s₁.pmp.repeatCount
  · rw [if_pos hcount, if_pos (by rwa [h.pmp])]
    exact ⟨{ h with stage := rfl }, .noise (by rw [h.rom, h.codec])⟩
  · rw [if_neg hcount, if_neg (by rwa [h.pmp])]
    exact ⟨{ h with stage := rfl }, .noise (by rw [h.pmp])⟩

theorem tonesetStage_alike (he : SameErrors s₁ s₂) : Alike (tonesetStage s₁) (tonesetStage s₂) := by
  have hcmp : (tonesetStage s₂).work.cmp = (tonesetStage s₁).work.cmp := by
    simp only [tonesetStage, h.rom, h.pmp, he.total, errorCounts_agree he.count]
  exact ⟨{ h with stage := rfl }, .noise hcmp⟩

theorem mpnewStage_alike (hcls : SameClass s₁ s₂) (hfld : s₂.work.fld = s₁.work.fld) :
    Alike (mpnewStage s₁) (mpnewStage s₂) := by
  have hcmp : (mpnewStage s₂).work.cmp = (mpnewStage s₁).work.cmp := by
    simp only [mpnewStage, h.codec, h.pmp, hcls.total, hcls.ff, hcls.frameType, errorCounts_agree hcls.count]
  exact ⟨{ h with stage := rfl }, .gain { hcls with } hfld hcmp⟩

theorem gainStage_agree (hcls : SameClass s₁ s₂) (hfld : s₂.work.fld = s₁.work.fld) (hcmp : s₂.work.cmp = s₁.work.cmp) :
    Agree Alike (gainStage s₁) (gainStage s₂) := by
  unfold gainStage
  split <;> rename_i hc <;> split <;> rename_i hc'
  · exact .bind_same (by rw [h.rom, hfld]) fun _ => .ok ⟨{ h with stage := rfl },
      .voicing { hcls with } hfld (by rw [hcmp]) (by rw [hcls.ff, hfld])⟩
  · cases h.codec_eq hc hc'
  · cases h.codec_eq hc hc'
  · exact .bind_same (by rw [h.rom, hfld]) fun _ => .ok ⟨{ h with stage := rfl },
      .voicing { hcls with } hfld (by rw [hcmp, h.pmp]) (by rw [hfld])⟩

theorem voicingFlags_agree (hcls : SameClass s₁ s₂) (hfld : s₂.work.fld = s₁.work.fld) :
    voicingFlags s₂ = voicingFlags s₁ := by
  rw [voicingFlags, voicingFlags, h.codec, h.rom, hfld, hcls.ff, hcls.frameType]

theorem voicingStage_agree (hcls : SameClass s₁ s₂) (hfld : s₂.work.fld = s₁.work.fld) (hcmp : s₂.work.cmp = s₁.work.cmp)
    (hrg : s₂.work.rg = s₁.work.rg) : Agree Alike (voicingStage s₁) (voicingStage s₂) :=
  .bind_same (voicingFlags_agree h hcls hfld) fun _ =>
    .ok ⟨{ h with stage := rfl }, .resid { hcls with } hfld (by rw [hcmp, hcls.ff]) hrg⟩

theorem blockCoefs_agree (hff : s₂.work.ff = s₁.work.ff) (hfld : s₂.work.fld = s₁.work.fld) (hrg : s₂.work.rg = s₁.work.rg)
    (i j : Nat) : blockCoefs s₂ i j = blockCoefs s₁ i j := by
  rw [blockCoefs, blockCoefs, h.codec, h.rom, hff, hfld, hrg]

theorem allCoefs_agree (hff : s₂.work.ff = s₁.work.ff) (hfld : s₂.work.fld = s₁.work.fld) (hrg : s₂.work.rg = s₁.work.rg) :
    ∀ (js : List Nat) (i : Nat), allCoefs s₂ i js = allCoefs s₁ i js
  | [], _ => rfl
  | j :: js, i => by
    rw [allCoefs, allCoefs, blockCoefs_agree h hff hfld hrg i j, allCoefs_agree hff hfld hrg js (i + 1)]

theorem residStage_agree (hcls : SameClass s₁ s₂) (hfld : s₂.work.fld = s₁.work.fld) (hcmp : s₂.work.cmp = s₁.work.cmp)
    (hrg : s₂.work.rg = s₁.work.rg) : Agree Alike (residStage s₁) (residStage s₂) := by
  unfold residStage
  rw [show njblock s₂.codec = njblock s₁.codec by rw [h.codec]]
  exact .bind_same (by rw [h.rom, h.codec, hcls.ff]) fun _ => .bind_same (allCoefs_agree h hcls.ff hfld hrg _ _) fun _ =>
    .ok ⟨{ h with stage := rfl }, .predict ⟨hcls.total, hcls.count⟩ hcmp rfl⟩

theorem predictStage_alike (he : SameErrors s₁ s₂) (hcmp : s₂.work.cmp = s₁.work.cmp) (htres : s₂.work.tres = s₁.work.tres) :
    Alike (predictStage s₁) (predictStage s₂) := by
  have hcmp' : (predictStage s₂).work.cmp = (predictStage s₁).work.cmp := by
    simp only [predictStage, h.codec, h.pmp, hcmp, htres]
  exact ⟨{ h with stage := rfl }, .enhance ⟨he.total, he.count⟩ hcmp'⟩

omit h in
/-- The weights that step 2 of `ENHANCE` leaves standing are no part of the parameters (R182, R183). -/
theorem enhanceParams_cmp (free : Nat → MReal) (energy : MReal) (old old' : List MReal) (p : ModelParams MReal) :
    (enhanceParams (N := numerics) free energy old p).cmp = (enhanceParams (N := numerics) free energy old' p).cmp := by
  simp only [enhanceParams]
  split <;> rfl

theorem enhanceStage_alike (he : SameErrors s₁ s₂) (hcmp : s₂.work.cmp = s₁.work.cmp) :
    Alike (enhanceStage s₁) (enhanceStage s₂) := by
  have hcmp' : (enhanceStage s₂).work.cmp = (enhanceStage s₁).work.cmp := by
    simp only [enhanceStage, h.freeCtr, h.pmp, hcmp]
    exact enhanceParams_cmp ..
  exact ⟨{ h with stage := rfl, freeCtr := congrArg (· + 1) h.freeCtr }, .smooth ⟨he.total, he.count⟩ hcmp'⟩

theorem smoothStage_alike (he : SameErrors s₁ s₂) (hcmp : s₂.work.cmp = s₁.work.cmp) :
    Alike (smoothStage s₁) (smoothStage s₂) := by
  have hcmp' : (smoothStage s₂).work.cmp = (smoothStage s₁).work.cmp := by
    simp only [smoothStage, h.codec, h.rom, h.pmp, he.total, he.count, hcmp]
  exact ⟨{ h with stage := rfl }, .noise hcmp'⟩

/-! ### NOISE to COMMIT -/

theorem noiseStage_alike (hcmp : s₂.work.cmp = s₁.work.cmp) : Alike (noiseStage s₁) (noiseStage s₂) := by
  have hss : (noiseStage s₂).ss = (noiseStage s₁).ss := by simp only [noiseStage, h.ss]
  exact ⟨{ h with stage := rfl, ss := hss }, .unvoiced hcmp⟩

theorem unvoicedStage_alike (hcmp : s₂.work.cmp = s₁.work.cmp) : Alike (unvoicedStage s₁) (unvoicedStage s₂) := by
  have huw : (unvoicedStage s₂).work.uw = (unvoicedStage s₁).work.uw := by
    simp only [unvoicedStage, h.rom, h.ss, h.freeCtr, hcmp]
  have hsuv : (unvoicedStage s₂).work.suv = (unvoicedStage s₁).work.suv := by
    simp only [unvoicedStage, h.rom, h.ss, h.freeCtr, hcmp]
  exact ⟨{ h with stage := rfl, freeCtr := congrArg (· + 1) h.freeCtr }, .phase hcmp huw hsuv⟩

theorem phaseStage_alike (hcmp : s₂.work.cmp = s₁.work.cmp) (huw : s₂.work.uw = s₁.work.uw)
    (hsuv : s₂.work.suv = s₁.work.suv) : Alike (phaseStage s₁) (phaseStage s₂) := by
  have hpv : (phaseStage s₂).work.pv = (phaseStage s₁).work.pv := by simp only [phaseStage, h.pmp, h.ss, hcmp]
  have hpo : (phaseStage s₂).work.po = (phaseStage s₁).work.po := by
    simp only [phaseStage, h.pmp, h.ss, h.drawCtr, hcmp]
  have hdraws : (phaseStage s₂).drawCtr = (phaseStage s₁).drawCtr := by simp only [phaseStage, h.pmp, h.drawCtr, hcmp]
  exact ⟨{ h with stage := rfl, drawCtr := hdraws }, .voiced hcmp huw hsuv hpv hpo⟩

theorem voicedStage_alike (hcmp : s₂.work.cmp = s₁.work.cmp) (huw : s₂.work.uw = s₁.work.uw)
    (hsuv : s₂.work.suv = s₁.work.suv) (hpv : s₂.work.pv = s₁.work.pv) (hpo : s₂.work.po = s₁.work.po) :
    Alike (voicedStage s₁) (voicedStage s₂) := by
  have hsv : (voicedStage s₂).work.sv = (voicedStage s₁).work.sv := by
    simp only [voicedStage, h.rom, h.pmp, h.ss, hcmp, hpo]
  exact ⟨{ h with stage := rfl }, .combine hcmp huw hsuv hpv hpo hsv⟩

theorem combineStage_alike (hcmp : s₂.work.cmp = s₁.work.cmp) (huw : s₂.work.uw = s₁.work.uw)
    (hsuv : s₂.work.suv = s₁.work.suv) (hpv : s₂.work.pv = s₁.work.pv) (hpo : s₂.work.po = s₁.work.po)
    (hsv : s₂.work.sv = s₁.work.sv) : Alike (combineStage s₁) (combineStage s₂) := by
  have hout : (combineStage s₂).work.out = (combineStage s₁).work.out := by
    simp only [combineStage, h.gain, h.rom, hsuv, hsv]
  exact ⟨{ h with stage := rfl }, .commit hcmp huw hpv hpo hout⟩

theorem commitStage_alike (hcmp : s₂.work.cmp = s₁.work.cmp) (huw : s₂.work.uw = s₁.work.uw)
    (hpv : s₂.work.pv = s₁.work.pv) (hpo : s₂.work.po = s₁.work.po) (hout : s₂.work.out = s₁.work.out) :
    Alike (commitStage s₁) (commitStage s₂) := by
  have hss : (commitStage s₂).ss = (commitStage s₁).ss := by simp only [commitStage, h.ss, hpv, hpo, huw]
  have hresult : (commitStage s₂).result = (commitStage s₁).result := by simp only [commitStage, hout]
  exact ⟨{ h with stage := rfl, pmp := hcmp, ss := hss, result := hresult, freeCtr := congrArg (· + 1) h.freeCtr }, .idle⟩

/-! ### One step -/

/-- A stage of a DECODE keeps the two machines alike. -/
theorem stage_alike (hl : Live s₁ s₂ s₁.stage) (hrun : s₁.stage ≠ Stage.idle) : StepsAlike (step s₁) (step s₂) := by
  have hp₁ := h.noPoreset₁
  have hp₂ := h.noPoreset₂
  generalize hid : s₁.stage = id at hl hrun
  have hid₂ := h.stage.trans hid
  cases hl with
  | idle => exact absurd rfl hrun
  | load hcount hbytes =>
    rw [step_load hp₁ hid, step_load hp₂ hid₂]
    exact h.settle (loadStage_agree h hcount hbytes)
  | partition hfb =>
    rw [step_partition hp₁ hid, step_partition hp₂ hid₂]
    exact h.settle (partitionStage_agree h hfb)
  | ecc0 hwf =>
    rw [step_ecc0 hp₁ hid, step_ecc0 hp₂ hid₂]
    exact h.settle (ecc0Stage_agree h hwf)
  | derand hwf hcount0 hu0 =>
    rw [step_derand hp₁ hid, step_derand hp₂ hid₂]
    exact h.settle (derandStage_agree h hwf hcount0 hu0)
  | eccn hwf hcount0 =>
    rw [step_eccn hp₁ hid, step_eccn hp₂ hid₂]
    exact h.settle (eccnStage_agree h hwf hcount0)
  | errsum hwf hcount =>
    rw [step_errsum hp₁ hid, step_errsum hp₂ hid₂]
    exact .next (errsumStage_alike h hwf hcount)
  | w0idx hwf he =>
    rw [step_w0idx hp₁ hid, step_w0idx hp₂ hid₂]
    exact h.settle (w0idxStage_agree h hwf he)
  | tonechk hwf hcls =>
    rw [step_tonechk hp₁ hid, step_tonechk hp₂ hid₂]
    exact h.settle (tonechkStage_agree h hwf hcls)
  | fields hwf hcls =>
    rw [step_fields hp₁ hid, step_fields hp₂ hid₂]
    exact h.settle (fieldsStage_agree h hwf hcls)
  | repeatchk hcls hfld =>
    rw [step_repeatchk hp₁ hid, step_repeatchk hp₂ hid₂]
    exact .next (repeatchkStage_alike h hcls hfld)
  | repeatFrame =>
    rw [step_repeatFrame hp₁ hid, step_repeatFrame hp₂ hid₂]
    exact .next (repeatStage_alike h)
  | toneset he =>
    rw [step_toneset hp₁ hid, step_toneset hp₂ hid₂]
    exact .next (tonesetStage_alike h he)
  | mpnew hcls hfld =>
    rw [step_mpnew hp₁ hid, step_mpnew hp₂ hid₂]
    exact .next (mpnewStage_alike h hcls hfld)
  | gain hcls hfld hcmp =>
    rw [step_gain hp₁ hid, step_gain hp₂ hid₂]
    exact h.settle (gainStage_agree h hcls hfld hcmp)
  | voicing hcls hfld hcmp hrg =>
    rw [step_voicing hp₁ hid, step_voicing hp₂ hid₂]
    exact h.settle (voicingStage_agree h hcls hfld hcmp hrg)
  | resid hcls hfld hcmp hrg =>
    rw [step_resid hp₁ hid, step_resid hp₂ hid₂]
    exact h.settle (residStage_agree h hcls hfld hcmp hrg)
  | predict he hcmp htres =>
    rw [step_predict hp₁ hid, step_predict hp₂ hid₂]
    exact .next (predictStage_alike h he hcmp htres)
  | enhance he hcmp =>
    rw [step_enhance hp₁ hid, step_enhance hp₂ hid₂]
    exact .next (enhanceStage_alike h he hcmp)
  | smooth he hcmp =>
    rw [step_smooth hp₁ hid, step_smooth hp₂ hid₂]
    exact .next (smoothStage_alike h he hcmp)
  | noise hcmp =>
    rw [step_noise hp₁ hid, step_noise hp₂ hid₂]
    exact .next (noiseStage_alike h hcmp)
  | unvoiced hcmp =>
    rw [step_unvoiced hp₁ hid, step_unvoiced hp₂ hid₂]
    exact .next (unvoicedStage_alike h hcmp)
  | phase hcmp huw hsuv =>
    rw [step_phase hp₁ hid, step_phase hp₂ hid₂]
    exact .next (phaseStage_alike h hcmp huw hsuv)
  | voiced hcmp huw hsuv hpv hpo =>
    rw [step_voiced hp₁ hid, step_voiced hp₂ hid₂]
    exact .next (voicedStage_alike h hcmp huw hsuv hpv hpo)
  | combine hcmp huw hsuv hpv hpo hsv =>
    rw [step_combine hp₁ hid, step_combine hp₂ hid₂]
    exact .next (combineStage_alike h hcmp huw hsuv hpv hpo hsv)
  | commit hcmp huw hpv hpo hout =>
    rw [step_commit hp₁ hid, step_commit hp₂ hid₂]
    exact .next (commitStage_alike h hcmp huw hpv hpo hout)

end stages

/-! ### One step at rest -/

theorem runFetched_rest {s : State} (hs : s.stage = Stage.idle) (i : Instr) (ws : List CodeWord) :
    runFetched exec s i (s.consume ws) = exec i { s with port := ws } := by
  rw [runFetched, State.consume_idle hs, if_neg (by simp [isPrimitiveStage, hs])]

theorem decodeOver_fetch_byte {s : State} {b : Byte} {ws : List CodeWord} (hs : s.stage = Stage.idle)
    (hport : s.port = .byte b :: ws) : decodeOver s.fetch = decodeCommand b ws := by
  rw [State.fetch, if_pos hs, hport]
  rfl

/-- Where no word waits the machine stays at rest (R322). -/
theorem step_idle_empty {s : State} (hp : s.poresetRequest = false) (hs : s.stage = Stage.idle) (hport : s.port = []) :
    step s = .next s := by
  have hfetch : decodeOver s.fetch = .ok .idle [] := by
    rw [State.fetch, if_pos hs, hport]
    rfl
  rw [step_idle hp hs, stepIdle, hport, hfetch, if_pos (by rfl)]
  change runFetched exec s .idle (s.consume []) = .next s
  rw [runFetched_rest hs, ← hport]
  rfl

section rest
variable {s₁ s₂ : State} (h : Shared s₁ s₂) (hs : s₁.stage = Stage.idle)
include h hs

theorem Shared.alike_at_rest : Alike s₁ s₂ := ⟨h, hs ▸ .idle⟩

theorem Shared.command {body₁ body₂ : State → Except Raised State}
    (hbody : Agree Alike (body₁ { s₁ with result := .none }) (body₂ { s₂ with result := .none })) :
    StepsAlike (command s₁ body₁) (command s₂ body₂) := by
  cases hh : s₁.halted with
  | true =>
    rw [command_halted hh, command_halted (h.halted.trans hh)]
    have hnone : Shared { s₁ with result := .none } { s₂ with result := .none } := { h with result := rfl }
    exact .next (hnone.alike_at_rest hs)
  | false =>
    rw [command_running hh, command_running (h.halted.trans hh)]
    exact h.settle hbody

/-- Each of the four commands keeps the two machines alike. -/
theorem exec_command_alike {i : Instr} (hi : IsCommand i) : StepsAlike (exec i s₁) (exec i s₂) := by
  obtain rfl | rfl | ⟨g, rfl⟩ | ⟨n, bytes, rfl⟩ := hi
  · rw [exec_name, exec_name]
    have hname : s₂.rom.nameStr s₂.codec = s₁.rom.nameStr s₁.codec := by rw [h.rom, h.codec]
    exact h.command hs (.ok ⟨{ h with result := congrArg CommandResult.name hname }, hs ▸ .idle⟩)
  · rw [exec_reset, exec_reset]
    have hdefault : s₂.rom.mpDefault s₂.codec = s₁.rom.mpDefault s₁.codec := by rw [h.rom, h.codec]
    exact h.command hs (.ok ⟨{ h with pmp := hdefault, ss := rfl, result := rfl }, hs ▸ .idle⟩)
  · rw [exec_setgain, exec_setgain]
    refine h.command hs ?_
    unfold setgainCommand
    split
    · exact .ok ⟨{ h with gain := rfl, result := rfl }, hs ▸ .idle⟩
    · exact .error _
  · rw [exec_decode, exec_decode]
    exact h.command hs (.ok ⟨{ h with stage := rfl, result := rfl }, .load rfl rfl⟩)

omit hs in
theorem Shared.withPort (ws : List CodeWord) : Shared { s₁ with port := ws } { s₂ with port := ws } := { h with port := rfl }

/-- A command word and what follows it on the port: a command runs, an illegal word is rejected, and an incomplete command waits
(R245, R61). -/
theorem decodeCommand_alike (b : Byte) (ws : List CodeWord) (hport : s₁.port = .byte b :: ws) :
    StepsAlike (step s₁) (step s₂) := by
  have hs₂ := h.stage.trans hs
  have hport₂ := h.port.trans hport
  have hcommand {i : Instr} (hi : IsCommand i) (rest : List CodeWord) :
      StepsAlike (runFetched exec s₁ i (s₁.consume rest)) (runFetched exec s₂ i (s₂.consume rest)) := by
    rw [runFetched_rest hs, runFetched_rest hs₂]
    exact exec_command_alike (h.withPort rest) hs hi
  rw [step_idle h.noPoreset₁ hs, step_idle h.noPoreset₂ hs₂, stepIdle, stepIdle, decodeOver_fetch_byte hs hport,
    decodeOver_fetch_byte hs₂ hport₂, hport, hport₂, if_pos (by rfl), if_pos (by rfl)]
  rcases decodeCommand_cases b ws with ⟨r, hc⟩ | ⟨r, hc⟩ | ⟨g, r, hc⟩ | ⟨n, bytes, r, hc⟩ | hc | hc | hc <;> rw [hc]
  · exact hcommand (.inl rfl) r
  · exact hcommand (.inr (.inl rfl)) r
  · exact hcommand (.inr (.inr (.inl ⟨g, rfl⟩))) r
  · exact hcommand (.inr (.inr (.inr ⟨n, bytes, rfl⟩))) r
  · exact .next (h.alike_at_rest hs)
  · exact .fault _
  · change StepsAlike (illegalCommand (s₁.consume ws) b) (illegalCommand (s₂.consume ws) b)
    rw [State.consume_idle hs, State.consume_idle hs₂]
    exact (h.withPort ws).command hs (.error _)

/-- At rest the two machines take the same command, or both wait (R245, R322). -/
theorem rest_alike : StepsAlike (step s₁) (step s₂) := by
  have hs₂ := h.stage.trans hs
  cases hb : portBegins s₁.port with
  | false =>
    rw [step_idle h.noPoreset₁ hs, step_idle h.noPoreset₂ hs₂, stepIdle, stepIdle, h.port, hb]
    exact .fault _
  | true =>
    cases hport : s₁.port with
    | nil =>
      rw [step_idle_empty h.noPoreset₁ hs hport, step_idle_empty h.noPoreset₂ hs₂ (h.port.trans hport)]
      exact .next (h.alike_at_rest hs)
    | cons w ws =>
      rw [hport] at hb
      cases w with
      | byte b => exact decodeCommand_alike h hs b ws hport
      | _ => cases hb

end rest

theorem step_alike {s₁ s₂ : State} (h : Alike s₁ s₂) : StepsAlike (step s₁) (step s₂) := by
  by_cases hs : s₁.stage = Stage.idle
  · exact rest_alike h.shared hs
  · exact stage_alike h.shared h.live hs

theorem steps_alike : ∀ {k : Nat} {s₁ s₂ t₁ : State}, Alike s₁ s₂ → steps k s₁ = .next t₁ →
    ∃ t₂, steps k s₂ = .next t₂ ∧ Alike t₁ t₂
  | 0, _, s₂, _, h, hk => by
    cases hk
    exact ⟨s₂, rfl, h⟩
  | k + 1, s₁, s₂, t₁, h, hk => by
    have hu := step_alike h
    rw [steps] at hk ⊢
    generalize step s₁ = o₁ at hk hu
    generalize step s₂ = o₂ at hu
    cases hu with
    | next hu => exact steps_alike hu hk
    | fault => cases hk

/-- Settles O21: two machines that accept commands and agree as stated are alike, which every step keeps. -/
theorem resultsDependOnCarriedStateOnly : Obligations.ResultsDependOnCarriedStateOnly := by
  intro k s₁ s₂ t₁ hA₁ hA₂ hcodec hrom hgain hpmp hss hport hresult hdraw hfree hk
  have hshared : Shared s₁ s₂ :=
    { noPoreset₁ := hA₁.noPoreset
      noPoreset₂ := hA₂.noPoreset
      halted := hA₂.running.trans hA₁.running.symm
      stage := hA₂.atRest.trans hA₁.atRest.symm
      codec := hcodec
      rom := hrom
      gain := hgain
      pmp := hpmp
      ss := hss
      port := hport
      result := hresult
      drawCtr := hdraw
      freeCtr := hfree }
  obtain ⟨t₂, hk₂, ht, -⟩ := steps_alike (hshared.alike_at_rest hA₁.atRest) hk
  exact ⟨t₂, hk₂, ht.stage, ht.result, ht.pmp, ht.ss, ht.gain, ht.port⟩

end Sys2Proof.Machine
end

section
/-! SUPPORT. The statements of 60_exceptions.md: what every instruction answers, said once over the instruction set (R302, R306);
which stages write carried state (R308); the rejections of a wrong length and of a gain (R301, R304); and the rest state (R322). -/

namespace Sys2Proof.Machine

/-! ### What an instruction answers (R302) -/

/-- An instruction settles an answer `r`: the exception `raisedBy` names, or a state with the latch of `s`. -/
inductive Answers (i : Instr) (s : State) : Prop
  | of (r : Except Raised State) (hexec : exec i s = settle s r) (hraised : raisedBy i s = errorOf r)
      (hlatch : ∀ u, r = .ok u → SameLatch s u) : Answers i s

/-- A meaning that raises nothing. -/
theorem Answers.silent {i : Instr} {s u : State} (hexec : exec i s = .next u) (hraised : raisedBy i s = none)
    (hlatch : SameLatch s u) : Answers i s :=
  .of (.ok u) hexec hraised fun _ hu => by cases hu; exact hlatch

/-- A stage that may raise writes `STAGE`, the working registers and the counter of `TONE`. -/
theorem SameLatch.of_stage {s u : State} {st : BitVec 6} {w : Work} {tc : Nat}
    (h : u = { s with stage := st, work := w, toneCtr := tc }) : SameLatch s u := by
  subst h
  exact ⟨rfl, rfl⟩

/-- A meaning that writes what its operation answers (R90 to R98, R106, R129). -/
theorem Answers.written {α : Type} {i : Instr} {s : State} {r : Except Raised α} {f : α → State}
    (hexec : exec i s = settle s (r.map f)) (hraised : raisedBy i s = errorOf r)
    (hlatch : ∀ a, SameLatch s (f a)) : Answers i s := by
  refine .of (r.map f) hexec ?_ fun u hu => ?_
  · rw [hraised]
    cases r <;> rfl
  · obtain ⟨a, -, rfl⟩ := except_map_ok.1 hu
    exact hlatch a

/-- A corrector's operation is the correction itself (R106). -/
theorem Answers.corrected {i : Instr} {s : State} {c : BlockCode} {sel : FrameSel} {o : Int}
    (hexec : exec i s = settle s (eccPrimitive c sel o s))
    (hraised : raisedBy i s = errorOf (eccCorrect c (frameOf s.work sel) o)) : Answers i s := by
  rw [eccPrimitive_eq] at hexec
  exact .written hexec hraised fun _ => ⟨rfl, rfl⟩

/-- A command, on a machine that is halted or not (R246). -/
theorem Answers.command {i : Instr} {s : State} {body : State → Except Raised State}
    (hexec : exec i s = command s body)
    (hraised : raisedBy i s = if s.halted then none else errorOf (body { s with result := .none }))
    (hlatch : ∀ u, body { s with result := .none } = .ok u → SameLatch s u) : Answers i s := by
  cases hh : s.halted with
  | true =>
    rw [hh, if_pos rfl] at hraised
    exact .silent (hexec.trans (command_halted hh body)) hraised ⟨rfl, rfl⟩
  | false =>
    rw [hh, if_neg Bool.false_ne_true] at hraised
    exact .of _ (hexec.trans (command_running hh body)) hraised hlatch

/-! `SETGAIN` by its test (R252, R304), which does not look at the result shown to the host. -/

section setgain
variable {s : State} {g : MReal}

theorem setgainCommand_legal (h : gainOk (N := numerics) g = true) : setgainCommand g s = .ok { s with gain := g } := if_pos h

theorem setgainCommand_illegal (h : gainOk (N := numerics) g = false) : setgainCommand g s = .error ⟨.badGain, 0⟩ :=
  if_neg (by simp [h])

theorem setgainCommand_ok {t : State} (h : setgainCommand g s = .ok t) : t = { s with gain := g } := by
  cases hg : gainOk (N := numerics) g with
  | true => exact (Except.ok.inj ((setgainCommand_legal hg).symm.trans h)).symm
  | false => cases (setgainCommand_illegal hg).symm.trans h

theorem errorOf_setgainCommand (r : CommandResult) :
    errorOf (setgainCommand g { s with result := r }) = errorOf (setgainCommand g s) := by
  cases hg : gainOk (N := numerics) g with
  | true => rw [setgainCommand_legal hg, setgainCommand_legal hg]; rfl
  | false => rw [setgainCommand_illegal hg, setgainCommand_illegal hg]

end setgain

theorem tonechkStage_latch {s t : State} (h : tonechkStage s = .ok t) : SameLatch s t := by
  cases hc : s.codec with
  | imbe =>
    rw [tonechkStage_imbe hc] at h
    cases h
    exact ⟨rfl, rfl⟩
  | ambe =>
    obtain ⟨_, _, -, -, h⟩ := tonechkStage_ambe hc h
    exact .of_stage h

/-- Every instruction has an answer. -/
theorem exec_answers (i : Instr) (s : State) : Answers i s := by
  cases i with
  | name => exact .command (exec_name s) (ite_self none).symm fun _ hu => by cases hu; exact ⟨rfl, rfl⟩
  | reset => exact .command (exec_reset s) (ite_self none).symm fun _ hu => by cases hu; exact ⟨rfl, rfl⟩
  | decode n bytes => exact .command (exec_decode n bytes s) (ite_self none).symm fun _ hu => by cases hu; exact ⟨rfl, rfl⟩
  | setgain g =>
    refine .command (exec_setgain g s) ?_ fun u hu => ?_
    · rw [errorOf_setgainCommand]
      rfl
    · rw [setgainCommand_ok hu]
      exact ⟨rfl, rfl⟩
  | load => exact .of _ rfl rfl fun u hu => .of_stage (loadStage_ok hu).2
  | partition => exact .of _ rfl rfl fun u hu => .of_stage (partitionStage_ok hu)
  | ecc0 => exact .of _ rfl rfl fun u hu => .of_stage (ecc0Stage_ok hu)
  | derand => exact .of _ rfl rfl fun u hu => .of_stage (derandStage_ok hu)
  | eccn => exact .of _ rfl rfl fun u hu => .of_stage (eccnStage_ok hu)
  | w0idx =>
    refine .of _ rfl rfl fun u hu => ?_
    obtain ⟨_, _, -, -, hu⟩ := w0idxStage_ok hu
    exact .of_stage hu
  | tonechk => exact .of _ rfl rfl fun u => tonechkStage_latch
  | fields => exact .of _ rfl rfl fun u hu => .of_stage (fieldsStage_ok hu)
  | gain => exact .of _ rfl rfl fun u hu => .of_stage (gainStage_ok hu)
  | voicing =>
    refine .of _ rfl rfl fun u hu => ?_
    obtain ⟨_, -, hu⟩ := voicingStage_ok hu
    exact .of_stage hu
  | resid => exact .of _ rfl rfl fun u hu => .of_stage (residStage_ok hu)
  | bfGet sel k => exact .written (exec_bfGet sel k s) rfl fun _ => ⟨rfl, rfl⟩
  | bfSet sel k => exact .written (exec_bfSet_or_bfClr true sel k s) rfl fun _ => ⟨rfl, rfl⟩
  | bfClr sel k => exact .written (exec_bfSet_or_bfClr false sel k s) rfl fun _ => ⟨rfl, rfl⟩
  | bfExtract sel idx => exact .written (exec_bfExtract sel idx s) rfl fun _ => ⟨rfl, rfl⟩
  | bfXor f g => exact .written (exec_bfXor f g s) rfl fun _ => ⟨rfl, rfl⟩
  | bfRot sel a m c => exact .written (exec_bfRot sel a m c s) rfl fun _ => ⟨rfl, rfl⟩
  | bfLoadHex chars => exact .written (exec_bfLoadHex chars s) rfl fun _ => ⟨rfl, rfl⟩
  | ffLookup c v => exact .written (exec_ffLookup c v s) rfl fun _ => ⟨rfl, rfl⟩
  | eccC24 | eccC23 | eccC15 => exact .corrected rfl rfl
  | repeatFrame => exact .silent (u := repeatStage s) rfl rfl ⟨repeatStage_fault s, repeatStage_faultInfo s⟩
  | noiseStep => exact .silent rfl rfl ⟨State.withRes_fault _ _, State.withRes_faultInfo _ _⟩
  | idle | errsum | repeatchk | toneset | mpnew | predict | enhance | smooth | noise | unvoiced | phase | voiced | combine
  | commit | bfLoad | idct | lcgStep | xformFwd | xformInv | ws => exact .silent rfl rfl ⟨rfl, rfl⟩

/-! ### What an exception leaves (R306) -/

theorem SameCarried.of_consume {s t : State} {ws : List CodeWord} (h : SameCarried (s.consume ws) t) : SameCarried s t where
  pmp := h.pmp.trans (s.consume_pmp ws)
  ss := h.ss.trans (s.consume_ss ws)
  gain := h.gain.trans (s.consume_gain ws)
  codec := h.codec.trans (s.consume_codec ws)
  status := h.status.trans (s.consume_status ws)
  tone := h.tone.trans (s.consume_tone ws)
  rom := h.rom.trans (s.consume_rom ws)

/-- What any exception leaves, whichever it is: the carried state, and on the latch a code of R302. -/
structure Excepted (s t : State) : Prop where
  carried : SameCarried s t
  stage : t.stage = Stage.idle
  result : t.result = .none
  low : 1 ≤ t.fault.toNat
  high : t.fault.toNat ≤ 6

theorem raise_excepted (s : State) (x : Raised) : Excepted s (s.raise x) :=
  ⟨⟨rfl, rfl, rfl, rfl, rfl, rfl, rfl⟩, rfl, rfl, (code_range x).1, (code_range x).2⟩

/-- An instruction keeps the latch or takes an exception. -/
theorem exec_latch_or_excepted {i : Instr} {s t : State} (h : exec i s = .next t) : SameLatch s t ∨ Excepted s t := by
  obtain ⟨r, hexec, hraised, hlatch⟩ := exec_answers i s
  rcases settle_next (hexec.symm.trans h) with ht | ⟨x, -, rfl⟩
  · exact .inl (hlatch t ht)
  · exact .inr (raise_excepted s x)

/-- The words that wait are no part of either. -/
theorem latch_or_excepted_of_words {s t : State} (port operands : List CodeWord)
    (h : SameLatch { s with port := port, operands := operands } t ∨ Excepted { s with port := port, operands := operands } t) :
    SameLatch s t ∨ Excepted s t :=
  h.imp (fun hl => { hl with }) fun he => { he with carried := { he.carried with } }

theorem step_idle_latch_or_excepted {s t : State} (hp : s.poresetRequest = false) (hs : s.stage = Stage.idle)
    (h : step s = .next t) : SameLatch s t ∨ Excepted s t := by
  rcases step_idle_next hp hs h with rfl | ⟨ws, h | h | ⟨g, h⟩ | ⟨n, bytes, h⟩ | ⟨cmd, h⟩⟩
  · exact .inl ⟨rfl, rfl⟩
  iterate 4 exact latch_or_excepted_of_words ws s.operands (exec_latch_or_excepted h)
  · rcases illegal_next h with rfl | ⟨x, rfl⟩
    · exact .inl ⟨rfl, rfl⟩
    · exact latch_or_excepted_of_words ws s.operands (.inr (raise_excepted _ x))

theorem StageEffect.latch_or_excepted {s t : State} (h : StageEffect s t) : SameLatch s t ∨ Excepted s t := by
  cases h with
  | work | noise | commit => exact .inl ⟨rfl, rfl⟩
  | raised _ x => exact .inr (raise_excepted s x)

/-- Of all steps only a `PORESET` clears the latch (R309). -/
theorem step_latch_or_excepted {s t : State} (hp : s.poresetRequest = false) (h : step s = .next t) :
    SameLatch s t ∨ Excepted s t := by
  by_cases hs : s.stage = Stage.idle
  · exact step_idle_latch_or_excepted hp hs h
  rcases step_stage_next hp hs h with ⟨h1, h25⟩ | ⟨-, -, i, ws, u, -, hu, rfl⟩ | ⟨-, -, rfl⟩
  · exact (stage_effect hp h1 h25 h).latch_or_excepted
  · rcases latch_or_excepted_of_words s.port ws (exec_latch_or_excepted hu) with hl | he
    · exact .inl { hl with }
    · exact .inr { he with carried := { he.carried with }, stage := rfl }
  · exact .inl ⟨rfl, rfl⟩

/-- The exception of an instruction is the one `raisedBy` names. -/
theorem exec_raises {i : Instr} {s : State} {x : Raised} (h : raisedBy i s = some x) :
    ∃ t, exec i s = .next t ∧ t.fault = x.cause.code ∧ t.faultInfo = BitVec.ofInt 16 x.info ∧ t.stage = Stage.idle
      ∧ t.result = .none ∧ SameCarried s t ∧ (x.cause.halts = false → t.work = s.work) := by
  obtain ⟨r, hexec, hraised, hlatch⟩ := exec_answers i s
  rw [hexec]
  exact settle_raises (errorOf_some.1 (hraised.symm.trans h))

/-- Where `raisedBy` names none the latch stays. -/
theorem exec_keeps_latch {i : Instr} {s t : State} (hnone : raisedBy i s = none) (h : exec i s = .next t) : SameLatch s t := by
  obtain ⟨r, hexec, hraised, hlatch⟩ := exec_answers i s
  obtain ⟨u, rfl⟩ := errorOf_none.1 (hraised.symm.trans hnone)
  cases hexec.symm.trans h
  exact hlatch u rfl

/-- A step that runs an instruction whose meaning rests `STAGE` answers what the meaning does, be it a primitive or not. -/
theorem step_of_exec_idle {s t : State} {i : Instr} {rest : List CodeWord} (hp : s.poresetRequest = false)
    (hb : s.stage = Stage.idle → portBegins s.port = true) (hd : decode s.fetch = .ok i rest)
    (ht : exec i (s.consume rest) = .next t) (hidle : t.stage = Stage.idle) : step s = .next t := by
  obtain ⟨hstage, hprimitive⟩ := stepRunsTheDecodedInstruction s i rest hp hb hd
  by_cases hlt : s.stage.toNat < 32
  · rw [hstage hlt, ht]
  · rw [hprimitive (Nat.not_lt.1 hlt) t ht, ← hidle]

/-- Settles O14, by the answer of every instruction. -/
theorem faultsLeaveTheCarriedState : Obligations.FaultsLeaveTheCarriedState := by
  refine ⟨fun i s x => exec_raises, fun i s t => exec_keeps_latch, fun s i rest x hp hb hd hx => ?_, fun s t hp h => ?_⟩
  · obtain ⟨t, ht, hfault, hinfo, hidle, hresult, hcarried, -⟩ := exec_raises hx
    exact ⟨t, step_of_exec_idle hp hb hd ht hidle, hfault, hinfo, hidle, hresult, hcarried.of_consume⟩
  · exact (step_latch_or_excepted hp h).imp_right fun he => ⟨he.carried, he.stage, he.result, he.low, he.high⟩

/-! ### Who writes carried state (R308) -/

/-- Of the stages only `NOISE` and `COMMIT` write carried state. -/
theorem StageEffect.carried {s t : State} (h : StageEffect s t) (hnoise : s.stage ≠ Stage.noise)
    (hcommit : s.stage ≠ Stage.commit) : SameCarried s t := by
  cases h with
  | work => exact ⟨rfl, rfl, rfl, rfl, rfl, rfl, rfl⟩
  | noise hs => exact absurd hs hnoise
  | commit hs => exact absurd hs hcommit
  | raised _ x => exact (raise_excepted s x).carried

/-- From `ENHANCE` on no stage raises (R257). -/
theorem StageEffect.latch {s t : State} (h : StageEffect s t) (h18 : 18 ≤ s.stage.toNat) : SameLatch s t := by
  cases h with
  | work | noise | commit => exact ⟨rfl, rfl⟩
  | raised h17 => omega

/-- Of the primitives only `NOISE.STEP` writes carried state (R200). -/
theorem PrimitiveEffect.carried {s t : State} {id : BitVec 6} (h : PrimitiveEffect s id t) (hid : id ≠ 46) :
    SameCarried s t := by
  cases h with
  | work => exact ⟨rfl, rfl, rfl, rfl, rfl, rfl, rfl⟩
  | noise h46 => exact absurd h46 hid
  | raised x => exact (raise_excepted s x).carried

/-- Settles O15, by the effects of the stages and of the primitives. -/
theorem onlyNoiseAndCommitWriteCarriedState : Obligations.OnlyNoiseAndCommitWriteCarriedState := by
  intro s t hp hs h
  refine ⟨fun hnoise hcommit h46 => ?_, fun hnoise => ?_, fun h18 h25 => ?_⟩
  · rcases step_stage_next hp hs h with ⟨h1, h25⟩ | ⟨h32, -, i, ws, u, hd, hu, rfl⟩ | ⟨-, -, rfl⟩
    · exact (stage_effect hp h1 h25 h).carried hnoise hcommit
    · exact { (primitive_next h32 hd hu).carried h46 with }
    · exact ⟨rfl, rfl, rfl, rfl, rfl, rfl, rfl⟩
  · cases (step_noise hp hnoise).symm.trans h
    exact ⟨⟨rfl, rfl, rfl, rfl, rfl, rfl, rfl⟩, rfl⟩
  · exact (stage_effect hp (by omega) h25 h).latch h18

/-! ### A wrong length (R301) -/

theorem loadStage_rejects {s : State} (h : s.work.inCount.toNat ≠ frameBytes s.codec) :
    loadStage s = .error ⟨.frameLength, s.work.inCount.toNat⟩ := if_neg h

theorem isHexDigit_of_hexDigit {c : Byte} {v : Nat} (h : hexDigit c = some v) : isHexDigit c := by
  simp only [hexDigit] at h
  split_ifs at h with h1 h2 h3
  · exact .inl h1
  · exact .inr (.inl h2)
  · exact .inr (.inr h3)

/-- A string that gives bytes has digits alone (R72). -/
theorem isHexDigit_of_hexBytes : ∀ {chars bytes : List Byte}, hexBytes chars = some bytes → ∀ c ∈ chars, isHexDigit c
  | [], _, _, _, hc => by cases hc
  | [_], _, h, _, _ => by cases h
  | hi :: lo :: rest, bytes, h, c, hc => by
    rw [hexBytes] at h
    split at h
    · next hhi hlo hrest =>
      rcases List.mem_cons.1 hc with rfl | hc
      · exact isHexDigit_of_hexDigit hhi
      rcases List.mem_cons.1 hc with rfl | hc
      · exact isHexDigit_of_hexDigit hlo
      · exact isHexDigit_of_hexBytes hrest c hc
    · cases h

theorem loadHex_rejects {codec : Codec} {chars : List Byte}
    (h : ¬(chars.length = 2 * frameBytes codec ∧ ∀ c ∈ chars, isHexDigit c)) :
    loadHex codec chars = .error ⟨.frameLength, chars.length⟩ := by
  have hnone : hexFrame (frameBytes codec) chars = none := by
    rw [hexFrame, Option.eq_none_iff_forall_ne_some]
    intro bytes hbytes
    split_ifs at hbytes with hlen
    exact h ⟨hlen, isHexDigit_of_hexBytes hbytes⟩
  rw [loadHex, hnone]

/-- `FrameLength` is a rejection: it changes the latch, `STAGE` and the result alone (R302, R306). -/
theorem raise_frameLength (s : State) (n : Nat) : s.raise ⟨.frameLength, n⟩
    = { s with fault := 1, faultInfo := BitVec.ofNat 16 n, stage := Stage.idle, result := .none } := by
  rw [State.raise, BitVec.ofInt_natCast]
  rfl

/-- Settles O18: the second step is `LOAD`, which rejects the count. -/
theorem wrongLengthIsRejected : Obligations.WrongLengthIsRejected := by
  refine ⟨fun s n bytes rest hA hlen hport hn => ?_, fun s chars h => ?_⟩
  · have hload : step (taken s n bytes rest) = .next ((taken s n bytes rest).raise ⟨.frameLength, n.toNat⟩) := by
      have hreq : (taken s n bytes rest).poresetRequest = false := hA.noPoreset
      have hcount : (taken s n bytes rest).work.inCount.toNat ≠ frameBytes (taken s n bytes rest).codec := hn
      rw [step_load hreq rfl, execLoad, loadStage_rejects hcount]
      rfl
    refine ⟨_, steps_succ (step_taken hA hlen hport) (steps_one hload), ?_⟩
    rw [raise_frameLength, BitVec.ofNat_toNat, BitVec.setWidth_eq, ← hA.atRest]
    rfl
  · rw [exec_bfLoadHex, loadHex_rejects h]
    exact congrArg Host.Outcome.next (raise_frameLength s chars.length)

/-! ### An illegal gain (R304) -/

/-- Settles O16: a gain is legal by `gainOk`, in the machine's numbers and over the reals. -/
theorem setgainTakesOnlyLegalGains : Obligations.SetgainTakesOnlyLegalGains := by
  refine ⟨fun s g hrunning => ?_, fun g => rfl, fun g => real_gainOk⟩
  change exec (.setgain g) s = .next (if gainOk (N := numerics) g then _ else _)
  rw [exec_setgain, command_running hrunning]
  cases hg : gainOk (N := numerics) g with
  | true => rw [setgainCommand_legal hg]; rfl
  | false => rw [setgainCommand_illegal hg]; rfl

/-! ### At rest (R245, R322) -/

/-- A command whose operand words are not all there waits (R245; log entry 18). -/
theorem step_idle_incomplete {s : State} {b : Byte} {ws : List CodeWord} (hp : s.poresetRequest = false)
    (hs : s.stage = Stage.idle) (hport : s.port = .byte b :: ws) (hd : decodeCommand b ws = .incomplete) :
    step s = .next s := by
  rw [step_idle hp hs, stepIdle, decodeOver_fetch_byte hs hport, hd, hport, if_pos (by rfl)]
  rfl

theorem getMany_short {R α : Type} (one : List (CodeWord R) → Got R α) (w : α → CodeWord R)
    (hone : ∀ a ws, one (w a :: ws) = .ok a ws) (hnil : one [] = .incomplete) :
    ∀ {n : Nat} {xs : List α}, xs.length < n → getMany one n (xs.map w) = .incomplete
  | n + 1, [], _ => by simp only [getMany, List.map_nil, hnil]
  | n + 1, x :: xs, h => by
    simp only [getMany, List.map_cons, hone, getMany_short one w hone hnil (Nat.lt_of_succ_lt_succ h), Got.map]

/-- Settles O6: no word, or the words of a command that is not complete. -/
theorem restingInstanceWaits : Obligations.RestingInstanceWaits := by
  intro s hp hs
  refine ⟨rfl, step_idle_empty hp hs, fun hport => step_idle_incomplete hp hs hport rfl,
    fun hport => step_idle_incomplete hp hs hport rfl, fun n bytes hlen hport => step_idle_incomplete hp hs hport ?_⟩
  change (getMany getByte n.toNat (bytes.map .byte)).andThen _ = .incomplete
  rw [getMany_short getByte .byte (fun _ _ => rfl) rfl hlen]
  rfl

end Sys2Proof.Machine
end

section
/-! SUPPORT. The statements of 70_reset_and_hazards.md: the reset values array by array (R331), what `PORESET` (R330) and the
`RESET` command (R332, R250) leave, and the invariant at power-on. -/

namespace Sys2Proof.Machine

/-! ### The reset values that are arrays (R331) -/

theorem zeroStatus_e : zeroStatus.e = List.replicate 7 0 := tab_const ..

theorem resetSynth_phaseV : (resetSynth : Synth MReal).phaseV = List.replicate 57 (.int 0) := tab_const ..

theorem resetSynth_phaseO : (resetSynth : Synth MReal).phaseO = List.replicate 57 (.int 0) := tab_const ..

theorem resetSynth_prevUw : (resetSynth : Synth MReal).prevUw = List.replicate 256 (.int 0) := tab_const ..

theorem resetSynth_noiseBuf : (resetSynth : Synth MReal).noiseBuf = List.replicate 256 0 := tab_const ..

/-! ### The two resets -/

/-- Settles O7: the step is `State.poreset`, which leaves `zeroStatus`, `resetTone` and `resetSynth`. -/
theorem poresetValues : Obligations.PoresetValues := fun s hp =>
  ⟨_, step_poreset hp,
    State.poreset_stage s, State.poreset_codec s, State.poreset_gain s, State.poreset_fault s, State.poreset_faultInfo s,
    rfl, rfl, rfl, rfl, rfl, rfl, zeroStatus_e, rfl, rfl,
    rfl,
    State.poreset_pmp s,
    resetSynth_phaseV, resetSynth_phaseO, resetSynth_prevUw, resetSynth_noiseBuf, rfl,
    State.poreset_rom s, State.poreset_port s, State.poreset_poresetRequest s⟩

/-- Settles O8: a running machine answers `resetCommand`, which leaves `zeroStatus`, no valid `TONE` and `resetSynth`. -/
theorem resetCommandValues : Obligations.ResetCommandValues := fun _ hrunning _ =>
  ⟨_, exec_reset_running hrunning,
    rfl, rfl, rfl, rfl, rfl, rfl, zeroStatus_e, rfl, rfl,
    resetCommand_tone_valid _,
    resetCommand_pmp _,
    resetSynth_phaseV, resetSynth_phaseO, resetSynth_prevUw, resetSynth_noiseBuf, rfl,
    rfl⟩

/-! ### The invariant at power-on -/

/-- Settles O11: power-on with a legal ROM meets the invariant, and the ROM of `State.reset` is legal (log entry 9). -/
theorem poresetMeetsTheInvariant : Obligations.PoresetMeetsTheInvariant :=
  ⟨fun c _ hlegal => powerOn_inv c hlegal, powerOn_inv .ambe Tests.resetRom_legal⟩

end Sys2Proof.Machine
end
